-- ==== Sys2Proof/Word.lean ====
section
/-! DEFINITION. Word types of the TC-432 and their plainest arithmetic. -/

namespace Sys2Proof

/-- One byte of a link, of a cell or of a layout (11: "Frame and Record Layouts"). -/
abbrev Byte := BitVec 8

/-- A two-byte field (tag, length). -/
abbrev Half := BitVec 16

/-- A four-byte field: a counter, a Time Base value, a sequence (R188, R164, R67). -/
abbrev Word := BitVec 32

/-- A 16-byte block or a 128-bit key of the cipher (04, 4.3). -/
abbrev Block := BitVec 128

/-- A node address, 0 to 255. -/
abbrev Node := BitVec 8

/-- A service level, 0 to 31. -/
abbrev Level := Fin 32

/-- A station port, 0 to 3. -/
abbrev PortNo := Fin 4

/-- A key slot, 0 or 1 (R66). -/
abbrev Slot := Fin 2

/-- A rule of the Classifier, 0 to 63 (R83). -/
abbrev RuleNo := Fin 64

/-- The number of a frame entry, 0 to 255 (R25). -/
abbrev EntryNo := Nat

/-- The number of a storage cell, 0 to 1023 (R25). -/
abbrev CellNo := Nat

/-- The same map over every element of a table of fixed size. -/
def mapTable {α β : Type} {n : Nat} (f : α → β) (t : Vector α n) : Vector β n :=
  ⟨⟨t.toList.map f⟩, by simp⟩

/-- The 32 levels in ascending order. -/
def allLevels : List Level :=
  [0, 1, 2, 3, 4, 5, 6, 7, 8, 9, 10, 11, 12, 13, 14, 15, 16, 17, 18, 19, 20, 21, 22, 23, 24, 25, 26, 27, 28,
    29, 30, 31]

/-- The four ports in ascending order. -/
def allPorts : List PortNo := [0, 1, 2, 3]

end Sys2Proof
end

