-- ==== Sys2Proof/Syntax.lean ====
section
/-! DEFINITION. The commands of the block: one constructor for each row of spec/opcode_table.json.

A management command's row is the Command Unit's own step: it takes the head of the Command FIFO (R142), or
tries the command in hand again, when that frame carries the row's code. Its tag and arguments are the bytes of
the frame (R187, R188), so the constructor carries none (log 4). The rows that stand for events on the pins and
links carry what the event brings. `corrupted` lists cells whose stored bytes the world has corrupted by the
time of the event (R34, log 7). -/

namespace Sys2Proof

/-- The six bytes of a station frame's header as received (R186). -/
structure StationHeader where
  /-- Byte 0, the destination node. -/
  dst : Node
  /-- Byte 1, the source node. -/
  src : Node
  /-- Byte 2, the class tag. -/
  cls : Byte
  /-- Byte 3: the payload type in bits 1–0, the rest disregarded. -/
  typ : Byte
  /-- Bytes 4–5, the payload length. -/
  len : Half
  deriving DecidableEq, Repr

/-- The commands, in the order of the table. -/
inductive Instr where
  /-- POWER_ON (R162). -/
  | powerOn
  /-- RESET_PIN_ASSERT (R162). -/
  | resetPinAssert
  /-- RESET_PIN_RELEASE (R162). -/
  | resetPinRelease
  /-- INIT_END (R163), with the value on the eight address straps. -/
  | initEnd (straps : Byte)
  /-- READ_RULES (R85). -/
  | readRules
  /-- WRITE_RULE (R84). -/
  | writeRule
  /-- READ_NODE_MAP (R92). -/
  | readNodeMap
  /-- WRITE_NODE_MAP (R91). -/
  | writeNodeMap
  /-- READ_LEVEL (R24). -/
  | readLevel
  /-- WRITE_LEVEL (R2). -/
  | writeLevel
  /-- FLUSH_LEVEL (R19). -/
  | flushLevel
  /-- READ_PORT (R119). -/
  | readPort
  /-- WRITE_PORT_CONFIG (R103). -/
  | writePortConfig
  /-- SET_PORT_MODE (R106). -/
  | setPortMode
  /-- LOAD_KEY (R69). -/
  | loadKey
  /-- ERASE_KEY (R72). -/
  | eraseKey
  /-- SELECT_SLOT (R73). -/
  | selectSlot
  /-- KEY_CHECK (R74). -/
  | keyCheck
  /-- READ_KEY_STATE (R75). -/
  | readKeyState
  /-- READ_STATUS (R156). -/
  | readStatus
  /-- SET_MODE (R166). -/
  | setMode
  /-- REFRESH (R172). -/
  | refresh
  /-- WRITE_SUPERVISION (R170). -/
  | writeSupervision
  /-- SET_TRUNK_CONFIG (R46). -/
  | setTrunkConfig
  /-- RESET_PART (R157). -/
  | resetPart
  /-- READ_RECORDS (R64). -/
  | readRecords
  /-- READ_FAULTS (R183). -/
  | readFaults
  /-- CLEAR_FAULTS (R178). -/
  | clearFaults
  /-- WRITE_NOTICE_CONFIG (R179). -/
  | writeNoticeConfig
  /-- CLEAR_COUNTERS (R154). -/
  | clearCounters
  /-- WRITE_ACCESS (R155). -/
  | writeAccess
  /-- MALFORMED_COMMAND (R143). -/
  | malformedCommand
  /-- WAITING_RESPONSE_BUILD (R153). -/
  | waitingResponseBuild
  /-- FRAGMENT_COMPLETION (R53). -/
  | fragmentCompletion (corrupted : List CellNo)
  /-- SPACING_DEADLINE_PASSES (R17) of one level. -/
  | spacingDeadlinePasses (level : Level) (corrupted : List CellNo)
  /-- EXPANSION_COMPLETES (R70) of one key slot. -/
  | expansionCompletes (slot : Slot)
  /-- TRUNK_LINE_DOWN (R57). -/
  | trunkLineDown
  /-- TRUNK_LINE_UP (R59). -/
  | trunkLineUp (corrupted : List CellNo)
  /-- FRAGMENT_RECEIVED (R122): every byte of the fragment, header, payload and CRC-32 (R185). -/
  | fragmentReceived (bytes : List Byte)
  /-- SUPERVISION_EXPIRY (R171). -/
  | supervisionExpiry
  /-- RECEIVE_LINE_ACTIVE (R107) on one port. -/
  | receiveLineActive (port : PortNo)
  /-- HEADER_RECEIVED (R107) on one port, with the header. -/
  | headerReceived (port : PortNo) (header : StationHeader)
  /-- EXCESS_PAYLOAD_BYTE (R111) on one port. -/
  | excessPayloadByte (port : PortNo)
  /-- RECEIVE_LINE_SILENT (R108) on one port, with the bytes that arrived after the header (R186, log 11). -/
  | receiveLineSilent (port : PortNo) (bytes : List Byte) (corrupted : List CellNo)
  /-- JABBER_TIMEOUT (R111) on one port. -/
  | jabberTimeout (port : PortNo)
  /-- JABBER_RECOVERY (R112) on one port. -/
  | jabberRecovery (port : PortNo)
  /-- SILENCE_TIMEOUT (R113) on one port. -/
  | silenceTimeout (port : PortNo)
  /-- PORT_LINE_DOWN (R104) on one port. -/
  | portLineDown (port : PortNo)
  /-- PORT_LINE_UP (R104) on one port. -/
  | portLineUp (port : PortNo)
  /-- TRANSMISSION_COMPLETES (R116) on one port. -/
  | transmissionCompletes (port : PortNo)
  /-- LOOPBACK_COMPLETION (R118) on one port. -/
  | loopbackCompletion (port : PortNo) (corrupted : List CellNo)
  /-- PORT_CELL_CHECK_FAILURE (R117) on one port, with the number of the failing cell. -/
  | portCellCheckFailure (port : PortNo) (cell : CellNo)
  /-- UNKNOWN_COMMAND (R144). -/
  | unknownCommand
  deriving DecidableEq, Repr

end Sys2Proof
end

