-- ==== Sys2Proof/Config.lean ====
section
/-! DEFINITION. What the part fixes (sizes, the times of its waits) and the values the manual leaves open. -/

namespace Sys2Proof.Config

/-- The block cipher E of the trunk protocol: "a keyed permutation of 16-byte blocks" that "this manual takes
as given" (04, 4.3). FREE VALUE: no body, so a claim holds for every keyed permutation (log 8). -/
opaque blockCipher : Block → Equiv.Perm Block

/-- R25: the number of frame entries. -/
def entryCount : Nat := 256

/-- R25: the number of storage cells. -/
def cellCount : Nat := 1024

/-- R25: the bytes of one cell. -/
def cellSize : Nat := 64

/-- R27: the bytes of internal header that stand before the payload in a frame's first cell. -/
def headerSize : Nat := 16

/-- R27: the largest payload of a frame. -/
def maxPayload : Nat := 496

/-- R32: the entries that traffic may not use. -/
def reservedEntries : Nat := 12

/-- R32: the cells that traffic may not use. -/
def reservedCells : Nat := 24

/-- R142: the cells a command's attempt asks for. -/
def attemptCells : Nat := 3

/-- R139: the places of the Command FIFO. -/
def fifoSize : Nat := 4

/-- R141: the most responses outstanding at once. -/
def maxOutstanding : Nat := 4

/-- R180: the most notices held on level 0. -/
def maxNotices : Nat := 8

/-- R63: the places of the Egress Record Log. -/
def logSize : Nat := 32

/-- R114: the places of a port egress queue. -/
def egressSize : Nat := 32

/-- R111: a receive line active for more than this many µs is jabber (2 ms). -/
def jabberTime : Nat := 2000

/-- R112: the silent interval of the recovery wait, in µs (100 ms). -/
def recoveryTime : Nat := 100000

/-- R70: an expansion completes within this many µs of the accepted LoadKey. -/
def expansionTime : Nat := 40

/-- R90, R165: the node that stands in for the self address when the straps gave 0 or 255. -/
def fallbackNode : Node := 254

end Sys2Proof.Config
end

