-- ==== Sys2Proof/Machine/State.lean ====
section
/-! DEFINITION. The state of the TC-432 as plain data, block by block, and the state after reset. -/

namespace Sys2Proof.Machine

open Sys2Proof

/-! ### Named values -/

/-- R161: the four modes. -/
inductive Mode where
  | init | setup | run | fallback
  deriving DecidableEq, Repr

/-- R161, R162: the cause of the reset that began the Init last ended. -/
inductive ResetCause where
  | powerOn | resetPin | resetCommand
  deriving DecidableEq, Repr

/-- R26: the payload types. -/
inductive PayloadType where
  | data | command | response | notice
  deriving DecidableEq, Repr

/-- R26: where a frame came from. -/
inductive Origin where
  | port (p : PortNo) | trunk | commandUnit | faultUnit
  deriving DecidableEq, Repr

/-- R139: where a command came from, and so where its response goes. -/
inductive Sender where
  | trunk | station (p : PortNo)
  deriving DecidableEq, Repr

/-- R90: what the Node Map says of a node. -/
inductive Disposition where
  | unassigned | trunk | port (p : PortNo) | self | broadcast
  deriving DecidableEq, Repr

/-- R44: the position of a fragment in its frame; `abort` is the Abort fragment. -/
inductive Position where
  | whole | first | middle | last | abort
  deriving DecidableEq, Repr

/-- R62: how a frame finished on the trunk. -/
inductive EgressOutcome where
  | sent | aborted
  deriving DecidableEq, Repr

/-- R83: what a rule or a port default decides. -/
inductive Action where
  | pass | drop
  deriving DecidableEq, Repr

/-- R102: the configured mode of a port. -/
inductive PortMode where
  | offline | listen | active | loopback
  deriving DecidableEq, Repr

/-- R104: the effective state of a port. -/
inductive PortState where
  | offline | isolated | down | listen | active | loopback
  deriving DecidableEq, Repr

/-- R6: the derived state of a level. -/
inductive LevelState where
  | sending | barred | eligible | spacing | keyless | held | ready | off
  deriving DecidableEq, Repr

/-- R145: an access code. -/
inductive Access where
  | none | read | full
  deriving DecidableEq, Repr

/-- The seven regions of commands (00, Terms; R145). -/
inductive Region where
  | rules | nodeMap | levels | ports | keys | mode | logs
  deriving DecidableEq, Repr

/-- R147: the status of a response. -/
inductive Status where
  | ok | denied | badIndex | badValue | wrongMode | busy | inUse | noKey | lineBusy | early | notRefreshed
  | unknownCommand
  deriving DecidableEq, Repr

/-- R175: the thirteen kinds of fault. -/
inductive FaultKind where
  | cellCheck | poolExhausted | commandOverrun | accessDenied | supervisionExpired | supervisionEarly
  | supervisionChange | portJabber | portSilent | trunkDown | reassemblyGap | cipherReject | sequenceExhausted
  deriving DecidableEq, Repr

/-! ### Frame Store (02) -/

/-- R26: one stored frame. -/
structure FrameEntry where
  origin : Origin
  src : Node
  dst : Node
  /-- Absent for every origin other than a station port. -/
  classTag : Option Byte
  ptype : PayloadType
  level : Level
  rule : Option RuleNo
  label : Byte
  record : Bool
  /-- Payload length, 1 to 496. -/
  len : Nat
  /-- Cell list, in order. -/
  cells : List CellNo
  /-- Holder count (R28). -/
  holders : Nat
  deriving DecidableEq, Repr

/-- Contents of the cells: byte o of cell c has address 64c + o. Addresses rise strictly, and no entry is 00,
which is what an unlisted address reads as (log 6). -/
abbrev Memory := List Host.Cell

/-- R25, R43: the Frame Store. -/
structure Store where
  /-- Entries in use, by rising entry number. -/
  entries : List (EntryNo × FrameEntry)
  /-- The free entry list; an allocation takes its head (log 5). -/
  freeEntries : List EntryNo
  /-- The free cell list; an allocation takes from its head (log 5). -/
  freeCells : List CellNo
  /-- The retired set (R38). -/
  retired : List CellNo
  mem : Memory
  /-- Cells whose stored bytes no longer agree with their check value (R34, log 7). -/
  corrupted : List CellNo
  allocRefusals : Word
  cellCheckFailures : Word
  framesLostToCheck : Word
  deriving DecidableEq, Repr

/-! ### Level Scheduler (01) -/

/-- R1: the configured attributes of a level. -/
structure Attrs where
  enable : Bool
  yields : Bool
  cipher : Bool
  record : Bool
  essential : Bool
  /-- 0 to 65535 µs. -/
  spacing : Nat
  /-- 1 to 16. -/
  trainMax : Nat
  /-- 0 to 255; 0 means bounded by the Frame Store alone. -/
  queueLimit : Nat
  deriving DecidableEq, Repr

/-- R4: the record a level keeps for its frame that has started on the trunk. -/
structure Context where
  entry : EntryNo
  /-- Next fragment index, which is also the number of fragments completed. -/
  next : Nat
  /-- Payload bytes sent so far. -/
  sent : Nat
  /-- The Time Base value at which the frame started. -/
  start : Word
  /-- Key slot and sequence, present only when the frame is enciphered. -/
  key : Option (Slot × Word)
  /-- Suspension count; stops at 255 (R62, log 19). -/
  suspensions : Nat
  deriving DecidableEq, Repr

/-- R51: what the transmitter keeps for a level that owes an Abort fragment. -/
structure AbortAddress where
  dst : Node
  src : Node
  ptype : PayloadType
  deriving DecidableEq, Repr

/-- R67: a transmit sequence. -/
inductive TxSequence where
  | seq (v : Word) | exhausted
  deriving DecidableEq, Repr

/-- R19: the tag and origin of the FlushLevel that waits. -/
structure FlushNote where
  tag : Half
  sender : Sender
  deriving DecidableEq, Repr

/-- R1, R4, R23: one entry of the level table. -/
structure LevelEntry where
  attrs : Attrs
  /-- Frame entries not started on the trunk, oldest first. -/
  queue : List EntryNo
  ctx : Option Context
  /-- AbortOwed is 1 when present; what it holds is R51's. -/
  abortOwed : Option AbortAddress
  /-- SpacingDeadline: the Time Base value at which it passes. -/
  deadline : Option Word
  trainCount : Nat
  flushPending : Option FlushNote
  /-- TxSequence per key slot. -/
  txSeq : Vector TxSequence 2
  framesSent : Word
  framesDropped : Word
  framesAborted : Word
  deriving DecidableEq, Repr

/-! ### Trunk Transmitter (03) -/

/-- R44: the fragment in flight, with the bytes put on the line (R48, R185). -/
structure Fragment where
  level : Level
  position : Position
  index : Nat
  /-- Fragment payload length. -/
  len : Nat
  bytes : List Byte
  deriving DecidableEq, Repr

/-- R62: one egress record. -/
structure EgressRecord where
  level : Level
  label : Byte
  port : Option PortNo
  rule : Option RuleNo
  dst : Node
  fragments : Nat
  suspensions : Nat
  start : Word
  finish : Word
  outcome : EgressOutcome
  deriving DecidableEq, Repr

/-- R44 to R46, R60, R63: the Trunk Transmitter and the Egress Record Log. -/
structure Trunk where
  /-- The trunk line state: true is Up. -/
  lineUp : Bool
  /-- 64, 128 or 256. -/
  fragSize : Nat
  inFlight : Option Fragment
  /-- The bytes of the last fragment completed (the MODEL's observation of the link, log 18). -/
  lastSent : List Byte
  log : List EgressRecord
  logOverflow : Bool
  fragmentsSent : Word
  payloadBytesSent : Word
  abortsSent : Word
  fragmentsLost : Word
  lineDowns : Word
  formingFailures : Word
  deriving DecidableEq, Repr

/-! ### Cipher Unit (04) -/

/-- R66: a key slot. `since` is the Time Base value of the accepted LoadKey (R70). -/
inductive KeySlot where
  | empty | expanding (key : Block) (since : Word) | ready (key : Block)
  deriving DecidableEq, Repr

/-- R66, R67, R75: the Cipher Unit. -/
structure Cipher where
  slots : Vector KeySlot 2
  active : Slot
  /-- LastAccepted[slot][level]. -/
  lastAccepted : Vector (Vector Word 32) 2
  rejects : Word
  deriving DecidableEq, Repr

/-! ### Classifier (05) -/

/-- R83: one rule. -/
structure Rule where
  valid : Bool
  portMask : BitVec 4
  srcLow : Node
  srcHigh : Node
  dstLow : Node
  dstHigh : Node
  clsValue : Byte
  clsMask : Byte
  lenMin : Nat
  lenMax : Nat
  action : Action
  level : Level
  label : Byte
  record : Bool
  hits : Word
  deriving DecidableEq, Repr

/-! ### Station Ports (06) -/

/-- R102: the configuration of a port. -/
structure PortConfig where
  mode : PortMode
  defaultAction : Action
  defaultLevel : Level
  sourceCheck : Bool
  commandsAllowed : Bool
  autoRecover : Bool
  /-- In units of 10 ms; 0 turns silence detection off. -/
  silenceTime : Nat
  deriving DecidableEq, Repr

/-- R107: the receive in progress. -/
inductive Receive where
  /-- No receive in progress. -/
  | idle
  /-- The line has gone active and the header is not complete. -/
  | header
  /-- The header is complete and storage was granted. -/
  | storing (entry : EntryNo) (hdr : StationHeader)
  /-- The allocation failed: the rest is taken in without storing it. -/
  | unstored
  deriving DecidableEq, Repr

/-- R116, R118: the frame in a port transmitter, and whether it was begun as a Loopback transmission (R105). -/
structure PortTx where
  entry : EntryNo
  loop : Bool
  deriving DecidableEq, Repr

/-- R102, R119: one station port. -/
structure Port where
  cfg : PortConfig
  latch : Bool
  silent : Bool
  /-- The link's line state: true is Up. -/
  lineUp : Bool
  /-- The receive line state: true is active. -/
  rxActive : Bool
  rx : Receive
  queue : List EntryNo
  tx : Option PortTx
  /-- Start of the jabber timing (R111): present while the line is active on an Active or Listen port. -/
  activeSince : Option Word
  /-- Start of the silence wait (R113), present while it runs. -/
  silenceStart : Option Word
  /-- Start of the recovery wait (R112), present while it runs. -/
  recoveryStart : Option Word
  /-- The bytes of the last whole frame sent on the link (the MODEL's observation, log 18). -/
  lastSent : List Byte
  rxFrames : Word
  rxErrors : Word
  drops : Word
  txFrames : Word
  txAborted : Word
  jabberEvents : Word
  deriving DecidableEq, Repr

/-! ### Trunk Receiver (07) -/

/-- R121: what a Collecting context records. -/
structure Collect where
  entry : EntryNo
  src : Node
  dst : Node
  ptype : PayloadType
  total : Nat
  expected : Nat
  received : Nat
  key : Option (Slot × Word)
  deriving DecidableEq, Repr

/-- R121: a reassembly context. -/
inductive Reassembly where
  | idle | collecting (c : Collect) | discarding
  deriving DecidableEq, Repr

/-- R120, R138: the Trunk Receiver. -/
structure Receiver where
  ctxs : Vector Reassembly 32
  fragmentsReceived : Word
  crcErrors : Word
  formatErrors : Word
  setupIgnored : Word
  strayFragments : Word
  reassemblyGaps : Word
  abortsReceived : Word
  partialsDiscarded : Word
  framesReceived : Word
  dispatchDrops : Word
  deriving DecidableEq, Repr

/-! ### Command Unit (08) -/

/-- R152: a long operation and the level or slot it works on. -/
inductive LongOp where
  | flushLevel (l : Level) | loadKey (k : Slot)
  deriving DecidableEq, Repr

/-- R139, R152: the record of a pending long operation or of a waiting response. `node` is the source node of
the command frame, which R148 needs for the response's destination (log 10). -/
structure LongRecord where
  op : LongOp
  tag : Half
  sender : Sender
  node : Node
  deriving DecidableEq, Repr

/-- R139: the Command Unit. -/
structure CommandUnit where
  fifo : List EntryNo
  inHand : Option EntryNo
  longOps : List LongRecord
  waiting : List LongRecord
  access : Vector Access 7
  /-- Freeings of an entry not yet answered by a retry (R142, R153, log 15). -/
  freed : Nat
  commandsTaken : Word
  commandOverruns : Word
  commandsDenied : Word
  responsesUnsent : Word
  malformedCommands : Word
  deriving DecidableEq, Repr

/-! ### Mode Controller and Fault Unit (09, 10) -/

/-- R161: the Mode Controller. StrapsUsable and the self address are computed from the strap value. -/
structure ModeController where
  mode : Mode
  cause : ResetCause
  straps : Byte
  /-- 0 to 65535 ms. -/
  period : Nat
  window : Bool
  refreshSeen : Bool
  mark : Option Word
  deriving DecidableEq, Repr

/-- R175: the optional fields of a fault. -/
structure FaultFields where
  level : Option Level := none
  port : Option PortNo := none
  node : Option Node := none
  rule : Option RuleNo := none
  cell : Option CellNo := none
  deriving DecidableEq, Repr

/-- R176: a fault as the capture record keeps it. -/
structure FaultReport where
  kind : FaultKind
  time : Word
  fields : FaultFields
  deriving DecidableEq, Repr

/-- A set of fault kinds, bit k for the kind of code k (R187). -/
abbrev KindSet := BitVec 16

/-- R176: the Fault Unit. Captured is 1 when the capture record is present. -/
structure FaultUnit where
  summary : KindSet
  captured : Option FaultReport
  noticeNode : Node
  noticeKinds : KindSet
  deriving DecidableEq, Repr

/-- The input pins (00, "What the part connects to"): the reset pin, the trunk's line status, and each
station link's line status and receive line. The address straps are read once, at INIT_END (R165). -/
structure Pins where
  resetAsserted : Bool
  trunkUp : Bool
  portUp : Vector Bool 4
  rxActive : Vector Bool 4
  deriving DecidableEq, Repr

/-- The whole part, and the queue of commands that wait. -/
structure State where
  pins : Pins
  ctl : ModeController
  /-- The Time Base (R164). -/
  now : Word
  store : Store
  levels : Vector LevelEntry 32
  trunk : Trunk
  cipher : Cipher
  rules : Vector Rule 64
  nodeMap : Vector Disposition 256
  ports : Vector Port 4
  rx : Receiver
  cmd : CommandUnit
  fault : FaultUnit
  /-- An auction trigger of R8 has occurred in the step under way (log 9). -/
  auctionDue : Bool
  /-- The commands that wait, first in, first out (log 1). -/
  pending : List Instr
  deriving DecidableEq, Repr

/-- Why the machine stops. -/
inductive Fault where
  /-- Raised by PORT_CELL_CHECK_FAILURE when it names a cell that does not exist (R25: the cells are numbered
  0 to 1023). Safe: no such event comes to the part (log 22). -/
  | noSuchCell
  deriving DecidableEq, Repr

/-- Why a command has no meaning. -/
inductive Refusal where
  /-- Answered by exec for a command not modelled yet; no arm answers it. Safe: the run stops. -/
  | notModelled (mnemonic : String)
  deriving DecidableEq, Repr

/-! ### Reset values -/

/-- R1: the reset attributes of a traffic level. -/
def Attrs.traffic : Attrs :=
  { enable := false, yields := true, cipher := false, record := false, essential := false, spacing := 0,
    trainMax := 1, queueLimit := 16 }

/-- R1: the built-in attributes of levels 0 and 1, which differ in QueueLimit alone. -/
def Attrs.builtIn (queueLimit : Nat) : Attrs :=
  { enable := true, yields := false, cipher := false, record := false, essential := true, spacing := 0,
    trainMax := 1, queueLimit := queueLimit }

/-- R4, R23: a level entry after reset, with its attributes. -/
def LevelEntry.blank (a : Attrs) : LevelEntry :=
  { attrs := a, queue := [], ctx := none, abortOwed := none, deadline := none, trainCount := 0,
    flushPending := none, txSeq := Vector.replicate 2 (.seq 1), framesSent := 0, framesDropped := 0,
    framesAborted := 0 }

/-- R1, R4: the level table after reset. -/
def levelsAtReset : Vector LevelEntry 32 :=
  ((Vector.replicate 32 (LevelEntry.blank .traffic)).set 0 (LevelEntry.blank (.builtIn 8))).set 1
    (LevelEntry.blank (.builtIn 4))

/-- R25, R43: the Frame Store after reset. -/
def Store.blank : Store :=
  { entries := [], freeEntries := List.range Config.entryCount, freeCells := List.range Config.cellCount,
    retired := [], mem := [], corrupted := [], allocRefusals := 0, cellCheckFailures := 0,
    framesLostToCheck := 0 }

/-- R44 to R46, R60, R63: the Trunk Transmitter after reset, with the line state it finds. -/
def Trunk.blank (lineUp : Bool) : Trunk :=
  { lineUp := lineUp, fragSize := 128, inFlight := none, lastSent := [], log := [], logOverflow := false,
    fragmentsSent := 0, payloadBytesSent := 0, abortsSent := 0, fragmentsLost := 0, lineDowns := 0,
    formingFailures := 0 }

/-- R66, R67, R75: the Cipher Unit after reset. -/
def Cipher.blank : Cipher :=
  { slots := Vector.replicate 2 .empty, active := 0,
    lastAccepted := Vector.replicate 2 (Vector.replicate 32 0), rejects := 0 }

/-- R83: a rule after reset. -/
def Rule.blank : Rule :=
  { valid := false, portMask := 0, srcLow := 0, srcHigh := 255, dstLow := 0, dstHigh := 255, clsValue := 0,
    clsMask := 0, lenMin := 1, lenMax := 496, action := .drop, level := 31, label := 0, record := false,
    hits := 0 }

/-- R161, R165: the self address that a strap value gives. -/
def selfAddress (straps : Byte) : Node :=
  if straps = 0 ∨ straps = 255 then Config.fallbackNode else straps

/-- R90: the Node Map after reset. -/
def nodeMapAtReset (straps : Byte) : Vector Disposition 256 :=
  ((Vector.replicate 256 Disposition.unassigned).set 255 .broadcast).set (selfAddress straps).toNat .self
    (selfAddress straps).isLt

/-- R102: the configuration of a port after reset. -/
def PortConfig.blank : PortConfig :=
  { mode := .offline, defaultAction := .drop, defaultLevel := 31, sourceCheck := true,
    commandsAllowed := false, autoRecover := true, silenceTime := 0 }

/-- R102, R119: a port after reset, with the line states it finds. -/
def Port.blank (lineUp rxActive : Bool) : Port :=
  { cfg := .blank, latch := false, silent := false, lineUp := lineUp, rxActive := rxActive, rx := .idle,
    queue := [], tx := none, activeSince := none, silenceStart := none, recoveryStart := none, lastSent := [],
    rxFrames := 0, rxErrors := 0, drops := 0, txFrames := 0, txAborted := 0, jabberEvents := 0 }

/-- The four ports after reset, with the line states on the pins (R102). -/
def portsAtReset (pins : Pins) : Vector Port 4 :=
  ((((Vector.replicate 4 (Port.blank pins.portUp[0] pins.rxActive[0])).set 1
    (Port.blank pins.portUp[1] pins.rxActive[1])).set 2
    (Port.blank pins.portUp[2] pins.rxActive[2])).set 3
    (Port.blank pins.portUp[3] pins.rxActive[3]))

/-- R120, R138: the Trunk Receiver after reset. -/
def Receiver.blank : Receiver :=
  { ctxs := Vector.replicate 32 .idle, fragmentsReceived := 0, crcErrors := 0, formatErrors := 0,
    setupIgnored := 0, strayFragments := 0, reassemblyGaps := 0, abortsReceived := 0, partialsDiscarded := 0,
    framesReceived := 0, dispatchDrops := 0 }

/-- R139: the Command Unit after reset. -/
def CommandUnit.blank : CommandUnit :=
  { fifo := [], inHand := none, longOps := [], waiting := [], access := Vector.replicate 7 .none, freed := 0,
    commandsTaken := 0, commandOverruns := 0, commandsDenied := 0, responsesUnsent := 0,
    malformedCommands := 0 }

/-- R176: the Fault Unit after reset; the notice kinds are all thirteen. -/
def FaultUnit.blank : FaultUnit :=
  { summary := 0, captured := none, noticeNode := 0, noticeKinds := 0x1FFF }

/-- Every block at its reset values, in a given mode, for a given cause and the pins as they stand (R163).
INIT_END gives mode Setup with the straps just read; a reset taken gives mode Init, in which nothing of this can
be seen until INIT_END (log 17). -/
def State.blank (mode : Mode) (cause : ResetCause) (straps : Byte) (pins : Pins) (pending : List Instr) :
    State :=
  { pins := pins
    ctl := { mode := mode, cause := cause, straps := straps, period := 0, window := false,
             refreshSeen := false, mark := none }
    now := 0
    store := .blank
    levels := levelsAtReset
    trunk := .blank pins.trunkUp
    cipher := .blank
    rules := Vector.replicate 64 .blank
    nodeMap := nodeMapAtReset straps
    ports := portsAtReset pins
    rx := .blank
    cmd := .blank
    fault := .blank
    auctionDue := false
    pending := pending }

/-- The pins at reset: DESIGN CHOICE, the spec gives none (log 3). -/
def Pins.atReset : Pins :=
  { resetAsserted := false, trunkUp := false, portUp := Vector.replicate 4 false,
    rxActive := Vector.replicate 4 false }

/-- The part right after a power-on reset: Init has ended and the mode is Setup (R163). The strap value 1 and
the pins are DESIGN CHOICE, the spec gives none (log 3). -/
def State.reset : State := State.blank .setup .powerOn 1 Pins.atReset []

end Sys2Proof.Machine
end

