-- ==== Sys2Proof/Machine/Ops.lean ====
section
/-! DEFINITION. The named operations over the tables, the counters, the cells and the Frame Store. -/

namespace Sys2Proof.Machine

open Sys2Proof

/-! ### Counters (00, Conventions) -/

/-- A counter stops at its largest value. -/
def bump (c : Word) : Word := if c = BitVec.allOnes 32 then c else c + 1

/-- A counter raised by more than one stops at its largest value. -/
def bumpBy (c : Word) (n : Nat) : Word :=
  if 2 ^ 32 - 1 ≤ c.toNat + n then BitVec.allOnes 32 else BitVec.ofNat 32 (c.toNat + n)

/-! ### Time (R164) -/

/-- Microseconds from one Time Base value to a later one, across a wrap. -/
def elapsed (start now : Word) : Nat := (now - start).toNat

/-- The Time Base value a number of microseconds after another, across a wrap. -/
def after (start : Word) (us : Nat) : Word := start + BitVec.ofNat 32 us

/-! ### Cell contents -/

/-- The byte at an address; an unlisted address reads as 00 (log 6). -/
def Memory.read : Memory → Nat → Byte
  | [], _ => 0
  | (b, v) :: t, a => if a = b then v else Memory.read t a

/-- Write one byte, keeping the canonical form: writing 00 removes the entry. -/
def Memory.write : Memory → Nat → Byte → Memory
  | [], a, v => if v = 0 then [] else [(a, v)]
  | (b, w) :: t, a, v =>
    if a < b then (if v = 0 then (b, w) :: t else (a, v) :: (b, w) :: t)
    else if a = b then (if v = 0 then t else (a, v) :: t)
    else (b, w) :: Memory.write t a v

/-- The canonical form: addresses strictly rising, no entry 00. -/
def Memory.wf : Memory → Bool
  | [] => true
  | [(_, v)] => v != 0
  | (a, v) :: (b, w) :: t => v != 0 && decide (a < b) && Memory.wf ((b, w) :: t)

/-! ### Level, port and context accessors -/

/-- The level table's entry of a level. -/
def State.lvl (s : State) (l : Level) : LevelEntry := s.levels[l.val]

/-- Change one level's entry. -/
def State.modLvl (s : State) (l : Level) (f : LevelEntry → LevelEntry) : State :=
  { s with levels := s.levels.set l.val (f (s.lvl l)) l.isLt }

/-- One port. -/
def State.port (s : State) (p : PortNo) : Port := s.ports[p.val]

/-- Change one port. -/
def State.modPort (s : State) (p : PortNo) (f : Port → Port) : State :=
  { s with ports := s.ports.set p.val (f (s.port p)) p.isLt }

/-- The reassembly context of a level (R120). -/
def State.rxCtx (s : State) (l : Level) : Reassembly := s.rx.ctxs[l.val]

/-- Change the reassembly context of a level. -/
def State.setRxCtx (s : State) (l : Level) (c : Reassembly) : State :=
  { s with rx := { s.rx with ctxs := s.rx.ctxs.set l.val c l.isLt } }

/-- The disposition of a node (R90). -/
def State.disposition (s : State) (n : Node) : Disposition := s.nodeMap[n.toNat]

/-- The state of a key slot (R66). -/
def State.slot (s : State) (k : Slot) : KeySlot := s.cipher.slots[k.val]

/-- Change the state of a key slot. -/
def State.setSlot (s : State) (k : Slot) (v : KeySlot) : State :=
  { s with cipher := { s.cipher with slots := s.cipher.slots.set k.val v k.isLt } }

/-- The self address: the strap value, or 254 when it is unusable (R161). -/
def State.self (s : State) : Node := selfAddress s.ctl.straps

/-- StrapsUsable (R161). -/
def State.strapsUsable (s : State) : Bool := s.ctl.straps != 0 && s.ctl.straps != 255

/-- An auction trigger of R8 has occurred: the auction is held on the state after the step (log 9). -/
def State.triggerAuction (s : State) : State := { s with auctionDue := true }

/-- The world has corrupted some cells by the time of an event (R34, log 7). -/
def State.corrupt (s : State) (cells : List CellNo) : State :=
  { s with store := { s.store with corrupted := cells ++ s.store.corrupted } }

/-! ### Frame entries (R25, R26, R30, R31) -/

/-- The cells that a payload of a given length takes (R27). -/
def cellsFor (len : Nat) : Nat := (len + Config.headerSize + (Config.cellSize - 1)) / Config.cellSize

/-- Put an entry into the table of entries in use, which is kept by rising entry number. -/
def putEntry : List (EntryNo × FrameEntry) → EntryNo → FrameEntry → List (EntryNo × FrameEntry)
  | [], e, f => [(e, f)]
  | (d, g) :: t, e, f =>
    if e < d then (e, f) :: (d, g) :: t
    else if e = d then (e, f) :: t
    else (d, g) :: putEntry t e f

/-- Take an entry out of the table of entries in use. -/
def dropEntry (t : List (EntryNo × FrameEntry)) (e : EntryNo) : List (EntryNo × FrameEntry) :=
  t.filter fun x => x.1 != e

/-- Change an entry in use. -/
def changeEntry (t : List (EntryNo × FrameEntry)) (e : EntryNo) (f : FrameEntry → FrameEntry) :
    List (EntryNo × FrameEntry) :=
  t.map fun x => if x.1 = e then (x.1, f x.2) else x

/-- The frame entry in use under a number. -/
def State.entry? (s : State) (e : EntryNo) : Option FrameEntry := s.store.entries.lookup e

/-- A frame entry with no contents: what is read under a number that is not in use. No holder references such
a number (R28), so nothing of it is ever used. -/
def FrameEntry.blank : FrameEntry :=
  { origin := .trunk, src := 0, dst := 0, classTag := none, ptype := .data, level := 31, rule := none,
    label := 0, record := false, len := 0, cells := [], holders := 0 }

/-- The frame entry under a number. -/
def State.entryAt (s : State) (e : EntryNo) : FrameEntry := (s.entry? e).getD .blank

/-- Change the fields of an entry in use. -/
def State.modEntry (s : State) (e : EntryNo) (f : FrameEntry → FrameEntry) : State :=
  { s with store := { s.store with entries := changeEntry s.store.entries e f } }

/-- R32: whether a traffic allocation of some cells succeeds. -/
def Store.trafficOk (st : Store) (cells : Nat) : Bool :=
  Config.reservedEntries < st.freeEntries.length && cells + Config.reservedCells ≤ st.freeCells.length

/-- R33: whether a reserve allocation of some cells succeeds. -/
def Store.reserveOk (st : Store) (cells : Nat) : Bool :=
  1 ≤ st.freeEntries.length && cells ≤ st.freeCells.length

/-- R31: take one entry and some cells, filling the entry; its holder count is 1. -/
def Store.take (st : Store) (cells : Nat) (f : FrameEntry) : Option (EntryNo × Store) :=
  match st.freeEntries with
  | [] => none
  | e :: rest =>
    some (e, { st with
      freeEntries := rest
      freeCells := st.freeCells.drop cells
      entries := putEntry st.entries e { f with cells := st.freeCells.take cells, holders := 1 } })

/-- R32, R33: an allocation that fails takes nothing and is counted in AllocRefusals. -/
def State.refuseAlloc (s : State) : State :=
  { s with store := { s.store with allocRefusals := bump s.store.allocRefusals } }

/-- R31, R32: a traffic allocation for a frame. -/
def State.allocTraffic (s : State) (f : FrameEntry) : Option EntryNo × State :=
  if s.store.trafficOk (cellsFor f.len) then
    match s.store.take (cellsFor f.len) f with
    | some (e, st) => (some e, { s with store := st })
    | none => (none, s.refuseAlloc)
  else (none, s.refuseAlloc)

/-- R31, R33: a reserve allocation of some cells for a frame. -/
def State.allocReserve (s : State) (cells : Nat) (f : FrameEntry) : Option EntryNo × State :=
  if s.store.reserveOk cells then
    match s.store.take cells f with
    | some (e, st) => (some e, { s with store := st })
    | none => (none, s.refuseAlloc)
  else (none, s.refuseAlloc)

/-- R30: the entry and the cells of its cell list return to the free lists. -/
def Store.free (st : Store) (e : EntryNo) (f : FrameEntry) : Store :=
  { st with
    entries := dropEntry st.entries e
    freeEntries := st.freeEntries ++ [e]
    freeCells := st.freeCells ++ f.cells }

/-- R142, R153: a freeing calls for a retry when a response waits or a command is in hand (log 15). -/
def CommandUnit.noteFreed (c : CommandUnit) : CommandUnit :=
  if c.waiting.isEmpty && c.inHand.isNone then c else { c with freed := c.freed + 1 }

/-- R29, R30: a holder gives the frame up; the last one frees the entry. -/
def State.release (s : State) (e : EntryNo) : State :=
  match s.entry? e with
  | none => s
  | some f =>
    if f.holders ≤ 1 then { s with store := s.store.free e f, cmd := s.cmd.noteFreed }
    else s.modEntry e fun f => { f with holders := f.holders - 1 }

/-- R29: a further acceptance adds one holder. -/
def State.addHolder (s : State) (e : EntryNo) : State :=
  s.modEntry e fun f => { f with holders := f.holders + 1 }

/-- R35, step 1: the failing cell leaves the frame's cell list and joins the retired set. -/
def Store.retire (st : Store) (e : EntryNo) (cell : CellNo) : Store :=
  { st with
    entries := changeEntry st.entries e fun f => { f with cells := f.cells.erase cell }
    retired := st.retired ++ [cell] }

/-- R142: the cells of a filled response beyond those its payload needs return to the free list. -/
def Store.trim (st : Store) (e : EntryNo) (f : FrameEntry) (cells : Nat) : Store :=
  { st with
    entries := changeEntry st.entries e fun f => { f with cells := f.cells.take cells }
    freeCells := st.freeCells ++ f.cells.drop cells }

/-! ### Payload bytes in the cells (R27) -/

/-- The address of payload byte j of a frame: the cell at position (j + 16) div 64 of its list. -/
def FrameEntry.address? (f : FrameEntry) (j : Nat) : Option Nat :=
  (f.cells[(j + Config.headerSize) / Config.cellSize]?).map fun c =>
    c * Config.cellSize + (j + Config.headerSize) % Config.cellSize

/-- Payload byte j of a frame. -/
def State.payloadByte (s : State) (f : FrameEntry) (j : Nat) : Byte :=
  match f.address? j with
  | some a => s.store.mem.read a
  | none => 0

/-- Some payload bytes of a frame, from an offset. -/
def State.payloadFrom (s : State) (f : FrameEntry) (offset len : Nat) : List Byte :=
  (List.range len).map fun i => s.payloadByte f (offset + i)

/-- The whole payload of the frame under an entry number. -/
def State.payload (s : State) (e : EntryNo) : List Byte :=
  s.payloadFrom (s.entryAt e) 0 (s.entryAt e).len

/-- The cells, in order, that hold some payload bytes of a frame; the first cell holds the internal header
too, with payload byte 0 (R27, R34). -/
def FrameEntry.cellsHolding (f : FrameEntry) (offset len : Nat) : List CellNo :=
  let first := (offset + Config.headerSize) / Config.cellSize
  let last := (offset + len - 1 + Config.headerSize) / Config.cellSize
  (f.cells.drop first).take (last + 1 - first)

/-- Write payload bytes from an offset. -/
def FrameEntry.writeBytes (f : FrameEntry) : Memory → Nat → List Byte → Memory
  | m, _, [] => m
  | m, j, b :: bs =>
    match f.address? j with
    | some a => FrameEntry.writeBytes f (m.write a b) (j + 1) bs
    | none => FrameEntry.writeBytes f m (j + 1) bs

/-- Write payload bytes into a frame's cells from an offset; each cell written gets a new check value (R34). -/
def State.writePayload (s : State) (e : EntryNo) (offset : Nat) (bytes : List Byte) : State :=
  let f := s.entryAt e
  let written := f.cellsHolding offset bytes.length
  { s with store := { s.store with
      mem := f.writeBytes s.store.mem offset bytes
      corrupted := s.store.corrupted.filter fun c => !written.contains c } }

/-- R34: the first of some cells, in order, that fails its check. -/
def State.firstFailing (s : State) (cells : List CellNo) : Option CellNo :=
  cells.find? fun c => s.store.corrupted.contains c

end Sys2Proof.Machine
end

