-- ==== Sys2Proof/Machine/Operands.lean ====
section
/-! DEFINITION. Layouts (11): the bytes of trunk fragments, station frames, commands, responses, records,
reports and notices, the codes of their items, and the two check values. -/

namespace Sys2Proof.Machine

open Sys2Proof

/-! ### Numbers and bytes: most significant byte first (11) -/

/-- One byte of a number. -/
def byteOf (n : Nat) : Byte := BitVec.ofNat 8 n

/-- A number as two bytes. -/
def bytes2 (n : Nat) : List Byte := [byteOf (n / 256), byteOf n]

/-- A word as four bytes. -/
def bytes4 (w : Word) : List Byte :=
  [w.extractLsb' 24 8, w.extractLsb' 16 8, w.extractLsb' 8 8, w.extractLsb' 0 8]

/-- A number in two bytes, from a position. -/
def num2 (bs : List Byte) (i : Nat) : Nat := (bs.getD i 0).toNat * 256 + (bs.getD (i + 1) 0).toNat

/-- A word in four bytes, from a position. -/
def word4 (bs : List Byte) (i : Nat) : Word :=
  bs.getD i 0 ++ bs.getD (i + 1) 0 ++ bs.getD (i + 2) 0 ++ bs.getD (i + 3) 0

/-- Sixteen bytes as a block, the first byte most significant (log 8). -/
def blockOf (bs : List Byte) : Block :=
  (List.range 16).foldl (fun acc i => (acc <<< 8) ||| (bs.getD i 0).setWidth 128) 0

/-- Byte i of a block, the first byte most significant. -/
def blockByte (b : Block) (i : Nat) : Byte := b.extractLsb' ((15 - i) * 8) 8

/-- A byte of flags: bit 0 for the first item, bit 1 for the second, and so on (R188). -/
def flagsByte : List Bool → Byte
  | [] => 0
  | b :: bs => (flagsByte bs <<< 1) ||| (if b then 1 else 0)

/-- An optional number as a byte; absent is 255 (R187). -/
def numOr255 : Option Nat → Byte
  | some n => byteOf n
  | none => 255

/-! ### Check values (R185, R186) -/

/-- One bit of the CRC-32 register, generator 04C11DB7. -/
def crc32Bit (r : Word) : Word := if r.msb then (r <<< 1) ^^^ 0x04C11DB7#32 else r <<< 1

/-- One byte, most significant bit first, into the CRC-32 register. -/
def crc32Byte (r : Word) (b : Byte) : Word :=
  crc32Bit (crc32Bit (crc32Bit (crc32Bit (crc32Bit (crc32Bit (crc32Bit (crc32Bit
    (r ^^^ (b.setWidth 32 <<< 24)))))))))

/-- R185: CRC-32, the register starting with every bit at 1 and complemented before it is sent. -/
def crc32 (bs : List Byte) : Word := ~~~ (bs.foldl crc32Byte (BitVec.allOnes 32))

/-- One bit of the CRC-16 register, generator 1021. -/
def crc16Bit (r : Half) : Half := if r.msb then (r <<< 1) ^^^ 0x1021#16 else r <<< 1

/-- One byte, most significant bit first, into the CRC-16 register. -/
def crc16Byte (r : Half) (b : Byte) : Half :=
  crc16Bit (crc16Bit (crc16Bit (crc16Bit (crc16Bit (crc16Bit (crc16Bit (crc16Bit
    (r ^^^ (b.setWidth 16 <<< 8)))))))))

/-- R186: CRC-16, the register starting with every bit at 1, with no final complement. -/
def crc16 (bs : List Byte) : Half := bs.foldl crc16Byte (BitVec.allOnes 16)

/-! ### Codes (R185, R187) -/

/-- R185: payload type codes. -/
def PayloadType.code : PayloadType → Nat
  | .data => 0 | .command => 1 | .response => 2 | .notice => 3

/-- R185: the payload type of a two-bit code. -/
def PayloadType.ofCode (n : Nat) : PayloadType :=
  match n % 4 with
  | 0 => .data | 1 => .command | 2 => .response | _ => .notice

/-- R185: position codes. -/
def Position.code : Position → Nat
  | .whole => 0 | .first => 1 | .middle => 2 | .last => 3 | .abort => 4

/-- R185: the position of a three-bit code; 5 to 7 are none. -/
def Position.ofCode (n : Nat) : Option Position :=
  match n with
  | 0 => some .whole | 1 => some .first | 2 => some .middle | 3 => some .last | 4 => some .abort | _ => none

/-- R187: status codes. -/
def Status.code : Status → Nat
  | .ok => 0 | .denied => 1 | .badIndex => 2 | .badValue => 3 | .wrongMode => 4 | .busy => 5 | .inUse => 6
  | .noKey => 7 | .lineBusy => 8 | .early => 9 | .notRefreshed => 10 | .unknownCommand => 11

/-- R187: fault kind codes. -/
def FaultKind.code : FaultKind → Nat
  | .cellCheck => 0 | .poolExhausted => 1 | .commandOverrun => 2 | .accessDenied => 3
  | .supervisionExpired => 4 | .supervisionEarly => 5 | .supervisionChange => 6 | .portJabber => 7
  | .portSilent => 8 | .trunkDown => 9 | .reassemblyGap => 10 | .cipherReject => 11 | .sequenceExhausted => 12

/-- R187: mode codes; Init is 0. -/
def Mode.code : Mode → Nat
  | .init => 0 | .setup => 1 | .run => 2 | .fallback => 3

/-- R187: ResetCause codes. -/
def ResetCause.code : ResetCause → Nat
  | .powerOn => 0 | .resetPin => 1 | .resetCommand => 2

/-- R187: configured port mode codes. -/
def PortMode.code : PortMode → Nat
  | .offline => 0 | .listen => 1 | .active => 2 | .loopback => 3

/-- R187: the configured port mode of a code. -/
def PortMode.ofCode (n : Nat) : Option PortMode :=
  match n with
  | 0 => some .offline | 1 => some .listen | 2 => some .active | 3 => some .loopback | _ => none

/-- R187: effective port state codes. -/
def PortState.code : PortState → Nat
  | .offline => 0 | .isolated => 1 | .down => 2 | .listen => 3 | .active => 4 | .loopback => 5

/-- R187: level state codes. -/
def LevelState.code : LevelState → Nat
  | .sending => 0 | .barred => 1 | .eligible => 2 | .spacing => 3 | .keyless => 4 | .held => 5 | .ready => 6
  | .off => 7

/-- R187: disposition codes. -/
def Disposition.code : Disposition → Nat
  | .unassigned => 0 | .trunk => 1 | .port p => 2 + p.val | .self => 6 | .broadcast => 7

/-- R187: the disposition of a code. -/
def Disposition.ofCode (n : Nat) : Option Disposition :=
  match n with
  | 0 => some .unassigned | 1 => some .trunk | 2 => some (.port 0) | 3 => some (.port 1)
  | 4 => some (.port 2) | 5 => some (.port 3) | 6 => some .self | 7 => some .broadcast | _ => none

/-- R187: region codes. -/
def Region.code : Region → Fin 7
  | .rules => 0 | .nodeMap => 1 | .levels => 2 | .ports => 3 | .keys => 4 | .mode => 5 | .logs => 6

/-- R187: the region of a code. -/
def Region.ofCode (n : Nat) : Option Region :=
  match n with
  | 0 => some .rules | 1 => some .nodeMap | 2 => some .levels | 3 => some .ports | 4 => some .keys
  | 5 => some .mode | 6 => some .logs | _ => none

/-- R187: access codes. -/
def Access.code : Access → Nat
  | .none => 0 | .read => 1 | .full => 2

/-- R187: the access code of a number. -/
def Access.ofCode (n : Nat) : Option Access :=
  match n with
  | 0 => some .none | 1 => some .read | 2 => some .full | _ => Option.none

/-- R187: key slot state codes. -/
def KeySlot.code : KeySlot → Nat
  | .empty => 0 | .expanding _ _ => 1 | .ready _ => 2

/-- R187: reassembly state codes. -/
def Reassembly.code : Reassembly → Nat
  | .idle => 0 | .collecting _ => 1 | .discarding => 2

/-- R187: origin codes of a command. -/
def Sender.code : Sender → Nat
  | .station p => p.val | .trunk => 4

/-- R83, R188: action codes. -/
def Action.isDrop : Action → Bool
  | .pass => false | .drop => true

/-- The action of a flag: Drop when 1 (R188). -/
def Action.ofFlag (b : Bool) : Action := if b then .drop else .pass

/-- The sender that a command frame's origin names (R139). -/
def Origin.sender : Origin → Sender
  | .port p => .station p
  | .trunk | .commandUnit | .faultUnit => .trunk

/-- The port of a station sender; a trunk sender has none (R140, R175). -/
def Sender.port : Sender → Option PortNo
  | .station p => some p
  | .trunk => none

/-- The station port that a frame came from, when it came from one (R62). -/
def Origin.port? : Origin → Option PortNo
  | .port p => some p
  | .trunk | .commandUnit | .faultUnit => none

/-! ### Kind sets (R187) -/

/-- The set with one kind. -/
def KindSet.single (k : FaultKind) : KindSet := 1#16 <<< k.code

/-- Whether a kind is in a set. -/
def KindSet.has (ks : KindSet) (k : FaultKind) : Bool := ks.getLsbD k.code

/-- A set with a kind added. -/
def KindSet.add (ks : KindSet) (k : FaultKind) : KindSet := ks ||| KindSet.single k

/-- A kind set as two bytes. -/
def KindSet.bytes (ks : KindSet) : List Byte := bytes2 ks.toNat

/-! ### Trunk fragments (R185) -/

/-- The contents of a fragment's header. -/
structure FragmentHeader where
  dst : Node
  src : Node
  level : Level
  position : Option Position
  cipher : Bool
  slot : Slot
  ptype : PayloadType
  index : Nat
  sequence : Word
  total : Nat
  len : Nat
  deriving DecidableEq, Repr

/-- R185: the 12 header bytes of a fragment that is sent. -/
def FragmentHeader.bytes (h : FragmentHeader) : List Byte :=
  [h.dst, h.src, byteOf (h.level.val * 8 + (h.position.map Position.code).getD 7),
    byteOf ((if h.cipher then 128 else 0) + h.slot.val * 64 + h.ptype.code * 16 + h.index)]
    ++ bytes4 h.sequence ++ bytes2 h.total ++ bytes2 h.len

/-- R185: a whole fragment: header, payload as sent, CRC-32 over both. -/
def fragmentBytes (h : FragmentHeader) (payload : List Byte) : List Byte :=
  (h.bytes ++ payload) ++ bytes4 (crc32 (h.bytes ++ payload))

/-- R185: the header read from the first 12 bytes of a fragment. -/
def FragmentHeader.parse (bs : List Byte) : FragmentHeader :=
  let b2 := (bs.getD 2 0).toNat
  let b3 := bs.getD 3 0
  { dst := bs.getD 0 0
    src := bs.getD 1 0
    level := Fin.ofNat 32 (b2 / 8)
    position := Position.ofCode (b2 % 8)
    cipher := b3.getLsbD 7
    slot := if b3.getLsbD 6 then 1 else 0
    ptype := PayloadType.ofCode (b3.toNat / 16)
    index := b3.toNat % 8
    sequence := word4 bs 4
    total := num2 bs 8
    len := num2 bs 10 }

/-- The payload between header and CRC-32. -/
def fragmentPayload (bs : List Byte) : List Byte := (bs.drop 12).take (bs.length - 16)

/-- R122: the CRC-32 received in the last four bytes agrees with the one computed over the rest. Fewer than
four bytes carry no CRC-32 and fail (log 13). -/
def fragmentCrcGood (bs : List Byte) : Bool :=
  4 ≤ bs.length && word4 bs (bs.length - 4) == crc32 (bs.take (bs.length - 4))

/-- R123: a fragment with a good CRC-32 is malformed. Fewer than 16 bytes hold no header and CRC-32 (log 13). -/
def fragmentMalformed (bs : List Byte) (h : FragmentHeader) : Bool :=
  bs.length < 16 || bs.length - 16 != h.len ||
  match h.position with
  | none => true
  | some .abort => h.len != 0 || h.cipher
  | some p =>
    h.len == 0 || decide (256 < h.len) || h.total == 0 || decide (496 < h.total) ||
    match p with
    | .whole => h.index != 0 || h.len != h.total
    | .first => h.index != 0 || decide (h.total ≤ h.len)
    | .middle => h.index == 0 || h.index == 7 || decide (h.total ≤ h.len)
    | .last => h.index == 0 || decide (h.total < h.len)
    | .abort => false

/-! ### Station frames (R186) -/

/-- R186: the six header bytes. -/
def stationHeaderBytes (h : StationHeader) : List Byte := [h.dst, h.src, h.cls, h.typ] ++ bytes2 h.len.toNat

/-- R186: a station frame that is sent: header, payload, CRC-16. -/
def stationFrame (f : FrameEntry) (payload : List Byte) : List Byte :=
  let body := [f.dst, f.src, f.classTag.getD 0, byteOf f.ptype.code] ++ bytes2 f.len ++ payload
  body ++ bytes2 (crc16 body).toNat

/-! ### Commands (R187, R188) -/

/-- R146, R188: the 27 commands. -/
inductive Command where
  | readRules | writeRule | readNodeMap | writeNodeMap | readLevel | writeLevel | flushLevel | readPort
  | writePortConfig | setPortMode | loadKey | eraseKey | selectSlot | keyCheck | readKeyState | readStatus
  | setMode | refresh | writeSupervision | setTrunkConfig | resetPart | readRecords | readFaults
  | clearFaults | writeNoticeConfig | clearCounters | writeAccess
  deriving DecidableEq, Repr

/-- R188: the code of a command. -/
def Command.code : Command → Nat
  | .readRules => 1 | .writeRule => 2 | .readNodeMap => 3 | .writeNodeMap => 4 | .readLevel => 5
  | .writeLevel => 6 | .flushLevel => 7 | .readPort => 8 | .writePortConfig => 9 | .setPortMode => 10
  | .loadKey => 11 | .eraseKey => 12 | .selectSlot => 13 | .keyCheck => 14 | .readKeyState => 15
  | .readStatus => 16 | .setMode => 17 | .refresh => 18 | .writeSupervision => 19 | .setTrunkConfig => 20
  | .resetPart => 21 | .readRecords => 22 | .readFaults => 23 | .clearFaults => 24
  | .writeNoticeConfig => 25 | .clearCounters => 26 | .writeAccess => 27

/-- R188: the command of a code. -/
def Command.ofCode (n : Nat) : Option Command :=
  match n with
  | 1 => some .readRules | 2 => some .writeRule | 3 => some .readNodeMap | 4 => some .writeNodeMap
  | 5 => some .readLevel | 6 => some .writeLevel | 7 => some .flushLevel | 8 => some .readPort
  | 9 => some .writePortConfig | 10 => some .setPortMode | 11 => some .loadKey | 12 => some .eraseKey
  | 13 => some .selectSlot | 14 => some .keyCheck | 15 => some .readKeyState | 16 => some .readStatus
  | 17 => some .setMode | 18 => some .refresh | 19 => some .writeSupervision | 20 => some .setTrunkConfig
  | 21 => some .resetPart | 22 => some .readRecords | 23 => some .readFaults | 24 => some .clearFaults
  | 25 => some .writeNoticeConfig | 26 => some .clearCounters | 27 => some .writeAccess | _ => none

/-- R146: read command, write command, or trunk alone. -/
inductive AccessKind where
  | read | write | trunkOnly
  deriving DecidableEq, Repr

/-- R146: the kind of a command for the access check. -/
def Command.kind : Command → AccessKind
  | .readRules | .readNodeMap | .readLevel | .readPort | .keyCheck | .readKeyState | .readStatus
  | .readFaults => .read
  | .resetPart | .writeAccess => .trunkOnly
  | .writeRule | .writeNodeMap | .writeLevel | .flushLevel | .writePortConfig | .setPortMode | .loadKey
  | .eraseKey | .selectSlot | .setMode | .refresh | .writeSupervision | .setTrunkConfig | .readRecords
  | .clearFaults | .writeNoticeConfig | .clearCounters => .write

/-- R146, R154: the region a command is judged by. ClearCounters is judged by the region it names, and by Logs
when it names none of the seven or carries no region byte (log 14). -/
def Command.region (k : Command) (args : List Byte) : Region :=
  match k with
  | .readRules | .writeRule => .rules
  | .readNodeMap | .writeNodeMap => .nodeMap
  | .readLevel | .writeLevel | .flushLevel => .levels
  | .readPort | .writePortConfig | .setPortMode => .ports
  | .loadKey | .eraseKey | .selectSlot | .keyCheck | .readKeyState => .keys
  | .readStatus | .setMode | .refresh | .writeSupervision | .setTrunkConfig | .resetPart => .mode
  | .readRecords | .readFaults | .clearFaults | .writeNoticeConfig | .writeAccess => .logs
  | .clearCounters => ((args.head?).bind fun b => Region.ofCode b.toNat).getD .logs

/-- R146: the modes a command is taken in. -/
def Command.takenIn (k : Command) (m : Mode) : Bool :=
  match m with
  | .init => false
  | .setup => true
  | .run => k != .writeSupervision && k != .setTrunkConfig
  | .fallback => k != .setTrunkConfig

/-- R187, R188: the argument bytes number exactly what the code calls for. For WriteNodeMap that is 2 plus its
count byte; bytes after a ResetPart's tag are disregarded. -/
def Command.argsFit (k : Command) (args : List Byte) : Bool :=
  match k with
  | .readKeyState | .readStatus | .refresh | .readFaults | .clearFaults => args.length == 0
  | .readLevel | .flushLevel | .readPort | .eraseKey | .selectSlot | .keyCheck | .setMode | .readRecords
  | .clearCounters => args.length == 1
  | .readRules | .readNodeMap | .setPortMode | .setTrunkConfig | .writeAccess => args.length == 2
  | .writeSupervision | .writeNoticeConfig => args.length == 3
  | .writePortConfig => args.length == 4
  | .writeLevel => args.length == 6
  | .writeRule => args.length == 14
  | .loadKey => args.length == 17
  | .writeNodeMap => 2 ≤ args.length && args.length == 2 + (args.getD 1 0).toNat
  | .resetPart => true

/-- A command frame as the Command Unit reads it (R187). -/
structure CommandFrame where
  entry : EntryNo
  code : Byte
  tag : Half
  args : List Byte
  sender : Sender
  /-- The source node of the frame. -/
  node : Node
  deriving DecidableEq, Repr

/-- Argument byte i as a number. -/
def CommandFrame.arg (c : CommandFrame) (i : Nat) : Nat := (c.args.getD i 0).toNat

/-- Argument bytes i and i + 1 as a number. -/
def CommandFrame.arg2 (c : CommandFrame) (i : Nat) : Nat := num2 c.args i

/-- Bit b of argument byte i. -/
def CommandFrame.argBit (c : CommandFrame) (i b : Nat) : Bool := (c.args.getD i 0).getLsbD b

/-- R143, R187: the command in a frame's payload; none when it is too short for a code and a tag. -/
def State.commandFrame (s : State) (e : EntryNo) : Option CommandFrame :=
  match s.payload e with
  | code :: t1 :: t2 :: args =>
    some { entry := e, code := code, tag := t1 ++ t2, args := args,
           sender := (s.entryAt e).origin.sender, node := (s.entryAt e).src }
  | _ => none

/-- R187: a response payload: code, tag, status, and the results when the status is OK. -/
def responsePayload (code : Byte) (tag : Half) (st : Status) (results : List Byte) : List Byte :=
  [code, tag.extractLsb' 8 8, tag.extractLsb' 0 8, byteOf st.code] ++
    (if st = .ok then results else [])

/-! ### Rules and records (R188) -/

/-- R188: the 13 bytes of a rule entry. -/
def Rule.bytes (r : Rule) : List Byte :=
  [flagsByte [r.valid, r.action.isDrop, r.record, false] ||| (r.portMask.setWidth 8 <<< 4),
    r.srcLow, r.srcHigh, r.dstLow, r.dstHigh, r.clsValue, r.clsMask] ++ bytes2 r.lenMin ++ bytes2 r.lenMax
    ++ [byteOf r.level.val, r.label]

/-- R188: the 17 bytes ReadRules reports for a rule. -/
def Rule.report (r : Rule) : List Byte := r.bytes ++ bytes4 r.hits

/-- R188: the rule in the 13 bytes from a position; its hit counter is 0 (R84). -/
def Rule.parse (bs : List Byte) (i : Nat) : Rule :=
  let b0 := bs.getD i 0
  { valid := b0.getLsbD 0, action := Action.ofFlag (b0.getLsbD 1), record := b0.getLsbD 2,
    portMask := b0.extractLsb' 4 4, srcLow := bs.getD (i + 1) 0, srcHigh := bs.getD (i + 2) 0,
    dstLow := bs.getD (i + 3) 0, dstHigh := bs.getD (i + 4) 0, clsValue := bs.getD (i + 5) 0,
    clsMask := bs.getD (i + 6) 0, lenMin := num2 bs (i + 7), lenMax := num2 bs (i + 9),
    level := Fin.ofNat 32 (bs.getD (i + 11) 0).toNat, label := bs.getD (i + 12) 0, hits := 0 }

/-- R188: the 15 bytes of an egress record. -/
def EgressRecord.bytes (r : EgressRecord) : List Byte :=
  [byteOf (r.level.val + (if r.outcome = .aborted then 128 else 0)), r.label,
    numOr255 (r.port.map Fin.val), numOr255 (r.rule.map Fin.val), r.dst, byteOf r.fragments,
    byteOf r.suspensions] ++ bytes4 r.start ++ bytes4 r.finish

/-- R188: the five bytes of a pending record: code, level or slot, tag, origin. -/
def LongRecord.bytes (r : LongRecord) : List Byte :=
  (match r.op with
    | .flushLevel l => [byteOf Command.flushLevel.code, byteOf l.val]
    | .loadKey k => [byteOf Command.loadKey.code, byteOf k.val])
    ++ [r.tag.extractLsb' 8 8, r.tag.extractLsb' 0 8, byteOf r.sender.code]

/-- R189: the flags of the fields present. -/
def FaultFields.present (f : FaultFields) : List Bool :=
  [f.level.isSome, f.port.isSome, f.node.isSome, f.rule.isSome, f.cell.isSome]

/-- R189: level, port, node, rule and cell, each 0 when absent. -/
def FaultFields.bytes (f : FaultFields) : List Byte :=
  [byteOf ((f.level.map Fin.val).getD 0), byteOf ((f.port.map Fin.val).getD 0), f.node.getD 0,
    byteOf ((f.rule.map Fin.val).getD 0)] ++ bytes2 (f.cell.getD 0)

/-- R189: the 12 bytes of a notice. -/
def FaultReport.notice (r : FaultReport) (filled : Bool) : List Byte :=
  [byteOf r.kind.code, flagsByte (filled :: r.fields.present)] ++ bytes4 r.time ++ r.fields.bytes

/-- R188: the 12 bytes of the capture record in a fault report; all 0 when nothing is captured. -/
def captureBytes : Option FaultReport → List Byte
  | none => List.replicate 12 0
  | some r => [byteOf r.kind.code] ++ bytes4 r.time ++ [flagsByte r.fields.present] ++ r.fields.bytes

end Sys2Proof.Machine
end

