-- ==== Sys2Proof/Machine/Flags.lean ====
section
/-! DEFINITION. What is derived and never stored: level states, eligible work, effective port states, key use,
what is outstanding, what is held on level 0. -/

namespace Sys2Proof.Machine

open Sys2Proof

/-! ### Level states (R6, R7) -/

/-- The Trunk Transmitter has a fragment of this level in flight. -/
def State.sending (s : State) (l : Level) : Bool :=
  match s.trunk.inFlight with
  | some f => f.level = l
  | none => false

/-- Levels 2 to 31 (R1). -/
def isTraffic (l : Level) : Bool := 2 ≤ l.val

/-- The levels 2 to 31 in ascending order. -/
def trafficLevels : List Level := allLevels.filter isTraffic

/-- R6, order 2: the mode is Fallback and the level is not Essential. -/
def State.barred (s : State) (l : Level) : Bool :=
  s.ctl.mode = .fallback && !(s.lvl l).attrs.essential

/-- A key slot is Ready (R66). -/
def State.slotReady (s : State) (k : Slot) : Bool :=
  match s.slot k with
  | .ready _ => true
  | .empty | .expanding _ _ => false

/-- R79: the ActiveSlot is not Ready, or the level's transmit sequence for it is Exhausted. -/
def State.noKey (s : State) (l : Level) : Bool :=
  !s.slotReady s.cipher.active || (s.lvl l).txSeq[s.cipher.active.val] = .exhausted

/-- R6, order 5: Enable 1, queue not empty, Cipher 1, and no usable key or sequence. -/
def State.keyless (s : State) (l : Level) : Bool :=
  let v := s.lvl l
  v.attrs.enable && !v.queue.isEmpty && v.attrs.cipher && s.noKey l

/-- R6, order 3: (a) AbortOwed, (b) a context and Enable, (c) a queue that may start a frame. -/
def State.eligible (s : State) (l : Level) : Bool :=
  let v := s.lvl l
  v.abortOwed.isSome || (v.ctx.isSome && v.attrs.enable) ||
    (!v.queue.isEmpty && v.attrs.enable && v.deadline.isNone && !s.keyless l)

/-- R6: the derived state of a level. -/
def State.levelState (s : State) (l : Level) : LevelState :=
  let v := s.lvl l
  if s.sending l then .sending
  else if s.barred l then .barred
  else if s.eligible l then .eligible
  else if v.attrs.enable && !v.queue.isEmpty && v.deadline.isSome then .spacing
  else if s.keyless l then .keyless
  else if !v.attrs.enable && (!v.queue.isEmpty || v.ctx.isSome) then .held
  else if v.attrs.enable then .ready
  else .off

/-- R7: the work that makes a level Eligible, and the owed Abort of a Barred level. -/
def State.hasWork (s : State) (l : Level) : Bool :=
  (s.lvl l).abortOwed.isSome || (!s.barred l && s.eligible l)

/-- R9: the lowest-numbered level that has eligible work. -/
def State.winner (s : State) : Option Level := allLevels.find? fun l => s.hasWork l

/-- R13, step 2: the level is in a train. DESIGN CHOICE: R2's table has a new TrainMax read at the next frame completion,
and R13 reads TrainMax at a boundary; the model reads the value then in force at the boundary (log 30). -/
def LevelEntry.inTrain (v : LevelEntry) : Bool := decide (1 < v.attrs.trainMax) && decide (1 ≤ v.trainCount)

/-- R40, test 4, and R42: the frames that count against the queue limit; on level 0 the context counts too. -/
def State.queuedFrames (s : State) (l : Level) : Nat :=
  (s.lvl l).queue.length + (if l.val = 0 && (s.lvl l).ctx.isSome then 1 else 0)

/-- R40: the four admission tests of a level queue. -/
def State.queueRefuses (s : State) (l : Level) : Bool :=
  (isTraffic l && s.ctl.mode = .setup) || s.barred l || (s.lvl l).flushPending.isSome ||
    (decide (0 < (s.lvl l).attrs.queueLimit) && decide ((s.lvl l).attrs.queueLimit ≤ s.queuedFrames l))

/-! ### Fragments (R47) -/

/-- The number of fragments of a payload: the fragment size goes into it, rounded up. -/
def fragmentCount (len size : Nat) : Nat := (len + size - 1) / size

/-- The payload bytes of the fragment at an index. -/
def fragmentLength (len size k : Nat) : Nat := min (k * size + size) len - k * size

/-- The position of the fragment at an index. -/
def fragmentPosition (len size k : Nat) : Position :=
  let n := fragmentCount len size
  if n ≤ 1 then .whole else if k = 0 then .first else if k + 1 < n then .middle else .last

/-! ### Port states (R104) -/

/-- R104: the effective state of a port, from its configuration, latch and line and a mode of the part. -/
def Port.stateIn (m : Mode) (p : Port) : PortState :=
  if m = .init || m = .setup || p.cfg.mode = .offline then .offline
  else if p.latch then .isolated
  else if !p.lineUp && p.cfg.mode != .loopback then .down
  else match p.cfg.mode with
    | .offline => .offline
    | .listen => .listen
    | .active => .active
    | .loopback => .loopback

/-- The effective state of a port as it stands. -/
def State.portState (s : State) (p : PortNo) : PortState := (s.port p).stateIn s.ctl.mode

/-- The states in which a port receives (R104). -/
def PortState.receives (e : PortState) : Bool := e = .active || e = .listen

/-- The states in which a port transmits and its egress queue takes offers (R104). -/
def PortState.transmits (e : PortState) : Bool := e = .active || e = .loopback

/-- R112: the receive line is silent; a line whose state is Down counts as silent. -/
def Port.quiet (p : Port) : Bool := !p.rxActive || !p.lineUp

/-! ### Keys in use (R68, R75) -/

/-- The traffic levels with Cipher = 1. -/
def State.cipherLevels (s : State) : Nat := trafficLevels.countP fun l => (s.lvl l).attrs.cipher

/-- The level contexts that record a slot. -/
def State.contextsOn (s : State) (k : Slot) : Nat :=
  allLevels.countP fun l => ((s.lvl l).ctx.bind Context.key).any fun x => x.1 = k

/-- Whether a reassembly context is Collecting with a slot recorded. -/
def Reassembly.records (k : Slot) : Reassembly → Bool
  | .collecting c => c.key.any fun x => x.1 = k
  | .idle | .discarding => false

/-- The Collecting reassembly contexts that record a slot. -/
def State.collectingOn (s : State) (k : Slot) : Nat :=
  allLevels.countP fun l => (s.rxCtx l).records k

/-- R68: the checks of LoadKey and EraseKey, in their order; none when all pass. -/
def State.keyBusy (s : State) (k : Slot) : Option Status :=
  match s.slot k with
  | .expanding _ _ => some .busy
  | .empty | .ready _ =>
    if s.cipher.active = k ∧ 0 < s.cipherLevels then some .inUse
    else if 0 < s.contextsOn k then some .inUse
    else if 0 < s.collectingOn k then some .inUse
    else none

/-! ### Command Unit (R141, R142) -/

/-- R141: the response frames built and not yet freed. -/
def State.builtResponses (s : State) : Nat :=
  s.store.entries.countP fun x => x.2.origin = .commandUnit

/-- R141: the outstanding count. -/
def State.outstanding (s : State) : Nat :=
  (if s.cmd.inHand.isSome then 1 else 0) + s.cmd.longOps.length + s.cmd.waiting.length + s.builtResponses

/-- R142: the Command Unit takes the head of the FIFO. -/
def State.canTake (s : State) : Bool :=
  !s.cmd.fifo.isEmpty && decide (s.outstanding < Config.maxOutstanding) && s.cmd.inHand.isNone &&
    s.cmd.waiting.isEmpty && s.ctl.mode != .init

/-- R142, R153: a freeing has come since the last try, and a response waits or a command is in hand. -/
def State.retryDue (s : State) : Bool :=
  decide (0 < s.cmd.freed) && (!s.cmd.waiting.isEmpty || s.cmd.inHand.isSome)

/-- R145: the access code of a region. -/
def State.accessOf (s : State) (r : Region) : Access := s.cmd.access[r.code.val]

/-- R145: whether an origin may give a command. -/
def State.mayGive (s : State) (k : Command) (args : List Byte) : Sender → Bool
  | .trunk => true
  | .station _ =>
    match k.kind with
    | .trunkOnly => false
    | .read => s.accessOf (k.region args) != .none
    | .write => s.accessOf (k.region args) = .full

/-! ### Fault Unit (R180, R183) -/

/-- The notices held on level 0: those of the queue, and the one of the context. -/
def State.heldNotices (s : State) : List EntryNo :=
  (s.lvl 0).queue ++ ((s.lvl 0).ctx.map Context.entry).toList

/-- The kind code of a notice: byte 0 of its payload (R189). -/
def State.noticeKind (s : State) (e : EntryNo) : Nat := (s.payloadByte (s.entryAt e) 0).toNat

/-- The kinds of the notices held on level 0. -/
def State.heldKinds (s : State) : KindSet :=
  s.heldNotices.foldl (fun ks e => ks ||| (1#16 <<< s.noticeKind e)) 0

/-! ### Supervision (R161, R171, R172) -/

/-- µs since the supervision mark, when it is present. -/
def State.sinceMark (s : State) : Option Nat := s.ctl.mark.map fun m => elapsed m s.now

/-- µs left until the supervision deadline; 0 while the mark is absent (R188). -/
def State.toDeadline (s : State) : Nat := (s.sinceMark.map fun e => s.ctl.period * 1000 - e).getD 0

/-- µs left until the window opens; 0 once it has, and while the mark is absent (R161, R188). -/
def State.toWindow (s : State) : Nat := (s.sinceMark.map fun e => s.ctl.period * 500 - e).getD 0

/-- R171: the supervision deadline has come with the mark in place. -/
def State.supervisionDue (s : State) : Bool :=
  s.ctl.mode = .run && decide (0 < s.ctl.period) && s.sinceMark.any fun e => decide (s.ctl.period * 1000 ≤ e)

/-! ### Times that pass (R164) -/

/-- R17: the spacing deadline of a level passes now. -/
def State.spacingDue (s : State) (l : Level) : Bool := (s.lvl l).deadline = some s.now

/-- R70: the slot is Expanding and its 40 µs have passed. -/
def State.expansionDue (s : State) (k : Slot) : Bool :=
  match s.slot k with
  | .expanding _ since => Config.expansionTime ≤ elapsed since s.now
  | .empty | .ready _ => false

/-- R111: the receive line has been active without a break for more than 2 ms. -/
def State.jabberDue (s : State) (p : PortNo) : Bool :=
  (s.portState p).receives && (s.port p).rxActive &&
    (s.port p).activeSince.any fun t => decide (Config.jabberTime < elapsed t s.now)

/-- R112: the silent interval of the recovery wait has passed. -/
def State.recoveryDue (s : State) (p : PortNo) : Bool :=
  (s.port p).latch && (s.port p).recoveryStart.any fun t => decide (Config.recoveryTime ≤ elapsed t s.now)

/-- R113: the silence wait has passed. -/
def State.silenceDue (s : State) (p : PortNo) : Bool :=
  (s.portState p).receives && decide (0 < (s.port p).cfg.silenceTime) &&
    (s.port p).silenceStart.any fun t => decide ((s.port p).cfg.silenceTime * 10000 ≤ elapsed t s.now)

end Sys2Proof.Machine
end

