-- ==== Sys2Proof/Machine/Offers.lean ====
section
/-! DEFINITION. Offers of a frame to a level queue (02, 2.5) and to a port egress queue (06, 6.5), and the start
of a port transmission (R116). -/

namespace Sys2Proof.Machine

open Sys2Proof

/-- R29: the first acceptance takes over the offerer's hold; each further one adds a holder. -/
def State.accept (s : State) (e : EntryNo) (first : Bool) : State := if first then s else s.addHolder e

/-- Count one in a level's FramesDropped. -/
def LevelEntry.dropped (v : LevelEntry) : LevelEntry := { v with framesDropped := bump v.framesDropped }

/-- Count one in a port's Drops. -/
def Port.dropped (p : Port) : Port := { p with drops := bump p.drops }

/-- R40, R41: the offer of a frame to the queue of a level. The answer says whether it was accepted. -/
def State.offerLevel (s : State) (l : Level) (e : EntryNo) (first : Bool) : Bool × State :=
  if s.queueRefuses l then (false, s.modLvl l .dropped)
  else (true, ((s.accept e first).modLvl l fun v => { v with queue := v.queue ++ [e] }).triggerAuction)

/-- R116: an idle transmitter of an Active or Loopback port takes the head of its egress queue. -/
def State.startTx (s : State) (p : PortNo) : State :=
  if (s.portState p).transmits && (s.port p).tx.isNone then
    match (s.port p).queue with
    | [] => s
    | e :: rest =>
      s.modPort p fun v => { v with queue := rest, tx := some { entry := e, loop := s.portState p = .loopback } }
  else s

/-- R114: an entry goes behind every entry of the same or a lower level number and before the others. -/
def State.insertByLevel (s : State) (queue : List EntryNo) (e : EntryNo) : List EntryNo :=
  let goesBefore := fun d => decide ((s.entryAt d).level ≤ (s.entryAt e).level)
  queue.takeWhile goesBefore ++ e :: queue.dropWhile goesBefore

/-- R114: the insertion of an accepted frame, which may start a transmission. -/
def State.joinEgress (s : State) (p : PortNo) (e : EntryNo) (first : Bool) : State :=
  ((s.accept e first).modPort p fun v => { v with queue := s.insertByLevel v.queue e }).startTx p

/-- R114, R115: the offer of a frame to a port's egress queue. A full queue evicts its worst entry, the newest
of its highest level, when the offered frame's level is strictly lower. -/
def State.offerPort (s : State) (p : PortNo) (e : EntryNo) (first : Bool) : Bool × State :=
  if !(s.portState p).transmits then (false, s.modPort p .dropped)
  else if (s.port p).queue.length < Config.egressSize then (true, s.joinEgress p e first)
  else
    match (s.port p).queue.getLast? with
    | none => (false, s.modPort p .dropped)
    | some worst =>
      if (s.entryAt e).level < (s.entryAt worst).level then
        let s := s.modPort p fun v => ({ v with queue := v.queue.dropLast }).dropped
        (true, (s.release worst).joinEgress p e first)
      else (false, s.modPort p .dropped)

/-- A holder that a frame is offered to. -/
inductive Offer where
  | level (l : Level) | port (p : PortNo)
  deriving DecidableEq, Repr

/-- One offer, after those already made; the first component says whether any was accepted so far. -/
def State.makeOffer (e : EntryNo) (acc : Bool × State) : Offer → Bool × State
  | .level l =>
    let r := acc.2.offerLevel l e !acc.1
    (acc.1 || r.1, r.2)
  | .port p =>
    let r := acc.2.offerPort p e !acc.1
    (acc.1 || r.1, r.2)

/-- R29: the offers of a newly received or built frame, in order; when every one is refused the offerer
releases the frame. -/
def State.offerAll (s : State) (e : EntryNo) (offers : List Offer) : State :=
  let r := offers.foldl (State.makeOffer e) (false, s)
  if r.1 then r.2 else r.2.release e

end Sys2Proof.Machine
end

