-- ==== Sys2Proof/Machine/FaultUnit.lean ====
section
/-! DEFINITION. The Fault Unit taking a fault and building its notice (10). -/

namespace Sys2Proof.Machine

open Sys2Proof

/-- R181: the frame entry of a notice. -/
def State.noticeEntry (s : State) : FrameEntry :=
  { origin := .faultUnit, src := s.self, dst := s.fault.noticeNode, classTag := none, ptype := .notice,
    level := 0, rule := none, label := 0, record := false, len := 12, cells := [], holders := 1 }

/-- R180: whether the fault gets a notice. -/
def State.wantsNotice (s : State) (k : FaultKind) : Bool :=
  s.fault.noticeNode != 0 && s.fault.noticeKinds.has k &&
    decide (s.heldNotices.length < Config.maxNotices) &&
    !(s.heldNotices.any fun e => s.noticeKind e = k.code)

/-- R181: a notice is built from reserve storage and offered to level 0; a failed allocation raises nothing. -/
def State.buildNotice (s : State) (r : FaultReport) (filled : Bool) : State :=
  match s.allocReserve 1 s.noticeEntry with
  | (none, s) => s
  | (some e, s) => (s.writePayload e 0 (r.notice filled)).offerAll e [.level 0]

/-- R177, steps 1 and 2: the summary and the capture record. -/
def FaultUnit.record (u : FaultUnit) (r : FaultReport) : FaultUnit :=
  { u with summary := u.summary.add r.kind, captured := some (u.captured.getD r) }

/-- R177: the Fault Unit takes a fault. -/
def State.raise (s : State) (k : FaultKind) (f : FaultFields := {}) : State :=
  let r : FaultReport := { kind := k, time := s.now, fields := f }
  let filled := s.fault.captured.isNone
  let t := { s with fault := s.fault.record r }
  if t.wantsNotice k then t.buildNotice r filled else t

end Sys2Proof.Machine
end

