-- ==== Sys2Proof/Machine/CipherUnit.lean ====
section
/-! DEFINITION. Counter blocks, keystream, transmit sequences and receive acceptance (04). -/

namespace Sys2Proof.Machine

open Sys2Proof

/-- R76: the counter block with block index i. -/
def counterBlock (k : Slot) (l : Level) (sequence : Word) (src dst : Node) (i : Nat) : Block :=
  blockOf ([byteOf k.val, byteOf l.val] ++ bytes4 sequence ++ [src, dst] ++ bytes2 i)

/-- The key of a Ready slot. A keystream request always names a Ready slot (R77), so the value for another slot
is never used. -/
def State.keyOf (s : State) (k : Slot) : Block :=
  match s.slot k with
  | .ready key => key
  | .empty | .expanding _ _ => 0

/-- What fixes the keystream of a frame, beside the key (R76). -/
structure StreamId where
  slot : Slot
  level : Level
  sequence : Word
  src : Node
  dst : Node
  deriving DecidableEq, Repr

/-- R76: keystream byte j of a frame: byte (j mod 16) of E applied to counter block (j div 16). -/
def keystreamByte (key : Block) (i : StreamId) (j : Nat) : Byte :=
  blockByte (Config.blockCipher key (counterBlock i.slot i.level i.sequence i.src i.dst (j / 16))) (j % 16)

/-- R76, R77: bytes of a frame from an offset combined by exclusive-or with its keystream. -/
def State.applyKeystream (s : State) (i : StreamId) (offset : Nat) (bytes : List Byte) : List Byte :=
  bytes.mapIdx fun n b => b ^^^ keystreamByte (s.keyOf i.slot) i (offset + n)

/-- R78: the sequence after one that is assigned. -/
def TxSequence.next (v : Word) : TxSequence := if v = BitVec.allOnes 32 then .exhausted else .seq (v + 1)

/-- R67, R70, R72: every TxSequence of a slot becomes 1 and every LastAccepted of it becomes 0. -/
def State.resetSequences (s : State) (k : Slot) : State :=
  { s with
    levels := mapTable (fun v => { v with txSeq := v.txSeq.set k.val (.seq 1) k.isLt }) s.levels
    cipher := { s.cipher with
      lastAccepted := s.cipher.lastAccepted.set k.val (Vector.replicate 32 0) k.isLt } }

/-- LastAccepted[slot][level] (R67). -/
def State.lastAccepted (s : State) (k : Slot) (l : Level) : Word := (s.cipher.lastAccepted[k.val])[l.val]

/-- R82: the sequence of a frame received whole is recorded. -/
def State.recordAccepted (s : State) (k : Slot) (l : Level) (v : Word) : State :=
  { s with cipher := { s.cipher with
      lastAccepted := s.cipher.lastAccepted.set k.val ((s.cipher.lastAccepted[k.val]).set l.val v l.isLt)
        k.isLt } }

/-- R80: the acceptance of an enciphered First or Whole fragment. -/
def State.acceptsSequence (s : State) (k : Slot) (l : Level) (v : Word) : Bool :=
  s.slotReady k && decide (s.lastAccepted k l < v)

/-- R80, step 3: a rejected frame is counted in CipherRejects and raises CIPHER_REJECT. -/
def State.rejectCipher (s : State) (l : Level) (src : Node) : State :=
  { s with cipher := { s.cipher with rejects := bump s.cipher.rejects } }.raise .cipherReject
    { level := some l, node := some src }

/-- R74: the first three bytes of the enciphered all-zero block. -/
def keyCheckValue (key : Block) : List Byte :=
  let b := Config.blockCipher key 0
  [blockByte b 0, blockByte b 1, blockByte b 2]

end Sys2Proof.Machine
end

