-- ==== Sys2Proof/Machine/Responses.lean ====
section
/-! DEFINITION. The Command FIFO's answer to an offer (R140), responses and their routes (08, 8.4), and the end
of a long operation (R152). -/

namespace Sys2Proof.Machine

open Sys2Proof

/-- R140: a command frame is offered to the FIFO. A full FIFO refuses it: the offerer releases the frame, one is
counted in CommandOverruns and COMMAND_OVERRUN is raised. -/
def State.offerFifo (s : State) (e : EntryNo) : State :=
  if s.cmd.fifo.length < Config.fifoSize then { s with cmd := { s.cmd with fifo := s.cmd.fifo ++ [e] } }
  else
    let f := s.entryAt e
    let s := s.release e
    let s := { s with cmd := { s.cmd with commandOverruns := bump s.cmd.commandOverruns } }
    s.raise .commandOverrun { port := f.origin.sender.port, node := some f.src }

/-- R148: the frame entry of a response to a command from a node. -/
def State.responseEntry (s : State) (node : Node) : FrameEntry :=
  { origin := .commandUnit, src := s.self, dst := node, classTag := none, ptype := .response, level := 1,
    rule := none, label := 0, record := false, len := 4, cells := [], holders := 1 }

/-- R149, R150: a built response goes to level 1 for trunk origin; for a station it is offered to the origin
port when that is Active, and is released unsent otherwise. -/
def State.routeResponse (s : State) (e : EntryNo) : Sender → State
  | .trunk => s.offerAll e [.level 1]
  | .station p =>
    if s.portState p = .active then s.offerAll e [.port p]
    else { s.release e with cmd := { (s.release e).cmd with
             responsesUnsent := bump (s.release e).cmd.responsesUnsent } }

/-- R142, R148: fill an allocated response with its payload; cells beyond those its length needs return to the
free list. -/
def State.fillResponse (s : State) (e : EntryNo) (payload : List Byte) : State :=
  let s := s.modEntry e fun f => { f with len := payload.length }
  let s := { s with store := s.store.trim e (s.entryAt e) (cellsFor payload.length) }
  s.writePayload e 0 payload

/-- R188: the command code of a long operation. -/
def LongOp.code : LongOp → Byte
  | .flushLevel _ => byteOf Command.flushLevel.code
  | .loadKey _ => byteOf Command.loadKey.code

/-- R152, R153: ask for reserve storage for the response of a long operation whose work has ended, and build and
route it. None, with the failure counted, when the storage is short. -/
def State.buildLongResponse (s : State) (r : LongRecord) : Bool × State :=
  let payload := responsePayload r.op.code r.tag .ok []
  match s.allocReserve (cellsFor payload.length) (s.responseEntry r.node) with
  | (none, s) => (false, s)
  | (some e, s) => (true, (s.fillResponse e payload).routeResponse e r.sender)

/-- R152: a pending operation ends: its record leaves the list, and its response is built or waits. -/
def State.endLongOp (s : State) (op : LongOp) : State :=
  match s.cmd.longOps.find? fun r => r.op = op with
  | none => s
  | some r =>
    let s := { s with cmd := { s.cmd with longOps := s.cmd.longOps.filter fun r => r.op != op } }
    match s.buildLongResponse r with
    | (true, s) => s
    | (false, s) => { s with cmd := { s.cmd with waiting := s.cmd.waiting ++ [r] } }

/-- R19, R20: the flush that waits on a level is complete; FlushPending is cleared and the response is built.
Nothing happens when none waits. -/
def State.flushComplete (s : State) (l : Level) : State :=
  if (s.lvl l).flushPending.isSome then
    (s.modLvl l fun v => { v with flushPending := none }).endLongOp (.flushLevel l)
  else s

end Sys2Proof.Machine
end

