-- ==== Sys2Proof/Machine/Scheduler.lean ====
section
/-! DEFINITION. The Level Scheduler and the Trunk Transmitter (01, 03): abandoning, suspending, emptying and
barring levels, the loss of a frame to a failing cell (02, 2.4), forming fragments, the auction, and the decisions
at a fragment's completion. -/

namespace Sys2Proof.Machine

open Sys2Proof

/-! ### The Egress Record Log (R61 to R63) -/

/-- R63: a record joins a log of fewer than 32; otherwise it is discarded and LogOverflow is set. -/
def Trunk.writeRecord (t : Trunk) (r : EgressRecord) : Trunk :=
  if t.log.length < Config.logSize then { t with log := t.log ++ [r] } else { t with logOverflow := true }

/-- R61: the record of a frame that finishes on the trunk, when its flag or its level's Record asks for it. -/
def State.recordFinish (s : State) (l : Level) (c : Context) (fragments : Nat) (o : EgressOutcome) : State :=
  let f := s.entryAt c.entry
  let r : EgressRecord :=
    { level := l, label := f.label, port := f.origin.port?, rule := f.rule, dst := f.dst,
      fragments := fragments, suspensions := c.suspensions, start := c.start, finish := s.now, outcome := o }
  if (s.lvl l).attrs.record || f.record then { s with trunk := s.trunk.writeRecord r } else s

/-! ### Abandoning and suspending (R12, R14) -/

/-- R12, step 6, and R51: the level owes an Abort fragment with the frame's addressing; that triggers an
auction. -/
def State.oweAbort (s : State) (l : Level) (f : FrameEntry) : State :=
  (s.modLvl l fun v =>
    { v with abortOwed := some { dst := f.dst, src := f.src, ptype := f.ptype } }).triggerAuction

/-- R12, steps 1 to 5: the frame is recorded, counted and released, and the context and train are cleared. -/
def State.dropContext (s : State) (l : Level) (c : Context) : State :=
  ((((s.recordFinish l c c.next .aborted).modLvl l fun v =>
    { v with framesAborted := bump v.framesAborted }).release c.entry).modLvl l fun v =>
    { v with ctx := none, trainCount := 0 })

/-- R12: abandon the context frame of a level. `started` says whether at least one of its fragments has been
started on the trunk. -/
def State.abandon (s : State) (l : Level) (started : Bool) : State :=
  match (s.lvl l).ctx with
  | none => s
  | some c =>
    if started then ((s.dropContext l c).oweAbort l (s.entryAt c.entry)).flushComplete l
    else (s.dropContext l c).flushComplete l

/-- R14: suspend the context frame at a boundary; with FlushPending it is abandoned instead. -/
def State.suspend (s : State) (l : Level) : State :=
  if (s.lvl l).flushPending.isSome then s.abandon l true
  else
    s.modLvl l fun v =>
      { v with
        ctx := v.ctx.map fun c => { c with suspensions := min 255 (c.suspensions + 1) }
        trainCount := 0 }

/-! ### Emptying and barring a level (R19, R21, R22) -/

/-- R19, step 1: every queued frame is removed, oldest first, released and counted in FramesDropped; TrainCount
becomes 0. -/
def State.emptyQueue (s : State) (l : Level) : State :=
  let q := (s.lvl l).queue
  let s := s.modLvl l fun v =>
    { v with queue := [], framesDropped := bumpBy v.framesDropped q.length, trainCount := 0 }
  q.foldl State.release s

/-- R21: the queue is emptied, and a context that is not Sending is abandoned. -/
def State.bar (s : State) (l : Level) : State :=
  let s := s.emptyQueue l
  if s.sending l then s else s.abandon l true

/-! ### A frame lost to a failing cell (R35 to R37) -/

/-- R36: a level gives the frame up: it leaves the queue, or its context is abandoned. A fragment of it in
flight, or one completed before, makes the level owe an Abort. -/
def State.levelGivesUp (e : EntryNo) (s : State) (l : Level) : State :=
  if (s.lvl l).queue.contains e then
    (s.modLvl l fun v => { v with queue := v.queue.filter fun d => d != e }).release e
  else
    match (s.lvl l).ctx with
    | some c => if c.entry = e then s.abandon l (s.sending l || decide (0 < c.next)) else s
    | none => s

/-- R36, R117: a port gives the frame up: it leaves the egress queue, or its transmission ends and counts in
TxAborted. -/
def State.portGivesUp (e : EntryNo) (s : State) (p : PortNo) : State :=
  if (s.port p).queue.contains e then
    (s.modPort p fun v => { v with queue := v.queue.filter fun d => d != e }).release e
  else
    match (s.port p).tx with
    | some t =>
      if t.entry = e then
        (s.modPort p fun v => { v with tx := none, txAborted := bump v.txAborted }).release e
      else s
    | none => s

/-- R35, steps 1 and 2: the failing cell is retired and the loss is counted. -/
def Store.retireAndCount (st : Store) (e : EntryNo) (cell : CellNo) : Store :=
  { st.retire e cell with
    cellCheckFailures := bump st.cellCheckFailures
    framesLostToCheck := bump st.framesLostToCheck }

/-- R35: the failing cell is retired and the frame is removed from every holder; then each port whose
transmission ended takes its next entry (R117). Ports before levels, each in ascending order (log 23). -/
def State.loseFrame (s : State) (e : EntryNo) (cell : CellNo) : State :=
  allPorts.foldl State.startTx
    (allLevels.foldl (State.levelGivesUp e)
      (allPorts.foldl (State.portGivesUp e) { s with store := s.store.retireAndCount e cell }))

/-! ### Starting and forming (R10, R49 to R51, R55) -/

/-- R10: start the head of the queue as a new frame, with its key slot and sequence when the level is
enciphered (R78). A level with nothing to start, or with its sequence Exhausted, is never asked to. -/
def State.startNewFrame (s : State) (l : Level) : State :=
  match (s.lvl l).queue with
  | [] => s
  | e :: rest =>
    let c : Context := { entry := e, next := 0, sent := 0, start := s.now, key := none, suspensions := 0 }
    if (s.lvl l).attrs.cipher then
      let k := s.cipher.active
      match (s.lvl l).txSeq[k.val] with
      | .exhausted => s
      | .seq v =>
        let s := s.modLvl l fun w =>
          { w with
            queue := rest
            ctx := some { c with key := some (k, v) }
            txSeq := w.txSeq.set k.val (TxSequence.next v) k.isLt }
        if v = BitVec.allOnes 32 then s.raise .sequenceExhausted { level := some l } else s
    else s.modLvl l fun w => { w with queue := rest, ctx := some c }

/-- R48, R185: the header of the fragment at the index a context names. -/
def fragmentHeader (l : Level) (c : Context) (f : FrameEntry) (size : Nat) : FragmentHeader :=
  { dst := f.dst, src := f.src, level := l, position := some (fragmentPosition f.len size c.next),
    cipher := c.key.isSome, slot := (c.key.map Prod.fst).getD 0, ptype := f.ptype, index := c.next,
    sequence := (c.key.map Prod.snd).getD 0, total := f.len, len := fragmentLength f.len size c.next }

/-- R49, steps 2 and 3, and R50: the payload of a fragment as sent, enciphered when the context records a
slot. -/
def State.fragmentAsSent (s : State) (l : Level) (c : Context) (f : FrameEntry) : List Byte :=
  let offset := c.next * s.trunk.fragSize
  let plain := s.payloadFrom f offset (fragmentLength f.len s.trunk.fragSize c.next)
  match c.key with
  | none => plain
  | some (k, v) =>
    s.applyKeystream { slot := k, level := l, sequence := v, src := f.src, dst := f.dst } offset plain

/-- R60: a forming failure is counted. -/
def Trunk.countFailure (t : Trunk) : Trunk := { t with formingFailures := bump t.formingFailures }

/-- R55: forming stops on a failing cell. The frame is lost on every holder, the failure is counted and
CELL_CHECK is raised. -/
def State.formingFails (s : State) (l : Level) (e : EntryNo) (cell : CellNo) : State :=
  { s.loseFrame e cell with trunk := (s.loseFrame e cell).trunk.countFailure }.raise .cellCheck
    { level := some l, rule := (s.entryAt e).rule, cell := some cell }

/-- R49, step 4: put a fragment on the line. -/
def State.startFragment (s : State) (f : Fragment) : State :=
  { s with trunk := { s.trunk with inFlight := some f } }

/-- R34, R49, step 1: the cells that the fragment at a context's next index is read from. -/
def State.fragmentCells (s : State) (c : Context) : List CellNo :=
  (s.entryAt c.entry).cellsHolding (c.next * s.trunk.fragSize)
    (fragmentLength (s.entryAt c.entry).len s.trunk.fragSize c.next)

/-- R47 to R49: the fragment at a context's next index. -/
def State.nextFragment (s : State) (l : Level) (c : Context) : Fragment :=
  { level := l
    position := fragmentPosition (s.entryAt c.entry).len s.trunk.fragSize c.next
    index := c.next
    len := fragmentLength (s.entryAt c.entry).len s.trunk.fragSize c.next
    bytes := fragmentBytes (fragmentHeader l c (s.entryAt c.entry) s.trunk.fragSize)
      (s.fragmentAsSent l c (s.entryAt c.entry)) }

/-- R49: form and start the fragment at the index the level's context names. The answer says whether forming
failed on a cell. -/
def State.formFragment (s : State) (l : Level) : Bool × State :=
  match (s.lvl l).ctx with
  | none => (false, s)
  | some c =>
    match s.firstFailing (s.fragmentCells c) with
    | some cell => (true, s.formingFails l c.entry cell)
    | none => (false, s.startFragment (s.nextFragment l c))

/-- R51: start the level's Abort fragment, formed from what the transmitter kept. -/
def State.sendAbort (s : State) (l : Level) (a : AbortAddress) : State :=
  let h : FragmentHeader :=
    { dst := a.dst, src := a.src, level := l, position := some .abort, cipher := false, slot := 0,
      ptype := a.ptype, index := 0, sequence := 0, total := 0, len := 0 }
  s.startFragment { level := l, position := .abort, index := 0, len := 0, bytes := fragmentBytes h [] }

/-- R9: what the winner of an auction sends: its owed Abort, the next fragment of its context frame, or a new
frame. The answer says whether forming failed on a cell. -/
def State.sendLevel (s : State) (l : Level) : Bool × State :=
  match (s.lvl l).abortOwed with
  | some a => (false, s.sendAbort l a)
  | none =>
    if (s.lvl l).ctx.isSome && (s.lvl l).attrs.enable then s.formFragment l
    else (s.startNewFrame l).formFragment l

/-! ### The auction (R8, R9, R56) -/

/-- The auction, and the auctions that follow forming failures (R56). Each failure retires a cell, so there are
at most as many as cells (log 24). -/
def State.auctionRounds : Nat → State → State
  | 0, s => s
  | n + 1, s =>
    if s.trunk.inFlight.isSome || !s.trunk.lineUp then s
    else
      match s.winner with
      | none => s
      | some l =>
        match s.sendLevel l with
        | (true, s) => State.auctionRounds n s
        | (false, s) => s

/-- R8, R9: hold an auction; none is held while a fragment is in flight or the line is Down. -/
def State.auction (s : State) : State := State.auctionRounds (Config.cellCount + 1) s

/-- A level sends by a decision already taken; a forming failure leads to an auction (R55). -/
def State.sendByDecision (s : State) (l : Level) : State :=
  match s.sendLevel l with
  | (true, s) => s.auction
  | (false, s) => s

/-- R8: an auction when one of its triggers has occurred in the step (log 9). -/
def State.dueAuction (s : State) : State := if s.auctionDue then { s.auction with auctionDue := false } else s

/-- A count of freeings that nothing waits for is cleared (log 15). -/
def State.forgetFreed (s : State) : State :=
  if s.cmd.waiting.isEmpty && s.cmd.inHand.isNone then { s with cmd := { s.cmd with freed := 0 } } else s

/-- The end of every step. -/
def State.settle (s : State) : State := s.dueAuction.forgetFreed

/-! ### Completion (R11, R13, R15 to R17, R53) -/

/-- R17: the end of a train, or of a frame when TrainMax is 1: a spacing deadline when Spacing is above 0. -/
def State.endTrain (s : State) (l : Level) : State :=
  s.modLvl l fun v =>
    { v with
      trainCount := 0
      deadline := if 0 < v.attrs.spacing then some (after s.now v.attrs.spacing) else v.deadline }

/-- R16: the frames of the current train that have started, the completed frame among them. -/
def LevelEntry.trainSoFar (v : LevelEntry) : Nat := if v.trainCount = 0 then 1 else v.trainCount

/-- R16: the conditions under which the next queued frame of a level starts at once. -/
def State.trainContinues (s : State) (l : Level) : Bool :=
  (s.lvl l).attrs.trainMax != 1 && decide ((s.lvl l).trainSoFar < (s.lvl l).attrs.trainMax) &&
    !(s.lvl l).queue.isEmpty && (s.lvl l).attrs.enable && !s.barred l && s.ctl.mode != .setup &&
    !s.keyless l && !s.hasWork 0

/-- R16: the next queued frame of a level starts, as a further frame of its train. -/
def State.startNextOfTrain (s : State) (l : Level) : State :=
  (s.startNewFrame l).modLvl l fun w => { w with trainCount := (s.lvl l).trainSoFar + 1 }

/-- R16: the train decision after a completion of a level. -/
def State.trainDecision (s : State) (l : Level) : State :=
  if s.trainContinues l then
    match (s.startNextOfTrain l).formFragment l with
    | (true, s) => s.auction
    | (false, s) => s
  else (s.endTrain l).auction

/-- R15: the last fragment of the context frame of a level has completed. -/
def State.completeFrame (s : State) (l : Level) (c : Context) (fragments : Nat) : State :=
  ((((((s.modLvl l fun v => { v with framesSent := bump v.framesSent }).recordFinish l c fragments
    .sent).release c.entry).modLvl l fun v => { v with ctx := none }).flushComplete l).trainDecision l)

/-- R13, step 3: an auction at the boundary of a level. When the level does not win, its frame is suspended
before the winner sends. -/
def State.boundaryAuction (s : State) (l : Level) : State :=
  match s.winner with
  | none => s.suspend l
  | some w => if w = l then s.sendByDecision l else (s.suspend l).sendByDecision w

/-- R13: the context's next fragment index and bytes sent advance. -/
def State.advance (s : State) (l : Level) (len : Nat) : State :=
  s.modLvl l fun v =>
    { v with ctx := v.ctx.map fun c => { c with next := c.next + 1, sent := c.sent + len } }

/-- R13, steps 0 to 3: what is sent next at a boundary of a level. -/
def State.boundaryDecision (s : State) (l : Level) : State :=
  if isTraffic l && (s.ctl.mode = .setup || s.barred l) then (s.abandon l true).auction
  else if l != 0 && s.hasWork 0 then (s.suspend l).sendByDecision 0
  else if (s.lvl l).attrs.enable && ((s.lvl l).inTrain || !(s.lvl l).attrs.yields) then s.sendByDecision l
  else s.boundaryAuction l

/-- R13: a fragment that is not the last of its frame has completed. -/
def State.boundary (s : State) (l : Level) (len : Nat) : State := (s.advance l len).boundaryDecision l

/-- R60: the egress counters at the completion of a fragment. -/
def Trunk.countCompleted (t : Trunk) (f : Fragment) : Trunk :=
  if f.position = .abort then { t with abortsSent := bump t.abortsSent }
  else { t with
    fragmentsSent := bump t.fragmentsSent
    payloadBytesSent := bumpBy t.payloadBytesSent f.len }

/-- R53: the fragment in flight is counted and the transmitter's record of it is cleared. -/
def State.countFragment (s : State) (f : Fragment) : State :=
  { s with trunk := { s.trunk.countCompleted f with inFlight := none, lastSent := f.bytes } }

/-- R53: what the Level Scheduler does at the completion of a fragment. -/
def State.afterFragment (s : State) (f : Fragment) : State :=
  match f.position with
  | .abort => (s.modLvl f.level fun v => { v with abortOwed := none }).auction
  | .whole | .last =>
    match (s.lvl f.level).ctx with
    | none => s.auction
    | some c => s.completeFrame f.level c (f.index + 1)
  | .first | .middle =>
    match (s.lvl f.level).ctx with
    | none => s.auction
    | some _ => s.boundary f.level f.len

/-- R53: a fragment in flight completes. -/
def State.completeFragment (s : State) (f : Fragment) : State := (s.countFragment f).afterFragment f

end Sys2Proof.Machine
end

