-- ==== Sys2Proof/Machine/StationPorts.lean ====
section
/-! DEFINITION. Station ports (06): what a change of effective state does, receive, jabber, and the waits for
silence and recovery. -/

namespace Sys2Proof.Machine

open Sys2Proof

/-! ### Waits -/

/-- R113: the silence wait starts, when it runs at all. -/
def State.startSilence (s : State) (p : PortNo) : State :=
  s.modPort p fun v =>
    { v with silenceStart :=
        if (s.portState p).receives && decide (0 < v.cfg.silenceTime) then some s.now else none }

/-- R112: the recovery wait starts afresh when the latch is set and the line is silent. -/
def Port.startRecovery (v : Port) (now : Word) : Port :=
  { v with recoveryStart := if v.latch && v.quiet then some now else none }

/-- R112: the recovery wait follows a change of the line: it is broken when the line goes active, and starts
when it falls silent. -/
def Port.watchLine (old new : Port) (now : Word) : Port :=
  if new.latch && old.quiet != new.quiet then new.startRecovery now else new

/-! ### Changes of the effective state (R105, R110) -/

/-- R110: a receive in progress is discarded. It is counted in Drops when storage was held, unless the cause is
jabber. -/
def State.discardReceive (s : State) (p : PortNo) (counted : Bool) : State :=
  match (s.port p).rx with
  | .idle => s
  | .header | .unstored => s.modPort p fun v => { v with rx := .idle }
  | .storing e _ =>
    (s.release e).modPort p fun v =>
      { v with rx := .idle, drops := if counted then bump v.drops else v.drops }

/-- R105: the egress queue is flushed, each entry counted in Drops, and a transmission in progress is ended and
counted in TxAborted. -/
def State.flushEgress (s : State) (p : PortNo) : State :=
  let v := s.port p
  let s := s.modPort p fun v => { v with queue := [], drops := bumpBy v.drops v.queue.length }
  let s := v.queue.foldl State.release s
  match v.tx with
  | none => s
  | some t => (s.release t.entry).modPort p fun v => { v with tx := none, txAborted := bump v.txAborted }

/-- R105: the transmit side of a port that leaves Active and Loopback. -/
def State.leaveTransmit (s : State) (p : PortNo) (old new : PortState) : State :=
  if old.transmits && !new.transmits then s.flushEgress p else s

/-- R105: the receive side of a port that is in neither Active nor Listen. -/
def State.leaveReceive (s : State) (p : PortNo) (new : PortState) : State :=
  if new.receives then s else s.discardReceive p true

/-- R105, R111, R113: a port enters or leaves Active and Listen: the silence wait starts or stops, Silent is
cleared, and jabber is timed from the entry when the line is active. -/
def State.watchReceive (s : State) (p : PortNo) (old new : PortState) : State :=
  if new.receives != old.receives then
    (s.startSilence p).modPort p fun v =>
      { v with
        silent := false
        activeSince := if new.receives && v.rxActive then some s.now else none }
  else s

/-- R105: the port acts on its new effective state, given the one it left. -/
def State.portReacts (s : State) (p : PortNo) (old : PortState) : State :=
  if s.portState p = old then s
  else
    (((s.leaveTransmit p old (s.portState p)).leaveReceive p (s.portState p)).watchReceive p old
      (s.portState p)).startTx p

/-- A change of one port, followed by what the port does when its effective state has changed (R104, R105). -/
def State.changePort (s : State) (p : PortNo) (f : Port → Port) : State :=
  (s.modPort p f).portReacts p (s.portState p)

/-- R111: jabber is detected: the receive is discarded, the latch set, the event counted and raised, and the
port isolated. -/
def State.jabber (s : State) (p : PortNo) : State :=
  ((((s.discardReceive p false).modPort p fun v =>
    ({ v with latch := true, jabberEvents := bump v.jabberEvents }).startRecovery s.now).raise .portJabber
    { port := some p }).portReacts p (s.portState p))

/-! ### Receive (R107, R108) -/

/-- A frame dropped by the port that received it: released, and counted in Drops. -/
def State.dropAt (s : State) (p : PortNo) (e : EntryNo) : State := (s.release e).modPort p .dropped

/-- R107: the frame entry of a station frame. -/
def stationEntry (p : PortNo) (h : StationHeader) : FrameEntry :=
  { origin := .port p, src := h.src, dst := h.dst, classTag := some h.cls,
    ptype := PayloadType.ofCode h.typ.toNat, level := 31, rule := none, label := 0, record := false,
    len := h.len.toNat, cells := [], holders := 1 }

/-- R107: the header is complete. -/
def State.takeHeader (s : State) (p : PortNo) (h : StationHeader) : State :=
  if h.len.toNat = 0 ∨ Config.maxPayload < h.len.toNat then s.jabber p
  else
    match s.allocTraffic (stationEntry p h) with
    | (some e, s) => s.modPort p fun v => { v with rx := .storing e h }
    | (none, s) =>
      (s.modPort p fun v => ({ v with rx := .unstored }).dropped).raise .poolExhausted { port := some p }

/-- R108: how a frame that ends is found: short, long or bad is an error, and good is not. The bytes are those
after the header: payload and CRC-16. -/
def stationFrameGood (h : StationHeader) (bytes : List Byte) : Bool :=
  bytes.length == h.len.toNat + 2 &&
    num2 bytes h.len.toNat == (crc16 (stationHeaderBytes h ++ bytes.take h.len.toNat)).toNat

/-- R108, R113: a good frame is counted, clears Silent and starts the silence wait afresh. -/
def State.countGood (s : State) (p : PortNo) : State :=
  (s.modPort p fun v => { v with rx := .idle, rxFrames := bump v.rxFrames, silent := false }).startSilence p

/-- R107, R108: a receive that ends in error. -/
def State.countRxError (s : State) (p : PortNo) : State :=
  s.modPort p fun v => { v with rx := .idle, rxErrors := bump v.rxErrors }

end Sys2Proof.Machine
end

