-- ==== Sys2Proof/Machine/Classifier.lean ====
section
/-! DEFINITION. Classification, source checking and the destination decision for station frames (05), and what a
port does with a good frame (R109). -/

namespace Sys2Proof.Machine

open Sys2Proof

/-- The rule numbers in ascending order. -/
def allRules : List RuleNo := (List.range 64).map (Fin.ofNat 64)

/-- One rule. -/
def State.rule (s : State) (i : RuleNo) : Rule := s.rules[i.val]

/-- R86: a rule matches a station frame received on a port. An absent class tag is matched as 0. -/
def Rule.fits (r : Rule) (p : PortNo) (f : FrameEntry) : Bool :=
  r.valid && r.portMask.getLsbD p.val &&
    (decide (r.srcLow ≤ f.src) && decide (f.src ≤ r.srcHigh)) &&
    (decide (r.dstLow ≤ f.dst) && decide (f.dst ≤ r.dstHigh)) &&
    (f.classTag.getD 0 &&& r.clsMask) == (r.clsValue &&& r.clsMask) &&
    (decide (r.lenMin ≤ f.len) && decide (f.len ≤ r.lenMax))

/-- R87: the first rule, from index 0 upward, that matches. -/
def State.firstMatch (s : State) (p : PortNo) (f : FrameEntry) : Option RuleNo :=
  allRules.find? fun i => (s.rule i).fits p f

/-- R88: one hit is counted for a rule. -/
def State.countHit (s : State) (i : RuleNo) : State :=
  { s with rules := s.rules.set i.val { s.rule i with hits := bump (s.rule i).hits } i.isLt }

/-- R87: the search and what it writes into the frame entry. The answer says whether the frame passes. -/
def State.classify (s : State) (p : PortNo) (e : EntryNo) : Bool × State :=
  match s.firstMatch p (s.entryAt e) with
  | some i =>
    let r := s.rule i
    let s := s.countHit i
    match r.action with
    | .pass =>
      (true, s.modEntry e fun f =>
        { f with level := r.level, label := r.label, record := r.record, rule := some i })
    | .drop => (false, s.modEntry e fun f => { f with rule := some i })
  | none =>
    let c := (s.port p).cfg
    (c.defaultAction = .pass, s.modEntry e fun f =>
      { f with level := c.defaultLevel, label := 0, record := false, rule := none })

/-- R97, R98: the mode test of port offers: Run, or Fallback on an Essential level. -/
def State.portOffersMade (s : State) (l : Level) : Bool :=
  s.ctl.mode = .run || (s.ctl.mode = .fallback && (s.lvl l).attrs.essential)

/-- R95 to R98, R100: the destination decision for a passed frame of a port. -/
def State.decideDestination (s : State) (p : PortNo) (e : EntryNo) : State :=
  let l := (s.entryAt e).level
  match s.disposition (s.entryAt e).dst with
  | .unassigned | .self => s.dropAt p e
  | .trunk => s.offerAll e [.level l]
  | .port m =>
    if m != p && s.portState m = .active && s.portOffersMade l then s.offerAll e [.port m]
    else s.dropAt p e
  | .broadcast =>
    let others := allPorts.filter fun m => m != p && s.portState m = .active && s.portOffersMade l
    s.offerAll e (.level l :: others.map .port)

/-- R87, R109: a frame of a port is classified and, when it passes, decided. -/
def State.classifyAndDecide (s : State) (p : PortNo) (e : EntryNo) : State :=
  match s.classify p e with
  | (true, s) => s.decideDestination p e
  | (false, s) => s.dropAt p e

/-- R93: the source check of a port. -/
def State.sourcePasses (s : State) (p : PortNo) (f : FrameEntry) : Bool :=
  !(s.port p).cfg.sourceCheck || s.disposition f.src = .port p

/-- R109: a good frame is handled by the first case that applies. -/
def State.handleGood (s : State) (p : PortNo) (e : EntryNo) : State :=
  let f := s.entryAt e
  if !s.sourcePasses p f then s.dropAt p e
  else if f.dst = s.self ∧ f.ptype = .command then
    if (s.port p).cfg.commandsAllowed then s.offerFifo e
    else (s.dropAt p e).raise .accessDenied { port := some p, node := some f.src }
  else if s.portState p = .active then s.classifyAndDecide p e
  else (s.classify p e).2.release e

end Sys2Proof.Machine
end

