-- ==== Sys2Proof/Machine/Ingress.lean ====
section
/-! DEFINITION. The Trunk Receiver (07): reassembly per level, deciphering and dispatch. -/

namespace Sys2Proof.Machine

open Sys2Proof

/-- Change the Trunk Receiver. -/
def State.modRx (s : State) (f : Receiver → Receiver) : State := { s with rx := f s.rx }

/-- The key slot and sequence a fragment's header names, when its cipher flag is 1. -/
def FragmentHeader.key (h : FragmentHeader) : Option (Slot × Word) :=
  if h.cipher then some (h.slot, h.sequence) else none

/-- R126, step 3: the frame entry of a frame from the trunk. -/
def trunkEntry (h : FragmentHeader) : FrameEntry :=
  { origin := .trunk, src := h.src, dst := h.dst, classTag := none, ptype := h.ptype, level := h.level,
    rule := none, label := 0, record := false, len := h.total, cells := [], holders := 1 }

/-- R77, R81: the payload of a fragment deciphered from a byte offset, when its frame is enciphered. -/
def State.decipher (s : State) (l : Level) (src dst : Node) (key : Option (Slot × Word)) (offset : Nat)
    (payload : List Byte) : List Byte :=
  match key with
  | none => payload
  | some (k, v) => s.applyKeystream { slot := k, level := l, sequence := v, src := src, dst := dst } offset payload

/-- R129: the partial frame of a Collecting context is given up; a gap is counted and raised. The context is
left Idle, and the caller says where it goes. -/
def State.giveUpPartial (s : State) (l : Level) (gap : Bool) : State :=
  match s.rxCtx l with
  | .collecting c =>
    let s := (s.release c.entry).setRxCtx l .idle
    if gap then
      (s.modRx fun r => { r with reassemblyGaps := bump r.reassemblyGaps }).raise .reassemblyGap
        { level := some l, node := some c.src }
    else s
  | .idle | .discarding => s

/-- R131: line Down and Setup entry end every reassembly. -/
def State.endReassembly (s : State) : State :=
  allLevels.foldl (fun s l =>
    match s.rxCtx l with
    | .collecting _ =>
      (s.giveUpPartial l false).modRx fun r => { r with partialsDiscarded := bump r.partialsDiscarded }
    | .idle | .discarding => s.setRxCtx l .idle) s

/-- R133: a complete frame dropped by the receiver. -/
def State.dropDispatch (s : State) (e : EntryNo) : State :=
  (s.release e).modRx fun r => { r with dispatchDrops := bump r.dispatchDrops }

/-- R133, step 4, R134 to R136: a complete frame is dispatched by the disposition of its destination. -/
def State.dispatch (s : State) (e : EntryNo) : State :=
  let f := s.entryAt e
  match s.disposition f.dst with
  | .self => if f.ptype = .command then s.offerFifo e else s.dropDispatch e
  | .port m => s.offerAll e [.port m]
  | .broadcast =>
    match allPorts.filter fun m => s.portState m = .active with
    | [] => s.dropDispatch e
    | ms => s.offerAll e (ms.map .port)
  | .trunk | .unassigned => s.dropDispatch e

/-- R82, R133, step 1: the sequence of an enciphered frame received whole is recorded. -/
def State.recordSequence (s : State) (l : Level) : Option (Slot × Word) → State
  | some (k, v) => s.recordAccepted k l v
  | none => s

/-- R133, steps 3 and 4: in Fallback a frame of a level that is not Essential is dropped. -/
def State.dispatchUnlessBarred (s : State) (l : Level) (e : EntryNo) : State :=
  if s.barred l then s.dropDispatch e else s.dispatch e

/-- R133: a frame has been received whole. -/
def State.finishFrame (s : State) (l : Level) (e : EntryNo) (key : Option (Slot × Word)) : State :=
  (((s.recordSequence l key).modRx fun r => { r with framesReceived := bump r.framesReceived }).dispatchUnlessBarred
    l e).setRxCtx l .idle

/-- R80: whether a First or Whole fragment may be collected: a plain one is not put to the Cipher Unit. -/
def State.acceptsFragment (s : State) (h : FragmentHeader) : Bool :=
  !h.cipher || s.acceptsSequence h.slot h.level h.sequence

/-- R80: a rejected First or Whole fragment leaves its context Discarding. -/
def State.rejectFragment (s : State) (h : FragmentHeader) : State :=
  (s.setRxCtx h.level .discarding).rejectCipher h.level h.src

/-- R126: a First fragment starts a frame; its context is not Collecting. -/
def State.startFrame (s : State) (h : FragmentHeader) (payload : List Byte) : State :=
  if !s.acceptsFragment h then s.rejectFragment h
  else
    match s.allocTraffic (trunkEntry h) with
    | (none, s) => (s.setRxCtx h.level .discarding).raise .poolExhausted { level := some h.level }
    | (some e, s) =>
      (s.writePayload e 0 (s.decipher h.level h.src h.dst h.key 0 payload)).setRxCtx h.level
        (.collecting { entry := e, src := h.src, dst := h.dst, ptype := h.ptype, total := h.total,
                       expected := 1, received := h.len, key := h.key })

/-- R127: a Whole fragment is processed; its context is Idle. -/
def State.processWhole (s : State) (h : FragmentHeader) (payload : List Byte) : State :=
  if !s.acceptsFragment h then s.rejectFragment h
  else
    match s.allocTraffic (trunkEntry h) with
    | (none, s) => s.raise .poolExhausted { level := some h.level }
    | (some e, s) =>
      (s.writePayload e 0 (s.decipher h.level h.src h.dst h.key 0 payload)).finishFrame h.level e h.key

/-- R128: a Middle or Last fragment belongs to the frame being collected. -/
def Collect.belongs (c : Collect) (h : FragmentHeader) (last : Bool) : Bool :=
  h.index == c.expected && h.src == c.src && h.dst == c.dst && h.ptype == c.ptype && h.total == c.total &&
    h.key == c.key &&
    (if last then c.received + h.len == c.total else decide (c.received + h.len < c.total))

/-- R128: a fragment that belongs is deciphered and appended; a Last completes the frame. -/
def State.append (s : State) (c : Collect) (h : FragmentHeader) (payload : List Byte) (last : Bool) : State :=
  let s := s.writePayload c.entry c.received (s.decipher h.level c.src c.dst c.key c.received payload)
  if last then s.finishFrame h.level c.entry c.key
  else
    s.setRxCtx h.level
      (.collecting { c with expected := c.expected + 1, received := c.received + h.len })

/-- R125: a Middle or Last fragment reaches its context. -/
def State.continueFrame (s : State) (h : FragmentHeader) (payload : List Byte) (last : Bool) : State :=
  match s.rxCtx h.level with
  | .idle => s.modRx fun r => { r with strayFragments := bump r.strayFragments }
  | .discarding => s
  | .collecting c =>
    if c.belongs h last then s.append c h payload last
    else (s.giveUpPartial h.level true).setRxCtx h.level .discarding

/-- R125: a well-formed fragment that the filter passed is handled by the context of its level. -/
def State.handleFragment (s : State) (h : FragmentHeader) (payload : List Byte) : State :=
  match h.position with
  | some .whole => ((s.giveUpPartial h.level true).setRxCtx h.level .idle).processWhole h payload
  | some .first => ((s.giveUpPartial h.level true).setRxCtx h.level .idle).startFrame h payload
  | some .middle => s.continueFrame h payload false
  | some .last => s.continueFrame h payload true
  | some .abort =>
    ((s.giveUpPartial h.level false).setRxCtx h.level .idle).modRx fun r =>
      { r with abortsReceived := bump r.abortsReceived }
  | none => s

/-- R122 to R124: the checks on every fragment, and the filter of Setup. -/
def State.receiveFragment (s : State) (bytes : List Byte) : State :=
  if !fragmentCrcGood bytes then s.modRx fun r => { r with crcErrors := bump r.crcErrors }
  else
    let h := FragmentHeader.parse bytes
    let s := s.modRx fun r => { r with fragmentsReceived := bump r.fragmentsReceived }
    if fragmentMalformed bytes h then s.modRx fun r => { r with formatErrors := bump r.formatErrors }
    else if s.ctl.mode = .setup ∧ s.disposition h.dst ≠ .self then
      s.modRx fun r => { r with setupIgnored := bump r.setupIgnored }
    else s.handleFragment h (fragmentPayload bytes)

end Sys2Proof.Machine
end

