-- ==== Sys2Proof/Machine/Modes.lean ====
section
/-! DEFINITION. The Mode Controller (09): the entries to each mode and the three resets. -/

namespace Sys2Proof.Machine

open Sys2Proof

/-- R162, R163: a reset is taken: all work under way ends and Init begins. The pins and the queue of commands
that wait are not the part's. -/
def State.enterInit (s : State) (cause : ResetCause) : State :=
  State.blank .init cause s.ctl.straps s.pins s.pending

/-- Every port acts on the change of its effective state since an earlier state (R105). -/
def State.portsReact (s old : State) : State :=
  allPorts.foldl (fun s p => s.portReacts p (old.portState p)) s

/-- R167: entry to Setup from Run or Fallback. -/
def State.enterSetup (s : State) : State :=
  let t := { s with ctl := { s.ctl with mode := .setup, mark := none } }
  let t := t.portsReact s
  let t := trafficLevels.foldl State.bar t
  t.endReassembly.triggerAuction

/-- R168: entry to Run from Setup or Fallback. -/
def State.enterRun (s : State) : State :=
  let t := { s with ctl := { s.ctl with
    mode := .run
    mark := if 0 < s.ctl.period then some s.now else none } }
  (t.portsReact s).triggerAuction

/-- R21: a level is barred on entry to Fallback when it is not Essential. -/
def State.barUnlessEssential (s : State) (l : Level) : State :=
  if (s.lvl l).attrs.essential then s else s.bar l

/-- R169: entry to Fallback from Run. -/
def State.enterFallback (s : State) : State :=
  let t := { s with ctl := { s.ctl with mode := .fallback, mark := none, refreshSeen := false } }
  (trafficLevels.foldl State.barUnlessEssential t).triggerAuction

end Sys2Proof.Machine
end

