-- ==== Sys2Proof/Machine/Commands.lean ====
section
/-! DEFINITION. The Command Unit's step, shared by every command: taking the head of the FIFO, the attempt, its
checks and its response (08). -/

namespace Sys2Proof.Machine

open Sys2Proof

/-- What a step answers. -/
abbrev Result := Host.Outcome State Fault Refusal

/-- The end of a step that goes on: the auction its triggers call for, and the next state. -/
def State.done (s : State) : Result := .next s.settle

/-- What a command that passed the Command Unit's checks comes to: a response with its status and results, or a
long operation that becomes pending. -/
inductive Reply where
  | answer (st : Status) (results : List Byte) (s : State)
  | pend (op : LongOp) (s : State)

/-- A command's own checks and action: the frame, the part as the attempt found it, and the part with the
attempt's storage taken (R142, R156). -/
abbrev CommandAct := CommandFrame → State → State → Reply

/-- A command's own checks, in order: the first that is met refuses it. -/
def firstRefusal (checks : List (Bool × Status)) : Option Status :=
  (checks.find? fun x => x.1).map fun x => x.2

/-! ### Taking (R142) -/

/-- R142: the frame whose turn it is, and the state with it in hand: the head of the FIFO when it may be taken,
or the command in hand when a freeing calls for another try. -/
def State.takeNext (s : State) : Option (EntryNo × State) :=
  match s.cmd.inHand with
  | some e =>
    if s.retryDue && s.cmd.waiting.isEmpty then
      some (e, { s with cmd := { s.cmd with freed := s.cmd.freed - 1 } })
    else none
  | none =>
    if s.canTake then
      match s.cmd.fifo with
      | [] => none
      | e :: rest =>
        some (e, { s with cmd := { s.cmd with
          fifo := rest, inHand := some e, commandsTaken := bump s.cmd.commandsTaken } })
    else none

/-! ### The response of an attempt -/

/-- R142: the response is filled and routed, and the command frame's entry is released. -/
def State.finish (s : State) (c : CommandFrame) (e : EntryNo) (st : Status) (results : List Byte) : State :=
  let s := s.fillResponse e (responsePayload c.code c.tag st results)
  let s := { s with cmd := { s.cmd with inHand := none } }
  (s.routeResponse e c.sender).release c.entry

/-- R152: an accepted long operation is recorded; the attempt's storage and the command frame are released. -/
def State.recordLongOp (s : State) (c : CommandFrame) (e : EntryNo) (op : LongOp) : State :=
  let r : LongRecord := { op := op, tag := c.tag, sender := c.sender, node := c.node }
  let s := { s with cmd := { s.cmd with inHand := none, longOps := s.cmd.longOps ++ [r] } }
  (s.release e).release c.entry

/-! ### Checks 1 to 4 (R144, R145, R146, R187) -/

/-- R145: a denied command is counted and raises ACCESS_DENIED with the origin port. -/
def State.deny (s : State) (c : CommandFrame) : State :=
  { s with cmd := { s.cmd with commandsDenied := bump s.cmd.commandsDenied } }.raise .accessDenied
    { port := c.sender.port, node := some c.node }

/-- R144: access, mode and the number of argument bytes. A refusal comes with the state after the faults and
counts it calls for. -/
def State.precheck (s : State) (k : Command) (c : CommandFrame) : Option (Status × State) :=
  if !s.mayGive k c.args c.sender then some (.denied, s.deny c)
  else if !k.takenIn s.ctl.mode then
    some (.wrongMode,
      if k = .writeSupervision then
        s.raise .supervisionChange { port := c.sender.port, node := some c.node }
      else s)
  else if !k.argsFit c.args then some (.badValue, s)
  else none

/-- R142: one attempt. Without storage for a response nothing else changes and the command stays in hand. -/
def State.attempt (s : State) (k : Command) (c : CommandFrame) (act : CommandAct) : State :=
  match s.allocReserve Config.attemptCells (s.responseEntry c.node) with
  | (none, t) => t
  | (some e, t) =>
    match t.precheck k c with
    | some (st, t) => t.finish c e st []
    | none =>
      match act c s t with
      | .answer st results t => t.finish c e st results
      | .pend op t => t.recordLongOp c e op

/-- R144, check 1: a code that names no command. -/
def State.attemptUnknown (s : State) (c : CommandFrame) : State :=
  match s.allocReserve Config.attemptCells (s.responseEntry c.node) with
  | (none, t) => t
  | (some e, t) => t.finish c e .unknownCommand []

/-- The frame whose turn it is, read as a command, and the state with it in hand. -/
def State.nextCommand (s : State) : Option (CommandFrame × State) :=
  s.takeNext.bind fun x => (x.2.commandFrame x.1).map fun c => (c, x.2)

/-- The step of a command: the frame whose turn it is, when it carries the command's code. A step that is not
this frame's changes nothing (log 2). -/
def State.runCommand (s : State) (k : Command) (act : CommandAct) : Result :=
  match s.nextCommand with
  | none => .next s
  | some (c, t) => if c.code.toNat = k.code then (t.attempt k c act).done else .next s

end Sys2Proof.Machine
end

