-- ==== Sys2Proof/Machine/KeyCommands.lean ====
section
/-! DEFINITION. LOAD_KEY, ERASE_KEY, SELECT_SLOT, KEY_CHECK, READ_KEY_STATE (04). -/

namespace Sys2Proof.Machine

open Sys2Proof

/-- The slot a key command names. -/
def CommandFrame.slot (c : CommandFrame) : Slot := Fin.ofNat 2 (c.arg 0)

/-- R68: the argument check and the Cipher Unit's checks of LoadKey and EraseKey. -/
def State.keyRefusal (s : State) (c : CommandFrame) : Option Status :=
  if 1 < c.arg 0 then some .badIndex else s.keyBusy c.slot

/-- R69: LoadKey. -/
def actLoadKey : CommandAct := fun c _ s =>
  match s.keyRefusal c with
  | some st => .answer st [] s
  | none => .pend (.loadKey c.slot) (s.setSlot c.slot (.expanding (blockOf (c.args.drop 1)) s.now))

/-- LOAD_KEY. -/
def execLoadKey (s : State) : Result := s.runCommand .loadKey actLoadKey

/-- R72: EraseKey. -/
def actEraseKey : CommandAct := fun c _ s =>
  match s.keyRefusal c with
  | some st => .answer st [] s
  | none => .answer .ok [] ((s.setSlot c.slot .empty).resetSequences c.slot)

/-- ERASE_KEY. -/
def execEraseKey (s : State) : Result := s.runCommand .eraseKey actEraseKey

/-- R73: SelectSlot. -/
def actSelectSlot : CommandAct := fun c _ s =>
  match firstRefusal [(decide (1 < c.arg 0), .badIndex), (!s.slotReady c.slot, .noKey)] with
  | some st => .answer st [] s
  | none => .answer .ok [] { s with cipher := { s.cipher with active := c.slot } }.triggerAuction

/-- SELECT_SLOT. -/
def execSelectSlot (s : State) : Result := s.runCommand .selectSlot actSelectSlot

/-- R74: KeyCheck. -/
def actKeyCheck : CommandAct := fun c _ s =>
  match firstRefusal [(decide (1 < c.arg 0), .badIndex), (!s.slotReady c.slot, .noKey)] with
  | some st => .answer st [] s
  | none => .answer .ok (keyCheckValue (s.keyOf c.slot)) s

/-- KEY_CHECK. -/
def execKeyCheck (s : State) : Result := s.runCommand .keyCheck actKeyCheck

/-- R75: the levels whose TxSequence for a slot is Exhausted, bit k for level k. -/
def State.exhaustedLevels (s : State) (k : Slot) : Word :=
  allLevels.foldl (fun w l =>
    if (s.lvl l).txSeq[k.val] = .exhausted then w ||| (1#32 <<< l.val) else w) 0

/-- R75, R188: the results of ReadKeyState. -/
def State.keyReport (s : State) : List Byte :=
  [byteOf s.cipher.active.val, byteOf (s.slot 0).code, byteOf (s.slot 1).code,
    byteOf (s.contextsOn 0), byteOf (s.contextsOn 1), byteOf (s.collectingOn 0), byteOf (s.collectingOn 1)] ++
    bytes4 (s.exhaustedLevels 0) ++ bytes4 (s.exhaustedLevels 1) ++ [byteOf s.cipherLevels] ++
    bytes4 s.cipher.rejects

/-- R75: ReadKeyState. -/
def actReadKeyState : CommandAct := fun _ _ s => .answer .ok s.keyReport s

/-- READ_KEY_STATE. -/
def execReadKeyState (s : State) : Result := s.runCommand .readKeyState actReadKeyState

end Sys2Proof.Machine
end

