-- ==== Sys2Proof/Machine/LevelCommands.lean ====
section
/-! DEFINITION. READ_LEVEL, WRITE_LEVEL, FLUSH_LEVEL (01). -/

namespace Sys2Proof.Machine

open Sys2Proof

/-- R188: the attribute flags. -/
def Attrs.flags (a : Attrs) : Byte := flagsByte [a.enable, a.yields, a.cipher, a.record, a.essential]

/-- R188: next fragment index, bytes sent and suspension count; 0 when no context is present. -/
def contextBytes : Option Context → List Byte
  | none => [0, 0, 0, 0]
  | some c => [byteOf c.next] ++ bytes2 c.sent ++ [byteOf c.suspensions]

/-- R24, R188: the level report. -/
def State.levelReport (s : State) (l : Level) : List Byte :=
  let v := s.lvl l
  [v.attrs.flags] ++ bytes2 v.attrs.spacing ++ [byteOf v.attrs.trainMax, byteOf v.attrs.queueLimit] ++
    [byteOf (s.levelState l).code, byteOf v.queue.length,
      flagsByte [v.ctx.isSome, (v.ctx.bind Context.key).isSome, v.abortOwed.isSome, v.deadline.isSome,
        v.flushPending.isSome]] ++
    contextBytes v.ctx ++ [byteOf v.trainCount] ++
    bytes4 (match v.deadline with
      | some d => d - s.now
      | none => 0) ++
    bytes4 v.framesSent ++ bytes4 v.framesDropped ++ bytes4 v.framesAborted

/-- R24: ReadLevel. -/
def actReadLevel : CommandAct := fun c _ s =>
  if 31 < c.arg 0 then .answer .badIndex [] s
  else .answer .ok (s.levelReport (Fin.ofNat 32 (c.arg 0))) s

/-- READ_LEVEL. -/
def execReadLevel (s : State) : Result := s.runCommand .readLevel actReadLevel

/-- R188: the attributes a WriteLevel carries. -/
def CommandFrame.attrs (c : CommandFrame) : Attrs :=
  { enable := c.argBit 1 0, yields := c.argBit 1 1, cipher := c.argBit 1 2, record := c.argBit 1 3,
    essential := c.argBit 1 4, spacing := c.arg2 2, trainMax := c.arg 4, queueLimit := c.arg 5 }

/-- R2, R3: all eight attributes of a level are replaced; in Fallback a level that is no longer Essential is barred
at once. -/
def State.replaceAttrs (s : State) (l : Level) (a : Attrs) : State :=
  if s.ctl.mode = .fallback ∧ (s.lvl l).attrs.essential ∧ !a.essential then
    (s.modLvl l fun v => { v with attrs := a }).bar l
  else s.modLvl l fun v => { v with attrs := a }

/-- R2, R3: an accepted WriteLevel: all eight attributes are replaced; in Fallback a level that is no longer
Essential is barred at once; a level that becomes Eligible triggers an auction. -/
def State.writeAttrs (s : State) (l : Level) (a : Attrs) : State :=
  if !s.hasWork l && (s.replaceAttrs l a).hasWork l then (s.replaceAttrs l a).triggerAuction
  else s.replaceAttrs l a

/-- R2: WriteLevel. -/
def actWriteLevel : CommandAct := fun c _ s =>
  match firstRefusal
      [(decide (c.arg 0 < 2) || decide (31 < c.arg 0), .badIndex),
       (c.arg 4 == 0 || decide (16 < c.arg 4), .badValue), (decide (31 < c.arg 1), .badValue)] with
  | some st => .answer st [] s
  | none => .answer .ok [] (s.writeAttrs (Fin.ofNat 32 (c.arg 0)) c.attrs)

/-- WRITE_LEVEL. -/
def execWriteLevel (s : State) : Result := s.runCommand .writeLevel actWriteLevel

/-- R19: an accepted FlushLevel. -/
def State.flush (s : State) (l : Level) (c : CommandFrame) : Reply :=
  let s := s.emptyQueue l
  if (s.lvl l).ctx.isNone then .answer .ok [] s
  else if s.sending l then
    .pend (.flushLevel l)
      (s.modLvl l fun v => { v with flushPending := some { tag := c.tag, sender := c.sender } })
  else .answer .ok [] (s.abandon l true)

/-- R19: FlushLevel. -/
def actFlushLevel : CommandAct := fun c _ s =>
  let l : Level := Fin.ofNat 32 (c.arg 0)
  match firstRefusal
      [(decide (c.arg 0 < 2) || decide (31 < c.arg 0), .badIndex),
       ((s.lvl l).flushPending.isSome, .busy)] with
  | some st => .answer st [] s
  | none => s.flush l c

/-- FLUSH_LEVEL. -/
def execFlushLevel (s : State) : Result := s.runCommand .flushLevel actFlushLevel

end Sys2Proof.Machine
end

