-- ==== Sys2Proof/Machine/LogCommands.lean ====
section
/-! DEFINITION. READ_RECORDS, READ_FAULTS, CLEAR_FAULTS, WRITE_NOTICE_CONFIG, CLEAR_COUNTERS, WRITE_ACCESS
(03, 10, 08). -/

namespace Sys2Proof.Machine

open Sys2Proof

/-! ### Records and faults -/

/-- R64: ReadRecords removes the oldest records and clears LogOverflow. -/
def actReadRecords : CommandAct := fun c _ s =>
  let n := c.arg 0
  if n = 0 ∨ 8 < n then .answer .badValue [] s
  else
    let taken := s.trunk.log.take n
    let left := s.trunk.log.drop n
    .answer .ok
      ([byteOf taken.length, flagsByte [s.trunk.logOverflow], byteOf left.length] ++
        taken.flatMap EgressRecord.bytes)
      { s with trunk := { s.trunk with log := left, logOverflow := false } }

/-- READ_RECORDS. -/
def execReadRecords (s : State) : Result := s.runCommand .readRecords actReadRecords

/-- R183, R188: the fault report. -/
def State.faultReport (s : State) : List Byte :=
  s.fault.summary.bytes ++ [flagsByte [s.fault.captured.isSome]] ++ captureBytes s.fault.captured ++
    [s.fault.noticeNode] ++ s.fault.noticeKinds.bytes ++ [byteOf s.heldNotices.length] ++ s.heldKinds.bytes

/-- R183: ReadFaults. -/
def actReadFaults : CommandAct := fun _ _ s => .answer .ok s.faultReport s

/-- READ_FAULTS. -/
def execReadFaults (s : State) : Result := s.runCommand .readFaults actReadFaults

/-- R178: ClearFaults. -/
def actClearFaults : CommandAct := fun _ _ s =>
  .answer .ok [] { s with fault := { s.fault with summary := 0, captured := none } }

/-- CLEAR_FAULTS. -/
def execClearFaults (s : State) : Result := s.runCommand .clearFaults actClearFaults

/-- R179, R187: WriteNoticeConfig; bits 13 to 15 of the kind set must be 0. -/
def actWriteNoticeConfig : CommandAct := fun c _ s =>
  let kinds := c.arg2 1
  if 0x2000 ≤ kinds then .answer .badValue [] s
  else .answer .ok []
    { s with fault := { s.fault with noticeNode := byteOf (c.arg 0), noticeKinds := BitVec.ofNat 16 kinds } }

/-- WRITE_NOTICE_CONFIG. -/
def execWriteNoticeConfig (s : State) : Result := s.runCommand .writeNoticeConfig actWriteNoticeConfig

/-! ### Counters (R154) -/

/-- R88: every hit counter becomes 0. -/
def clearHits (rules : Vector Rule 64) : Vector Rule 64 := mapTable (fun r => { r with hits := 0 }) rules

/-- R23: the three counters of a level become 0. -/
def LevelEntry.cleared (v : LevelEntry) : LevelEntry :=
  { v with framesSent := 0, framesDropped := 0, framesAborted := 0 }

/-- R119: the six counters of a port become 0. -/
def Port.cleared (v : Port) : Port :=
  { v with rxFrames := 0, rxErrors := 0, drops := 0, txFrames := 0, txAborted := 0, jabberEvents := 0 }

/-- R43: the store counters become 0. -/
def Store.cleared (st : Store) : Store :=
  { st with allocRefusals := 0, cellCheckFailures := 0, framesLostToCheck := 0 }

/-- R60: the trunk egress counters become 0. -/
def Trunk.cleared (t : Trunk) : Trunk :=
  { t with fragmentsSent := 0, payloadBytesSent := 0, abortsSent := 0, fragmentsLost := 0, lineDowns := 0,
           formingFailures := 0 }

/-- R138: the trunk ingress counters become 0. -/
def Receiver.cleared (r : Receiver) : Receiver :=
  { r with fragmentsReceived := 0, crcErrors := 0, formatErrors := 0, setupIgnored := 0,
           strayFragments := 0, reassemblyGaps := 0, abortsReceived := 0, partialsDiscarded := 0,
           framesReceived := 0, dispatchDrops := 0 }

/-- R160: the Command Unit counters become 0. -/
def CommandUnit.cleared (u : CommandUnit) : CommandUnit :=
  { u with commandsTaken := 0, commandOverruns := 0, commandsDenied := 0, responsesUnsent := 0,
           malformedCommands := 0 }

/-- R154: the counters of a region become 0. -/
def State.clearRegion (s : State) : Region → State
  | .rules => { s with rules := clearHits s.rules }
  | .nodeMap => s
  | .levels => { s with levels := mapTable LevelEntry.cleared s.levels }
  | .ports => { s with ports := mapTable Port.cleared s.ports }
  | .keys => { s with cipher := { s.cipher with rejects := 0 } }
  | .mode => { s with store := s.store.cleared, trunk := s.trunk.cleared, rx := s.rx.cleared }
  | .logs => { s with cmd := s.cmd.cleared }

/-- R154: ClearCounters. -/
def actClearCounters : CommandAct := fun c _ s =>
  match Region.ofCode (c.arg 0) with
  | none => .answer .badIndex [] s
  | some r => .answer .ok [] (s.clearRegion r)

/-- CLEAR_COUNTERS. -/
def execClearCounters (s : State) : Result := s.runCommand .clearCounters actClearCounters

/-! ### Access (R155) -/

/-- R155: WriteAccess. -/
def actWriteAccess : CommandAct := fun c _ s =>
  match Region.ofCode (c.arg 0), Access.ofCode (c.arg 1) with
  | none, _ => .answer .badIndex [] s
  | some _, none => .answer .badValue [] s
  | some r, some a =>
    .answer .ok [] { s with cmd := { s.cmd with access := s.cmd.access.set r.code.val a r.code.isLt } }

/-- WRITE_ACCESS. -/
def execWriteAccess (s : State) : Result := s.runCommand .writeAccess actWriteAccess

end Sys2Proof.Machine
end

