-- ==== Sys2Proof/Machine/ModeCommands.lean ====
section
/-! DEFINITION. READ_STATUS, SET_MODE, REFRESH, WRITE_SUPERVISION, SET_TRUNK_CONFIG, RESET_PART (08, 09, 03). -/

namespace Sys2Proof.Machine

open Sys2Proof

/-! ### ReadStatus (R156, R188) -/

/-- The Part group, 19 bytes. -/
def State.partReport (s : State) : List Byte :=
  [byteOf s.ctl.mode.code, byteOf s.ctl.cause.code, s.ctl.straps, s.self,
    flagsByte [s.strapsUsable, s.ctl.window, s.ctl.refreshSeen, s.ctl.mark.isSome]] ++
    bytes2 s.ctl.period ++ bytes4 (BitVec.ofNat 32 s.toDeadline) ++ bytes4 (BitVec.ofNat 32 s.toWindow) ++
    bytes4 s.now

/-- The Frame Store group, 18 bytes (R43). -/
def Store.report (st : Store) : List Byte :=
  bytes2 st.freeEntries.length ++ bytes2 st.freeCells.length ++ bytes2 st.retired.length ++
    bytes4 st.allocRefusals ++ bytes4 st.cellCheckFailures ++ bytes4 st.framesLostToCheck

/-- The Trunk egress group, 29 bytes (R65). -/
def Trunk.report (t : Trunk) : List Byte :=
  [flagsByte [t.lineUp, t.logOverflow]] ++ bytes2 t.fragSize ++
    [numOr255 (t.inFlight.map fun f => f.level.val), byteOf t.log.length] ++
    bytes4 t.fragmentsSent ++ bytes4 t.payloadBytesSent ++ bytes4 t.abortsSent ++ bytes4 t.fragmentsLost ++
    bytes4 t.lineDowns ++ bytes4 t.formingFailures

/-- Four reassembly states of 2 bits each, the first in bits 7–6. -/
def State.reassemblyByte (s : State) (i : Nat) : Byte :=
  let code := fun (j : Nat) => (s.rxCtx (Fin.ofNat 32 (4 * i + j))).code
  byteOf (code 0 * 64 + code 1 * 16 + code 2 * 4 + code 3)

/-- The Trunk ingress group, 48 bytes (R138). -/
def State.ingressReport (s : State) : List Byte :=
  bytes4 s.rx.fragmentsReceived ++ bytes4 s.rx.crcErrors ++ bytes4 s.rx.formatErrors ++
    bytes4 s.rx.setupIgnored ++ bytes4 s.rx.strayFragments ++ bytes4 s.rx.reassemblyGaps ++
    bytes4 s.rx.abortsReceived ++ bytes4 s.rx.partialsDiscarded ++ bytes4 s.rx.framesReceived ++
    bytes4 s.rx.dispatchDrops ++ (List.range 8).map s.reassemblyByte

/-- The Command Unit group, 51 bytes. DESIGN CHOICE: R188 gives the four pending records no order; the oldest accepted
comes first and the unused ones, all 0, last (log 31). -/
def State.commandReport (s : State) : List Byte :=
  let records := (s.cmd.longOps.take 4).flatMap LongRecord.bytes
  [byteOf s.cmd.fifo.length, byteOf s.outstanding, byteOf s.cmd.waiting.length, byteOf s.cmd.longOps.length] ++
    records ++ List.replicate (20 - records.length) 0 ++
    s.cmd.access.toList.map (fun a => byteOf a.code) ++
    bytes4 s.cmd.commandsTaken ++ bytes4 s.cmd.commandOverruns ++ bytes4 s.cmd.commandsDenied ++
    bytes4 s.cmd.responsesUnsent ++ bytes4 s.cmd.malformedCommands

/-- R188: the status report, 165 bytes. -/
def State.statusReport (s : State) : List Byte :=
  s.partReport ++ s.store.report ++ s.trunk.report ++ s.ingressReport ++ s.commandReport

/-- R156: ReadStatus reports the part as the attempt found it, the command in hand counted as outstanding. -/
def actReadStatus : CommandAct := fun _ found s => .answer .ok found.statusReport s

/-- READ_STATUS. -/
def execReadStatus (s : State) : Result := s.runCommand .readStatus actReadStatus

/-! ### Mode and supervision (R166, R170, R172) -/

/-- R166: SetMode, by the current mode and the mode named. -/
def actSetMode : CommandAct := fun c _ s =>
  match c.arg 0, s.ctl.mode with
  | 1, .run | 1, .fallback => .answer .ok [] s.enterSetup
  | 2, .setup => if s.strapsUsable then .answer .ok [] s.enterRun else .answer .wrongMode [] s
  | 2, .fallback =>
    if s.ctl.period = 0 ∨ s.ctl.refreshSeen then .answer .ok [] s.enterRun
    else .answer .notRefreshed [] s
  | 3, .setup => .answer .wrongMode [] s
  | 3, .run => .answer .ok [] s.enterFallback
  | 1, _ | 2, _ | 3, _ => .answer .ok [] s
  | _, _ => .answer .badValue [] s

/-- SET_MODE. -/
def execSetMode (s : State) : Result := s.runCommand .setMode actSetMode

/-- R172: a Refresh in Run with the window set is early before half the period has passed. -/
def State.refreshEarly (s : State) : Bool :=
  s.ctl.window && s.sinceMark.any fun e => decide (e < s.ctl.period * 500)

/-- R172: Refresh. -/
def actRefresh : CommandAct := fun _ _ s =>
  match s.ctl.mode with
  | .init | .setup => .answer .ok [] s
  | .run =>
    if s.ctl.period = 0 then .answer .ok [] s
    else if s.refreshEarly then .answer .early [] (s.enterFallback.raise .supervisionEarly)
    else .answer .ok [] { s with ctl := { s.ctl with mark := some s.now } }
  | .fallback => .answer .ok [] { s with ctl := { s.ctl with refreshSeen := true } }

/-- REFRESH. -/
def execRefresh (s : State) : Result := s.runCommand .refresh actRefresh

/-- R170: WriteSupervision; in Run the mode check has refused it (R146). -/
def actWriteSupervision : CommandAct := fun c _ s =>
  if 1 < c.arg 2 then .answer .badValue [] s
  else .answer .ok [] { s with ctl := { s.ctl with period := c.arg2 0, window := c.arg 2 == 1 } }

/-- WRITE_SUPERVISION. -/
def execWriteSupervision (s : State) : Result := s.runCommand .writeSupervision actWriteSupervision

/-- R46: SetTrunkConfig; outside Setup the mode check has refused it (R146). -/
def actSetTrunkConfig : CommandAct := fun c _ s =>
  let size := c.arg2 0
  match firstRefusal
      [(size != 64 && size != 128 && size != 256, .badValue),
       (allLevels.any fun l => (s.lvl l).ctx.isSome, .busy)] with
  | some st => .answer st [] s
  | none => .answer .ok [] { s with trunk := { s.trunk with fragSize := size } }

/-- SET_TRUNK_CONFIG. -/
def execSetTrunkConfig (s : State) : Result := s.runCommand .setTrunkConfig actSetTrunkConfig

/-! ### ResetPart (R157) -/

/-- A ResetPart with storage for a response comes from a station, and the access check has denied it. -/
def actResetPart : CommandAct := fun _ _ s => .answer .denied [] s

/-- RESET_PART (R157): a ResetPart from the trunk asks for no storage, and starts Init with no response. From a
station it is answered DENIED like any refusal. -/
def execResetPart (s : State) : Result :=
  match s.nextCommand with
  | none => .next s
  | some (c, t) =>
    if c.code.toNat = Command.resetPart.code then
      if c.sender = .trunk then .next (t.enterInit .resetCommand)
      else (t.attempt .resetPart c actResetPart).done
    else .next s

end Sys2Proof.Machine
end

