-- ==== Sys2Proof/Machine/PortCommands.lean ====
section
/-! DEFINITION. READ_PORT, WRITE_PORT_CONFIG, SET_PORT_MODE (06). -/

namespace Sys2Proof.Machine

open Sys2Proof

/-- R188: the configuration flags. -/
def PortConfig.flags (c : PortConfig) : Byte :=
  flagsByte [c.defaultAction.isDrop, c.sourceCheck, c.commandsAllowed, c.autoRecover]

/-- R119, R188: the port report. -/
def State.portReport (s : State) (p : PortNo) : List Byte :=
  let v := s.port p
  let levels := v.queue.map fun e => (s.entryAt e).level.val
  [byteOf v.cfg.mode.code, v.cfg.flags, byteOf v.cfg.defaultLevel.val, byteOf v.cfg.silenceTime,
    byteOf (s.portState p).code,
    flagsByte [v.latch, v.silent, v.lineUp, v.rxActive, v.rx != .idle, v.tx.isSome],
    byteOf v.queue.length, numOr255 levels.min?, numOr255 levels.max?,
    numOr255 (v.tx.map fun t => (s.entryAt t.entry).level.val)] ++
    bytes4 v.rxFrames ++ bytes4 v.rxErrors ++ bytes4 v.drops ++ bytes4 v.txFrames ++ bytes4 v.txAborted ++
    bytes4 v.jabberEvents

/-- R119: ReadPort. -/
def actReadPort : CommandAct := fun c _ s =>
  if 3 < c.arg 0 then .answer .badIndex [] s
  else .answer .ok (s.portReport (Fin.ofNat 4 (c.arg 0))) s

/-- READ_PORT. -/
def execReadPort (s : State) : Result := s.runCommand .readPort actReadPort

/-- R103, R188: the six fields a WritePortConfig carries; the configured mode stays. -/
def CommandFrame.portConfig (c : CommandFrame) (old : PortConfig) : PortConfig :=
  { mode := old.mode, defaultAction := Action.ofFlag (c.argBit 1 0), sourceCheck := c.argBit 1 1,
    commandsAllowed := c.argBit 1 2, autoRecover := c.argBit 1 3,
    defaultLevel := Fin.ofNat 32 (c.arg 2), silenceTime := c.arg 3 }

/-- R103, R112, R113: an accepted WritePortConfig. The silence wait restarts, and a change of AutoRecover from 0
to 1 on a latched port with a silent line starts the recovery wait. -/
def State.writePort (s : State) (p : PortNo) (cfg : PortConfig) : State :=
  (s.modPort p fun v =>
    let w := { v with cfg := cfg }
    if !v.cfg.autoRecover && cfg.autoRecover && v.latch && v.quiet then w.startRecovery s.now
    else w).startSilence p

/-- R103: WritePortConfig. -/
def actWritePortConfig : CommandAct := fun c _ s =>
  let p : PortNo := Fin.ofNat 4 (c.arg 0)
  match firstRefusal
      [(decide (3 < c.arg 0), .badIndex), (decide (c.arg 2 < 2) || decide (31 < c.arg 2), .badValue),
       (decide (15 < c.arg 1), .badValue)] with
  | some st => .answer st [] s
  | none => .answer .ok [] (s.writePort p (c.portConfig (s.port p).cfg))

/-- WRITE_PORT_CONFIG. -/
def execWritePortConfig (s : State) : Result := s.runCommand .writePortConfig actWritePortConfig

/-- R106: an accepted SetPortMode clears the latch, writes the mode, and derives the effective state again. -/
def State.setPortMode (s : State) (p : PortNo) (m : PortMode) : State :=
  s.changePort p fun v => { v with cfg := { v.cfg with mode := m }, latch := false, recoveryStart := none }

/-- R106: SetPortMode. -/
def actSetPortMode : CommandAct := fun c _ s =>
  let p : PortNo := Fin.ofNat 4 (c.arg 0)
  let v := s.port p
  match firstRefusal
      [(decide (3 < c.arg 0), .badIndex), ((PortMode.ofCode (c.arg 1)).isNone, .badValue),
       (v.latch && v.rxActive && c.arg 1 != PortMode.offline.code, .lineBusy)] with
  | some st => .answer st [] s
  | none => .answer .ok [] (s.setPortMode p ((PortMode.ofCode (c.arg 1)).getD .offline))

/-- SET_PORT_MODE. -/
def execSetPortMode (s : State) : Result := s.runCommand .setPortMode actSetPortMode

end Sys2Proof.Machine
end

