-- ==== Sys2Proof/Machine/RuleCommands.lean ====
section
/-! DEFINITION. READ_RULES, WRITE_RULE, READ_NODE_MAP, WRITE_NODE_MAP (05). -/

namespace Sys2Proof.Machine

open Sys2Proof

/-- R85: the reports of consecutive rules. -/
def State.ruleReports (s : State) (first count : Nat) : List Byte :=
  (List.range count).flatMap fun i => (s.rule (Fin.ofNat 64 (first + i))).report

/-- R85: ReadRules. -/
def actReadRules : CommandAct := fun c _ s =>
  let first := c.arg 0
  let count := c.arg 1
  match firstRefusal
      [(decide (63 < first), .badIndex), (count == 0 || decide (8 < count), .badValue),
       (decide (64 < first + count), .badIndex)] with
  | some st => .answer st [] s
  | none => .answer .ok (s.ruleReports first count) s

/-- READ_RULES. -/
def execReadRules (s : State) : Result := s.runCommand .readRules actReadRules

/-- R84, orders 2 to 4, and R187 for the flags byte: the checks on a rule entry. -/
def ruleRefusal (c : CommandFrame) : Option Status :=
  let r := Rule.parse c.args 1
  let level := c.arg 12
  firstRefusal
    [(decide (r.srcHigh < r.srcLow) || decide (r.dstHigh < r.dstLow), .badValue),
     (r.lenMin == 0 || decide (496 < r.lenMin) || r.lenMax == 0 || decide (496 < r.lenMax) ||
        decide (r.lenMax < r.lenMin), .badValue),
     (decide (level < 2) || decide (31 < level), .badValue),
     (c.argBit 1 3, .badValue)]

/-- R84: WriteRule. -/
def actWriteRule : CommandAct := fun c _ s =>
  if 63 < c.arg 0 then .answer .badIndex [] s
  else
    match ruleRefusal c with
    | some st => .answer st [] s
    | none =>
      let i : RuleNo := Fin.ofNat 64 (c.arg 0)
      .answer .ok [] { s with rules := s.rules.set i.val (Rule.parse c.args 1) i.isLt }

/-- WRITE_RULE. -/
def execWriteRule (s : State) : Result := s.runCommand .writeRule actWriteRule

/-- R92: ReadNodeMap. -/
def actReadNodeMap : CommandAct := fun c _ s =>
  let first := c.arg 0
  let count := c.arg 1
  match firstRefusal
      [(count == 0 || decide (64 < count), .badValue), (decide (256 < first + count), .badIndex)] with
  | some st => .answer st [] s
  | none =>
    .answer .ok
      ((List.range count).map fun i => byteOf (s.disposition (BitVec.ofNat 8 (first + i))).code) s

/-- READ_NODE_MAP. -/
def execReadNodeMap (s : State) : Result := s.runCommand .readNodeMap actReadNodeMap

/-- R90: the three fixed entries: node 0, node 255 and the self address. -/
def State.fixedNode (s : State) (n : Node) : Bool := n == 0 || n == 255 || n == s.self

/-- R91: a disposition that may be written. -/
def Disposition.writable : Disposition → Bool
  | .self | .broadcast => false
  | .unassigned | .trunk | .port _ => true

/-- R91, order 3: a disposition code that is Self, Broadcast or none of the eight. -/
def badDisposition (b : Byte) : Bool :=
  match Disposition.ofCode b.toNat with
  | none => true
  | some d => !d.writable

/-- Write consecutive entries of the Node Map, from a node upward. -/
def writeNodes (m : Vector Disposition 256) (first : Nat) : List Byte → Vector Disposition 256
  | [] => m
  | b :: bs =>
    let n : Node := BitVec.ofNat 8 first
    writeNodes (m.set n.toNat ((Disposition.ofCode b.toNat).getD .unassigned) n.isLt) (first + 1) bs

/-- R91: WriteNodeMap. -/
def actWriteNodeMap : CommandAct := fun c _ s =>
  let first := c.arg 0
  let count := c.arg 1
  let codes := c.args.drop 2
  match firstRefusal
      [(count == 0 || decide (64 < count), .badValue), (decide (256 < first + count), .badIndex),
       (codes.any badDisposition, .badValue),
       ((List.range count).any fun i => s.fixedNode (BitVec.ofNat 8 (first + i)), .badIndex)] with
  | some st => .answer st [] s
  | none => .answer .ok [] { s with nodeMap := writeNodes s.nodeMap first codes }

/-- WRITE_NODE_MAP. -/
def execWriteNodeMap (s : State) : Result := s.runCommand .writeNodeMap actWriteNodeMap

end Sys2Proof.Machine
end

