-- ==== Sys2Proof/Machine/UnitCommands.lean ====
section
/-! DEFINITION. MALFORMED_COMMAND, UNKNOWN_COMMAND and WAITING_RESPONSE_BUILD (08). -/

namespace Sys2Proof.Machine

open Sys2Proof

/-- R146: the checks and action of each command. -/
def Command.act : Command → CommandAct
  | .readRules => actReadRules
  | .writeRule => actWriteRule
  | .readNodeMap => actReadNodeMap
  | .writeNodeMap => actWriteNodeMap
  | .readLevel => actReadLevel
  | .writeLevel => actWriteLevel
  | .flushLevel => actFlushLevel
  | .readPort => actReadPort
  | .writePortConfig => actWritePortConfig
  | .setPortMode => actSetPortMode
  | .loadKey => actLoadKey
  | .eraseKey => actEraseKey
  | .selectSlot => actSelectSlot
  | .keyCheck => actKeyCheck
  | .readKeyState => actReadKeyState
  | .readStatus => actReadStatus
  | .setMode => actSetMode
  | .refresh => actRefresh
  | .writeSupervision => actWriteSupervision
  | .setTrunkConfig => actSetTrunkConfig
  | .resetPart => actResetPart
  | .readRecords => actReadRecords
  | .readFaults => actReadFaults
  | .clearFaults => actClearFaults
  | .writeNoticeConfig => actWriteNoticeConfig
  | .clearCounters => actClearCounters
  | .writeAccess => actWriteAccess

/-- R142: the attempt of whatever command a frame carries. -/
def State.attemptAny (s : State) (c : CommandFrame) : State :=
  match Command.ofCode c.code.toNat with
  | some k => s.attempt k c k.act
  | none => s.attemptUnknown c

/-- UNKNOWN_COMMAND (R144): the step of a frame whose code names no command. -/
def execUnknownCommand (s : State) : Result :=
  match s.nextCommand with
  | none => .next s
  | some (c, t) =>
    if (Command.ofCode c.code.toNat).isNone then (t.attemptUnknown c).done else .next s

/-- R143: a frame that is too short to be a command is counted and released. -/
def State.releaseMalformed (s : State) (e : EntryNo) : State :=
  { s with cmd := { s.cmd with
      inHand := none, malformedCommands := bump s.cmd.malformedCommands } }.release e

/-- MALFORMED_COMMAND (R143): the step of a frame too short to carry a code and a tag. -/
def execMalformedCommand (s : State) : Result :=
  match s.takeNext with
  | none => .next s
  | some (e, t) =>
    match t.commandFrame e with
    | some _ => .next s
    | none => (t.releaseMalformed e).done

/-- R153: the waiting responses are tried in order; each that is built leaves the list, and the first that fails
stops the round. The answer says whether none failed. -/
def State.buildWaiting : List LongRecord → State → Bool × State
  | [], s => (true, s)
  | r :: rest, s =>
    match s.buildLongResponse r with
    | (false, s) => (false, s)
    | (true, s) => State.buildWaiting rest { s with cmd := { s.cmd with waiting := s.cmd.waiting.tail } }

/-- R153: one round after a freeing: the waiting responses, and after them the command in hand. -/
def State.runWaiting (s : State) : State :=
  match State.buildWaiting s.cmd.waiting { s with cmd := { s.cmd with freed := s.cmd.freed - 1 } } with
  | (false, s) => s
  | (true, s) =>
    match s.cmd.inHand.bind s.commandFrame with
    | none => s
    | some c => s.attemptAny c

/-- WAITING_RESPONSE_BUILD (R153): it comes when a freeing has been made for a response that waits or a command
in hand. -/
def execWaitingResponseBuild (s : State) : Result :=
  if s.retryDue then s.runWaiting.done else .next s

end Sys2Proof.Machine
end

