-- ==== Sys2Proof/Machine/PortEvents.lean ====
section
/-! DEFINITION. The events on the station links and of the port transmitters (06). An event that cannot occur in
the state changes nothing (log 2). -/

namespace Sys2Proof.Machine

open Sys2Proof

/-! ### Pins -/

/-- The line-status input of a station link. -/
def State.setLinePin (s : State) (p : PortNo) (up : Bool) : State :=
  { s with pins := { s.pins with portUp := s.pins.portUp.set p.val up p.isLt } }

/-- The receive line of a station link. -/
def State.setReceivePin (s : State) (p : PortNo) (active : Bool) : State :=
  { s with pins := { s.pins with rxActive := s.pins.rxActive.set p.val active p.isLt } }

/-! ### Receive -/

/-- R107, R111, R112: the receive line goes active: an Active or Listen port begins a receive and its jabber
timing; a recovery wait is broken. -/
def State.lineActive (s : State) (p : PortNo) : State :=
  let receives := (s.portState p).receives
  s.modPort p fun v =>
    v.watchLine
      { v with
        rxActive := true
        rx := if receives then .header else v.rx
        activeSince := if receives then some s.now else v.activeSince } s.now

/-- RECEIVE_LINE_ACTIVE (R107). Through Init the input is not taken (R163). -/
def execReceiveLineActive (p : PortNo) (s : State) : Result :=
  let s := s.setReceivePin p true
  if s.ctl.mode = .init ∨ (s.port p).rxActive then .next s else (s.lineActive p).done

/-- HEADER_RECEIVED (R107). -/
def execHeaderReceived (p : PortNo) (h : StationHeader) (s : State) : Result :=
  match (s.port p).rx with
  | .header => (s.takeHeader p h).done
  | .idle | .storing _ _ | .unstored => .next s

/-- EXCESS_PAYLOAD_BYTE (R111). -/
def execExcessPayloadByte (p : PortNo) (s : State) : Result :=
  match (s.port p).rx with
  | .storing _ _ | .unstored => (s.jabber p).done
  | .idle | .header => .next s

/-- R112: the receive line falls silent. -/
def State.lineSilent (s : State) (p : PortNo) : State :=
  s.modPort p fun v => v.watchLine { v with rxActive := false, activeSince := none } s.now

/-- R107: the payload and CRC-16 of a frame that has storage are written into its cells as they arrive, as far as
the cells reach (log 11). -/
def State.arrive (s : State) (p : PortNo) (bytes : List Byte) : State :=
  match (s.port p).rx with
  | .storing e _ => s.writePayload e 0 bytes
  | .idle | .header | .unstored => s

/-- R108: the frame whose line has fallen silent is checked and, when good, handled. -/
def State.endReceive (s : State) (p : PortNo) (bytes : List Byte) : State :=
  match (s.port p).rx with
  | .idle => s
  | .header => s.countRxError p
  | .unstored => s.modPort p fun v => { v with rx := .idle }
  | .storing e h =>
    if stationFrameGood h bytes then (s.countGood p).handleGood p e else (s.release e).countRxError p

/-- R111: the bytes that arrived after the header held a 497th payload byte (log 11). -/
def State.overlong (s : State) (p : PortNo) (bytes : List Byte) : Bool :=
  match (s.port p).rx with
  | .storing _ _ | .unstored => decide (Config.maxPayload + 2 < bytes.length)
  | .idle | .header => false

/-- R111: a frame that held a 497th payload byte was jabber when that byte arrived. -/
def State.jabberIfOverlong (s : State) (p : PortNo) (bytes : List Byte) : State :=
  if s.overlong p bytes then s.jabber p else s

/-- R107, R108: the bytes that arrived lie in the cells, some cells have gone bad since, and the line is silent. -/
def State.receiveEnds (s : State) (p : PortNo) (bytes : List Byte) (corrupted : List CellNo) : State :=
  let s := ((s.arrive p bytes).corrupt corrupted).setReceivePin p false
  ((s.jabberIfOverlong p bytes).lineSilent p).endReceive p bytes

/-- RECEIVE_LINE_SILENT (R108). -/
def execReceiveLineSilent (p : PortNo) (bytes : List Byte) (corrupted : List CellNo) (s : State) : Result :=
  if s.ctl.mode = .init ∨ !(s.port p).rxActive then .next ((s.corrupt corrupted).setReceivePin p false)
  else (s.receiveEnds p bytes corrupted).done

/-! ### Times -/

/-- JABBER_TIMEOUT (R111). -/
def execJabberTimeout (p : PortNo) (s : State) : Result :=
  if s.jabberDue p then (s.jabber p).done else .next s

/-- R112: the silent interval has passed: the latch is cleared when AutoRecover is 1, and the wait is over. -/
def State.recover (s : State) (p : PortNo) : State :=
  if (s.port p).cfg.autoRecover then
    s.changePort p fun v => { v with latch := false, recoveryStart := none }
  else s.modPort p fun v => { v with recoveryStart := none }

/-- JABBER_RECOVERY (R112). -/
def execJabberRecovery (p : PortNo) (s : State) : Result :=
  if s.recoveryDue p then (s.recover p).done else .next s

/-- R113: the silence wait has passed: Silent is set, and PORT_SILENT is raised unless Silent was set. -/
def State.goSilent (s : State) (p : PortNo) : State :=
  if (s.port p).silent then s.modPort p fun v => { v with silenceStart := none }
  else (s.modPort p fun v => { v with silent := true, silenceStart := none }).raise .portSilent { port := some p }

/-- SILENCE_TIMEOUT (R113). -/
def execSilenceTimeout (p : PortNo) (s : State) : Result :=
  if s.silenceDue p then (s.goSilent p).done else .next s

/-! ### Line status -/

/-- R104, R105, R112: the link's line state changes. -/
def State.setLine (s : State) (p : PortNo) (up : Bool) : State :=
  s.changePort p fun v => v.watchLine { v with lineUp := up } s.now

/-- PORT_LINE_DOWN (R104). Through Init the input is not taken (R163). -/
def execPortLineDown (p : PortNo) (s : State) : Result :=
  let s := s.setLinePin p false
  if s.ctl.mode = .init ∨ !(s.port p).lineUp then .next s else (s.setLine p false).done

/-- PORT_LINE_UP (R104). -/
def execPortLineUp (p : PortNo) (s : State) : Result :=
  let s := s.setLinePin p true
  if s.ctl.mode = .init ∨ (s.port p).lineUp then .next s else (s.setLine p true).done

/-! ### Transmit -/

/-- R116, R118: a transmission has completed: TxFrames is counted and the transmitter's hold is released. -/
def State.endTx (s : State) (p : PortNo) (e : EntryNo) : State :=
  (s.modPort p fun v => { v with tx := none, txFrames := bump v.txFrames }).release e

/-- R116: the frame has left on the line; the next head entry starts. -/
def State.lineTxCompletes (s : State) (p : PortNo) (e : EntryNo) : State :=
  let sent := stationFrame (s.entryAt e) (s.payload e)
  ((s.modPort p fun v => { v with lastSent := sent }).endTx p e).startTx p

/-- TRANSMISSION_COMPLETES (R116): a transmission begun on the line ends on the line (R105). -/
def execTransmissionCompletes (p : PortNo) (s : State) : Result :=
  match (s.port p).tx with
  | some { entry := e, loop := false } => (s.lineTxCompletes p e).done
  | some { entry := _, loop := true } => .next s
  | none => .next s

/-- R117: a port transmitter's own cell check failure: the frame is lost on every holder, and CELL_CHECK is
raised with the port. -/
def State.portCellFails (s : State) (p : PortNo) (e : EntryNo) (cell : CellNo) : State :=
  let f := s.entryAt e
  (s.loseFrame e cell).raise .cellCheck { port := some p, rule := f.rule, cell := some cell }

/-- R118, step 2: the frame entry of a Loopback copy. -/
def FrameEntry.loopbackCopy (f : FrameEntry) (p : PortNo) : FrameEntry :=
  { f with origin := .port p, level := 31, rule := none, label := 0, record := false }

/-- R118: a Loopback transmission completes. -/
def State.loopCompletes (s : State) (p : PortNo) (e : EntryNo) : State :=
  let f := s.entryAt e
  match s.allocTraffic (f.loopbackCopy p) with
  | (none, s) =>
    (((s.modPort p .dropped).raise .poolExhausted { port := some p }).endTx p e).startTx p
  | (some d, s) =>
    match s.firstFailing f.cells with
    | some cell => (s.release d).portCellFails p e cell
    | none =>
      let s := s.writePayload d 0 (s.payload e)
      ((s.endTx p e).classifyAndDecide p d).startTx p

/-- LOOPBACK_COMPLETION (R118). -/
def execLoopbackCompletion (p : PortNo) (corrupted : List CellNo) (s : State) : Result :=
  let s := s.corrupt corrupted
  match (s.port p).tx with
  | some { entry := e, loop := true } => (s.loopCompletes p e).done
  | some { entry := _, loop := false } => .next s
  | none => .next s

/-- PORT_CELL_CHECK_FAILURE (R117): the failing cell is one of the frame in the transmitter. A number that names
no cell (R25) is no event of the part. -/
def execPortCellCheckFailure (p : PortNo) (cell : CellNo) (s : State) : Result :=
  if Config.cellCount ≤ cell then .fault .noSuchCell
  else
    match (s.port p).tx with
    | none => .next s
    | some t =>
      if (s.entryAt t.entry).cells.contains cell then (s.portCellFails p t.entry cell).done else .next s

end Sys2Proof.Machine
end

