-- ==== Sys2Proof/Machine/ResetEvents.lean ====
section
/-! DEFINITION. POWER_ON, RESET_PIN_ASSERT, RESET_PIN_RELEASE, INIT_END (09). -/

namespace Sys2Proof.Machine

open Sys2Proof

/-- POWER_ON (R162): Init starts, again from its beginning when it was running. -/
def execPowerOn (s : State) : Result := .next (s.enterInit .powerOn)

/-- R162: the level of the reset pin. -/
def State.setResetPin (s : State) (asserted : Bool) : State :=
  { s with pins := { s.pins with resetAsserted := asserted } }

/-- RESET_PIN_ASSERT (R162): Init starts and is held at its start while the pin stays asserted. -/
def execResetPinAssert (s : State) : Result :=
  if s.pins.resetAsserted then .next s else .next ((s.setResetPin true).enterInit .resetPin)

/-- RESET_PIN_RELEASE (R162): the held Init runs on. -/
def execResetPinRelease (s : State) : Result := .next (s.setResetPin false)

/-- INIT_END (R163): every block at its reset values, the straps read, the Time Base at 0, the line-status inputs
read, the mode Setup. Init does not end while the reset pin is asserted (R162). -/
def execInitEnd (straps : Byte) (s : State) : Result :=
  if s.ctl.mode = .init ∧ !s.pins.resetAsserted then
    .next (State.blank .setup s.ctl.cause straps s.pins s.pending)
  else .next s

end Sys2Proof.Machine
end

