-- ==== Sys2Proof/Machine/TrunkEvents.lean ====
section
/-! DEFINITION. FRAGMENT_COMPLETION, SPACING_DEADLINE_PASSES, EXPANSION_COMPLETES, TRUNK_LINE_DOWN,
TRUNK_LINE_UP, FRAGMENT_RECEIVED, SUPERVISION_EXPIRY (01, 03, 04, 07, 09). An event that cannot occur in the
state changes nothing (log 2). -/

namespace Sys2Proof.Machine

open Sys2Proof

/-- FRAGMENT_COMPLETION (R53). -/
def execFragmentCompletion (corrupted : List CellNo) (s : State) : Result :=
  let s := s.corrupt corrupted
  match s.trunk.inFlight with
  | none => .next s
  | some f => (s.completeFragment f).done

/-- SPACING_DEADLINE_PASSES (R17): the deadline is removed; an auction is held when the transmitter is idle. -/
def execSpacingDeadlinePasses (l : Level) (corrupted : List CellNo) (s : State) : Result :=
  let s := s.corrupt corrupted
  if s.spacingDue l then (s.modLvl l fun v => { v with deadline := none }).triggerAuction.done else .next s

/-- R70: the slot becomes Ready, its sequences start afresh, and the LoadKey's response is built; a level that
was Keyless only for the ActiveSlot is so no longer. -/
def State.expansionEnds (s : State) (k : Slot) (key : Block) : State :=
  if s.cipher.active = k then
    (((s.setSlot k (.ready key)).resetSequences k).endLongOp (.loadKey k)).triggerAuction
  else ((s.setSlot k (.ready key)).resetSequences k).endLongOp (.loadKey k)

/-- EXPANSION_COMPLETES (R70). -/
def execExpansionCompletes (k : Slot) (s : State) : Result :=
  match s.slot k with
  | .expanding key _ => (s.expansionEnds k key).done
  | .empty | .ready _ => .next s

/-- The trunk's line-status input. -/
def State.setTrunkPin (s : State) (up : Bool) : State := { s with pins := { s.pins with trunkUp := up } }

/-- R57, step 1: a fragment in flight is lost and counted in FragmentsLost. -/
def Trunk.goDown (t : Trunk) : Trunk :=
  { t with
    lineUp := false
    inFlight := none
    fragmentsLost := if t.inFlight.isSome then bump t.fragmentsLost else t.fragmentsLost }

/-- R57, R131: the trunk line goes Down: the fragment in flight is lost, every context is abandoned from level 0
upward, reassembly ends, and TRUNK_DOWN is raised. -/
def State.lineDown (s : State) : State :=
  let s := { s with trunk := s.trunk.goDown }
  let s := allLevels.foldl (fun s l => s.abandon l true) s
  let s := s.endReassembly
  { s with trunk := { s.trunk with lineDowns := bump s.trunk.lineDowns } }.raise .trunkDown

/-- TRUNK_LINE_DOWN (R57). Through Init the input is not taken (R120). -/
def execTrunkLineDown (s : State) : Result :=
  let s := s.setTrunkPin false
  if s.ctl.mode = .init ∨ !s.trunk.lineUp then .next s else s.lineDown.done

/-- TRUNK_LINE_UP (R59). -/
def execTrunkLineUp (corrupted : List CellNo) (s : State) : Result :=
  let s := (s.corrupt corrupted).setTrunkPin true
  if s.ctl.mode = .init ∨ s.trunk.lineUp then .next s
  else { s with trunk := { s.trunk with lineUp := true } }.triggerAuction.done

/-- FRAGMENT_RECEIVED (R122): nothing is received through Init or while the line is Down (R120). -/
def execFragmentReceived (bytes : List Byte) (s : State) : Result :=
  if s.ctl.mode = .init ∨ !s.trunk.lineUp then .next s else (s.receiveFragment bytes).done

/-- SUPERVISION_EXPIRY (R171). -/
def execSupervisionExpiry (s : State) : Result :=
  if s.supervisionDue then (s.enterFallback.raise .supervisionExpired).done else .next s

end Sys2Proof.Machine
end

