-- ==== Sys2Proof/Machine/Dispatch.lean ====
section
/-! DEFINITION. Each command's meaning, one arm per row of spec/opcode_table.json. -/

namespace Sys2Proof.Machine

open Sys2Proof

/-- The effect of a command on everything but the queue of commands that wait. -/
def exec (i : Instr) (s : State) : Host.Outcome State Fault Refusal :=
  match i with
  | .powerOn => Sys2Proof.Machine.execPowerOn s
  | .resetPinAssert => Sys2Proof.Machine.execResetPinAssert s
  | .resetPinRelease => Sys2Proof.Machine.execResetPinRelease s
  | .initEnd straps => Sys2Proof.Machine.execInitEnd straps s
  | .readRules => Sys2Proof.Machine.execReadRules s
  | .writeRule => Sys2Proof.Machine.execWriteRule s
  | .readNodeMap => Sys2Proof.Machine.execReadNodeMap s
  | .writeNodeMap => Sys2Proof.Machine.execWriteNodeMap s
  | .readLevel => Sys2Proof.Machine.execReadLevel s
  | .writeLevel => Sys2Proof.Machine.execWriteLevel s
  | .flushLevel => Sys2Proof.Machine.execFlushLevel s
  | .readPort => Sys2Proof.Machine.execReadPort s
  | .writePortConfig => Sys2Proof.Machine.execWritePortConfig s
  | .setPortMode => Sys2Proof.Machine.execSetPortMode s
  | .loadKey => Sys2Proof.Machine.execLoadKey s
  | .eraseKey => Sys2Proof.Machine.execEraseKey s
  | .selectSlot => Sys2Proof.Machine.execSelectSlot s
  | .keyCheck => Sys2Proof.Machine.execKeyCheck s
  | .readKeyState => Sys2Proof.Machine.execReadKeyState s
  | .readStatus => Sys2Proof.Machine.execReadStatus s
  | .setMode => Sys2Proof.Machine.execSetMode s
  | .refresh => Sys2Proof.Machine.execRefresh s
  | .writeSupervision => Sys2Proof.Machine.execWriteSupervision s
  | .setTrunkConfig => Sys2Proof.Machine.execSetTrunkConfig s
  | .resetPart => Sys2Proof.Machine.execResetPart s
  | .readRecords => Sys2Proof.Machine.execReadRecords s
  | .readFaults => Sys2Proof.Machine.execReadFaults s
  | .clearFaults => Sys2Proof.Machine.execClearFaults s
  | .writeNoticeConfig => Sys2Proof.Machine.execWriteNoticeConfig s
  | .clearCounters => Sys2Proof.Machine.execClearCounters s
  | .writeAccess => Sys2Proof.Machine.execWriteAccess s
  | .malformedCommand => Sys2Proof.Machine.execMalformedCommand s
  | .waitingResponseBuild => Sys2Proof.Machine.execWaitingResponseBuild s
  | .fragmentCompletion corrupted => Sys2Proof.Machine.execFragmentCompletion corrupted s
  | .spacingDeadlinePasses level corrupted => Sys2Proof.Machine.execSpacingDeadlinePasses level corrupted s
  | .expansionCompletes slot => Sys2Proof.Machine.execExpansionCompletes slot s
  | .trunkLineDown => Sys2Proof.Machine.execTrunkLineDown s
  | .trunkLineUp corrupted => Sys2Proof.Machine.execTrunkLineUp corrupted s
  | .fragmentReceived bytes => Sys2Proof.Machine.execFragmentReceived bytes s
  | .supervisionExpiry => Sys2Proof.Machine.execSupervisionExpiry s
  | .receiveLineActive port => Sys2Proof.Machine.execReceiveLineActive port s
  | .headerReceived port header => Sys2Proof.Machine.execHeaderReceived port header s
  | .excessPayloadByte port => Sys2Proof.Machine.execExcessPayloadByte port s
  | .receiveLineSilent port bytes corrupted => Sys2Proof.Machine.execReceiveLineSilent port bytes corrupted s
  | .jabberTimeout port => Sys2Proof.Machine.execJabberTimeout port s
  | .jabberRecovery port => Sys2Proof.Machine.execJabberRecovery port s
  | .silenceTimeout port => Sys2Proof.Machine.execSilenceTimeout port s
  | .portLineDown port => Sys2Proof.Machine.execPortLineDown port s
  | .portLineUp port => Sys2Proof.Machine.execPortLineUp port s
  | .transmissionCompletes port => Sys2Proof.Machine.execTransmissionCompletes port s
  | .loopbackCompletion port corrupted => Sys2Proof.Machine.execLoopbackCompletion port corrupted s
  | .portCellCheckFailure port cell => Sys2Proof.Machine.execPortCellCheckFailure port cell s
  | .unknownCommand => Sys2Proof.Machine.execUnknownCommand s

end Sys2Proof.Machine
end

