-- ==== Sys2Proof/Machine/TimeBase.lean ====
section
/-! DEFINITION. What the part does of its own when no command waits: the Command Unit's steps that are due, the
times that have come, and otherwise one microsecond of the Time Base (log 1, log 16). -/

namespace Sys2Proof.Machine

open Sys2Proof

/-- The row that stands for a command's step. -/
def Command.instr : Command → Instr
  | .readRules => .readRules
  | .writeRule => .writeRule
  | .readNodeMap => .readNodeMap
  | .writeNodeMap => .writeNodeMap
  | .readLevel => .readLevel
  | .writeLevel => .writeLevel
  | .flushLevel => .flushLevel
  | .readPort => .readPort
  | .writePortConfig => .writePortConfig
  | .setPortMode => .setPortMode
  | .loadKey => .loadKey
  | .eraseKey => .eraseKey
  | .selectSlot => .selectSlot
  | .keyCheck => .keyCheck
  | .readKeyState => .readKeyState
  | .readStatus => .readStatus
  | .setMode => .setMode
  | .refresh => .refresh
  | .writeSupervision => .writeSupervision
  | .setTrunkConfig => .setTrunkConfig
  | .resetPart => .resetPart
  | .readRecords => .readRecords
  | .readFaults => .readFaults
  | .clearFaults => .clearFaults
  | .writeNoticeConfig => .writeNoticeConfig
  | .clearCounters => .clearCounters
  | .writeAccess => .writeAccess

/-- R142 to R144: the row that takes a frame of the FIFO. -/
def State.instrOfFrame (s : State) (e : EntryNo) : Instr :=
  match s.commandFrame e with
  | none => .malformedCommand
  | some c =>
    match Command.ofCode c.code.toNat with
    | some k => k.instr
    | none => .unknownCommand

/-- R164: the rows of the times that have come, in the model's order (log 16). -/
def State.dueTimes (s : State) : List Instr :=
  (([0, 1] : List Slot).filter s.expansionDue).map .expansionCompletes ++
    (if s.supervisionDue then [.supervisionExpiry] else []) ++
    (allLevels.filter s.spacingDue).map (fun l => .spacingDeadlinePasses l []) ++
    (allPorts.filter s.jabberDue).map .jabberTimeout ++
    (allPorts.filter s.recoveryDue).map .jabberRecovery ++
    (allPorts.filter s.silenceDue).map .silenceTimeout

/-- What is due of the part's own: a retry after a freeing (R153), the head of the FIFO (R142: "at the first
moment these hold together"), a time that has come (R164). Nothing is due in Init (R163). -/
def State.ownStep (s : State) : Option Instr :=
  if s.ctl.mode = .init then none
  else if s.retryDue then some .waitingResponseBuild
  else if s.canTake then s.cmd.fifo.head?.map s.instrOfFrame
  else s.dueTimes.head?

/-- R163, R164: one microsecond passes; the Time Base does not run in Init. -/
def State.tick (s : State) : State := if s.ctl.mode = .init then s else { s with now := s.now + 1 }

end Sys2Proof.Machine
end

