-- ==== Sys2Proof/Machine/Step.lean ====
section
/-! DEFINITION. One step: the command at the front of the queue, or on an empty queue what the part does of its
own. -/

namespace Sys2Proof.Machine

open Sys2Proof

/-- One step. The command at the front of the queue is taken and run with the rest of the queue. On an empty
queue the part takes its own step that is due, and one microsecond passes when none is (log 1). -/
def step (s : State) : Host.Outcome State Fault Refusal :=
  match s.pending with
  | c :: rest => exec c { s with pending := rest }
  | [] =>
    match s.ownStep with
    | some c => exec c s
    | none => .next s.tick

/-- The state with the command that a word spells put at the front of its queue; unchanged where the word spells
none. The table gives no row bits, so it is unchanged for every word. -/
def State.withFetchWord (s : State) (nbits w : Nat) : State :=
  match decodeTableWord nbits w with
  | some c => { s with pending := c :: s.pending }
  | none => s

end Sys2Proof.Machine
end

