-- ==== Sys2Proof/Safety.lean ====
section
/-! DEFINITION. What is right of every state that a run goes through (the invariants), the order on transmit
sequences, and the premise under which a command's attempt reaches its action. -/

namespace Sys2Proof.Machine

open Sys2Proof

/-! ### The Frame Store (R25, R27, R30, R38) -/

/-- R25, R27: every entry number is free or in use, and not both; every cell is free, retired or in the cell list
of one entry in use, and in one of these only. -/
structure Store.Conserved (st : Store) : Prop where
  entries : (st.freeEntries ++ st.entries.map Prod.fst).Perm (List.range Config.entryCount)
  cells : (st.freeCells ++ st.retired ++ st.entries.flatMap fun x => x.2.cells).Perm
    (List.range Config.cellCount)

/-! ### Holders (R28) -/

/-- The entries a level holds: those of its queue, and the one of its context. -/
def LevelEntry.held (v : LevelEntry) : List EntryNo := v.queue ++ (v.ctx.map Context.entry).toList

/-- The entries the transmit side of a port holds: those of its egress queue, and the one in its transmitter. -/
def Port.egressHeld (p : Port) : List EntryNo := p.queue ++ (p.tx.map PortTx.entry).toList

/-- The entry a receive in progress holds. -/
def Receive.held : Receive → List EntryNo
  | .storing e _ => [e]
  | .idle | .header | .unstored => []

/-- The entry a reassembly context holds. -/
def Reassembly.held : Reassembly → List EntryNo
  | .collecting c => [c.entry]
  | .idle | .discarding => []

/-- The entries the Command Unit holds: those of the FIFO, and the command in hand. -/
def CommandUnit.held (u : CommandUnit) : List EntryNo := u.fifo ++ u.inHand.toList

/-- The entries the levels hold. -/
def State.levelHeld (s : State) : List EntryNo := allLevels.flatMap fun l => (s.lvl l).held

/-- The entries the transmit sides of the ports hold. -/
def State.egressHeld (s : State) : List EntryNo := allPorts.flatMap fun p => (s.port p).egressHeld

/-- The entries held by a receive, a reassembly or the Command Unit. -/
def State.soleHeld (s : State) : List EntryNo :=
  (allPorts.flatMap fun p => (s.port p).rx.held) ++ (allLevels.flatMap fun l => (s.rxCtx l).held) ++ s.cmd.held

/-- R28: the entries that the holders reference between two steps, each as often as holders reference it. -/
def State.held (s : State) : List EntryNo := s.levelHeld ++ s.egressHeld ++ s.soleHeld

/-- R28: "the holder count equals the number of holders that reference the entry, and it lies between 1 and 4"; what
is held is in use; "a frame entry is held by at most one level, either in that level's queue or in its context and not
both"; a port has it once in its queue or its transmitter; what a receive, a reassembly or the Command Unit holds has
no other holder. A port whose receive line is silent holds no receive in progress (R107, R108). -/
structure State.HoldersCounted (s : State) : Prop where
  counted : ∀ e f, s.entry? e = some f → f.holders = s.held.count e ∧ 1 ≤ f.holders ∧ f.holders ≤ 4
  inUse : ∀ e ∈ s.held, (s.entry? e).isSome = true
  oneLevel : s.levelHeld.Nodup
  onePlace : ∀ p, (s.port p).egressHeld.Nodup
  alone : ∀ e ∈ s.soleHeld, s.held.count e = 1
  receiving : ∀ p, (s.port p).rxActive = false → (s.port p).rx = .idle

/-! ### Settings and bounded queues -/

/-- R1: the attributes of a level lie in their ranges. -/
structure Attrs.Lawful (a : Attrs) : Prop where
  spacing : a.spacing ≤ 65535
  trainMax : 1 ≤ a.trainMax ∧ a.trainMax ≤ 16
  queueLimit : a.queueLimit ≤ 255

/-- R83: the fields of a rule lie in their ranges. -/
structure Rule.Lawful (r : Rule) : Prop where
  src : r.srcLow ≤ r.srcHigh
  dst : r.dstLow ≤ r.dstHigh
  len : 1 ≤ r.lenMin ∧ r.lenMin ≤ r.lenMax ∧ r.lenMax ≤ 496
  level : 2 ≤ r.level.val

/-- R102, R114: the configuration of a port lies in its ranges, and its egress queue holds at most 32 entries. -/
structure Port.Lawful (p : Port) : Prop where
  defaultLevel : 2 ≤ p.cfg.defaultLevel.val
  silenceTime : p.cfg.silenceTime ≤ 255
  queue : p.queue.length ≤ Config.egressSize

/-- R90, R91: the three fixed entries of the Node Map stand, and Self and Broadcast stand nowhere else. -/
structure State.NodesFixed (s : State) : Prop where
  zero : s.disposition 0 = .unassigned
  broadcast : s.disposition 255 = .broadcast
  self : s.disposition s.self = .self
  others : ∀ n : Node, n ≠ 255 → n ≠ s.self → (s.disposition n).writable = true

/-- The settings lie in their ranges, levels 0 and 1 keep their built-in attributes, and the queues of fixed size
hold no more than their size (R1, R46, R63, R83, R90, R102, R114, R139, R161). -/
structure State.Lawful (s : State) : Prop where
  notices : (s.lvl 0).attrs = .builtIn 8
  responses : (s.lvl 1).attrs = .builtIn 4
  levels : ∀ l : Level, (s.lvl l).attrs.Lawful
  fragSize : s.trunk.fragSize = 64 ∨ s.trunk.fragSize = 128 ∨ s.trunk.fragSize = 256
  log : s.trunk.log.length ≤ Config.logSize
  rules : ∀ i : RuleNo, (s.rule i).Lawful
  nodes : s.NodesFixed
  ports : ∀ p : PortNo, (s.port p).Lawful
  fifo : s.cmd.fifo.length ≤ Config.fifoSize
  period : s.ctl.period ≤ 65535

/-! ### Sequences (R67) -/

/-- The order in which a transmit sequence steps on: by number, and Exhausted after every number. -/
def TxSequence.le : TxSequence → TxSequence → Prop
  | _, .exhausted => True
  | .seq v, .seq w => v ≤ w
  | .exhausted, .seq _ => False

/-- TxSequence[slot][level] (R67). -/
def State.txSequence (s : State) (k : Slot) (l : Level) : TxSequence := (s.lvl l).txSeq[k.val]

/-! ### Commands that a step may run (R142, R153) -/

/-- The command that a retry comes to: the one in hand, once every waiting response has been built (R153). -/
def State.retried (s : State) : Option Command :=
  match State.buildWaiting s.cmd.waiting { s with cmd := { s.cmd with freed := s.cmd.freed - 1 } } with
  | (false, _) => none
  | (true, t) => (t.cmd.inHand.bind t.commandFrame).bind fun c => Command.ofCode c.code.toNat

/-- The row runs a command: its own, or the one a retry comes to. -/
def State.runs (s : State) (i : Instr) (k : Command) : Prop :=
  i = k.instr ∨ (i = .waitingResponseBuild ∧ s.retried = some k)

/-! ### Attempts (R142, R144) -/

/-- The frame whose turn it is carries the command k, its attempt finds storage for a response, and it passes
checks 1 to 4 as far as they are common to every command: `found` is the part as the attempt finds it, with the
command in hand; `t` is the part with entry `e` taken for the response. -/
structure State.Attempts (s : State) (k : Command) (c : CommandFrame) (found : State) (e : EntryNo) (t : State) :
    Prop where
  turn : s.nextCommand = some (c, found)
  code : c.code.toNat = k.code
  storage : found.allocReserve Config.attemptCells (found.responseEntry c.node) = (some e, t)
  access : t.mayGive k c.args c.sender = true
  mode : k.takenIn t.ctl.mode = true
  args : k.argsFit c.args = true

/-- The state in which an attempt that answers ends: the response filled and routed, the command frame released, and
the auction held that the step called for (R142, R8). -/
def State.answered (s : State) (c : CommandFrame) (e : EntryNo) (st : Status) (results : List Byte) : State :=
  (s.finish c e st results).settle

/-- The state in which the attempt of an accepted long operation ends (R152). -/
def State.pended (s : State) (c : CommandFrame) (e : EntryNo) (op : LongOp) : State :=
  (s.recordLongOp c e op).settle

/-! ### Times that must not pass by (R70, R171) -/

/-- R70: no expansion has run for more than 40 µs. -/
def State.ExpansionsInTime (s : State) : Prop :=
  ∀ (k : Slot) (key : Block) (since : Word), s.slot k = .expanding key since →
    elapsed since s.now ≤ Config.expansionTime

/-- R171: in Run with Period above 0, no more than Period × 1000 µs have passed since the supervision mark. -/
def State.SupervisionInTime (s : State) : Prop :=
  s.ctl.mode = .run → 0 < s.ctl.period → ∀ m, s.ctl.mark = some m → elapsed m s.now ≤ s.ctl.period * 1000

/-! ### Init (R162, R163) -/

/-- The commands that Init takes: the resets, the release of the reset pin, and its own end. -/
def ofResets : Instr → Bool
  | .powerOn | .resetPinAssert | .resetPinRelease | .initEnd _ => true
  | _ => false

/-- The part in Init, with its pins as they now stand and with cells the world has corrupted (log 7). -/
def State.inInit (cause : ResetCause) (straps : Byte) (atEntry pins : Pins) (corrupted : List CellNo)
    (pending : List Instr) : State :=
  { State.blank .init cause straps atEntry pending with
    pins := pins, store := { Store.blank with corrupted := corrupted } }

end Sys2Proof.Machine
end

