-- ==== Sys2Proof/WellFormed.lean ====
section
/-! DEFINITION. Which command terms stand for something that can come to the part. Ports, levels and slots are
bounded by their types; what the types do not bound is checked here. -/

namespace Sys2Proof

/-- R25: every number names one of the 1024 cells. -/
def cellsExist (cells : List CellNo) : Bool := cells.all (· < Config.cellCount)

/-- R111: the 497th payload byte is an event of its own, so a frame that ends delivered at most 496 payload
bytes and a CRC-16 of 2 bytes. -/
def bodyFits (bytes : List Byte) : Bool := bytes.length ≤ Config.maxPayload + 2

/-- The check on one command. -/
def Instr.wellFormed : Instr → Bool
  | .fragmentCompletion cells => cellsExist cells
  | .spacingDeadlinePasses _ cells => cellsExist cells
  | .trunkLineUp cells => cellsExist cells
  | .receiveLineSilent _ bytes cells => bodyFits bytes && cellsExist cells
  | .loopbackCompletion _ cells => cellsExist cells
  | .portCellCheckFailure _ cell => cell < Config.cellCount
  | .powerOn | .resetPinAssert | .resetPinRelease | .initEnd _ => true
  | .readRules | .writeRule | .readNodeMap | .writeNodeMap => true
  | .readLevel | .writeLevel | .flushLevel => true
  | .readPort | .writePortConfig | .setPortMode => true
  | .loadKey | .eraseKey | .selectSlot | .keyCheck | .readKeyState => true
  | .readStatus | .setMode | .refresh | .writeSupervision | .setTrunkConfig | .resetPart => true
  | .readRecords | .readFaults | .clearFaults | .writeNoticeConfig | .clearCounters | .writeAccess => true
  | .malformedCommand | .waitingResponseBuild | .unknownCommand => true
  | .expansionCompletes _ | .trunkLineDown | .fragmentReceived _ | .supervisionExpiry => true
  | .receiveLineActive _ | .headerReceived _ _ | .excessPayloadByte _ => true
  | .jabberTimeout _ | .jabberRecovery _ | .silenceTimeout _ => true
  | .portLineDown _ | .portLineUp _ | .transmissionCompletes _ => true

end Sys2Proof
end

