-- ==== Sys2Proof/Certificates/Slice0/Obligations.lean ====
section
/-! DEFINITION. The statements for the provers: what the rules of spec/ say that the commands and the machine do. -/

open Sys2Proof Sys2Proof.Machine

/-! ### Steps -/

/-- Every command at the front of the queue is run with the rest of the queue. -/
def Obligations.StepRunsFrontCommand : Prop :=
  ∀ (c : Instr) (rest : List Instr) (s : State), s.pending = c :: rest →
    step s = exec c { s with pending := rest }

/-- What the part does of its own when no command waits: R142, R153, R164, in the order of log 16 (log 1: the model's
choice of what an empty queue does). -/
def Obligations.EmptyQueueRunsOwnStepOrTicks : Prop :=
  ∀ s : State, s.pending = [] →
    (∀ c, s.ownStep = some c → step s = exec c s) ∧
    (s.ownStep = none → s.ctl.mode ≠ .init → step s = .next { s with now := s.now + 1 }) ∧
    (s.ctl.mode = .init → step s = .next s) ∧
    (s.ctl.mode ≠ .init → s.retryDue = true → s.ownStep = some .waitingResponseBuild) ∧
    (s.retryDue = false → s.canTake = true → ∀ e rest, s.cmd.fifo = e :: rest →
      s.ownStep = some (s.instrOfFrame e))

/-- No command that can come to the part stops the run; the one fault is a cell number that names no cell (R25,
log 22). -/
def Obligations.EveryCommandGoesOn : Prop :=
  (∀ (c : Instr) (s : State), c.wellFormed = true → ∃ t, exec c s = .next t) ∧
  (∀ (p : PortNo) (cell : CellNo) (s : State), Config.cellCount ≤ cell →
    exec (.portCellCheckFailure p cell) s = .fault .noSuchCell)

/-- R70: "The expansion completes within 40 µs of the accepted LoadKey", and R171: the supervision deadline is never
passed by: every step keeps both (log 16, log 20). -/
def Obligations.DeadlinesAreNeverPassedBy : Prop :=
  (∀ s t : State, s.store.Conserved → s.ExpansionsInTime → step s = .next t → t.ExpansionsInTime) ∧
  (∀ s t : State, s.store.Conserved → s.Lawful → s.SupervisionInTime → step s = .next t → t.SupervisionInTime)

/-! ### Invariants -/

/-- R25, R27, R28: in any step no entry and no cell is lost or given twice, and every entry in use keeps counting its
holders, between 1 and 4, each holder naming an entry in use. -/
def Obligations.EntriesAndCellsAreConserved : Prop :=
  (∀ s t : State, s.store.Conserved → step s = .next t → t.store.Conserved) ∧
  (∀ s t : State, s.store.Conserved → s.HoldersCounted → step s = .next t → t.HoldersCounted)

/-- The contents of the cells keep their canonical form in every step (log 6). -/
def Obligations.ContentsStayCanonical : Prop :=
  ∀ s t : State, s.store.Conserved → s.store.mem.wf = true → step s = .next t → t.store.mem.wf = true

/-- R1, R46, R63, R83, R90, R102, R114, R139, R161: every step keeps the settings in their ranges, the fixed entries
of the Node Map, the built-in levels, and the bounds of the queues of fixed size. -/
def Obligations.SettingsStayLawful : Prop :=
  ∀ s t : State, s.store.Conserved → s.Lawful → step s = .next t → t.Lawful

/-- R78: no transmit sequence goes back, but by an erase, the end of an expansion, or a reset. A retry is left out only
where it comes to an EraseKey in hand (R142, R153). -/
def Obligations.TransmitSequencesNeverGoBack : Prop :=
  ∀ (i : Instr) (s t : State), s.store.Conserved → exec i s = .next t →
    ¬ s.runs i .eraseKey → (∀ k, i ≠ .expansionCompletes k) →
    i ≠ .powerOn → i ≠ .resetPinAssert → (∀ b, i ≠ .initEnd b) → i ≠ .resetPart →
    ∀ (k : Slot) (l : Level), (s.txSequence k l).le (t.txSequence k l)

/-- The state after reset has every invariant. -/
def Obligations.ResetStateIsInOrder : Prop :=
  State.reset.store.Conserved ∧ State.reset.HoldersCounted ∧ State.reset.store.mem.wf = true ∧ State.reset.Lawful ∧
    State.reset.ExpansionsInTime ∧ State.reset.SupervisionInTime ∧ State.reset.auctionDue = false

/-- Each setting changes by its own command alone (R52, R164, R166, R170, R176, R184). A retry runs the
command in hand that it comes to (R142, R153), and a reset puts every block at its reset values. -/
def Obligations.SettingsChangeByTheirOwnCommandsAlone : Prop :=
  ∀ (i : Instr) (s t : State), s.store.Conserved → exec i s = .next t →
    i ≠ .powerOn → i ≠ .resetPinAssert → (∀ b, i ≠ .initEnd b) → i ≠ .resetPart →
    (¬ s.runs i .setMode → ¬ s.runs i .refresh → i ≠ .supervisionExpiry →
      t.ctl.mode = s.ctl.mode ∧ t.ctl.mark = s.ctl.mark) ∧
    (¬ s.runs i .writeSupervision → t.ctl.period = s.ctl.period ∧ t.ctl.window = s.ctl.window) ∧
    (t.ctl.cause = s.ctl.cause ∧ t.ctl.straps = s.ctl.straps ∧ t.now = s.now ∧ t.pending = s.pending) ∧
    (¬ s.runs i .writeLevel → ∀ l, (t.lvl l).attrs = (s.lvl l).attrs) ∧
    (¬ s.runs i .writePortConfig → ¬ s.runs i .setPortMode → ∀ p, (t.port p).cfg = (s.port p).cfg) ∧
    (¬ s.runs i .writeRule → ∀ j, { t.rule j with hits := 0 } = { s.rule j with hits := 0 }) ∧
    (¬ s.runs i .writeNodeMap → t.nodeMap = s.nodeMap) ∧
    (¬ s.runs i .setTrunkConfig → t.trunk.fragSize = s.trunk.fragSize) ∧
    (¬ s.runs i .loadKey → ¬ s.runs i .eraseKey → (∀ k, i ≠ .expansionCompletes k) →
      t.cipher.slots = s.cipher.slots) ∧
    (¬ s.runs i .selectSlot → t.cipher.active = s.cipher.active) ∧
    (¬ s.runs i .writeAccess → t.cmd.access = s.cmd.access) ∧
    (¬ s.runs i .writeNoticeConfig →
      t.fault.noticeNode = s.fault.noticeNode ∧ t.fault.noticeKinds = s.fault.noticeKinds)

/-! ### Resets and Init (09) -/

/-- R4, R23, R25, R43, R44, R60, R63, R66, R67, R83, R90, R102, R119, R120, R138, R139, R145, R160, R161, R164, R176:
what every block holds after a reset. The strap value and the pins of State.reset are the model's choice (log 3). -/
def Obligations.EveryBlockTakesItsResetValues : Prop :=
  (∀ (m : Mode) (cause : ResetCause) (straps : Byte) (pins : Pins) (queue : List Instr),
    let s := State.blank m cause straps pins queue
    (s.ctl.mode = m ∧ s.ctl.cause = cause ∧ s.ctl.straps = straps ∧ s.ctl.period = 0 ∧ s.ctl.window = false ∧
      s.ctl.refreshSeen = false ∧ s.ctl.mark = none ∧ s.now = 0 ∧ s.pins = pins ∧ s.pending = queue) ∧
    (s.store.entries = [] ∧ s.store.freeEntries.Perm (List.range 256) ∧ s.store.freeCells.Perm (List.range 1024) ∧
      s.store.retired = [] ∧ s.store.allocRefusals = 0 ∧ s.store.cellCheckFailures = 0 ∧
      s.store.framesLostToCheck = 0) ∧
    (∀ l, (s.lvl l).queue = [] ∧ (s.lvl l).ctx = none ∧ (s.lvl l).abortOwed = none ∧ (s.lvl l).deadline = none ∧
      (s.lvl l).trainCount = 0 ∧ (s.lvl l).flushPending = none ∧ (s.lvl l).framesSent = 0 ∧
      (s.lvl l).framesDropped = 0 ∧ (s.lvl l).framesAborted = 0 ∧ ∀ k, s.txSequence k l = .seq 1) ∧
    (∀ l : Level, 2 ≤ l.val → (s.lvl l).attrs =
      { enable := false, yields := true, cipher := false, record := false, essential := false, spacing := 0,
        trainMax := 1, queueLimit := 16 }) ∧
    (s.trunk.lineUp = pins.trunkUp ∧ s.trunk.fragSize = 128 ∧ s.trunk.inFlight = none ∧ s.trunk.log = [] ∧
      s.trunk.logOverflow = false ∧ s.trunk.fragmentsSent = 0 ∧ s.trunk.payloadBytesSent = 0 ∧
      s.trunk.abortsSent = 0 ∧ s.trunk.fragmentsLost = 0 ∧ s.trunk.lineDowns = 0 ∧ s.trunk.formingFailures = 0) ∧
    (s.cipher.active = 0 ∧ s.cipher.rejects = 0 ∧ (∀ k, s.slot k = .empty) ∧ ∀ k l, s.lastAccepted k l = 0) ∧
    (∀ i, s.rule i =
      { valid := false, portMask := 0, srcLow := 0, srcHigh := 255, dstLow := 0, dstHigh := 255, clsValue := 0,
        clsMask := 0, lenMin := 1, lenMax := 496, action := .drop, level := 31, label := 0, record := false,
        hits := 0 }) ∧
    (s.disposition 255 = .broadcast ∧ s.disposition s.self = .self ∧
      ∀ n : Node, n ≠ 255 → n ≠ s.self → s.disposition n = .unassigned) ∧
    (∀ p, (s.port p).cfg =
        { mode := .offline, defaultAction := .drop, defaultLevel := 31, sourceCheck := true,
          commandsAllowed := false, autoRecover := true, silenceTime := 0 } ∧
      (s.port p).latch = false ∧ (s.port p).silent = false ∧ (s.port p).lineUp = pins.portUp[p.val] ∧
      (s.port p).rx = .idle ∧ (s.port p).queue = [] ∧ (s.port p).tx = none ∧ (s.port p).rxFrames = 0 ∧
      (s.port p).rxErrors = 0 ∧ (s.port p).drops = 0 ∧ (s.port p).txFrames = 0 ∧ (s.port p).txAborted = 0 ∧
      (s.port p).jabberEvents = 0) ∧
    ((∀ l, s.rxCtx l = .idle) ∧ s.rx.fragmentsReceived = 0 ∧ s.rx.crcErrors = 0 ∧ s.rx.formatErrors = 0 ∧
      s.rx.setupIgnored = 0 ∧ s.rx.strayFragments = 0 ∧ s.rx.reassemblyGaps = 0 ∧ s.rx.abortsReceived = 0 ∧
      s.rx.partialsDiscarded = 0 ∧ s.rx.framesReceived = 0 ∧ s.rx.dispatchDrops = 0) ∧
    (s.cmd.fifo = [] ∧ s.cmd.inHand = none ∧ s.cmd.longOps = [] ∧ s.cmd.waiting = [] ∧
      (∀ r, s.accessOf r = .none) ∧ s.cmd.commandsTaken = 0 ∧ s.cmd.commandOverruns = 0 ∧
      s.cmd.commandsDenied = 0 ∧ s.cmd.responsesUnsent = 0 ∧ s.cmd.malformedCommands = 0) ∧
    (s.fault.summary = 0 ∧ s.fault.captured = none ∧ s.fault.noticeNode = 0 ∧
      ∀ k, KindSet.has s.fault.noticeKinds k = true)) ∧
  State.reset = State.blank .setup .powerOn 1 Pins.atReset []

/-- R162, R157: each reset starts Init, whatever is under way, with its ResetCause; the pin holds Init until it is
released. R163, R165: Init ends in Setup with that cause and the straps just read, but not while the pin stays asserted;
a strap value of 0 or 255 is unusable, and node 254 stands in for it. The pins and the queue of commands that wait stay
(log 17). An assertion of a pin that is asserted already cannot occur; that it changes nothing is the model's choice
(log 2). -/
def Obligations.ResetsStartInitAndInitEndsInSetup : Prop :=
  (∀ s : State,
    exec .powerOn s = .next (State.blank .init .powerOn s.ctl.straps s.pins s.pending) ∧
    (s.pins.resetAsserted = false → exec .resetPinAssert s =
      .next (State.blank .init .resetPin s.ctl.straps { s.pins with resetAsserted := true } s.pending)) ∧
    (s.pins.resetAsserted = true → exec .resetPinAssert s = .next s) ∧
    exec .resetPinRelease s = .next { s with pins := { s.pins with resetAsserted := false } } ∧
    (∀ c found, s.nextCommand = some (c, found) → c.code.toNat = 21 → c.sender = .trunk →
      exec .resetPart s = .next (State.blank .init .resetCommand s.ctl.straps s.pins s.pending))) ∧
  (∀ (b : Byte) (s : State), s.ctl.mode = .init → s.pins.resetAsserted = false →
    exec (.initEnd b) s = .next (State.blank .setup s.ctl.cause b s.pins s.pending)) ∧
  (∀ (b : Byte) (s : State), s.pins.resetAsserted = true → exec (.initEnd b) s = .next s) ∧
  (∀ s : State, (s.ctl.straps ≠ 0 → s.ctl.straps ≠ 255 → s.self = s.ctl.straps ∧ s.strapsUsable = true) ∧
    (s.ctl.straps = 0 ∨ s.ctl.straps = 255 → s.self = 254 ∧ s.strapsUsable = false))

/-- R163: "Through Init the part takes nothing from outside": a command that Init does not take leaves everything but
the pins and the cells the world has corrupted. -/
def Obligations.InitTakesNothingFromOutside : Prop :=
  ∀ (i : Instr) (cause : ResetCause) (straps : Byte) (atEntry pins : Pins) (cells : List CellNo)
    (queue : List Instr), i.wellFormed = true → ofResets i = false →
    ∃ pins' cells', exec i (State.inInit cause straps atEntry pins cells queue) =
      .next (State.inInit cause straps atEntry pins' cells' queue)

/-! ### Levels and the auction (01) -/

/-- R6: the state of a level is the first entry of the table whose condition holds; a level whose context holds an
enciphered frame continues it with the slot and sequence recorded there, whatever the active slot. -/
def Obligations.LevelStateIsTheFirstOfTheTable : Prop :=
  ∀ (s : State) (l : Level),
    let v := s.lvl l
    let sending := ∃ f, s.trunk.inFlight = some f ∧ f.level = l
    let barred := s.ctl.mode = .fallback ∧ v.attrs.essential = false
    let keyless := v.attrs.enable = true ∧ v.queue ≠ [] ∧ v.attrs.cipher = true ∧
      ((∀ key, s.slot s.cipher.active ≠ .ready key) ∨ s.txSequence s.cipher.active l = .exhausted)
    let eligible := v.abortOwed ≠ none ∨ (v.ctx ≠ none ∧ v.attrs.enable = true) ∨
      (v.queue ≠ [] ∧ v.attrs.enable = true ∧ v.deadline = none ∧ ¬ keyless)
    let spacing := v.attrs.enable = true ∧ v.queue ≠ [] ∧ v.deadline ≠ none
    let held := v.attrs.enable = false ∧ (v.queue ≠ [] ∨ v.ctx ≠ none)
    (sending → s.levelState l = .sending) ∧
    (¬ sending → barred → s.levelState l = .barred) ∧
    (¬ sending → ¬ barred → eligible → s.levelState l = .eligible) ∧
    (¬ sending → ¬ barred → ¬ eligible → spacing → s.levelState l = .spacing) ∧
    (¬ sending → ¬ barred → ¬ eligible → ¬ spacing → keyless → s.levelState l = .keyless) ∧
    (¬ sending → ¬ barred → ¬ eligible → ¬ spacing → ¬ keyless → held → s.levelState l = .held) ∧
    (¬ sending → ¬ barred → ¬ eligible → ¬ spacing → ¬ keyless → ¬ held → v.attrs.enable = true →
      s.levelState l = .ready) ∧
    (¬ sending → ¬ barred → ¬ eligible → ¬ spacing → ¬ keyless → ¬ held → v.attrs.enable = false →
      s.levelState l = .off) ∧
    (∀ (c : Context) (f : FrameEntry) (n : Nat) (k : Slot) (w : Word), c.key = some (k, w) →
      (fragmentHeader l c f n).slot = k ∧ (fragmentHeader l c f n).sequence = w ∧
      ∀ j, ({ s with cipher := { s.cipher with active := j } } : State).nextFragment l c = s.nextFragment l c)

/-- R7, R9: eligible work, and the winner as the lowest-numbered level that has it. -/
def Obligations.WinnerIsTheLowestLevelWithWork : Prop :=
  ∀ s : State,
    (∀ l, s.hasWork l = true ↔ ((s.lvl l).abortOwed ≠ none ∨ (s.barred l = false ∧ s.eligible l = true))) ∧
    (∀ l, s.winner = some l ↔ (s.hasWork l = true ∧ ∀ m, m < l → s.hasWork m = false)) ∧
    (s.winner = none ↔ ∀ l, s.hasWork l = false)

/-- R8, R9, R10, R47 to R51, R55, R56: what an auction does: nothing while a fragment is in flight, while the line is
Down or when no level has work; else the winner sends its owed Abort, the next fragment of its context frame, or the
head of its queue as a new frame. When a cell of the fragment fails its check, nothing is sent, the frame is lost, and
the auction is the one held after that. The bytes of what is sent are R48's and R51's in the layout of R185. -/
def Obligations.AuctionSendsWhatTheWinnerHas : Prop :=
  (∀ s : State,
    (s.trunk.inFlight ≠ none ∨ s.trunk.lineUp = false ∨ s.winner = none → s.auction = s) ∧
    (s.trunk.inFlight = none → s.trunk.lineUp = true → ∀ l, s.winner = some l →
      (∀ a, (s.lvl l).abortOwed = some a → s.auction = s.sendAbort l a) ∧
      (∀ c, (s.lvl l).abortOwed = none → (s.lvl l).ctx = some c →
        (s.firstFailing (s.fragmentCells c) = none → s.auction = s.startFragment (s.nextFragment l c)) ∧
        (∀ cell, s.store.Conserved → s.firstFailing (s.fragmentCells c) = some cell →
          s.auction = (s.formingFails l c.entry cell).auction)) ∧
      (∀ e rest, (s.lvl l).abortOwed = none → (s.lvl l).ctx = none → (s.lvl l).queue = e :: rest →
        let u := s.startNewFrame l
        ∃ c, (u.lvl l).ctx = some c ∧ c.entry = e ∧ c.next = 0 ∧ c.sent = 0 ∧ c.start = s.now ∧
          c.suspensions = 0 ∧
          (u.firstFailing (u.fragmentCells c) = none → s.auction = u.startFragment (u.nextFragment l c)) ∧
          (∀ cell, s.store.Conserved → u.firstFailing (u.fragmentCells c) = some cell →
            s.auction = (u.formingFails l e cell).auction)))) ∧
  (∀ (s : State) (l : Level) (c : Context),
    let f := s.entryAt c.entry
    let n := fragmentLength f.len s.trunk.fragSize c.next
    let position := fragmentPosition f.len s.trunk.fragSize c.next
    let plain := (List.range n).map fun i => s.payloadByte f (c.next * s.trunk.fragSize + i)
    let sent := fun (cipherAndSlot : Nat) (sequence : Word) (payload : List Byte) =>
      let body := [f.dst, f.src, byteOf (l.val * 8 + position.code),
        byteOf (cipherAndSlot + f.ptype.code * 16 + c.next)] ++ bytes4 sequence ++ bytes2 f.len ++ bytes2 n ++ payload
      ({ level := l, position := position, index := c.next, len := n, bytes := body ++ bytes4 (crc32 body) } : Fragment)
    (c.key = none → s.nextFragment l c = sent 0 0 plain) ∧
    (∀ k v, c.key = some (k, v) → s.nextFragment l c = sent (128 + k.val * 64) v (s.applyKeystream
      { slot := k, level := l, sequence := v, src := f.src, dst := f.dst } (c.next * s.trunk.fragSize) plain)) ∧
    s.fragmentCells c = f.cellsHolding (c.next * s.trunk.fragSize) n ∧
    (∀ cells, s.firstFailing cells = cells.find? fun x => decide (x ∈ s.store.corrupted))) ∧
  (∀ (s : State) (l : Level) (a : AbortAddress),
    let body := [a.dst, a.src, byteOf (l.val * 8 + 4), byteOf (a.ptype.code * 16), 0, 0, 0, 0, 0, 0, 0, 0]
    let f : Fragment := { level := l, position := .abort, index := 0, len := 0, bytes := body ++ bytes4 (crc32 body) }
    s.sendAbort l a = { s with trunk := { s.trunk with inFlight := some f } }) ∧
  (∀ (s : State) (l : Level) (e : EntryNo) (cell : CellNo),
    let t := s.loseFrame e cell
    s.formingFails l e cell = ({ t with trunk := { t.trunk with
      formingFailures := bump t.trunk.formingFailures } } : State).raise .cellCheck
        { level := some l, rule := (s.entryAt e).rule, cell := some cell }) ∧
  (∀ (s : State) (l : Level) (c : Context) (cell : CellNo), s.store.Conserved → s.HoldersCounted →
    s.trunk.inFlight = none → (s.lvl l).ctx = some c →
    let t := s.formingFails l c.entry cell
    (t.lvl l).ctx = none ∧ (t.lvl l).trainCount = 0 ∧ (t.lvl l).flushPending = none ∧
      (t.lvl l).framesAborted = bump (s.lvl l).framesAborted ∧ (t.lvl l).deadline = (s.lvl l).deadline ∧
      (1 ≤ c.next → (t.lvl l).abortOwed = some { dst := (s.entryAt c.entry).dst, src := (s.entryAt c.entry).src,
                                                 ptype := (s.entryAt c.entry).ptype }) ∧
      (c.next = 0 → (t.lvl l).abortOwed = (s.lvl l).abortOwed) ∧
      t.trunk.inFlight = none ∧ t.trunk.formingFailures = bump s.trunk.formingFailures ∧
      KindSet.has t.fault.summary .cellCheck = true)

/-- R10, R78: a level that starts a new frame removes the head of its queue; when it is enciphered the frame takes the
active slot and the level's transmit sequence, which steps on and after 2^32 − 1 is Exhausted, with
SEQUENCE_EXHAUSTED raised. -/
def Obligations.NewFrameTakesTheNextSequence : Prop :=
  ∀ (s : State) (l : Level) (e : EntryNo) (rest : List EntryNo), 2 ≤ l.val → (s.lvl l).queue = e :: rest →
    ((s.lvl l).attrs.cipher = false → s.startNewFrame l = s.modLvl l fun v =>
      { v with
        queue := rest
        ctx := some
          { entry := e, next := 0, sent := 0, start := s.now, key := none, suspensions := 0 } }) ∧
    (∀ v, (s.lvl l).attrs.cipher = true → s.txSequence s.cipher.active l = .seq v →
      ((s.startNewFrame l).lvl l).queue = rest ∧
      ((s.startNewFrame l).lvl l).ctx = some
        { entry := e, next := 0, sent := 0, start := s.now, key := some (s.cipher.active, v),
          suspensions := 0 } ∧
      (v ≠ BitVec.allOnes 32 → (s.startNewFrame l).txSequence s.cipher.active l = .seq (v + 1) ∧
        (s.startNewFrame l).fault = s.fault) ∧
      (v = BitVec.allOnes 32 → (s.startNewFrame l).txSequence s.cipher.active l = .exhausted ∧
        KindSet.has (s.startNewFrame l).fault.summary .sequenceExhausted = true))

/-- R12, R51: abandoning the context frame of a traffic level; a flush that waits on the level is then complete, as
ExpansionMakesTheSlotReady gives. -/
def Obligations.AbandonClearsTheContext : Prop :=
  ∀ (s : State) (l : Level) (started : Bool) (c : Context), 2 ≤ l.val → (s.lvl l).ctx = some c →
    (s.abandon l started).lvl l =
      { s.lvl l with
        ctx := none
        trainCount := 0
        framesAborted := bump (s.lvl l).framesAborted
        flushPending := none
        abortOwed := if started then
            some { dst := (s.entryAt c.entry).dst, src := (s.entryAt c.entry).src,
                   ptype := (s.entryAt c.entry).ptype }
          else (s.lvl l).abortOwed } ∧
    ((s.lvl l).attrs.record = true ∨ (s.entryAt c.entry).record = true →
      (s.abandon l started).trunk = s.trunk.writeRecord
        { level := l, label := (s.entryAt c.entry).label, port := (s.entryAt c.entry).origin.port?,
          rule := (s.entryAt c.entry).rule, dst := (s.entryAt c.entry).dst, fragments := c.next,
          suspensions := c.suspensions, start := c.start, finish := s.now, outcome := .aborted }) ∧
    ((s.lvl l).attrs.record = false → (s.entryAt c.entry).record = false →
      (s.abandon l started).trunk = s.trunk) ∧
    (∃ u : State, s.abandon l started = u.flushComplete l ∧ u.store = (s.release c.entry).store ∧
      u.cmd = (s.release c.entry).cmd ∧ (u.lvl l).flushPending = (s.lvl l).flushPending ∧
      (∀ m, m ≠ l → u.lvl m = s.lvl m) ∧ u.auctionDue = (started || s.auctionDue))

/-- R13, R14, R55: a boundary: the index and the bytes sent advance, then the first step that applies decides; a level
that does not go on is suspended, or abandoned when a flush waits on it. The loser is suspended before the winner's
fragment is formed (log 29, DEDUCED), and TrainMax is the one in force at the boundary (log 30, the model's choice).
What a level sends by such a decision is what a winner of an auction sends, and a fragment that fails to form is
followed by an auction. -/
def Obligations.BoundaryDecidesByTheFirstStep : Prop :=
  (∀ (s : State) (l : Level) (n : Nat),
    let u := s.advance l n
    let step0 := 2 ≤ l.val ∧ (s.ctl.mode = .setup ∨ (s.ctl.mode = .fallback ∧ (s.lvl l).attrs.essential = false))
    let step1 := l ≠ 0 ∧ u.hasWork 0 = true
    let step2 := (s.lvl l).attrs.enable = true ∧
      ((1 < (s.lvl l).attrs.trainMax ∧ 1 ≤ (s.lvl l).trainCount) ∨ (s.lvl l).attrs.yields = false)
    (u.lvl l =
      { s.lvl l with ctx := (s.lvl l).ctx.map fun c => { c with next := c.next + 1, sent := c.sent + n } }) ∧
    (step0 → s.boundary l n = (u.abandon l true).auction) ∧
    (¬ step0 → step1 → s.boundary l n = (u.suspend l).sendByDecision 0) ∧
    (¬ step0 → ¬ step1 → step2 → s.boundary l n = u.sendByDecision l) ∧
    (¬ step0 → ¬ step1 → ¬ step2 →
      (u.winner = none → s.boundary l n = u.suspend l) ∧
      (u.winner = some l → s.boundary l n = u.sendByDecision l) ∧
      (∀ w, u.winner = some w → w ≠ l → s.boundary l n = (u.suspend l).sendByDecision w)) ∧
    ((s.lvl l).flushPending ≠ none → u.suspend l = u.abandon l true) ∧
    ((s.lvl l).flushPending = none → u.suspend l = u.modLvl l fun v =>
      { v with ctx := v.ctx.map fun c => { c with suspensions := min 255 (c.suspensions + 1) }, trainCount := 0 })) ∧
  (∀ (s : State) (l : Level),
    let u := s.startNewFrame l
    (∀ a, (s.lvl l).abortOwed = some a → s.sendByDecision l = s.sendAbort l a) ∧
    (∀ c, (s.lvl l).abortOwed = none → (s.lvl l).ctx = some c → (s.lvl l).attrs.enable = true →
      (s.firstFailing (s.fragmentCells c) = none → s.sendByDecision l = s.startFragment (s.nextFragment l c)) ∧
      (∀ cell, s.firstFailing (s.fragmentCells c) = some cell →
        s.sendByDecision l = (s.formingFails l c.entry cell).auction)) ∧
    (∀ c, (s.lvl l).abortOwed = none → (s.lvl l).ctx = none → (u.lvl l).ctx = some c →
      (u.firstFailing (u.fragmentCells c) = none → s.sendByDecision l = u.startFragment (u.nextFragment l c)) ∧
      (∀ cell, u.firstFailing (u.fragmentCells c) = some cell →
        s.sendByDecision l = (u.formingFails l c.entry cell).auction)))

/-- R15, R20: the completion of a frame of a level counts it, releases its hold and clears its context; then a flush
that waits on the level is complete, and the train decision is taken. -/
def Obligations.FrameCompletionCountsAndReleases : Prop :=
  ∀ (s : State) (l : Level) (c : Context) (n : Nat),
    ∃ u : State, s.completeFrame l c n = (u.flushComplete l).trainDecision l ∧
      ((s.lvl l).flushPending = none → u.flushComplete l = u) ∧
      u.lvl l = { s.lvl l with framesSent := bump (s.lvl l).framesSent, ctx := none } ∧
      (∀ m, m ≠ l → u.lvl m = s.lvl m) ∧ u.store = (s.release c.entry).store ∧
      ((s.lvl l).attrs.record = false → (s.entryAt c.entry).record = false → u.trunk = s.trunk) ∧
      ((s.lvl l).attrs.record = true ∨ (s.entryAt c.entry).record = true → u.trunk = s.trunk.writeRecord
        { level := l, label := (s.entryAt c.entry).label, port := (s.entryAt c.entry).origin.port?,
          rule := (s.entryAt c.entry).rule, dst := (s.entryAt c.entry).dst, fragments := n,
          suspensions := c.suspensions, start := c.start, finish := s.now, outcome := .sent })

/-- R16, R17, R55: a train goes on to the next queued frame under the six conditions of R16, and a fragment that fails
to form is followed by an auction; otherwise the train ends, with a spacing deadline when Spacing is above 0, and an
auction is held. -/
def Obligations.TrainContinuesOrEnds : Prop :=
  ∀ (s : State) (l : Level),
    let v := s.lvl l
    let soFar := if v.trainCount = 0 then 1 else v.trainCount
    let goesOn := v.attrs.trainMax ≠ 1 ∧ soFar < v.attrs.trainMax ∧ v.queue ≠ [] ∧ v.attrs.enable = true ∧
      s.barred l = false ∧ s.ctl.mode ≠ .setup ∧ s.keyless l = false ∧ s.hasWork 0 = false
    (¬ goesOn → s.trainDecision l = (s.modLvl l fun w =>
      { w with trainCount := 0,
               deadline := if 0 < w.attrs.spacing then some (after s.now w.attrs.spacing)
                 else w.deadline }).auction) ∧
    (goesOn → 2 ≤ l.val → s.store.corrupted = [] →
      ((s.trainDecision l).lvl l).trainCount = soFar + 1 ∧
      ∃ f, (s.trainDecision l).trunk.inFlight = some f ∧ f.level = l ∧ f.index = 0) ∧
    (goesOn → ∃ (u : State) (c : Context),
      u = (s.startNewFrame l).modLvl l (fun w => { w with trainCount := soFar + 1 }) ∧ (u.lvl l).ctx = some c ∧
      v.queue.head? = some c.entry ∧ c.next = 0 ∧
      (u.firstFailing (u.fragmentCells c) = none → s.trainDecision l = u.startFragment (u.nextFragment l c)) ∧
      (∀ cell, u.firstFailing (u.fragmentCells c) = some cell →
        s.trainDecision l = (u.formingFails l c.entry cell).auction))

/-- FRAGMENT_COMPLETION (R53, R60): the fragment is counted, its bytes have left, and what follows is the Abort
completion, an auction, the frame completion, or the boundary. -/
def Obligations.FragmentCompletionCountsAndDecides : Prop :=
  ∀ (s : State) (f : Fragment) (cells : List CellNo), s.trunk.inFlight = some f →
    let u := (s.corrupt cells).countFragment f
    (u.trunk.inFlight = none ∧ u.trunk.lastSent = f.bytes ∧
      (f.position = .abort → u.trunk.abortsSent = bump s.trunk.abortsSent ∧
        u.trunk.fragmentsSent = s.trunk.fragmentsSent ∧
        u.trunk.payloadBytesSent = s.trunk.payloadBytesSent) ∧
      (f.position ≠ .abort → u.trunk.abortsSent = s.trunk.abortsSent ∧
        u.trunk.fragmentsSent = bump s.trunk.fragmentsSent ∧
        u.trunk.payloadBytesSent = bumpBy s.trunk.payloadBytesSent f.len)) ∧
    (f.position = .abort → exec (.fragmentCompletion cells) s =
      .next ((u.modLvl f.level fun v => { v with abortOwed := none }).auction).settle) ∧
    (f.position ≠ .abort → (s.lvl f.level).ctx = none →
      exec (.fragmentCompletion cells) s = .next u.auction.settle) ∧
    (∀ c, (s.lvl f.level).ctx = some c → f.position = .whole ∨ f.position = .last →
      exec (.fragmentCompletion cells) s = .next (u.completeFrame f.level c (f.index + 1)).settle) ∧
    (∀ c, (s.lvl f.level).ctx = some c → f.position = .first ∨ f.position = .middle →
      exec (.fragmentCompletion cells) s = .next (u.boundary f.level f.len).settle)

/-- SPACING_DEADLINE_PASSES and TRUNK_LINE_UP (R17, R59): the deadline is removed, or the line is Up, and an auction
is held at the end of the step. An auction that is not called for is not held, and no step leaves one due (R8, log 9). -/
def Obligations.DeadlineAndLineUpHoldAnAuction : Prop :=
  (∀ s t : State, s.auctionDue = false → step s = .next t → t.auctionDue = false) ∧
  (∀ (s : State) (l : Level) (cells : List CellNo), (s.lvl l).deadline = some s.now →
    exec (.spacingDeadlinePasses l cells) s =
      .next (((s.corrupt cells).modLvl l fun v => { v with deadline := none }).triggerAuction).settle) ∧
  (∀ (s : State) (cells : List CellNo), s.ctl.mode ≠ .init → s.trunk.lineUp = false →
    exec (.trunkLineUp cells) s = .next (({ s with
      pins := { s.pins with trunkUp := true }
      trunk := { s.trunk with lineUp := true }
      store := { s.store with corrupted := cells ++ s.store.corrupted } } : State).triggerAuction).settle) ∧
  (∀ s : State, s.triggerAuction.settle = ({ s.triggerAuction.auction with auctionDue := false } : State).forgetFreed) ∧
  (∀ s : State, s.auctionDue = false → s.settle = s.forgetFreed) ∧
  (∀ s : State, s.forgetFreed = { s with cmd := { s.cmd with freed := s.forgetFreed.cmd.freed } })

/-- R9, R13: "level 0 waits behind at most one fragment of any other frame": with level 0's work waiting and the line
Up, the fragment that follows the one in flight is level 0's, whatever the other levels hold. -/
def Obligations.NoticeWaitsForOneFragmentAtMost : Prop :=
  ∀ (s t : State) (f : Fragment), s.trunk.inFlight = some f → f.level ≠ 0 → s.trunk.lineUp = true →
    (s.lvl 0).attrs = .builtIn 8 → s.store.corrupted = [] → s.hasWork 0 = true →
    exec (.fragmentCompletion []) s = .next t → ∃ g, t.trunk.inFlight = some g ∧ g.level = 0

/-! ### Level commands and queues (01, 02) -/

/-- READ_LEVEL, WRITE_LEVEL, FLUSH_LEVEL (R24, R2, R3, R19), and the level report of R188, 29 bytes. -/
def Obligations.LevelCommandsComplete : Prop :=
  (∀ (s found t : State) (c : CommandFrame) (e : EntryNo),
    (s.Attempts .readLevel c found e t →
      (∀ l : Level, l.val = c.arg 0 → exec .readLevel s = .next (t.answered c e .ok (t.levelReport l))) ∧
      (31 < c.arg 0 → exec .readLevel s = .next (t.answered c e .badIndex []))) ∧
    (s.Attempts .writeLevel c found e t →
      (c.arg 0 < 2 ∨ 31 < c.arg 0 → exec .writeLevel s = .next (t.answered c e .badIndex [])) ∧
      (∀ l : Level, 2 ≤ l.val → l.val = c.arg 0 →
        (c.arg 4 = 0 ∨ 16 < c.arg 4 ∨ 31 < c.arg 1 →
          exec .writeLevel s = .next (t.answered c e .badValue [])) ∧
        (1 ≤ c.arg 4 → c.arg 4 ≤ 16 → c.arg 1 ≤ 31 →
          exec .writeLevel s = .next ((t.writeAttrs l c.attrs).answered c e .ok []) ∧
          ((t.writeAttrs l c.attrs).lvl l).attrs = c.attrs ∧
          (¬ (t.ctl.mode = .fallback ∧ (t.lvl l).attrs.essential = true ∧ c.attrs.essential = false) →
            (t.writeAttrs l c.attrs).lvl l = { t.lvl l with attrs := c.attrs } ∧
            ∀ m, m ≠ l → (t.writeAttrs l c.attrs).lvl m = t.lvl m) ∧
          (t.ctl.mode = .fallback → (t.lvl l).attrs.essential = true → c.attrs.essential = false →
            ((t.writeAttrs l c.attrs).lvl l).queue = [] ∧
            ((t.lvl l).ctx ≠ none → t.sending l = false → ((t.writeAttrs l c.attrs).lvl l).ctx = none))))) ∧
    (s.Attempts .flushLevel c found e t →
      (c.arg 0 < 2 ∨ 31 < c.arg 0 → exec .flushLevel s = .next (t.answered c e .badIndex [])) ∧
      (∀ l : Level, 2 ≤ l.val → l.val = c.arg 0 →
        ((t.lvl l).flushPending ≠ none → exec .flushLevel s = .next (t.answered c e .busy [])) ∧
        ((t.lvl l).flushPending = none → (t.lvl l).ctx = none →
          exec .flushLevel s = .next ((t.emptyQueue l).answered c e .ok [])) ∧
        ((t.lvl l).flushPending = none → (t.lvl l).ctx ≠ none → t.sending l = false →
          exec .flushLevel s = .next (((t.emptyQueue l).abandon l true).answered c e .ok [])) ∧
        ((t.lvl l).flushPending = none → (t.lvl l).ctx ≠ none → t.sending l = true →
          exec .flushLevel s = .next (((t.emptyQueue l).modLvl l fun v =>
            { v with flushPending := some { tag := c.tag, sender := c.sender } }).pended c e (.flushLevel l))) ∧
        (t.emptyQueue l).lvl l = { t.lvl l with
          queue := []
          framesDropped := bumpBy (t.lvl l).framesDropped (t.lvl l).queue.length
          trainCount := 0 }))) ∧
  (∀ (t : State) (l : Level),
    let v := t.lvl l
    let enciphered := decide (∃ c, v.ctx = some c ∧ c.key ≠ none)
    t.levelReport l =
      [flagsByte [v.attrs.enable, v.attrs.yields, v.attrs.cipher, v.attrs.record, v.attrs.essential]] ++
      bytes2 v.attrs.spacing ++ [byteOf v.attrs.trainMax, byteOf v.attrs.queueLimit, byteOf (t.levelState l).code,
        byteOf v.queue.length,
        flagsByte [v.ctx.isSome, enciphered, v.abortOwed.isSome, v.deadline.isSome, v.flushPending.isSome]] ++
      ((v.ctx.map fun c => [byteOf c.next] ++ bytes2 c.sent ++ [byteOf c.suspensions]).getD [0, 0, 0, 0]) ++
      [byteOf v.trainCount] ++ bytes4 ((v.deadline.map fun d => d - t.now).getD 0) ++
      bytes4 v.framesSent ++ bytes4 v.framesDropped ++ bytes4 v.framesAborted ∧ (t.levelReport l).length = 29)

/-- R40, R41, R42: the four tests of a level queue, and what an accepted and a refused offer do. -/
def Obligations.QueueAdmitsByFourTests : Prop :=
  ∀ (s : State) (l : Level) (e : EntryNo) (first : Bool),
    let v := s.lvl l
    let held := v.queue.length + (if l = 0 ∧ v.ctx.isSome = true then 1 else 0)
    let refused := (2 ≤ l.val ∧ s.ctl.mode = .setup) ∨
      (s.ctl.mode = .fallback ∧ v.attrs.essential = false) ∨ v.flushPending ≠ none ∨
      (0 < v.attrs.queueLimit ∧ v.attrs.queueLimit ≤ held)
    (refused → s.offerLevel l e first =
      (false, s.modLvl l fun v => { v with framesDropped := bump v.framesDropped })) ∧
    (¬ refused → (s.offerLevel l e first).1 = true ∧
      (s.offerLevel l e first).2.lvl l = { v with queue := v.queue ++ [e] } ∧
      (∀ m, m ≠ l → (s.offerLevel l e first).2.lvl m = s.lvl m) ∧
      (s.offerLevel l e first).2.auctionDue = true ∧
      (s.offerLevel l e first).2.store = (if first then s.store else (s.addHolder e).store))

/-! ### Frame Store (02) -/

/-- R31, R32, R33: an allocation succeeds whole or takes nothing and is counted in AllocRefusals; traffic leaves 12
entries and 24 cells. R29, R30: a release lowers the holder count; at 0 the entry and the cells of its list are free
again, and every other entry is as before. -/
def Obligations.AllocationTakesAndReleaseGivesBack : Prop :=
  (∀ (s : State) (f : FrameEntry) (n : Nat),
      (12 < s.store.freeEntries.length → cellsFor f.len + 24 ≤ s.store.freeCells.length →
        ∃ e t, s.allocTraffic f = (some e, t) ∧ e ∈ s.store.freeEntries ∧
          t.store.freeEntries.length + 1 = s.store.freeEntries.length ∧
          t.store.freeCells.length + cellsFor f.len = s.store.freeCells.length ∧
          t = { s with store := t.store } ∧ t.store.mem = s.store.mem ∧
          ∃ g, t.entry? e = some g ∧ g = { f with cells := g.cells, holders := 1 } ∧
            g.cells.length = cellsFor f.len ∧ ∀ x ∈ g.cells, x ∈ s.store.freeCells) ∧
      (s.store.freeEntries.length ≤ 12 ∨ s.store.freeCells.length < cellsFor f.len + 24 →
        s.allocTraffic f =
          (none, { s with store := { s.store with allocRefusals := bump s.store.allocRefusals } })) ∧
      (1 ≤ s.store.freeEntries.length → n ≤ s.store.freeCells.length →
        ∃ e t, s.allocReserve n f = (some e, t) ∧ e ∈ s.store.freeEntries ∧
          t.store.freeEntries.length + 1 = s.store.freeEntries.length ∧
          t.store.freeCells.length + n = s.store.freeCells.length ∧
          t = { s with store := t.store } ∧ t.store.mem = s.store.mem ∧
          ∃ g, t.entry? e = some g ∧ g = { f with cells := g.cells, holders := 1 } ∧
            g.cells.length = n ∧ ∀ x ∈ g.cells, x ∈ s.store.freeCells) ∧
      (s.store.freeEntries.length = 0 ∨ s.store.freeCells.length < n →
        s.allocReserve n f =
          (none, { s with store := { s.store with allocRefusals := bump s.store.allocRefusals } }))) ∧
  (∀ (s : State) (e : EntryNo) (f : FrameEntry), s.entry? e = some f →
      (f.holders ≤ 1 → (s.release e).entry? e = none ∧
        (s.release e).store.freeEntries.Perm (e :: s.store.freeEntries) ∧
        (s.release e).store.freeCells.Perm (f.cells ++ s.store.freeCells)) ∧
      (1 < f.holders → (s.release e).entry? e = some { f with holders := f.holders - 1 } ∧
        (s.release e).store.freeEntries = s.store.freeEntries ∧
        (s.release e).store.freeCells = s.store.freeCells) ∧
      (∀ d, d ≠ e → (s.release e).entry? d = s.entry? d) ∧
      (s.release e).store.retired = s.store.retired ∧ (s.release e).store.mem = s.store.mem)

/-- R27, R34: where payload bytes lie, which cells are read for some of them, and that bytes written are read back and
no other byte of any cell changes. -/
def Obligations.PayloadIsReadAsWritten : Prop :=
  ∀ (s : State) (e : EntryNo) (f : FrameEntry) (offset : Nat) (bytes : List Byte),
    s.store.Conserved → s.store.mem.wf = true → s.entry? e = some f →
    offset + bytes.length + 16 ≤ f.cells.length * 64 →
    (∀ (j : Nat) (c : CellNo), f.cells[0]? = some c → j < 48 → f.address? j = some (c * 64 + 16 + j)) ∧
    (∀ (j k : Nat) (c : CellNo), 1 ≤ k → f.cells[k]? = some c → j < 64 →
      f.address? (48 + 64 * (k - 1) + j) = some (c * 64 + j)) ∧
    (∀ i b, bytes[i]? = some b → (s.writePayload e offset bytes).payloadByte f (offset + i) = b) ∧
    (∀ a, (∀ i, i < bytes.length → f.address? (offset + i) ≠ some a) →
      (s.writePayload e offset bytes).store.mem.read a = s.store.mem.read a) ∧
    s.writePayload e offset bytes =
      { s with store := { s.store with
          mem := (s.writePayload e offset bytes).store.mem
          corrupted := (s.writePayload e offset bytes).store.corrupted } } ∧
    (∀ len, 1 ≤ len → ∀ cell, cell ∈ f.cellsHolding offset len ↔
      ∃ i, i < len ∧ f.cells[(offset + i + 16) / 64]? = some cell)

/-- PORT_CELL_CHECK_FAILURE (R117) and R35, R36: the cell is retired, the failure and the lost frame are counted, and
each kind of holder gives the frame up in its own way: the ports, then the levels, then the ports that are idle start
their next entries (log 23). After it no level and no port holds the frame, and its entry is free. A flush that waits
on the level may take the freed number for its response (R20), so that clause is for a level without one. -/
def Obligations.FailingCellLosesTheFrame : Prop :=
  (∀ (s : State) (p : PortNo) (x : PortTx) (cell : CellNo), cell < 1024 → (s.port p).tx = some x →
    cell ∈ (s.entryAt x.entry).cells →
    exec (.portCellCheckFailure p cell) s = .next ((s.loseFrame x.entry cell).raise .cellCheck
      { port := some p, rule := (s.entryAt x.entry).rule, cell := some cell }).settle) ∧
  (∀ (s : State) (e : EntryNo) (cell : CellNo),
    let retired : State := { s with store := { s.store with
      entries := changeEntry s.store.entries e fun f => { f with cells := f.cells.erase cell }
      retired := s.store.retired ++ [cell]
      cellCheckFailures := bump s.store.cellCheckFailures
      framesLostToCheck := bump s.store.framesLostToCheck } }
    let ports : List PortNo := [0, 1, 2, 3]
    s.loseFrame e cell = ports.foldl State.startTx
      ((List.finRange 32).foldl (State.levelGivesUp e) (ports.foldl (State.portGivesUp e) retired)) ∧
    (s.loseFrame e cell).store.retired = s.store.retired ++ [cell] ∧
    (s.loseFrame e cell).store.cellCheckFailures = bump s.store.cellCheckFailures ∧
    (s.loseFrame e cell).store.framesLostToCheck = bump s.store.framesLostToCheck) ∧
  (∀ (s : State) (e : EntryNo) (cell : CellNo), s.store.Conserved → s.HoldersCounted →
    (∀ l c, (s.lvl l).ctx = some c → c.entry = e → (s.lvl l).flushPending = none) →
    let t := s.loseFrame e cell
    (∀ l, e ∉ (t.lvl l).queue ∧ ∀ c, (t.lvl l).ctx = some c → c.entry ≠ e) ∧
    (∀ p, e ∉ (t.port p).queue ∧ ∀ x, (t.port p).tx = some x → x.entry ≠ e) ∧
    (e ∉ s.soleHeld → t.entry? e = none)) ∧
  (∀ (s : State) (e : EntryNo) (l : Level),
    (e ∈ (s.lvl l).queue → s.levelGivesUp e l =
      (s.modLvl l fun v => { v with queue := v.queue.filter fun d => d != e }).release e) ∧
    (∀ c, e ∉ (s.lvl l).queue → (s.lvl l).ctx = some c → c.entry = e →
      (s.sending l = true ∨ 0 < c.next → s.levelGivesUp e l = s.abandon l true) ∧
      (s.sending l = false → c.next = 0 → s.levelGivesUp e l = s.abandon l false)) ∧
    (e ∉ (s.lvl l).queue → (∀ c, (s.lvl l).ctx = some c → c.entry ≠ e) → s.levelGivesUp e l = s)) ∧
  (∀ (s : State) (e : EntryNo) (p : PortNo),
    (e ∈ (s.port p).queue → s.portGivesUp e p =
      (s.modPort p fun v => { v with queue := v.queue.filter fun d => d != e }).release e) ∧
    (∀ x, e ∉ (s.port p).queue → (s.port p).tx = some x → x.entry = e → s.portGivesUp e p =
      (s.modPort p fun v => { v with tx := none, txAborted := bump v.txAborted }).release e) ∧
    (e ∉ (s.port p).queue → (∀ x, (s.port p).tx = some x → x.entry ≠ e) → s.portGivesUp e p = s))

/-- Events that store nothing leave every byte of every cell (R107, R112, R104, R116, R143, R162). -/
def Obligations.EventsThatStoreNothingLeaveEveryByte : Prop :=
  ∀ (s t : State) (i : Instr) (p : PortNo), s.auctionDue = false →
    i = .receiveLineActive p ∨ i = .jabberRecovery p ∨ i = .portLineDown p ∨ i = .portLineUp p ∨
      i = .transmissionCompletes p ∨ i = .malformedCommand ∨ i = .resetPinRelease →
    exec i s = .next t → ∀ a, t.store.mem.read a = s.store.mem.read a

/-! ### Trunk egress (03) -/

/-- TRUNK_LINE_DOWN (R57, R131): the fragment in flight is lost and counted, every level's context frame is abandoned,
every reassembly ends, LineDowns is counted and TRUNK_DOWN is raised. -/
def Obligations.LineDownAbandonsEveryContext : Prop :=
  ∀ s : State, s.ctl.mode ≠ .init → s.trunk.lineUp = true →
    ∃ t, exec .trunkLineDown s = .next t ∧
      t.trunk.lineUp = false ∧ t.trunk.inFlight = none ∧ t.pins.trunkUp = false ∧
      (∀ l, (t.lvl l).ctx = none) ∧ (∀ l, t.rxCtx l = .idle) ∧
      (s.trunk.inFlight ≠ none → t.trunk.fragmentsLost = bump s.trunk.fragmentsLost) ∧
      (s.trunk.inFlight = none → t.trunk.fragmentsLost = s.trunk.fragmentsLost) ∧
      t.trunk.lineDowns = bump s.trunk.lineDowns ∧
      KindSet.has t.fault.summary .trunkDown = true ∧
      (∀ l, (s.lvl l).ctx ≠ none → (t.lvl l).abortOwed ≠ none ∧
        (t.lvl l).framesAborted = bump (s.lvl l).framesAborted)

/-- READ_RECORDS and R63, R64: the log keeps 32 records in order and drops what comes to it when it is full; a read
takes the oldest and clears LogOverflow. -/
def Obligations.RecordLogKeepsTheOldest : Prop :=
  (∀ (t : Trunk) (r : EgressRecord),
    (t.log.length < 32 → t.writeRecord r = { t with log := t.log ++ [r] }) ∧
    (32 ≤ t.log.length → t.writeRecord r = { t with logOverflow := true })) ∧
  (∀ (s found t : State) (c : CommandFrame) (e : EntryNo), s.Attempts .readRecords c found e t →
    (c.arg 0 = 0 ∨ 8 < c.arg 0 → exec .readRecords s = .next (t.answered c e .badValue [])) ∧
    (1 ≤ c.arg 0 → c.arg 0 ≤ 8 → exec .readRecords s = .next
      (({ t with trunk := { t.trunk with log := t.trunk.log.drop (c.arg 0), logOverflow := false } } : State).answered
        c e .ok ([byteOf (min (c.arg 0) t.trunk.log.length), if t.trunk.logOverflow then 1 else 0,
          byteOf (t.trunk.log.length - c.arg 0)] ++
          (t.trunk.log.take (c.arg 0)).flatMap EgressRecord.bytes))))

/-- R47: a payload is cut into at most eight fragments that follow one another without a gap, each of the fragment
size but the last, and placed Whole, First, Middle or Last. -/
def Obligations.FragmentsCoverThePayload : Prop :=
  ∀ len size : Nat, 1 ≤ len → len ≤ 496 → size = 64 ∨ size = 128 ∨ size = 256 →
    1 ≤ fragmentCount len size ∧ fragmentCount len size ≤ 8 ∧
    ((List.range (fragmentCount len size)).map (fragmentLength len size)).sum = len ∧
    (∀ k, k + 1 < fragmentCount len size → fragmentLength len size k = size) ∧
    (∀ k, k < fragmentCount len size → 1 ≤ fragmentLength len size k) ∧
    (fragmentCount len size = 1 → fragmentPosition len size 0 = .whole) ∧
    (1 < fragmentCount len size → fragmentPosition len size 0 = .first ∧
      (∀ k, 1 ≤ k → k + 1 < fragmentCount len size → fragmentPosition len size k = .middle) ∧
      fragmentPosition len size (fragmentCount len size - 1) = .last)

/-- R185, R187 to R189: a fragment's header and a rule entry are read as they were written, with every value of every
field; a fragment that is sent has a good CRC-32 and gives back its payload. Numbers go most significant byte first, a
flags byte has bit 0 for its first item, and the codes, records and notices are those of the tables. -/
def Obligations.HeadersAndRulesAreReadAsWritten : Prop :=
  (∀ (h : FragmentHeader) (rest : List Byte), h.index < 8 → h.total < 65536 → h.len < 65536 →
    FragmentHeader.parse (h.bytes ++ rest) = h) ∧
  (∀ (h : FragmentHeader) (payload : List Byte),
    fragmentCrcGood (fragmentBytes h payload) = true ∧ fragmentPayload (fragmentBytes h payload) = payload) ∧
  (∀ (b : Byte) (r : Rule) (rest : List Byte), r.lenMin < 65536 → r.lenMax < 65536 →
    Rule.parse (b :: (r.bytes ++ rest)) 1 = { r with hits := 0 }) ∧
  (∀ r : Rule, r.bytes = [flagsByte [r.valid, decide (r.action = .drop), r.record, false, r.portMask.getLsbD 0,
      r.portMask.getLsbD 1, r.portMask.getLsbD 2, r.portMask.getLsbD 3], r.srcLow, r.srcHigh, r.dstLow, r.dstHigh,
    r.clsValue, r.clsMask] ++ bytes2 r.lenMin ++ bytes2 r.lenMax ++ [byteOf r.level.val, r.label]) ∧
  (∀ r : EgressRecord, r.bytes = [byteOf (r.level.val + if r.outcome = .aborted then 128 else 0), r.label,
    byteOf ((r.port.map Fin.val).getD 255), byteOf ((r.rule.map Fin.val).getD 255), r.dst, byteOf r.fragments,
    byteOf r.suspensions] ++ bytes4 r.start ++ bytes4 r.finish) ∧
  (∀ (r : FaultReport) (filled : Bool),
    let present := [r.fields.level.isSome, r.fields.port.isSome, r.fields.node.isSome, r.fields.rule.isSome,
      r.fields.cell.isSome]
    r.fields.present = present ∧
    r.fields.bytes = [byteOf ((r.fields.level.map Fin.val).getD 0), byteOf ((r.fields.port.map Fin.val).getD 0),
      r.fields.node.getD 0, byteOf ((r.fields.rule.map Fin.val).getD 0)] ++ bytes2 (r.fields.cell.getD 0) ∧
    r.notice filled = [byteOf r.kind.code, flagsByte (filled :: present)] ++ bytes4 r.time ++ r.fields.bytes) ∧
  (∀ items : List Bool, items.length ≤ 8 → ∀ i, i < 8 → (flagsByte items).getLsbD i = items.getD i false) ∧
  (∀ n, n < 65536 → ∃ high low : Byte, bytes2 n = [high, low] ∧ high.toNat * 256 + low.toNat = n) ∧
  (∀ w : Word, ∃ a b c d : Byte, bytes4 w = [a, b, c, d] ∧ a ++ b ++ c ++ d = w) ∧
  ([Mode.init, .setup, .run, .fallback].map Mode.code = List.range 4 ∧
    [ResetCause.powerOn, .resetPin, .resetCommand].map ResetCause.code = List.range 3 ∧
    [PortMode.offline, .listen, .active, .loopback].map PortMode.code = List.range 4 ∧
    [PortState.offline, .isolated, .down, .listen, .active, .loopback].map PortState.code = List.range 6 ∧
    [LevelState.sending, .barred, .eligible, .spacing, .keyless, .held, .ready, .off].map LevelState.code =
      List.range 8 ∧
    [Disposition.unassigned, .trunk, .port 0, .port 1, .port 2, .port 3, .self, .broadcast].map Disposition.code =
      List.range 8 ∧
    [Region.rules, .nodeMap, .levels, .ports, .keys, .mode, .logs].map (fun r => r.code.val) = List.range 7 ∧
    [Access.none, .read, .full].map Access.code = List.range 3 ∧
    [Sender.station 0, .station 1, .station 2, .station 3, .trunk].map Sender.code = List.range 5 ∧
    [PayloadType.data, .command, .response, .notice].map PayloadType.code = List.range 4 ∧
    [Position.whole, .first, .middle, .last, .abort].map Position.code = List.range 5 ∧
    [Status.ok, .denied, .badIndex, .badValue, .wrongMode, .busy, .inUse, .noKey, .lineBusy, .early, .notRefreshed,
      .unknownCommand].map Status.code = List.range 12 ∧
    [FaultKind.cellCheck, .poolExhausted, .commandOverrun, .accessDenied, .supervisionExpired, .supervisionEarly,
      .supervisionChange, .portJabber, .portSilent, .trunkDown, .reassemblyGap, .cipherReject,
      .sequenceExhausted].map FaultKind.code = List.range 13 ∧
    (∀ k x y, KeySlot.empty.code = 0 ∧ (KeySlot.expanding k x).code = 1 ∧ (KeySlot.ready y).code = 2) ∧
    (∀ x, Reassembly.idle.code = 0 ∧ (Reassembly.collecting x).code = 1 ∧ Reassembly.discarding.code = 2))

/-! ### Cipher Unit (04) -/

/-- LOAD_KEY, ERASE_KEY, SELECT_SLOT, READ_KEY_STATE (R68, R69, R72, R73, R75), and the results of READ_KEY_STATE
(R188). -/
def Obligations.KeyCommandsComplete : Prop :=
  (∀ (s found t : State) (c : CommandFrame) (e : EntryNo),
    let expanding := fun k : Slot => ∃ key since, t.slot k = .expanding key since
    let inUse := fun k : Slot => (t.cipher.active = k ∧ ∃ l : Level, 2 ≤ l.val ∧ (t.lvl l).attrs.cipher = true) ∨
      (∃ l x v, (t.lvl l).ctx = some x ∧ x.key = some (k, v)) ∨
      (∃ l x v, t.rxCtx l = .collecting x ∧ x.key = some (k, v))
    (s.Attempts .loadKey c found e t →
      (1 < c.arg 0 → exec .loadKey s = .next (t.answered c e .badIndex [])) ∧
      (∀ k : Slot, k.val = c.arg 0 →
        (expanding k → exec .loadKey s = .next (t.answered c e .busy [])) ∧
        (¬ expanding k → inUse k → exec .loadKey s = .next (t.answered c e .inUse [])) ∧
        (¬ expanding k → ¬ inUse k → exec .loadKey s =
          .next ((t.setSlot k (.expanding (blockOf (c.args.drop 1)) t.now)).pended c e (.loadKey k))))) ∧
    (s.Attempts .eraseKey c found e t →
      (1 < c.arg 0 → exec .eraseKey s = .next (t.answered c e .badIndex [])) ∧
      (∀ k : Slot, k.val = c.arg 0 →
        (expanding k → exec .eraseKey s = .next (t.answered c e .busy [])) ∧
        (¬ expanding k → inUse k → exec .eraseKey s = .next (t.answered c e .inUse [])) ∧
        (¬ expanding k → ¬ inUse k → exec .eraseKey s =
          .next (((t.setSlot k .empty).resetSequences k).answered c e .ok [])))) ∧
    (s.Attempts .selectSlot c found e t →
      (1 < c.arg 0 → exec .selectSlot s = .next (t.answered c e .badIndex [])) ∧
      (∀ k : Slot, k.val = c.arg 0 →
        (∀ key, t.slot k = .ready key → exec .selectSlot s =
          .next ((({ t with cipher := { t.cipher with active := k } } : State).triggerAuction).answered c e .ok [])) ∧
        ((∀ key, t.slot k ≠ .ready key) → exec .selectSlot s = .next (t.answered c e .noKey [])))) ∧
    (s.Attempts .readKeyState c found e t → exec .readKeyState s = .next (t.answered c e .ok t.keyReport))) ∧
  (∀ t : State,
    let contexts := fun k : Slot => {l : Level | ∃ x v, (t.lvl l).ctx = some x ∧ x.key = some (k, v)}.ncard
    let collecting := fun k : Slot => {l : Level | ∃ x v, t.rxCtx l = .collecting x ∧ x.key = some (k, v)}.ncard
    ∃ exhausted0 exhausted1 : Word,
      t.keyReport = [byteOf t.cipher.active.val, byteOf (t.slot 0).code, byteOf (t.slot 1).code,
        byteOf (contexts 0), byteOf (contexts 1), byteOf (collecting 0), byteOf (collecting 1)] ++
        bytes4 exhausted0 ++ bytes4 exhausted1 ++
        [byteOf {l : Level | 2 ≤ l.val ∧ (t.lvl l).attrs.cipher = true}.ncard] ++ bytes4 t.cipher.rejects ∧
      ∀ l : Level, (exhausted0.getLsbD l.val = true ↔ t.txSequence 0 l = .exhausted) ∧
        (exhausted1.getLsbD l.val = true ↔ t.txSequence 1 l = .exhausted))

/-- KEY_CHECK (R74): the first three bytes of the enciphered all-zero block, or NO_KEY; the Cipher Unit is unchanged
and no sequence is used. -/
def Obligations.KeyCheckReturnsThreeBytes : Prop :=
  ∀ (s found t : State) (c : CommandFrame) (e : EntryNo), s.Attempts .keyCheck c found e t →
    (1 < c.arg 0 → exec .keyCheck s = .next (t.answered c e .badIndex [])) ∧
    (∀ k : Slot, k.val = c.arg 0 →
      (∀ key, t.slot k = .ready key →
        let b := Config.blockCipher key 0
        exec .keyCheck s = .next (t.answered c e .ok [blockByte b 0, blockByte b 1, blockByte b 2])) ∧
      ((∀ key, t.slot k ≠ .ready key) → exec .keyCheck s = .next (t.answered c e .noKey []))) ∧
    (∀ st r, (t.answered c e st r).cipher = s.cipher ∧
      ∀ j l, (t.finish c e st r).txSequence j l = s.txSequence j l)

/-- EXPANSION_COMPLETES (R70): the slot is Ready with the key loaded, its transmit sequences are 1 and its accepted
sequences 0 on all levels, the other slot is as before, an auction is due when the slot is the active one, and the
LoadKey's operation ends. R152, R153, R19, R20: what the end of a long operation does, a flush's too: the record leaves
the list, and the response is built and routed by the recorded origin, or it waits. -/
def Obligations.ExpansionMakesTheSlotReady : Prop :=
  (∀ (s : State) (k : Slot) (key : Block) (since : Word), s.slot k = .expanding key since →
    ∃ v : State, v.cmd = s.cmd ∧ v.store = s.store ∧ v.slot k = .ready key ∧
      (∀ l, v.txSequence k l = .seq 1 ∧ v.lastAccepted k l = 0) ∧
      (∀ j, j ≠ k → v.slot j = s.slot j ∧
        ∀ l, v.txSequence j l = s.txSequence j l ∧ v.lastAccepted j l = s.lastAccepted j l) ∧
      let u := v.endLongOp (.loadKey k)
      (s.cipher.active = k → exec (.expansionCompletes k) s = .next u.triggerAuction.settle) ∧
      (s.cipher.active ≠ k → exec (.expansionCompletes k) s = .next u.settle) ∧
      u.slot k = .ready key ∧ ∀ r ∈ u.cmd.longOps, r.op ≠ .loadKey k) ∧
  (∀ (s : State) (op : LongOp),
    ((∀ r ∈ s.cmd.longOps, r.op ≠ op) → s.endLongOp op = s) ∧
    (∀ r, s.cmd.longOps.find? (fun x => decide (x.op = op)) = some r →
      let u : State := { s with cmd := { s.cmd with longOps := s.cmd.longOps.filter fun x => decide (x.op ≠ op) } }
      let response := fun code : Byte => [code, r.tag.extractLsb' 8 8, r.tag.extractLsb' 0 8, 0]
      (∀ t, u.allocReserve 1 (u.responseEntry r.node) = (none, t) →
        s.endLongOp op = { t with cmd := { t.cmd with waiting := t.cmd.waiting ++ [r] } }) ∧
      (∀ e t, u.allocReserve 1 (u.responseEntry r.node) = (some e, t) →
        (∀ l, op = .flushLevel l → s.endLongOp op = (t.fillResponse e (response 7)).routeResponse e r.sender) ∧
        (∀ k, op = .loadKey k → s.endLongOp op = (t.fillResponse e (response 11)).routeResponse e r.sender)))) ∧
  (∀ (s : State) (l : Level),
    ((s.lvl l).flushPending = none → s.flushComplete l = s) ∧
    ((s.lvl l).flushPending ≠ none → s.flushComplete l =
      (s.modLvl l fun v => { v with flushPending := none }).endLongOp (.flushLevel l)))

/-- R76, R77: payload byte j of the frame is combined with byte j mod 16 of E applied to counter block j div 16, whose
bytes are the table's; different slots, levels, sequences, nodes or block indices give different counter blocks; a
keystream combined twice gives the bytes back, and the keystream of a fragment is the frame's from the fragment's byte
offset, wherever the frame is cut. -/
def Obligations.KeystreamRunsOverTheFrame : Prop :=
  (∀ (k k' : Slot) (l l' : Level) (v v' : Word) (src src' dst dst' : Node) (i i' : Nat), i < 65536 → i' < 65536 →
    counterBlock k l v src dst i = counterBlock k' l' v' src' dst' i' →
    k = k' ∧ l = l' ∧ v = v' ∧ src = src' ∧ dst = dst' ∧ i = i') ∧
  (∀ (s : State) (i : StreamId) (offset : Nat) (a b : List Byte),
    s.applyKeystream i offset (s.applyKeystream i offset a) = a ∧
    s.applyKeystream i offset (a ++ b) = s.applyKeystream i offset a ++ s.applyKeystream i (offset + a.length) b ∧
    (s.applyKeystream i offset a).length = a.length) ∧
  (∀ (s : State) (i : StreamId) (key : Block) (offset n : Nat) (bytes : List Byte) (b : Byte),
    s.slot i.slot = .ready key → bytes[n]? = some b →
    (s.applyKeystream i offset bytes)[n]? = some (b ^^^ blockByte (Config.blockCipher key
      (counterBlock i.slot i.level i.sequence i.src i.dst ((offset + n) / 16))) ((offset + n) % 16))) ∧
  (∀ (k : Slot) (l : Level) (v : Word) (src dst : Node) (i m : Nat), m < 16 →
    blockByte (counterBlock k l v src dst i) m =
      ([byteOf k.val, byteOf l.val] ++ bytes4 v ++ [src, dst] ++ bytes2 i ++ [0, 0, 0, 0, 0, 0]).getD m 0)

/-! ### Classification and the Node Map (05) -/

/-- R86: when a rule matches a station frame. -/
def Obligations.RuleMatchesByItsFields : Prop :=
  ∀ (r : Rule) (p : PortNo) (f : FrameEntry),
    let tag := f.classTag.getD 0
    (r.fits p f = true ↔ (r.valid = true ∧ r.portMask.getLsbD p.val = true ∧
      (r.srcLow ≤ f.src ∧ f.src ≤ r.srcHigh) ∧ (r.dstLow ≤ f.dst ∧ f.dst ≤ r.dstHigh) ∧
      (∀ b < 8, r.clsMask.getLsbD b = true → tag.getLsbD b = r.clsValue.getLsbD b) ∧
      (r.lenMin ≤ f.len ∧ f.len ≤ r.lenMax))) ∧
    (r.clsMask = 0 → ∀ tag' : Option Byte, r.fits p f = r.fits p { f with classTag := tag' }) ∧
    (r.clsMask = 255 → r.fits p f = true → tag = r.clsValue)

/-- R87, R88: the search stops at the first rule that matches, counts one hit there and writes the outcome into the
frame entry; with no match the port default decides. -/
def Obligations.FirstMatchingRuleDecides : Prop :=
  ∀ (s : State) (p : PortNo) (e : EntryNo) (f : FrameEntry), s.entry? e = some f →
    (∀ i : RuleNo, (s.rule i).fits p f = true → (∀ j, j < i → (s.rule j).fits p f = false) →
      ((s.rule i).action = .pass → (s.classify p e).1 = true ∧ (s.classify p e).2.entry? e =
        some { f with level := (s.rule i).level, label := (s.rule i).label, record := (s.rule i).record,
                      rule := some i }) ∧
      ((s.rule i).action = .drop → (s.classify p e).1 = false ∧
        (s.classify p e).2.entry? e = some { f with rule := some i }) ∧
      (s.classify p e).2.rule i = { s.rule i with hits := bump (s.rule i).hits } ∧
      ∀ j, j ≠ i → (s.classify p e).2.rule j = s.rule j) ∧
    ((∀ i, (s.rule i).fits p f = false) →
      ((s.classify p e).1 = true ↔ (s.port p).cfg.defaultAction = .pass) ∧
      (s.classify p e).2.entry? e =
        some { f with level := (s.port p).cfg.defaultLevel, label := 0, record := false, rule := none } ∧
      (s.classify p e).2.rules = s.rules)

/-- R95 to R98, R29: the destination decision for a passed frame of a port, and what an offer that is accepted or
refused comes to. -/
def Obligations.DestinationDecidesTheOffers : Prop :=
  ∀ (s : State) (p : PortNo) (e : EntryNo),
    let l := (s.entryAt e).level
    let d := s.disposition (s.entryAt e).dst
    let offersMade := s.ctl.mode = .run ∨ (s.ctl.mode = .fallback ∧ (s.lvl l).attrs.essential = true)
    let dropped := (s.release e).modPort p fun v => { v with drops := bump v.drops }
    (d = .unassigned ∨ d = .self → s.decideDestination p e = dropped) ∧
    (d = .trunk → s.decideDestination p e = s.offerAll e [.level l]) ∧
    (∀ m, d = .port m → m ≠ p → s.portState m = .active → offersMade →
      s.decideDestination p e = s.offerAll e [.port m]) ∧
    (∀ m, d = .port m → m = p ∨ s.portState m ≠ .active ∨ ¬ offersMade → s.decideDestination p e = dropped) ∧
    (d = .broadcast → offersMade → s.decideDestination p e = s.offerAll e (.level l ::
      (([0, 1, 2, 3] : List PortNo).filter fun m => m != p && s.portState m = .active).map .port)) ∧
    (d = .broadcast → ¬ offersMade → s.decideDestination p e = s.offerAll e [.level l]) ∧
    (∀ m, s.offerAll e [.level m] = (if (s.offerLevel m e true).1 then (s.offerLevel m e true).2
      else (s.offerLevel m e true).2.release e)) ∧
    (∀ m, s.offerAll e [.port m] = (if (s.offerPort m e true).1 then (s.offerPort m e true).2
      else (s.offerPort m e true).2.release e))

/-- WRITE_RULE (R84) and READ_RULES (R85): their checks in order, the whole rule replaced with its hit counter at 0,
and the rules reported. A flag bit 3 of 1 is refused too (R187, log 26). -/
def Obligations.RuleCommandsComplete : Prop :=
  ∀ (s found t : State) (c : CommandFrame) (e : EntryNo),
    (s.Attempts .writeRule c found e t →
      let r := Rule.parse c.args 1
      let bad := r.srcHigh < r.srcLow ∨ r.dstHigh < r.dstLow ∨ r.lenMin = 0 ∨ 496 < r.lenMin ∨ r.lenMax = 0 ∨
        496 < r.lenMax ∨ r.lenMax < r.lenMin ∨ c.arg 12 < 2 ∨ 31 < c.arg 12 ∨ c.argBit 1 3 = true
      (63 < c.arg 0 → exec .writeRule s = .next (t.answered c e .badIndex [])) ∧
      (c.arg 0 ≤ 63 → bad → exec .writeRule s = .next (t.answered c e .badValue [])) ∧
      (∀ i : RuleNo, i.val = c.arg 0 → ¬ bad → r.hits = 0 ∧ exec .writeRule s =
        .next (({ t with rules := t.rules.set i.val r i.isLt } : State).answered c e .ok []))) ∧
    (s.Attempts .readRules c found e t →
      (63 < c.arg 0 → exec .readRules s = .next (t.answered c e .badIndex [])) ∧
      (c.arg 0 ≤ 63 → c.arg 1 = 0 ∨ 8 < c.arg 1 → exec .readRules s = .next (t.answered c e .badValue [])) ∧
      (c.arg 0 ≤ 63 → 1 ≤ c.arg 1 → c.arg 1 ≤ 8 → 64 < c.arg 0 + c.arg 1 →
        exec .readRules s = .next (t.answered c e .badIndex [])) ∧
      (1 ≤ c.arg 1 → c.arg 1 ≤ 8 → c.arg 0 + c.arg 1 ≤ 64 → exec .readRules s =
        .next (t.answered c e .ok ((List.range (c.arg 1)).flatMap fun i =>
          (t.rule (Fin.ofNat 64 (c.arg 0 + i))).bytes ++ bytes4 (t.rule (Fin.ofNat 64 (c.arg 0 + i))).hits))))

/-- WRITE_NODE_MAP (R91): its checks in order, and the entries of the range replaced, no other. -/
def Obligations.WriteNodeMapReplacesTheRange : Prop :=
  ∀ (s found t : State) (c : CommandFrame) (e : EntryNo), s.Attempts .writeNodeMap c found e t →
    let first := c.arg 0
    let count := c.arg 1
    let countBad := count = 0 ∨ 64 < count
    let badCode := ∃ i, i < count ∧ 5 < c.arg (2 + i)
    let fixed := ∃ n : Node, first ≤ n.toNat ∧ n.toNat < first + count ∧ (n = 0 ∨ n = 255 ∨ n = t.self)
    (countBad → exec .writeNodeMap s = .next (t.answered c e .badValue [])) ∧
    (¬ countBad → 256 < first + count → exec .writeNodeMap s = .next (t.answered c e .badIndex [])) ∧
    (¬ countBad → first + count ≤ 256 → badCode → exec .writeNodeMap s = .next (t.answered c e .badValue [])) ∧
    (¬ countBad → first + count ≤ 256 → ¬ badCode → fixed →
      exec .writeNodeMap s = .next (t.answered c e .badIndex [])) ∧
    (¬ countBad → first + count ≤ 256 → ¬ badCode → ¬ fixed →
      ∃ u : State, exec .writeNodeMap s = .next (u.answered c e .ok []) ∧ u = { t with nodeMap := u.nodeMap } ∧
        ∀ n : Node,
          (first ≤ n.toNat → n.toNat < first + count →
            some (u.disposition n) = Disposition.ofCode (c.arg (2 + (n.toNat - first)))) ∧
          (n.toNat < first ∨ first + count ≤ n.toNat → u.disposition n = t.disposition n))

/-- READ_NODE_MAP (R92). -/
def Obligations.ReadNodeMapReportsTheRange : Prop :=
  ∀ (s found t : State) (c : CommandFrame) (e : EntryNo), s.Attempts .readNodeMap c found e t →
    Command.readNodeMap.region c.args = .nodeMap ∧ t.nodeMap = s.nodeMap ∧
    (c.arg 1 = 0 ∨ 64 < c.arg 1 → exec .readNodeMap s = .next (t.answered c e .badValue [])) ∧
    (1 ≤ c.arg 1 → c.arg 1 ≤ 64 → 256 < c.arg 0 + c.arg 1 →
      exec .readNodeMap s = .next (t.answered c e .badIndex [])) ∧
    (1 ≤ c.arg 1 → c.arg 1 ≤ 64 → c.arg 0 + c.arg 1 ≤ 256 →
      exec .readNodeMap s = .next (t.answered c e .ok ((List.range (c.arg 1)).map fun i =>
        byteOf (s.disposition (BitVec.ofNat 8 (c.arg 0 + i))).code))) ∧
    (∀ st r, (t.answered c e st r).nodeMap = s.nodeMap)

/-! ### Station ports (06) -/

/-- R104: the effective state of a port is the first entry of the table, and what it lets each side of the port do. -/
def Obligations.PortStateIsTheFirstOfTheTable : Prop :=
  ∀ (s : State) (p : PortNo),
    let v := s.port p
    let offline := s.ctl.mode = .init ∨ s.ctl.mode = .setup ∨ v.cfg.mode = .offline
    let down := v.lineUp = false ∧ v.cfg.mode ≠ .loopback
    (offline → s.portState p = .offline) ∧
    (¬ offline → v.latch = true → s.portState p = .isolated) ∧
    (¬ offline → v.latch = false → down → s.portState p = .down) ∧
    (¬ offline → v.latch = false → ¬ down → v.cfg.mode = .listen → s.portState p = .listen) ∧
    (¬ offline → v.latch = false → ¬ down → v.cfg.mode = .active → s.portState p = .active) ∧
    (¬ offline → v.latch = false → ¬ down → v.cfg.mode = .loopback → s.portState p = .loopback) ∧
    (∀ x : PortState, (x.receives = true ↔ x = .listen ∨ x = .active) ∧
      (x.transmits = true ↔ x = .active ∨ x = .loopback)) ∧
    v.stateIn .run = v.stateIn .fallback ∧
    (s.portState p ≠ .active → s.portState p ≠ .loopback →
      s.startTx p = s ∧ ∀ e first, (s.offerPort p e first).1 = false) ∧
    (s.portState p = .active ∨ s.portState p = .loopback →
      (∀ e first, v.queue.length < 32 → (s.offerPort p e first).1 = true) ∧
      (∀ e rest, v.tx = none → v.queue = e :: rest → ((s.startTx p).port p).tx =
        some { entry := e, loop := decide (s.portState p = .loopback) })) ∧
    (s.portState p = .listen → ∀ e,
      ¬ (v.cfg.sourceCheck = true ∧ s.disposition (s.entryAt e).src ≠ .port p) →
      ¬ ((s.entryAt e).dst = s.self ∧ (s.entryAt e).ptype = .command) →
      s.handleGood p e = (s.classify p e).2.release e) ∧
    (s.portState p = .active ∨ s.portState p = .listen → ((s.lineActive p).port p).rx = .header) ∧
    (s.portState p ≠ .active → s.portState p ≠ .listen → ((s.lineActive p).port p).rx = v.rx)

/-- READ_PORT, WRITE_PORT_CONFIG, SET_PORT_MODE (R119, R103, R112, R113, R106), and the port report of R188, 34
bytes. -/
def Obligations.PortCommandsComplete : Prop :=
  (∀ (s found t : State) (c : CommandFrame) (e : EntryNo),
    (s.Attempts .readPort c found e t →
      (3 < c.arg 0 → exec .readPort s = .next (t.answered c e .badIndex [])) ∧
      (∀ p : PortNo, p.val = c.arg 0 → exec .readPort s = .next (t.answered c e .ok (t.portReport p)))) ∧
    (s.Attempts .writePortConfig c found e t →
      (3 < c.arg 0 → exec .writePortConfig s = .next (t.answered c e .badIndex [])) ∧
      (∀ p : PortNo, p.val = c.arg 0 →
        (c.arg 2 < 2 ∨ 31 < c.arg 2 ∨ 15 < c.arg 1 →
          exec .writePortConfig s = .next (t.answered c e .badValue [])) ∧
        (2 ≤ c.arg 2 → c.arg 2 ≤ 31 → c.arg 1 ≤ 15 →
          ∃ u : State, exec .writePortConfig s = .next (u.answered c e .ok []) ∧
            (∀ q, q ≠ p → u.port q = t.port q) ∧
            (u.port p).cfg =
              { mode := (t.port p).cfg.mode, defaultAction := if c.argBit 1 0 then .drop else .pass,
                defaultLevel := Fin.ofNat 32 (c.arg 2), sourceCheck := c.argBit 1 1,
                commandsAllowed := c.argBit 1 2, autoRecover := c.argBit 1 3, silenceTime := c.arg 3 } ∧
            (u.port p).silenceStart =
              (if (t.portState p).receives = true ∧ 0 < c.arg 3 then some t.now else none) ∧
            ((t.port p).cfg.autoRecover = false → c.argBit 1 3 = true → (t.port p).latch = true →
              (t.port p).rxActive = false → (u.port p).recoveryStart = some t.now) ∧
            u.portState p = t.portState p))) ∧
    (s.Attempts .setPortMode c found e t →
      (3 < c.arg 0 → exec .setPortMode s = .next (t.answered c e .badIndex [])) ∧
      (∀ p : PortNo, p.val = c.arg 0 →
        (3 < c.arg 1 → exec .setPortMode s = .next (t.answered c e .badValue [])) ∧
        (∀ m : PortMode, m.code = c.arg 1 →
          ((t.port p).latch = true → (t.port p).rxActive = true → m ≠ .offline →
            exec .setPortMode s = .next (t.answered c e .lineBusy [])) ∧
          ((t.port p).latch = false ∨ (t.port p).rxActive = false ∨ m = .offline →
            exec .setPortMode s = .next ((t.setPortMode p m).answered c e .ok []) ∧
            ((t.setPortMode p m).port p).cfg = { (t.port p).cfg with mode := m } ∧
            ((t.setPortMode p m).port p).latch = false))))) ∧
  (∀ (t : State) (p : PortNo),
    let v := t.port p
    let level := fun e => (t.entryAt e).level
    ∃ lowest highest : Byte, t.portReport p =
      [byteOf v.cfg.mode.code,
        flagsByte [decide (v.cfg.defaultAction = .drop), v.cfg.sourceCheck, v.cfg.commandsAllowed, v.cfg.autoRecover],
        byteOf v.cfg.defaultLevel.val, byteOf v.cfg.silenceTime, byteOf (t.portState p).code,
        flagsByte [v.latch, v.silent, v.lineUp, v.rxActive, decide (v.rx ≠ .idle), v.tx.isSome],
        byteOf v.queue.length, lowest, highest, (v.tx.map fun x => byteOf (level x.entry).val).getD 255] ++
      bytes4 v.rxFrames ++ bytes4 v.rxErrors ++ bytes4 v.drops ++ bytes4 v.txFrames ++ bytes4 v.txAborted ++
      bytes4 v.jabberEvents ∧ (t.portReport p).length = 34 ∧
      (v.queue = [] → lowest = 255 ∧ highest = 255) ∧
      (∀ e ∈ v.queue, ((∀ d ∈ v.queue, level e ≤ level d) → lowest = byteOf (level e).val) ∧
        ((∀ d ∈ v.queue, level d ≤ level e) → highest = byteOf (level e).val)))

/-- R114, R115, R116: an offer to a port's egress queue: refused when the port does not transmit; inserted by level and
arrival; at 32 entries the worst entry gives way to a strictly lower level. An idle transmitter takes the head. -/
def Obligations.EgressQueueOrdersByLevel : Prop :=
  (∀ (s : State) (p : PortNo) (e : EntryNo) (first : Bool),
    let dropped := s.modPort p fun v => { v with drops := bump v.drops }
    ((s.portState p).transmits = false → s.offerPort p e first = (false, dropped)) ∧
    ((s.portState p).transmits = true → (s.port p).queue.length < 32 →
      s.offerPort p e first = (true, s.joinEgress p e first)) ∧
    (∀ (rest : List EntryNo) (worst : EntryNo), (s.portState p).transmits = true →
      (s.port p).queue = rest ++ [worst] → 32 ≤ (s.port p).queue.length →
      ((s.entryAt e).level < (s.entryAt worst).level → s.offerPort p e first = (true,
        ((s.modPort p fun v => { v with queue := rest, drops := bump v.drops }).release worst).joinEgress p e
          first)) ∧
      ((s.entryAt worst).level ≤ (s.entryAt e).level → s.offerPort p e first = (false, dropped)))) ∧
  (∀ (s : State) (p : PortNo) (e : EntryNo) (first : Bool),
    s.joinEgress p e first = (((if first then s else s.addHolder e).modPort p fun v =>
      { v with queue := s.insertByLevel v.queue e }).startTx p)) ∧
  (∀ (s : State) (queue : List EntryNo) (e : EntryNo),
    queue.Pairwise (fun a b => (s.entryAt a).level ≤ (s.entryAt b).level) →
    s.insertByLevel queue e = (queue.filter fun d => (s.entryAt d).level ≤ (s.entryAt e).level) ++
      e :: (queue.filter fun d => (s.entryAt e).level < (s.entryAt d).level) ∧
    (s.insertByLevel queue e).Pairwise (fun a b => (s.entryAt a).level ≤ (s.entryAt b).level)) ∧
  (∀ (s : State) (p : PortNo),
    (∀ e rest, (s.portState p).transmits = true → (s.port p).tx = none → (s.port p).queue = e :: rest →
      s.startTx p = s.modPort p fun v =>
        { v with queue := rest, tx := some { entry := e, loop := decide (s.portState p = .loopback) } }) ∧
    ((s.portState p).transmits = false ∨ (s.port p).tx ≠ none ∨ (s.port p).queue = [] → s.startTx p = s))

/-- RECEIVE_LINE_ACTIVE and HEADER_RECEIVED (R107, R111, R112): a receive begins on an Active or Listen port; a header
with a lawful length asks for a traffic allocation, another is jabber. -/
def Obligations.ReceiveBeginsAndAsksForStorage : Prop :=
  (∀ (s : State) (p : PortNo), s.ctl.mode ≠ .init → (s.port p).rxActive = false →
    ∃ u : State, exec (.receiveLineActive p) s = .next u.settle ∧ u.store = s.store ∧
      (∀ q, q ≠ p → u.port q = s.port q) ∧ (u.port p).rxActive = true ∧
      ((s.portState p).receives = true → (u.port p).rx = .header ∧ (u.port p).activeSince = some s.now) ∧
      ((s.portState p).receives = false →
        (u.port p).rx = (s.port p).rx ∧ (u.port p).activeSince = (s.port p).activeSince) ∧
      ((s.port p).latch = true → (s.port p).lineUp = true → (u.port p).recoveryStart = none)) ∧
  (∀ (s : State) (p : PortNo) (h : StationHeader), (s.port p).rx = .header →
    let f : FrameEntry :=
      { origin := .port p, src := h.src, dst := h.dst, classTag := some h.cls,
        ptype := PayloadType.ofCode h.typ.toNat, level := 31, rule := none, label := 0, record := false,
        len := h.len.toNat, cells := [], holders := 1 }
    (h.len.toNat = 0 ∨ 496 < h.len.toNat → exec (.headerReceived p h) s = .next (s.jabber p).settle) ∧
    (1 ≤ h.len.toNat → h.len.toNat ≤ 496 →
      (∀ e t, s.allocTraffic f = (some e, t) → exec (.headerReceived p h) s =
        .next (t.modPort p fun v => { v with rx := .storing e h }).settle) ∧
      (∀ t, s.allocTraffic f = (none, t) → exec (.headerReceived p h) s =
        .next ((t.modPort p fun v => { v with rx := .unstored, drops := bump v.drops }).raise .poolExhausted
          { port := some p }).settle)))

/-- RECEIVE_LINE_SILENT (R107, R108, R111, R93, R109, R89): what becomes of the receive that ends, and how a good frame
is handled. The row brings the bytes that arrived after the header: they lie in the cells of a stored frame, good or
not, before the cells that the row names go bad (log 11). -/
def Obligations.FrameEndIsCheckedAndHandled : Prop :=
  (∀ (s : State) (p : PortNo) (bytes : List Byte) (cells : List CellNo),
    s.ctl.mode ≠ .init → (s.port p).rxActive = true →
    let v := (s.corrupt cells).setReceivePin p false
    let u := v.lineSilent p
    let run := exec (.receiveLineSilent p bytes cells) s
    ((s.port p).rx = .idle → run = .next u.settle) ∧
    ((s.port p).rx = .header → run = .next (u.modPort p fun v =>
      { v with rx := .idle, rxErrors := bump v.rxErrors }).settle) ∧
    ((s.port p).rx = .unstored →
      (bytes.length ≤ 498 → run = .next (u.modPort p fun v => { v with rx := .idle }).settle) ∧
      (498 < bytes.length → run = .next ((v.jabber p).lineSilent p).settle)) ∧
    (∀ e h, (s.port p).rx = .storing e h →
      let v := ((s.writePayload e 0 bytes).corrupt cells).setReceivePin p false
      let u := v.lineSilent p
      let crcGood := num2 bytes h.len.toNat =
        (crc16 ([h.dst, h.src, h.cls, h.typ] ++ bytes2 h.len.toNat ++ bytes.take h.len.toNat)).toNat
      (498 < bytes.length → run = .next ((v.jabber p).lineSilent p).settle) ∧
      (bytes.length ≤ 498 → bytes.length ≠ h.len.toNat + 2 ∨ ¬ crcGood → run = .next ((u.release e).modPort p fun v =>
        { v with rx := .idle, rxErrors := bump v.rxErrors }).settle) ∧
      (bytes.length ≤ 498 → bytes.length = h.len.toNat + 2 → crcGood → run = .next
        (((u.modPort p fun v => { v with rx := .idle, rxFrames := bump v.rxFrames, silent := false }).startSilence
          p).handleGood p e).settle))) ∧
  (∀ (s : State) (p : PortNo) (e : EntryNo),
    let f := s.entryAt e
    let dropped := (s.release e).modPort p fun v => { v with drops := bump v.drops }
    let badSource := (s.port p).cfg.sourceCheck = true ∧ s.disposition f.src ≠ .port p
    let command := f.dst = s.self ∧ f.ptype = .command
    (badSource → s.handleGood p e = dropped) ∧
    (¬ badSource → command → (s.port p).cfg.commandsAllowed = true → s.handleGood p e = s.offerFifo e) ∧
    (¬ badSource → command → (s.port p).cfg.commandsAllowed = false →
      s.handleGood p e = dropped.raise .accessDenied { port := some p, node := some f.src }) ∧
    (¬ badSource → ¬ command → s.portState p = .active →
      ((s.classify p e).1 = true → s.handleGood p e = (s.classify p e).2.decideDestination p e) ∧
      ((s.classify p e).1 = false → s.handleGood p e =
        ((s.classify p e).2.release e).modPort p fun v => { v with drops := bump v.drops })) ∧
    (¬ badSource → ¬ command → s.portState p = .listen → s.handleGood p e = (s.classify p e).2.release e))

/-- EXCESS_PAYLOAD_BYTE, JABBER_TIMEOUT, JABBER_RECOVERY, SILENCE_TIMEOUT (R111, R112, R113). -/
def Obligations.JabberIsolatesAndTimesPass : Prop :=
  (∀ (s : State) (p : PortNo),
    ((∃ e h, (s.port p).rx = .storing e h) ∨ (s.port p).rx = .unstored →
      exec (.excessPayloadByte p) s = .next (s.jabber p).settle) ∧
    (∀ since, (s.portState p).receives = true → (s.port p).rxActive = true →
      (s.port p).activeSince = some since → 2000 < elapsed since s.now →
      exec (.jabberTimeout p) s = .next (s.jabber p).settle) ∧
    (((s.jabber p).port p).latch = true ∧
      ((s.jabber p).port p).jabberEvents = bump (s.port p).jabberEvents ∧ ((s.jabber p).port p).rx = .idle ∧
      KindSet.has (s.jabber p).fault.summary .portJabber = true) ∧
    ((s.portState p).receives = true → (s.jabber p).portState p = .isolated) ∧
    (s.portState p = .active → ((s.jabber p).port p).queue = [] ∧ ((s.jabber p).port p).tx = none)) ∧
  (∀ (s : State) (p : PortNo) (since : Word), (s.port p).latch = true →
    (s.port p).recoveryStart = some since → 100000 ≤ elapsed since s.now →
    ∃ u : State, exec (.jabberRecovery p) s = .next u.settle ∧ (u.port p).recoveryStart = none ∧
      ((s.port p).cfg.autoRecover = true → (u.port p).latch = false) ∧
      ((s.port p).cfg.autoRecover = false → (u.port p).latch = true)) ∧
  (∀ (s : State) (p : PortNo) (since : Word), (s.portState p).receives = true →
    0 < (s.port p).cfg.silenceTime → (s.port p).silenceStart = some since →
    (s.port p).cfg.silenceTime * 10000 ≤ elapsed since s.now →
    ∃ u : State, exec (.silenceTimeout p) s = .next u.settle ∧ (u.port p).silent = true ∧
      (u.port p).silenceStart = none ∧
      ((s.port p).silent = false → KindSet.has u.fault.summary .portSilent = true) ∧
      ((s.port p).silent = true → u.fault = s.fault))

/-- PORT_LINE_DOWN, PORT_LINE_UP, TRANSMISSION_COMPLETES, LOOPBACK_COMPLETION (R104, R105, R116, R118). -/
def Obligations.PortLineAndTransmitEventsComplete : Prop :=
  (∀ (s : State) (p : PortNo), s.ctl.mode ≠ .init →
    ((s.port p).lineUp = true → ∃ u : State, exec (.portLineDown p) s = .next u.settle ∧
      (u.port p).lineUp = false ∧ u.pins.portUp[p.val] = false ∧
      (s.portState p = .active ∨ s.portState p = .listen → u.portState p = .down ∧ (u.port p).rx = .idle) ∧
      (s.portState p = .active → (u.port p).queue = [] ∧ (u.port p).tx = none)) ∧
    ((s.port p).lineUp = false → ∃ u : State, exec (.portLineUp p) s = .next u.settle ∧
      (u.port p).lineUp = true ∧ u.pins.portUp[p.val] = true ∧
      (s.portState p = .down → (s.port p).cfg.mode = .active → u.portState p = .active) ∧
      (s.portState p = .down → (s.port p).cfg.mode = .listen → u.portState p = .listen))) ∧
  (∀ (s : State) (p : PortNo) (e : EntryNo), (s.port p).tx = some { entry := e, loop := false } →
    let f := s.entryAt e
    let body := [f.dst, f.src, f.classTag.getD 0, byteOf f.ptype.code] ++ bytes2 f.len ++ s.payload e
    exec (.transmissionCompletes p) s = .next (((s.modPort p fun v =>
      { v with lastSent := body ++ bytes2 (crc16 body).toNat, tx := none,
               txFrames := bump v.txFrames }).release e).startTx p).settle) ∧
  (∀ (s : State) (p : PortNo) (e : EntryNo) (cells : List CellNo),
    (s.port p).tx = some { entry := e, loop := true } →
    let f := s.entryAt e
    let copy : FrameEntry := { f with origin := .port p, level := 31, rule := none, label := 0, record := false }
    (∀ t, (s.corrupt cells).allocTraffic copy = (none, t) → exec (.loopbackCompletion p cells) s =
      .next (((((t.modPort p fun v => { v with drops := bump v.drops }).raise .poolExhausted
        { port := some p }).modPort p fun v =>
          { v with tx := none, txFrames := bump v.txFrames }).release e).startTx p).settle) ∧
    (∀ d t, (s.corrupt cells).allocTraffic copy = (some d, t) →
      (∀ cell, t.firstFailing f.cells = some cell →
        exec (.loopbackCompletion p cells) s = .next ((t.release d).portCellFails p e cell).settle) ∧
      (t.firstFailing f.cells = none → exec (.loopbackCompletion p cells) s =
        .next (((((t.writePayload d 0 (t.payload e)).modPort p fun v =>
          { v with tx := none, txFrames := bump v.txFrames }).release e).classifyAndDecide p d).startTx p).settle)))

/-! ### Trunk ingress (07) -/

/-- FRAGMENT_RECEIVED (R122 to R130, R80, R81): the checks on every fragment, the filter of Setup, and what a fragment
does at the reassembly context of its level. Fewer than 16 bytes are log 13's. -/
def Obligations.FragmentsAreCheckedAndReassembled : Prop :=
  (∀ (s : State) (bytes : List Byte), s.ctl.mode ≠ .init → s.trunk.lineUp = true →
    let h := FragmentHeader.parse bytes
    let run := exec (.fragmentReceived bytes) s
    let u := s.modRx fun r => { r with fragmentsReceived := bump r.fragmentsReceived }
    (fragmentCrcGood bytes = false → run = .next (s.modRx fun r => { r with crcErrors := bump r.crcErrors }).settle) ∧
    (fragmentCrcGood bytes = true → fragmentMalformed bytes h = true →
      run = .next (u.modRx fun r => { r with formatErrors := bump r.formatErrors }).settle) ∧
    (fragmentCrcGood bytes = true → fragmentMalformed bytes h = false →
      (s.ctl.mode = .setup → s.disposition h.dst ≠ .self →
        run = .next (u.modRx fun r => { r with setupIgnored := bump r.setupIgnored }).settle) ∧
      (s.ctl.mode ≠ .setup ∨ s.disposition h.dst = .self →
        run = .next (u.handleFragment h (fragmentPayload bytes)).settle))) ∧
  (∀ (bytes : List Byte) (h : FragmentHeader), 16 ≤ bytes.length →
    (fragmentMalformed bytes h = false ↔ bytes.length = 16 + h.len ∧
      ((h.position = some .abort ∧ h.len = 0 ∧ h.cipher = false) ∨
        ((1 ≤ h.len ∧ h.len ≤ 256 ∧ 1 ≤ h.total ∧ h.total ≤ 496) ∧
          ((h.position = some .whole ∧ h.index = 0 ∧ h.len = h.total) ∨
            (h.position = some .first ∧ h.index = 0 ∧ h.len < h.total) ∨
            (h.position = some .middle ∧ h.index ≠ 0 ∧ h.index ≠ 7 ∧ h.len < h.total) ∨
            (h.position = some .last ∧ h.index ≠ 0 ∧ h.len ≤ h.total)))))) ∧
  (∀ (s : State) (h : FragmentHeader) (payload : List Byte), (∀ c, s.rxCtx h.level ≠ .collecting c) →
    let u := s.setRxCtx h.level .idle
    let accepted := h.cipher = false ∨
      ((∃ key, s.slot h.slot = .ready key) ∧ s.lastAccepted h.slot h.level < h.sequence)
    let key := if h.cipher then some (h.slot, h.sequence) else none
    let f : FrameEntry :=
      { origin := .trunk, src := h.src, dst := h.dst, classTag := none, ptype := h.ptype, level := h.level,
        rule := none, label := 0, record := false, len := h.total, cells := [], holders := 1 }
    (h.position = some .whole ∨ h.position = some .first → ¬ accepted → s.handleFragment h payload =
      ({ u.setRxCtx h.level .discarding with
          cipher := { s.cipher with rejects := bump s.cipher.rejects } } : State).raise .cipherReject
        { level := some h.level, node := some h.src }) ∧
    (h.position = some .first → accepted →
      (∀ t, u.allocTraffic f = (none, t) → s.handleFragment h payload =
        (t.setRxCtx h.level .discarding).raise .poolExhausted { level := some h.level }) ∧
      (∀ e t, u.allocTraffic f = (some e, t) → s.handleFragment h payload =
        (t.writePayload e 0 (t.decipher h.level h.src h.dst key 0 payload)).setRxCtx h.level (.collecting
          { entry := e, src := h.src, dst := h.dst, ptype := h.ptype, total := h.total, expected := 1,
            received := h.len, key := key }))) ∧
    (h.position = some .whole → accepted →
      (∀ t, u.allocTraffic f = (none, t) → s.handleFragment h payload =
        t.raise .poolExhausted { level := some h.level }) ∧
      (∀ e t, u.allocTraffic f = (some e, t) → s.handleFragment h payload =
        (t.writePayload e 0 (t.decipher h.level h.src h.dst key 0 payload)).finishFrame h.level e key)) ∧
    (h.position = some .middle ∨ h.position = some .last →
      (s.rxCtx h.level = .idle → s.handleFragment h payload =
        s.modRx fun r => { r with strayFragments := bump r.strayFragments }) ∧
      (s.rxCtx h.level = .discarding → s.handleFragment h payload = s)) ∧
    (h.position = some .abort → s.handleFragment h payload =
      u.modRx fun r => { r with abortsReceived := bump r.abortsReceived })) ∧
  (∀ (s : State) (h : FragmentHeader) (payload : List Byte) (c : Collect), s.rxCtx h.level = .collecting c →
    let freed := (s.release c.entry).setRxCtx h.level .idle
    let gap := (freed.modRx fun r => { r with reassemblyGaps := bump r.reassemblyGaps }).raise .reassemblyGap
      { level := some h.level, node := some c.src }
    let same := h.index = c.expected ∧ h.src = c.src ∧ h.dst = c.dst ∧ h.ptype = c.ptype ∧ h.total = c.total ∧
      c.key = (if h.cipher then some (h.slot, h.sequence) else none)
    let written := s.writePayload c.entry c.received (s.decipher h.level c.src c.dst c.key c.received payload)
    (h.position = some .whole ∨ h.position = some .first →
      s.handleFragment h payload = gap.handleFragment h payload ∧ gap.rxCtx h.level = .idle) ∧
    (h.position = some .middle → same → c.received + h.len < c.total → s.handleFragment h payload =
      written.setRxCtx h.level (.collecting { c with expected := c.expected + 1, received := c.received + h.len })) ∧
    (h.position = some .last → same → c.received + h.len = c.total →
      s.handleFragment h payload = written.finishFrame h.level c.entry c.key) ∧
    (h.position = some .middle → ¬ (same ∧ c.received + h.len < c.total) →
      s.handleFragment h payload = gap.setRxCtx h.level .discarding) ∧
    (h.position = some .last → ¬ (same ∧ c.received + h.len = c.total) →
      s.handleFragment h payload = gap.setRxCtx h.level .discarding) ∧
    (h.position = some .abort → s.handleFragment h payload =
      freed.modRx fun r => { r with abortsReceived := bump r.abortsReceived }))

/-- R82, R133 to R136: a frame received whole: its sequence is recorded, it is counted, and it is dropped or dispatched by
the disposition of its destination; the context is then Idle. -/
def Obligations.CompleteFrameIsDispatched : Prop :=
  (∀ (s : State) (l : Level) (e : EntryNo) (key : Option (Slot × Word)),
    let u := (s.recordSequence l key).modRx fun r => { r with framesReceived := bump r.framesReceived }
    let dropped := (u.release e).modRx fun r => { r with dispatchDrops := bump r.dispatchDrops }
    let f := s.entryAt e
    let d := s.disposition f.dst
    let active := ([0, 1, 2, 3] : List PortNo).filter fun m => s.portState m = .active
    let barred := s.ctl.mode = .fallback ∧ (s.lvl l).attrs.essential = false
    (barred → s.finishFrame l e key = dropped.setRxCtx l .idle) ∧
    (¬ barred → d = .self → f.ptype = .command → s.finishFrame l e key = (u.offerFifo e).setRxCtx l .idle) ∧
    (¬ barred → d = .self → f.ptype ≠ .command → s.finishFrame l e key = dropped.setRxCtx l .idle) ∧
    (∀ m, ¬ barred → d = .port m → s.finishFrame l e key = (u.offerAll e [.port m]).setRxCtx l .idle) ∧
    (¬ barred → d = .broadcast → active ≠ [] →
      s.finishFrame l e key = (u.offerAll e (active.map .port)).setRxCtx l .idle) ∧
    (¬ barred → d = .broadcast → active = [] → s.finishFrame l e key = dropped.setRxCtx l .idle) ∧
    (¬ barred → d = .trunk ∨ d = .unassigned → s.finishFrame l e key = dropped.setRxCtx l .idle) ∧
    (s.finishFrame l e key).rxCtx l = .idle) ∧
  (∀ (s : State) (l : Level),
    s.recordSequence l none = s ∧
    ∀ (k : Slot) (v : Word), (s.recordSequence l (some (k, v))).lastAccepted k l = v ∧
      ∀ j m, j ≠ k ∨ m ≠ l → (s.recordSequence l (some (k, v))).lastAccepted j m = s.lastAccepted j m)

/-! ### The Command Unit (08) -/

/-- R142, R144 to R146, R187, R188: when the head of the FIFO is taken, what an attempt without storage does, who may
give a command and in which mode, the refusals that are common to every command, and the table of the commands: code,
kind, region, and number of argument bytes. ClearCounters with a byte that names no region is judged by Logs; so is one
with no byte at all, which is the model's choice (log 14). -/
def Obligations.CommandsAreTakenAndChecked : Prop :=
  (∀ s : State, s.cmd.inHand = none →
    (∀ e rest, s.cmd.fifo = e :: rest → s.outstanding < 4 → s.cmd.waiting = [] → s.ctl.mode ≠ .init →
      s.takeNext = some (e, { s with cmd := { s.cmd with
        fifo := rest, inHand := some e, commandsTaken := bump s.cmd.commandsTaken } })) ∧
    (s.cmd.fifo = [] ∨ 4 ≤ s.outstanding ∨ s.cmd.waiting ≠ [] ∨ s.ctl.mode = .init → s.takeNext = none)) ∧
  (∀ (k : Command) (m : Mode), k.takenIn m = true ↔ (m ≠ .init ∧
    (m = .run → k ≠ .writeSupervision ∧ k ≠ .setTrunkConfig) ∧ (m = .fallback → k ≠ .setTrunkConfig))) ∧
  (∀ (s : State) (k : Command) (args : List Byte) (p : PortNo),
    s.mayGive k args .trunk = true ∧
    (k.kind = .read → (s.mayGive k args (.station p) = true ↔ s.accessOf (k.region args) ≠ .none)) ∧
    (k.kind = .write → (s.mayGive k args (.station p) = true ↔ s.accessOf (k.region args) = .full)) ∧
    (k.kind = .trunkOnly → s.mayGive k args (.station p) = false)) ∧
  (∀ row ∈ ([(.readRules, 1, .read, .rules, 2), (.writeRule, 2, .write, .rules, 14),
      (.readNodeMap, 3, .read, .nodeMap, 2), (.readLevel, 5, .read, .levels, 1), (.writeLevel, 6, .write, .levels, 6),
      (.flushLevel, 7, .write, .levels, 1), (.readPort, 8, .read, .ports, 1), (.writePortConfig, 9, .write, .ports, 4),
      (.setPortMode, 10, .write, .ports, 2), (.loadKey, 11, .write, .keys, 17), (.eraseKey, 12, .write, .keys, 1),
      (.selectSlot, 13, .write, .keys, 1), (.keyCheck, 14, .read, .keys, 1), (.readKeyState, 15, .read, .keys, 0),
      (.readStatus, 16, .read, .mode, 0), (.setMode, 17, .write, .mode, 1), (.refresh, 18, .write, .mode, 0),
      (.writeSupervision, 19, .write, .mode, 3), (.setTrunkConfig, 20, .write, .mode, 2),
      (.readRecords, 22, .write, .logs, 1), (.readFaults, 23, .read, .logs, 0), (.clearFaults, 24, .write, .logs, 0),
      (.writeNoticeConfig, 25, .write, .logs, 3)] : List (Command × Nat × AccessKind × Region × Nat)),
    row.1.code = row.2.1 ∧ row.1.kind = row.2.2.1 ∧
    ∀ args, row.1.region args = row.2.2.2.1 ∧ (row.1.argsFit args = true ↔ args.length = row.2.2.2.2)) ∧
  (Command.writeNodeMap.code = 4 ∧ Command.writeNodeMap.kind = .write ∧
    Command.resetPart.code = 21 ∧ Command.resetPart.kind = .trunkOnly ∧
    Command.clearCounters.code = 26 ∧ Command.clearCounters.kind = .write ∧
    Command.writeAccess.code = 27 ∧ Command.writeAccess.kind = .trunkOnly ∧
    ∀ args : List Byte, Command.writeNodeMap.region args = .nodeMap ∧
      (Command.writeNodeMap.argsFit args = true ↔
        ∃ first count dispositions, args = first :: count :: dispositions ∧ dispositions.length = count.toNat) ∧
      Command.resetPart.region args = .mode ∧ Command.resetPart.argsFit args = true ∧
      (∀ (b : Byte) (rest : List Byte), args = b :: rest →
        (∀ r : Region, r.code.val = b.toNat → Command.clearCounters.region args = r) ∧
        (6 < b.toNat → Command.clearCounters.region args = .logs)) ∧
      (args = [] → Command.clearCounters.region args = .logs) ∧
      (Command.clearCounters.argsFit args = true ↔ args.length = 1) ∧
      (Command.writeAccess.argsFit args = true ↔ args.length = 2)) ∧
  ((∀ k : Command, Command.ofCode k.code = some k) ∧ ∀ n, n = 0 ∨ 27 < n → Command.ofCode n = none) ∧
  (∀ (s found : State) (k : Command) (c : CommandFrame), s.nextCommand = some (c, found) → c.code.toNat = k.code →
    k ≠ .resetPart ∨ c.sender ≠ .trunk →
    (∀ t, found.allocReserve 3 (found.responseEntry c.node) = (none, t) → exec k.instr s = .next t.settle) ∧
    (∀ e t, found.allocReserve 3 (found.responseEntry c.node) = (some e, t) →
      (t.mayGive k c.args c.sender = false → exec k.instr s = .next
        ((({ t with cmd := { t.cmd with commandsDenied := bump t.cmd.commandsDenied } } : State).raise .accessDenied
          { port := c.sender.port, node := some c.node }).answered c e .denied [])) ∧
      (t.mayGive k c.args c.sender = true → k.takenIn t.ctl.mode = false →
        (k ≠ .writeSupervision → exec k.instr s = .next (t.answered c e .wrongMode [])) ∧
        (k = .writeSupervision → exec k.instr s = .next ((t.raise .supervisionChange
          { port := c.sender.port, node := some c.node }).answered c e .wrongMode []))) ∧
      (t.mayGive k c.args c.sender = true → k.takenIn t.ctl.mode = true → k.argsFit c.args = false →
        exec k.instr s = .next (t.answered c e .badValue []))))

/-- R140, MALFORMED_COMMAND (R143), UNKNOWN_COMMAND (R144), WAITING_RESPONSE_BUILD (R153): what the FIFO does with an
offered frame, and the Command Unit's steps that are no command's. A count of freeings is the model's (log 15). -/
def Obligations.FifoAndOtherStepsOfTheUnit : Prop :=
  (∀ (s : State) (e : EntryNo),
    (s.cmd.fifo.length < 4 → s.offerFifo e = { s with cmd := { s.cmd with fifo := s.cmd.fifo ++ [e] } }) ∧
    (4 ≤ s.cmd.fifo.length → s.offerFifo e =
      ({ s.release e with cmd := { (s.release e).cmd with
          commandOverruns := bump s.cmd.commandOverruns } } : State).raise .commandOverrun
        { port := (s.entryAt e).origin.sender.port, node := some (s.entryAt e).src })) ∧
  (∀ (s found : State) (e : EntryNo), s.takeNext = some (e, found) → (found.payload e).length < 3 →
    exec .malformedCommand s = .next (({ found with cmd := { found.cmd with
      inHand := none, malformedCommands := bump found.cmd.malformedCommands } } : State).release e).settle) ∧
  (∀ (s found : State) (c : CommandFrame), s.nextCommand = some (c, found) → c.code = 0 ∨ 27 < c.code.toNat →
    (∀ t, found.allocReserve 3 (found.responseEntry c.node) = (none, t) → exec .unknownCommand s = .next t.settle) ∧
    (∀ e t, found.allocReserve 3 (found.responseEntry c.node) = (some e, t) →
      exec .unknownCommand s = .next (t.answered c e .unknownCommand []))) ∧
  (∀ s : State, 0 < s.cmd.freed →
    let u : State := { s with cmd := { s.cmd with freed := s.cmd.freed - 1 } }
    (∀ r rest, s.cmd.waiting = r :: rest →
      let payload := responsePayload r.op.code r.tag .ok []
      (∀ t, u.allocReserve 1 (u.responseEntry r.node) = (none, t) → exec .waitingResponseBuild s = .next t.settle) ∧
      (∀ e t, rest = [] → s.cmd.inHand = none → u.allocReserve 1 (u.responseEntry r.node) = (some e, t) →
        exec .waitingResponseBuild s = .next
          ({ (t.fillResponse e payload).routeResponse e r.sender with
              cmd := { ((t.fillResponse e payload).routeResponse e r.sender).cmd with
                waiting := [] } } : State).settle)) ∧
    (∀ e c, s.cmd.waiting = [] → s.cmd.inHand = some e → s.commandFrame e = some c →
      exec .waitingResponseBuild s = .next (u.attemptAny c).settle))

/-- R142, R148 to R150, R187: a response carries code, tag and status, and the results when the status is OK; it keeps
the cells its length needs, and goes to level 1 or to the port its command came in on. -/
def Obligations.ResponseIsBuiltAndRouted : Prop :=
  (∀ (t : State) (c : CommandFrame) (e : EntryNo) (st : Status) (results : List Byte),
    let payload := [c.code, c.tag.extractLsb' 8 8, c.tag.extractLsb' 0 8, byteOf st.code] ++
      (if st = .ok then results else [])
    t.finish c e st results = (({ t.fillResponse e payload with
      cmd := { t.cmd with inHand := none } } : State).routeResponse e c.sender).release c.entry) ∧
  (∀ (t : State) (e : EntryNo) (f : FrameEntry) (payload : List Byte),
    t.store.Conserved → t.store.mem.wf = true → t.entry? e = some f → f.cells.length = 3 → payload.length ≤ 176 →
    (t.fillResponse e payload).payload e = payload ∧
    (t.fillResponse e payload).entry? e =
      some { f with len := payload.length, cells := f.cells.take (cellsFor payload.length) } ∧
    (t.fillResponse e payload).store.freeCells.Perm (f.cells.drop (cellsFor payload.length) ++ t.store.freeCells)) ∧
  (∀ (s : State) (e : EntryNo) (p : PortNo),
    ((s.lvl 1).attrs = .builtIn 4 → (s.lvl 1).flushPending = none → (s.lvl 1).queue.length < 4 →
      s.routeResponse e .trunk =
        (s.modLvl 1 fun v => { v with queue := v.queue ++ [e] }).triggerAuction) ∧
    (s.portState p = .active → s.routeResponse e (.station p) = s.offerAll e [.port p]) ∧
    (s.portState p ≠ .active → s.routeResponse e (.station p) =
      { s.release e with cmd := { (s.release e).cmd with responsesUnsent := bump s.cmd.responsesUnsent } }))

/-! ### Modes and supervision (09) -/

/-- SET_MODE, REFRESH, WRITE_SUPERVISION, SET_TRUNK_CONFIG, READ_STATUS, SUPERVISION_EXPIRY (R166, R172, R170, R46,
R156, R171), and the status report of R188, 165 bytes. ReadStatus reports the part as the attempt found it (log 27). That the
pending records stand in the order of their acceptance, before the unused ones, is the model's choice (log 31). -/
def Obligations.ModeCommandsComplete : Prop :=
  (∀ (s found t : State) (c : CommandFrame) (e : EntryNo),
    let early := t.ctl.window = true ∧ ∃ m, t.ctl.mark = some m ∧ elapsed m t.now < t.ctl.period * 500
    let size := c.arg2 0
    (s.Attempts .setMode c found e t →
      (c.arg 0 = 0 ∨ 3 < c.arg 0 → exec .setMode s = .next (t.answered c e .badValue [])) ∧
      (c.arg 0 = 1 → t.ctl.mode = .setup → exec .setMode s = .next (t.answered c e .ok [])) ∧
      (c.arg 0 = 1 → t.ctl.mode ≠ .setup → exec .setMode s = .next (t.enterSetup.answered c e .ok [])) ∧
      (c.arg 0 = 2 → t.ctl.mode = .run → exec .setMode s = .next (t.answered c e .ok [])) ∧
      (c.arg 0 = 2 → t.ctl.mode = .setup →
        (t.strapsUsable = true → exec .setMode s = .next (t.enterRun.answered c e .ok [])) ∧
        (t.strapsUsable = false → exec .setMode s = .next (t.answered c e .wrongMode []))) ∧
      (c.arg 0 = 2 → t.ctl.mode = .fallback →
        (t.ctl.period = 0 ∨ t.ctl.refreshSeen = true → exec .setMode s = .next (t.enterRun.answered c e .ok [])) ∧
        (t.ctl.period ≠ 0 → t.ctl.refreshSeen = false →
          exec .setMode s = .next (t.answered c e .notRefreshed []))) ∧
      (c.arg 0 = 3 → t.ctl.mode = .fallback → exec .setMode s = .next (t.answered c e .ok [])) ∧
      (c.arg 0 = 3 → t.ctl.mode = .setup → exec .setMode s = .next (t.answered c e .wrongMode [])) ∧
      (c.arg 0 = 3 → t.ctl.mode = .run → exec .setMode s = .next (t.enterFallback.answered c e .ok []))) ∧
    (s.Attempts .refresh c found e t →
      (t.ctl.mode = .setup ∨ (t.ctl.mode = .run ∧ t.ctl.period = 0) →
        exec .refresh s = .next (t.answered c e .ok [])) ∧
      (t.ctl.mode = .run → 0 < t.ctl.period → early →
        exec .refresh s = .next ((t.enterFallback.raise .supervisionEarly).answered c e .early [])) ∧
      (t.ctl.mode = .run → 0 < t.ctl.period → ¬ early → exec .refresh s =
        .next (({ t with ctl := { t.ctl with mark := some t.now } } : State).answered c e .ok [])) ∧
      (t.ctl.mode = .fallback → exec .refresh s =
        .next (({ t with ctl := { t.ctl with refreshSeen := true } } : State).answered c e .ok []))) ∧
    (s.Attempts .writeSupervision c found e t →
      (1 < c.arg 2 → exec .writeSupervision s = .next (t.answered c e .badValue [])) ∧
      (c.arg 2 ≤ 1 → exec .writeSupervision s = .next (({ t with ctl := { t.ctl with
        period := c.arg2 0, window := decide (c.arg 2 = 1) } } : State).answered c e .ok []))) ∧
    (s.Attempts .setTrunkConfig c found e t →
      (size ≠ 64 → size ≠ 128 → size ≠ 256 → exec .setTrunkConfig s = .next (t.answered c e .badValue [])) ∧
      (size = 64 ∨ size = 128 ∨ size = 256 →
        ((∃ l, (t.lvl l).ctx ≠ none) → exec .setTrunkConfig s = .next (t.answered c e .busy [])) ∧
        ((∀ l, (t.lvl l).ctx = none) → exec .setTrunkConfig s =
          .next (({ t with trunk := { t.trunk with fragSize := size } } : State).answered c e .ok [])))) ∧
    (s.Attempts .readStatus c found e t →
      exec .readStatus s = .next (t.answered c e .ok found.statusReport) ∧ found.statusReport.length = 165)) ∧
  (∀ (s : State) (m : Word), s.ctl.mode = .run → 0 < s.ctl.period → s.ctl.mark = some m →
    s.ctl.period * 1000 ≤ elapsed m s.now →
    exec .supervisionExpiry s = .next (s.enterFallback.raise .supervisionExpired).settle) ∧
  (∀ s : State,
    let left := fun part => (s.ctl.mark.map fun m => BitVec.ofNat 32 (s.ctl.period * part - elapsed m s.now)).getD 0
    let state := fun i => (s.rxCtx (Fin.ofNat 32 i)).code
    let outstanding := s.cmd.inHand.toList.length + s.cmd.longOps.length + s.cmd.waiting.length +
      (s.store.entries.filter fun x => decide (x.2.origin = .commandUnit)).length
    let records := (s.cmd.longOps.take 4).flatMap LongRecord.bytes
    s.statusReport =
      ([byteOf s.ctl.mode.code, byteOf s.ctl.cause.code, s.ctl.straps, s.self,
        flagsByte [s.strapsUsable, s.ctl.window, s.ctl.refreshSeen, s.ctl.mark.isSome]] ++
        bytes2 s.ctl.period ++ bytes4 (left 1000) ++ bytes4 (left 500) ++ bytes4 s.now) ++
      (bytes2 s.store.freeEntries.length ++ bytes2 s.store.freeCells.length ++ bytes2 s.store.retired.length ++
        bytes4 s.store.allocRefusals ++ bytes4 s.store.cellCheckFailures ++ bytes4 s.store.framesLostToCheck) ++
      ([flagsByte [s.trunk.lineUp, s.trunk.logOverflow]] ++ bytes2 s.trunk.fragSize ++
        [(s.trunk.inFlight.map fun f => byteOf f.level.val).getD 255, byteOf s.trunk.log.length] ++
        bytes4 s.trunk.fragmentsSent ++ bytes4 s.trunk.payloadBytesSent ++ bytes4 s.trunk.abortsSent ++
        bytes4 s.trunk.fragmentsLost ++ bytes4 s.trunk.lineDowns ++ bytes4 s.trunk.formingFailures) ++
      (bytes4 s.rx.fragmentsReceived ++ bytes4 s.rx.crcErrors ++ bytes4 s.rx.formatErrors ++ bytes4 s.rx.setupIgnored ++
        bytes4 s.rx.strayFragments ++ bytes4 s.rx.reassemblyGaps ++ bytes4 s.rx.abortsReceived ++
        bytes4 s.rx.partialsDiscarded ++ bytes4 s.rx.framesReceived ++ bytes4 s.rx.dispatchDrops ++
        (List.range 8).map fun i => byteOf (state (4 * i) * 64 + state (4 * i + 1) * 16 + state (4 * i + 2) * 4 +
          state (4 * i + 3))) ++
      ([byteOf s.cmd.fifo.length, byteOf outstanding, byteOf s.cmd.waiting.length, byteOf s.cmd.longOps.length] ++
        records ++ List.replicate (20 - records.length) 0 ++
        ([.rules, .nodeMap, .levels, .ports, .keys, .mode, .logs] : List Region).map
          (fun r => byteOf (s.accessOf r).code) ++
        bytes4 s.cmd.commandsTaken ++ bytes4 s.cmd.commandOverruns ++ bytes4 s.cmd.commandsDenied ++
        bytes4 s.cmd.responsesUnsent ++ bytes4 s.cmd.malformedCommands)) ∧
  (∀ r : LongRecord,
    let rest := [r.tag.extractLsb' 8 8, r.tag.extractLsb' 0 8, byteOf r.sender.code]
    (∀ l, r.op = .flushLevel l → r.bytes = 7 :: byteOf l.val :: rest) ∧
    (∀ k, r.op = .loadKey k → r.bytes = 11 :: byteOf k.val :: rest))

/-- R167 to R169, R21, R22, R105, R110, R131: what the entries to Setup, Run and Fallback do to the blocks they concern.
A level that is barred drops its queue, and abandons its context unless its fragment is in flight; a port that goes
Offline drops its queue and ends its transmission and its receive; every reassembly ends. -/
def Obligations.ModeEntriesActOnEveryBlock : Prop :=
  ∀ s : State,
    let barred := fun (v w : LevelEntry) (sending : Bool) =>
      w.queue = [] ∧ w.framesDropped = bumpBy v.framesDropped v.queue.length ∧ w.trainCount = 0 ∧
      (sending = false → w.ctx = none) ∧
      (v.ctx ≠ none → sending = false → w.framesAborted = bump v.framesAborted ∧ w.abortOwed ≠ none) ∧
      (v.ctx = none ∨ sending = true → w.ctx = v.ctx ∧ w.framesAborted = v.framesAborted ∧ w.abortOwed = v.abortOwed)
    let offline := fun (v w : Port) (transmits : Bool) =>
      let drops := if transmits then bumpBy v.drops v.queue.length else v.drops
      w.rx = .idle ∧ ((∃ e h, v.rx = .storing e h) → w.drops = bump drops) ∧
      ((∀ e h, v.rx ≠ .storing e h) → w.drops = drops) ∧
      (transmits = true → w.queue = [] ∧ w.tx = none) ∧
      (transmits = true → v.tx ≠ none → w.txAborted = bump v.txAborted) ∧
      (transmits = false ∨ v.tx = none → w.txAborted = v.txAborted)
    (s.enterSetup.ctl = { s.ctl with mode := .setup, mark := none } ∧
      (∀ p, s.enterSetup.portState p = .offline ∧
        (s.portState p ≠ .offline → offline (s.port p) (s.enterSetup.port p) (s.portState p).transmits) ∧
        (s.portState p = .offline → s.enterSetup.port p = s.port p)) ∧
      (∀ l : Level, 2 ≤ l.val → barred (s.lvl l) (s.enterSetup.lvl l) (s.sending l)) ∧
      (∀ l, s.enterSetup.rxCtx l = .idle) ∧
      s.enterSetup.rx.partialsDiscarded =
        bumpBy s.rx.partialsDiscarded {l : Level | ∃ c, s.rxCtx l = .collecting c}.ncard ∧
      s.enterSetup.auctionDue = true) ∧
    (s.enterRun.ctl =
        { s.ctl with mode := .run, mark := if 0 < s.ctl.period then some s.now else none } ∧
      s.enterRun.levels = s.levels ∧ s.enterRun.rx = s.rx ∧ s.enterRun.auctionDue = true ∧
      (s.ctl.mode = .fallback → s.enterRun.ports = s.ports)) ∧
    (s.enterFallback.ctl = { s.ctl with mode := .fallback, mark := none, refreshSeen := false } ∧
      (∀ l : Level, 2 ≤ l.val → (s.lvl l).attrs.essential = false →
        barred (s.lvl l) (s.enterFallback.lvl l) (s.sending l)) ∧
      (∀ l : Level, 2 ≤ l.val → (s.lvl l).attrs.essential = true → s.enterFallback.lvl l = s.lvl l) ∧
      s.enterFallback.rx = s.rx ∧ s.enterFallback.auctionDue = true)

/-! ### Logs and faults (08, 10) -/

/-- READ_FAULTS, CLEAR_FAULTS, WRITE_NOTICE_CONFIG, CLEAR_COUNTERS, WRITE_ACCESS (R183, R178, R179, R154, R155), and the
fault report of R188, 21 bytes. -/
def Obligations.LogCommandsComplete : Prop :=
  (∀ (s found t : State) (c : CommandFrame) (e : EntryNo),
    (s.Attempts .readFaults c found e t →
      exec .readFaults s = .next (t.answered c e .ok t.faultReport) ∧ t.faultReport.length = 21) ∧
    (s.Attempts .clearFaults c found e t → exec .clearFaults s = .next
      (({ t with fault := { t.fault with summary := 0, captured := none } } : State).answered c e .ok [])) ∧
    (s.Attempts .writeNoticeConfig c found e t →
      (8192 ≤ c.arg2 1 → exec .writeNoticeConfig s = .next (t.answered c e .badValue [])) ∧
      (c.arg2 1 < 8192 → exec .writeNoticeConfig s = .next (({ t with fault := { t.fault with
        noticeNode := byteOf (c.arg 0), noticeKinds := BitVec.ofNat 16 (c.arg2 1) } } : State).answered c e .ok
          []))) ∧
    (s.Attempts .clearCounters c found e t →
      (6 < c.arg 0 → exec .clearCounters s = .next (t.answered c e .badIndex [])) ∧
      (∀ r : Region, r.code.val = c.arg 0 →
        exec .clearCounters s = .next ((t.clearRegion r).answered c e .ok []))) ∧
    (s.Attempts .writeAccess c found e t →
      (6 < c.arg 0 → exec .writeAccess s = .next (t.answered c e .badIndex [])) ∧
      (c.arg 0 ≤ 6 → 2 < c.arg 1 → exec .writeAccess s = .next (t.answered c e .badValue [])) ∧
      (∀ (r : Region) (a : Access), r.code.val = c.arg 0 → a.code = c.arg 1 →
        ∃ u : State, exec .writeAccess s = .next (u.answered c e .ok []) ∧
          u = { t with cmd := { t.cmd with access := u.cmd.access } } ∧ u.accessOf r = a ∧
          ∀ q, q ≠ r → u.accessOf q = t.accessOf q))) ∧
  (∀ t : State,
    (t.clearRegion .rules = { t with rules := (t.clearRegion .rules).rules } ∧
      ∀ i, (t.clearRegion .rules).rule i = { t.rule i with hits := 0 }) ∧
    t.clearRegion .nodeMap = t ∧
    (t.clearRegion .levels = { t with levels := (t.clearRegion .levels).levels } ∧
      ∀ l, (t.clearRegion .levels).lvl l =
        { t.lvl l with framesSent := 0, framesDropped := 0, framesAborted := 0 }) ∧
    (t.clearRegion .ports = { t with ports := (t.clearRegion .ports).ports } ∧
      ∀ p, (t.clearRegion .ports).port p =
        { t.port p with rxFrames := 0, rxErrors := 0, drops := 0, txFrames := 0, txAborted := 0,
                        jabberEvents := 0 }) ∧
    t.clearRegion .keys = { t with cipher := { t.cipher with rejects := 0 } } ∧
    t.clearRegion .mode = { t with
      store := { t.store with allocRefusals := 0, cellCheckFailures := 0, framesLostToCheck := 0 }
      trunk := { t.trunk with fragmentsSent := 0, payloadBytesSent := 0, abortsSent := 0, fragmentsLost := 0,
                              lineDowns := 0, formingFailures := 0 }
      rx := { t.rx with fragmentsReceived := 0, crcErrors := 0, formatErrors := 0, setupIgnored := 0,
                        strayFragments := 0, reassemblyGaps := 0, abortsReceived := 0, partialsDiscarded := 0,
                        framesReceived := 0, dispatchDrops := 0 } } ∧
    t.clearRegion .logs = { t with cmd := { t.cmd with
      commandsTaken := 0, commandOverruns := 0, commandsDenied := 0, responsesUnsent := 0,
      malformedCommands := 0 } }) ∧
  (∀ t : State,
    let held := (t.lvl 0).queue ++ ((t.lvl 0).ctx.map Context.entry).toList
    ∃ (kinds : KindSet) (capture : List Byte),
      t.faultReport = bytes2 t.fault.summary.toNat ++ [if t.fault.captured = none then 0 else 1] ++ capture ++
        [t.fault.noticeNode] ++ bytes2 t.fault.noticeKinds.toNat ++ [byteOf held.length] ++ bytes2 kinds.toNat ∧
      (t.fault.captured = none → capture = List.replicate 12 0) ∧
      (∀ r, t.fault.captured = some r → capture = [byteOf r.kind.code] ++ bytes4 r.time ++
        [flagsByte [r.fields.level.isSome, r.fields.port.isSome, r.fields.node.isSome, r.fields.rule.isSome,
          r.fields.cell.isSome]] ++ r.fields.bytes) ∧
      ∀ k : FaultKind, KindSet.has kinds k = true ↔
        ∃ e ∈ held, (t.payloadByte (t.entryAt e) 0).toNat = k.code)

/-- R177, R180, R181, R189: a fault joins the summary, fills an empty capture record and leaves a full one, and gets a
notice under the four conditions of R180: a level 0 frame of 12 bytes, whose failing storage raises nothing. -/
def Obligations.FaultIsTakenAndNoticed : Prop :=
  ∀ (s : State) (k : FaultKind) (fields : FaultFields),
    let u := s.raise k fields
    let r : FaultReport := { kind := k, time := s.now, fields := fields }
    let noticed := s.fault.noticeNode ≠ 0 ∧ KindSet.has s.fault.noticeKinds k = true ∧ s.heldNotices.length < 8 ∧
      ∀ e ∈ s.heldNotices, s.noticeKind e ≠ k.code
    (∀ j, KindSet.has u.fault.summary j = true ↔ (KindSet.has s.fault.summary j = true ∨ j = k)) ∧
    (s.fault.captured = none → u.fault.captured = some r) ∧
    (∀ r', s.fault.captured = some r' → u.fault.captured = some r') ∧
    (u.fault.noticeNode = s.fault.noticeNode ∧ u.fault.noticeKinds = s.fault.noticeKinds) ∧
    (¬ noticed → u = { s with fault := u.fault }) ∧
    (noticed → s.store.freeEntries = [] ∨ s.store.freeCells = [] → u = { s with
      fault := u.fault, store := { s.store with allocRefusals := bump s.store.allocRefusals } }) ∧
    (noticed → s.store.freeEntries ≠ [] → s.store.freeCells ≠ [] → s.store.Conserved → s.store.mem.wf = true →
      (s.lvl 0).attrs = .builtIn 8 → (s.lvl 0).flushPending = none →
      ∃ e g, u.lvl 0 = { s.lvl 0 with queue := (s.lvl 0).queue ++ [e] } ∧ u.auctionDue = true ∧
        u.entry? e = some g ∧ g =
          { origin := .faultUnit, src := s.self, dst := s.fault.noticeNode, classTag := none, ptype := .notice,
            level := 0, rule := none, label := 0, record := false, len := 12, cells := g.cells, holders := 1 } ∧
        g.cells.length = 1 ∧ u.payload e = r.notice s.fault.captured.isNone)
end

