-- ==== Sys2Proof/Laws/State.lean ====
section
/-! SUPPORT. One lemma per field per update of State, and what reading a table gives after an update of it. -/

namespace Sys2Proof.Machine

open Sys2Proof

variable (s : State)

/-! ### modLvl -/

@[simp] theorem State.modLvl_pins (l : Level) (f : LevelEntry → LevelEntry) : (s.modLvl l f).pins = s.pins := rfl
@[simp] theorem State.modLvl_ctl (l : Level) (f : LevelEntry → LevelEntry) : (s.modLvl l f).ctl = s.ctl := rfl
@[simp] theorem State.modLvl_now (l : Level) (f : LevelEntry → LevelEntry) : (s.modLvl l f).now = s.now := rfl
@[simp] theorem State.modLvl_store (l : Level) (f : LevelEntry → LevelEntry) : (s.modLvl l f).store = s.store := rfl
@[simp] theorem State.modLvl_trunk (l : Level) (f : LevelEntry → LevelEntry) : (s.modLvl l f).trunk = s.trunk := rfl
@[simp] theorem State.modLvl_cipher (l : Level) (f : LevelEntry → LevelEntry) : (s.modLvl l f).cipher = s.cipher := rfl
@[simp] theorem State.modLvl_rules (l : Level) (f : LevelEntry → LevelEntry) : (s.modLvl l f).rules = s.rules := rfl
@[simp] theorem State.modLvl_nodeMap (l : Level) (f : LevelEntry → LevelEntry) : (s.modLvl l f).nodeMap = s.nodeMap := rfl
@[simp] theorem State.modLvl_ports (l : Level) (f : LevelEntry → LevelEntry) : (s.modLvl l f).ports = s.ports := rfl
@[simp] theorem State.modLvl_rx (l : Level) (f : LevelEntry → LevelEntry) : (s.modLvl l f).rx = s.rx := rfl
@[simp] theorem State.modLvl_cmd (l : Level) (f : LevelEntry → LevelEntry) : (s.modLvl l f).cmd = s.cmd := rfl
@[simp] theorem State.modLvl_fault (l : Level) (f : LevelEntry → LevelEntry) : (s.modLvl l f).fault = s.fault := rfl
@[simp] theorem State.modLvl_auctionDue (l : Level) (f : LevelEntry → LevelEntry) : (s.modLvl l f).auctionDue = s.auctionDue := rfl
@[simp] theorem State.modLvl_pending (l : Level) (f : LevelEntry → LevelEntry) : (s.modLvl l f).pending = s.pending := rfl

/-! ### modPort -/

@[simp] theorem State.modPort_pins (p : PortNo) (f : Port → Port) : (s.modPort p f).pins = s.pins := rfl
@[simp] theorem State.modPort_ctl (p : PortNo) (f : Port → Port) : (s.modPort p f).ctl = s.ctl := rfl
@[simp] theorem State.modPort_now (p : PortNo) (f : Port → Port) : (s.modPort p f).now = s.now := rfl
@[simp] theorem State.modPort_store (p : PortNo) (f : Port → Port) : (s.modPort p f).store = s.store := rfl
@[simp] theorem State.modPort_levels (p : PortNo) (f : Port → Port) : (s.modPort p f).levels = s.levels := rfl
@[simp] theorem State.modPort_trunk (p : PortNo) (f : Port → Port) : (s.modPort p f).trunk = s.trunk := rfl
@[simp] theorem State.modPort_cipher (p : PortNo) (f : Port → Port) : (s.modPort p f).cipher = s.cipher := rfl
@[simp] theorem State.modPort_rules (p : PortNo) (f : Port → Port) : (s.modPort p f).rules = s.rules := rfl
@[simp] theorem State.modPort_nodeMap (p : PortNo) (f : Port → Port) : (s.modPort p f).nodeMap = s.nodeMap := rfl
@[simp] theorem State.modPort_rx (p : PortNo) (f : Port → Port) : (s.modPort p f).rx = s.rx := rfl
@[simp] theorem State.modPort_cmd (p : PortNo) (f : Port → Port) : (s.modPort p f).cmd = s.cmd := rfl
@[simp] theorem State.modPort_fault (p : PortNo) (f : Port → Port) : (s.modPort p f).fault = s.fault := rfl
@[simp] theorem State.modPort_auctionDue (p : PortNo) (f : Port → Port) : (s.modPort p f).auctionDue = s.auctionDue := rfl
@[simp] theorem State.modPort_pending (p : PortNo) (f : Port → Port) : (s.modPort p f).pending = s.pending := rfl

/-! ### setRxCtx -/

@[simp] theorem State.setRxCtx_pins (l : Level) (c : Reassembly) : (s.setRxCtx l c).pins = s.pins := rfl
@[simp] theorem State.setRxCtx_ctl (l : Level) (c : Reassembly) : (s.setRxCtx l c).ctl = s.ctl := rfl
@[simp] theorem State.setRxCtx_now (l : Level) (c : Reassembly) : (s.setRxCtx l c).now = s.now := rfl
@[simp] theorem State.setRxCtx_store (l : Level) (c : Reassembly) : (s.setRxCtx l c).store = s.store := rfl
@[simp] theorem State.setRxCtx_levels (l : Level) (c : Reassembly) : (s.setRxCtx l c).levels = s.levels := rfl
@[simp] theorem State.setRxCtx_trunk (l : Level) (c : Reassembly) : (s.setRxCtx l c).trunk = s.trunk := rfl
@[simp] theorem State.setRxCtx_cipher (l : Level) (c : Reassembly) : (s.setRxCtx l c).cipher = s.cipher := rfl
@[simp] theorem State.setRxCtx_rules (l : Level) (c : Reassembly) : (s.setRxCtx l c).rules = s.rules := rfl
@[simp] theorem State.setRxCtx_nodeMap (l : Level) (c : Reassembly) : (s.setRxCtx l c).nodeMap = s.nodeMap := rfl
@[simp] theorem State.setRxCtx_ports (l : Level) (c : Reassembly) : (s.setRxCtx l c).ports = s.ports := rfl
@[simp] theorem State.setRxCtx_cmd (l : Level) (c : Reassembly) : (s.setRxCtx l c).cmd = s.cmd := rfl
@[simp] theorem State.setRxCtx_fault (l : Level) (c : Reassembly) : (s.setRxCtx l c).fault = s.fault := rfl
@[simp] theorem State.setRxCtx_auctionDue (l : Level) (c : Reassembly) : (s.setRxCtx l c).auctionDue = s.auctionDue := rfl
@[simp] theorem State.setRxCtx_pending (l : Level) (c : Reassembly) : (s.setRxCtx l c).pending = s.pending := rfl

/-! ### modRx -/

@[simp] theorem State.modRx_pins (f : Receiver → Receiver) : (s.modRx f).pins = s.pins := rfl
@[simp] theorem State.modRx_ctl (f : Receiver → Receiver) : (s.modRx f).ctl = s.ctl := rfl
@[simp] theorem State.modRx_now (f : Receiver → Receiver) : (s.modRx f).now = s.now := rfl
@[simp] theorem State.modRx_store (f : Receiver → Receiver) : (s.modRx f).store = s.store := rfl
@[simp] theorem State.modRx_levels (f : Receiver → Receiver) : (s.modRx f).levels = s.levels := rfl
@[simp] theorem State.modRx_trunk (f : Receiver → Receiver) : (s.modRx f).trunk = s.trunk := rfl
@[simp] theorem State.modRx_cipher (f : Receiver → Receiver) : (s.modRx f).cipher = s.cipher := rfl
@[simp] theorem State.modRx_rules (f : Receiver → Receiver) : (s.modRx f).rules = s.rules := rfl
@[simp] theorem State.modRx_nodeMap (f : Receiver → Receiver) : (s.modRx f).nodeMap = s.nodeMap := rfl
@[simp] theorem State.modRx_ports (f : Receiver → Receiver) : (s.modRx f).ports = s.ports := rfl
@[simp] theorem State.modRx_cmd (f : Receiver → Receiver) : (s.modRx f).cmd = s.cmd := rfl
@[simp] theorem State.modRx_fault (f : Receiver → Receiver) : (s.modRx f).fault = s.fault := rfl
@[simp] theorem State.modRx_auctionDue (f : Receiver → Receiver) : (s.modRx f).auctionDue = s.auctionDue := rfl
@[simp] theorem State.modRx_pending (f : Receiver → Receiver) : (s.modRx f).pending = s.pending := rfl

/-! ### setSlot -/

@[simp] theorem State.setSlot_pins (k : Slot) (v : KeySlot) : (s.setSlot k v).pins = s.pins := rfl
@[simp] theorem State.setSlot_ctl (k : Slot) (v : KeySlot) : (s.setSlot k v).ctl = s.ctl := rfl
@[simp] theorem State.setSlot_now (k : Slot) (v : KeySlot) : (s.setSlot k v).now = s.now := rfl
@[simp] theorem State.setSlot_store (k : Slot) (v : KeySlot) : (s.setSlot k v).store = s.store := rfl
@[simp] theorem State.setSlot_levels (k : Slot) (v : KeySlot) : (s.setSlot k v).levels = s.levels := rfl
@[simp] theorem State.setSlot_trunk (k : Slot) (v : KeySlot) : (s.setSlot k v).trunk = s.trunk := rfl
@[simp] theorem State.setSlot_rules (k : Slot) (v : KeySlot) : (s.setSlot k v).rules = s.rules := rfl
@[simp] theorem State.setSlot_nodeMap (k : Slot) (v : KeySlot) : (s.setSlot k v).nodeMap = s.nodeMap := rfl
@[simp] theorem State.setSlot_ports (k : Slot) (v : KeySlot) : (s.setSlot k v).ports = s.ports := rfl
@[simp] theorem State.setSlot_rx (k : Slot) (v : KeySlot) : (s.setSlot k v).rx = s.rx := rfl
@[simp] theorem State.setSlot_cmd (k : Slot) (v : KeySlot) : (s.setSlot k v).cmd = s.cmd := rfl
@[simp] theorem State.setSlot_fault (k : Slot) (v : KeySlot) : (s.setSlot k v).fault = s.fault := rfl
@[simp] theorem State.setSlot_auctionDue (k : Slot) (v : KeySlot) : (s.setSlot k v).auctionDue = s.auctionDue := rfl
@[simp] theorem State.setSlot_pending (k : Slot) (v : KeySlot) : (s.setSlot k v).pending = s.pending := rfl

/-! ### triggerAuction -/

@[simp] theorem State.triggerAuction_pins : (s.triggerAuction).pins = s.pins := rfl
@[simp] theorem State.triggerAuction_ctl : (s.triggerAuction).ctl = s.ctl := rfl
@[simp] theorem State.triggerAuction_now : (s.triggerAuction).now = s.now := rfl
@[simp] theorem State.triggerAuction_store : (s.triggerAuction).store = s.store := rfl
@[simp] theorem State.triggerAuction_levels : (s.triggerAuction).levels = s.levels := rfl
@[simp] theorem State.triggerAuction_trunk : (s.triggerAuction).trunk = s.trunk := rfl
@[simp] theorem State.triggerAuction_cipher : (s.triggerAuction).cipher = s.cipher := rfl
@[simp] theorem State.triggerAuction_rules : (s.triggerAuction).rules = s.rules := rfl
@[simp] theorem State.triggerAuction_nodeMap : (s.triggerAuction).nodeMap = s.nodeMap := rfl
@[simp] theorem State.triggerAuction_ports : (s.triggerAuction).ports = s.ports := rfl
@[simp] theorem State.triggerAuction_rx : (s.triggerAuction).rx = s.rx := rfl
@[simp] theorem State.triggerAuction_cmd : (s.triggerAuction).cmd = s.cmd := rfl
@[simp] theorem State.triggerAuction_fault : (s.triggerAuction).fault = s.fault := rfl
@[simp] theorem State.triggerAuction_pending : (s.triggerAuction).pending = s.pending := rfl

/-! ### corrupt -/

@[simp] theorem State.corrupt_pins (cells : List CellNo) : (s.corrupt cells).pins = s.pins := rfl
@[simp] theorem State.corrupt_ctl (cells : List CellNo) : (s.corrupt cells).ctl = s.ctl := rfl
@[simp] theorem State.corrupt_now (cells : List CellNo) : (s.corrupt cells).now = s.now := rfl
@[simp] theorem State.corrupt_levels (cells : List CellNo) : (s.corrupt cells).levels = s.levels := rfl
@[simp] theorem State.corrupt_trunk (cells : List CellNo) : (s.corrupt cells).trunk = s.trunk := rfl
@[simp] theorem State.corrupt_cipher (cells : List CellNo) : (s.corrupt cells).cipher = s.cipher := rfl
@[simp] theorem State.corrupt_rules (cells : List CellNo) : (s.corrupt cells).rules = s.rules := rfl
@[simp] theorem State.corrupt_nodeMap (cells : List CellNo) : (s.corrupt cells).nodeMap = s.nodeMap := rfl
@[simp] theorem State.corrupt_ports (cells : List CellNo) : (s.corrupt cells).ports = s.ports := rfl
@[simp] theorem State.corrupt_rx (cells : List CellNo) : (s.corrupt cells).rx = s.rx := rfl
@[simp] theorem State.corrupt_cmd (cells : List CellNo) : (s.corrupt cells).cmd = s.cmd := rfl
@[simp] theorem State.corrupt_fault (cells : List CellNo) : (s.corrupt cells).fault = s.fault := rfl
@[simp] theorem State.corrupt_auctionDue (cells : List CellNo) : (s.corrupt cells).auctionDue = s.auctionDue := rfl
@[simp] theorem State.corrupt_pending (cells : List CellNo) : (s.corrupt cells).pending = s.pending := rfl

/-! ### modEntry -/

@[simp] theorem State.modEntry_pins (e : EntryNo) (f : FrameEntry → FrameEntry) : (s.modEntry e f).pins = s.pins := rfl
@[simp] theorem State.modEntry_ctl (e : EntryNo) (f : FrameEntry → FrameEntry) : (s.modEntry e f).ctl = s.ctl := rfl
@[simp] theorem State.modEntry_now (e : EntryNo) (f : FrameEntry → FrameEntry) : (s.modEntry e f).now = s.now := rfl
@[simp] theorem State.modEntry_levels (e : EntryNo) (f : FrameEntry → FrameEntry) : (s.modEntry e f).levels = s.levels := rfl
@[simp] theorem State.modEntry_trunk (e : EntryNo) (f : FrameEntry → FrameEntry) : (s.modEntry e f).trunk = s.trunk := rfl
@[simp] theorem State.modEntry_cipher (e : EntryNo) (f : FrameEntry → FrameEntry) : (s.modEntry e f).cipher = s.cipher := rfl
@[simp] theorem State.modEntry_rules (e : EntryNo) (f : FrameEntry → FrameEntry) : (s.modEntry e f).rules = s.rules := rfl
@[simp] theorem State.modEntry_nodeMap (e : EntryNo) (f : FrameEntry → FrameEntry) : (s.modEntry e f).nodeMap = s.nodeMap := rfl
@[simp] theorem State.modEntry_ports (e : EntryNo) (f : FrameEntry → FrameEntry) : (s.modEntry e f).ports = s.ports := rfl
@[simp] theorem State.modEntry_rx (e : EntryNo) (f : FrameEntry → FrameEntry) : (s.modEntry e f).rx = s.rx := rfl
@[simp] theorem State.modEntry_cmd (e : EntryNo) (f : FrameEntry → FrameEntry) : (s.modEntry e f).cmd = s.cmd := rfl
@[simp] theorem State.modEntry_fault (e : EntryNo) (f : FrameEntry → FrameEntry) : (s.modEntry e f).fault = s.fault := rfl
@[simp] theorem State.modEntry_auctionDue (e : EntryNo) (f : FrameEntry → FrameEntry) : (s.modEntry e f).auctionDue = s.auctionDue := rfl
@[simp] theorem State.modEntry_pending (e : EntryNo) (f : FrameEntry → FrameEntry) : (s.modEntry e f).pending = s.pending := rfl

/-! ### refuseAlloc -/

@[simp] theorem State.refuseAlloc_pins : (s.refuseAlloc).pins = s.pins := rfl
@[simp] theorem State.refuseAlloc_ctl : (s.refuseAlloc).ctl = s.ctl := rfl
@[simp] theorem State.refuseAlloc_now : (s.refuseAlloc).now = s.now := rfl
@[simp] theorem State.refuseAlloc_levels : (s.refuseAlloc).levels = s.levels := rfl
@[simp] theorem State.refuseAlloc_trunk : (s.refuseAlloc).trunk = s.trunk := rfl
@[simp] theorem State.refuseAlloc_cipher : (s.refuseAlloc).cipher = s.cipher := rfl
@[simp] theorem State.refuseAlloc_rules : (s.refuseAlloc).rules = s.rules := rfl
@[simp] theorem State.refuseAlloc_nodeMap : (s.refuseAlloc).nodeMap = s.nodeMap := rfl
@[simp] theorem State.refuseAlloc_ports : (s.refuseAlloc).ports = s.ports := rfl
@[simp] theorem State.refuseAlloc_rx : (s.refuseAlloc).rx = s.rx := rfl
@[simp] theorem State.refuseAlloc_cmd : (s.refuseAlloc).cmd = s.cmd := rfl
@[simp] theorem State.refuseAlloc_fault : (s.refuseAlloc).fault = s.fault := rfl
@[simp] theorem State.refuseAlloc_auctionDue : (s.refuseAlloc).auctionDue = s.auctionDue := rfl
@[simp] theorem State.refuseAlloc_pending : (s.refuseAlloc).pending = s.pending := rfl

/-! ### countHit -/

@[simp] theorem State.countHit_pins (i : RuleNo) : (s.countHit i).pins = s.pins := rfl
@[simp] theorem State.countHit_ctl (i : RuleNo) : (s.countHit i).ctl = s.ctl := rfl
@[simp] theorem State.countHit_now (i : RuleNo) : (s.countHit i).now = s.now := rfl
@[simp] theorem State.countHit_store (i : RuleNo) : (s.countHit i).store = s.store := rfl
@[simp] theorem State.countHit_levels (i : RuleNo) : (s.countHit i).levels = s.levels := rfl
@[simp] theorem State.countHit_trunk (i : RuleNo) : (s.countHit i).trunk = s.trunk := rfl
@[simp] theorem State.countHit_cipher (i : RuleNo) : (s.countHit i).cipher = s.cipher := rfl
@[simp] theorem State.countHit_nodeMap (i : RuleNo) : (s.countHit i).nodeMap = s.nodeMap := rfl
@[simp] theorem State.countHit_ports (i : RuleNo) : (s.countHit i).ports = s.ports := rfl
@[simp] theorem State.countHit_rx (i : RuleNo) : (s.countHit i).rx = s.rx := rfl
@[simp] theorem State.countHit_cmd (i : RuleNo) : (s.countHit i).cmd = s.cmd := rfl
@[simp] theorem State.countHit_fault (i : RuleNo) : (s.countHit i).fault = s.fault := rfl
@[simp] theorem State.countHit_auctionDue (i : RuleNo) : (s.countHit i).auctionDue = s.auctionDue := rfl
@[simp] theorem State.countHit_pending (i : RuleNo) : (s.countHit i).pending = s.pending := rfl

/-! ### startFragment -/

@[simp] theorem State.startFragment_pins (f : Fragment) : (s.startFragment f).pins = s.pins := rfl
@[simp] theorem State.startFragment_ctl (f : Fragment) : (s.startFragment f).ctl = s.ctl := rfl
@[simp] theorem State.startFragment_now (f : Fragment) : (s.startFragment f).now = s.now := rfl
@[simp] theorem State.startFragment_store (f : Fragment) : (s.startFragment f).store = s.store := rfl
@[simp] theorem State.startFragment_levels (f : Fragment) : (s.startFragment f).levels = s.levels := rfl
@[simp] theorem State.startFragment_cipher (f : Fragment) : (s.startFragment f).cipher = s.cipher := rfl
@[simp] theorem State.startFragment_rules (f : Fragment) : (s.startFragment f).rules = s.rules := rfl
@[simp] theorem State.startFragment_nodeMap (f : Fragment) : (s.startFragment f).nodeMap = s.nodeMap := rfl
@[simp] theorem State.startFragment_ports (f : Fragment) : (s.startFragment f).ports = s.ports := rfl
@[simp] theorem State.startFragment_rx (f : Fragment) : (s.startFragment f).rx = s.rx := rfl
@[simp] theorem State.startFragment_cmd (f : Fragment) : (s.startFragment f).cmd = s.cmd := rfl
@[simp] theorem State.startFragment_fault (f : Fragment) : (s.startFragment f).fault = s.fault := rfl
@[simp] theorem State.startFragment_auctionDue (f : Fragment) : (s.startFragment f).auctionDue = s.auctionDue := rfl
@[simp] theorem State.startFragment_pending (f : Fragment) : (s.startFragment f).pending = s.pending := rfl

/-! ### Reading a table that an update does not touch -/

@[simp] theorem State.modLvl_port_at (l : Level) (f : LevelEntry → LevelEntry) (q : PortNo) : (s.modLvl l f).port q = s.port q := rfl
@[simp] theorem State.modLvl_rxCtx_at (l : Level) (f : LevelEntry → LevelEntry) (m : Level) : (s.modLvl l f).rxCtx m = s.rxCtx m := rfl
@[simp] theorem State.modLvl_slot_at (l : Level) (f : LevelEntry → LevelEntry) (j : Slot) : (s.modLvl l f).slot j = s.slot j := rfl
@[simp] theorem State.modLvl_disposition_at (l : Level) (f : LevelEntry → LevelEntry) (n : Node) : (s.modLvl l f).disposition n = s.disposition n := rfl
@[simp] theorem State.modLvl_rule_at (l : Level) (f : LevelEntry → LevelEntry) (j : RuleNo) : (s.modLvl l f).rule j = s.rule j := rfl
@[simp] theorem State.modLvl_entry_at (l : Level) (f : LevelEntry → LevelEntry) (d : EntryNo) : (s.modLvl l f).entry? d = s.entry? d := rfl
@[simp] theorem State.modPort_lvl_at (p : PortNo) (f : Port → Port) (m : Level) : (s.modPort p f).lvl m = s.lvl m := rfl
@[simp] theorem State.modPort_rxCtx_at (p : PortNo) (f : Port → Port) (m : Level) : (s.modPort p f).rxCtx m = s.rxCtx m := rfl
@[simp] theorem State.modPort_slot_at (p : PortNo) (f : Port → Port) (j : Slot) : (s.modPort p f).slot j = s.slot j := rfl
@[simp] theorem State.modPort_disposition_at (p : PortNo) (f : Port → Port) (n : Node) : (s.modPort p f).disposition n = s.disposition n := rfl
@[simp] theorem State.modPort_rule_at (p : PortNo) (f : Port → Port) (j : RuleNo) : (s.modPort p f).rule j = s.rule j := rfl
@[simp] theorem State.modPort_entry_at (p : PortNo) (f : Port → Port) (d : EntryNo) : (s.modPort p f).entry? d = s.entry? d := rfl
@[simp] theorem State.setRxCtx_lvl_at (l : Level) (c : Reassembly) (m : Level) : (s.setRxCtx l c).lvl m = s.lvl m := rfl
@[simp] theorem State.setRxCtx_port_at (l : Level) (c : Reassembly) (q : PortNo) : (s.setRxCtx l c).port q = s.port q := rfl
@[simp] theorem State.setRxCtx_slot_at (l : Level) (c : Reassembly) (j : Slot) : (s.setRxCtx l c).slot j = s.slot j := rfl
@[simp] theorem State.setRxCtx_disposition_at (l : Level) (c : Reassembly) (n : Node) : (s.setRxCtx l c).disposition n = s.disposition n := rfl
@[simp] theorem State.setRxCtx_rule_at (l : Level) (c : Reassembly) (j : RuleNo) : (s.setRxCtx l c).rule j = s.rule j := rfl
@[simp] theorem State.setRxCtx_entry_at (l : Level) (c : Reassembly) (d : EntryNo) : (s.setRxCtx l c).entry? d = s.entry? d := rfl
@[simp] theorem State.modRx_lvl_at (f : Receiver → Receiver) (m : Level) : (s.modRx f).lvl m = s.lvl m := rfl
@[simp] theorem State.modRx_port_at (f : Receiver → Receiver) (q : PortNo) : (s.modRx f).port q = s.port q := rfl
@[simp] theorem State.modRx_slot_at (f : Receiver → Receiver) (j : Slot) : (s.modRx f).slot j = s.slot j := rfl
@[simp] theorem State.modRx_disposition_at (f : Receiver → Receiver) (n : Node) : (s.modRx f).disposition n = s.disposition n := rfl
@[simp] theorem State.modRx_rule_at (f : Receiver → Receiver) (j : RuleNo) : (s.modRx f).rule j = s.rule j := rfl
@[simp] theorem State.modRx_entry_at (f : Receiver → Receiver) (d : EntryNo) : (s.modRx f).entry? d = s.entry? d := rfl
@[simp] theorem State.setSlot_lvl_at (k : Slot) (v : KeySlot) (m : Level) : (s.setSlot k v).lvl m = s.lvl m := rfl
@[simp] theorem State.setSlot_port_at (k : Slot) (v : KeySlot) (q : PortNo) : (s.setSlot k v).port q = s.port q := rfl
@[simp] theorem State.setSlot_rxCtx_at (k : Slot) (v : KeySlot) (m : Level) : (s.setSlot k v).rxCtx m = s.rxCtx m := rfl
@[simp] theorem State.setSlot_disposition_at (k : Slot) (v : KeySlot) (n : Node) : (s.setSlot k v).disposition n = s.disposition n := rfl
@[simp] theorem State.setSlot_rule_at (k : Slot) (v : KeySlot) (j : RuleNo) : (s.setSlot k v).rule j = s.rule j := rfl
@[simp] theorem State.setSlot_entry_at (k : Slot) (v : KeySlot) (d : EntryNo) : (s.setSlot k v).entry? d = s.entry? d := rfl
@[simp] theorem State.triggerAuction_lvl_at (m : Level) : (s.triggerAuction).lvl m = s.lvl m := rfl
@[simp] theorem State.triggerAuction_port_at (q : PortNo) : (s.triggerAuction).port q = s.port q := rfl
@[simp] theorem State.triggerAuction_rxCtx_at (m : Level) : (s.triggerAuction).rxCtx m = s.rxCtx m := rfl
@[simp] theorem State.triggerAuction_slot_at (j : Slot) : (s.triggerAuction).slot j = s.slot j := rfl
@[simp] theorem State.triggerAuction_disposition_at (n : Node) : (s.triggerAuction).disposition n = s.disposition n := rfl
@[simp] theorem State.triggerAuction_rule_at (j : RuleNo) : (s.triggerAuction).rule j = s.rule j := rfl
@[simp] theorem State.triggerAuction_entry_at (d : EntryNo) : (s.triggerAuction).entry? d = s.entry? d := rfl
@[simp] theorem State.corrupt_lvl_at (cells : List CellNo) (m : Level) : (s.corrupt cells).lvl m = s.lvl m := rfl
@[simp] theorem State.corrupt_port_at (cells : List CellNo) (q : PortNo) : (s.corrupt cells).port q = s.port q := rfl
@[simp] theorem State.corrupt_rxCtx_at (cells : List CellNo) (m : Level) : (s.corrupt cells).rxCtx m = s.rxCtx m := rfl
@[simp] theorem State.corrupt_slot_at (cells : List CellNo) (j : Slot) : (s.corrupt cells).slot j = s.slot j := rfl
@[simp] theorem State.corrupt_disposition_at (cells : List CellNo) (n : Node) : (s.corrupt cells).disposition n = s.disposition n := rfl
@[simp] theorem State.corrupt_rule_at (cells : List CellNo) (j : RuleNo) : (s.corrupt cells).rule j = s.rule j := rfl
@[simp] theorem State.modEntry_lvl_at (e : EntryNo) (f : FrameEntry → FrameEntry) (m : Level) : (s.modEntry e f).lvl m = s.lvl m := rfl
@[simp] theorem State.modEntry_port_at (e : EntryNo) (f : FrameEntry → FrameEntry) (q : PortNo) : (s.modEntry e f).port q = s.port q := rfl
@[simp] theorem State.modEntry_rxCtx_at (e : EntryNo) (f : FrameEntry → FrameEntry) (m : Level) : (s.modEntry e f).rxCtx m = s.rxCtx m := rfl
@[simp] theorem State.modEntry_slot_at (e : EntryNo) (f : FrameEntry → FrameEntry) (j : Slot) : (s.modEntry e f).slot j = s.slot j := rfl
@[simp] theorem State.modEntry_disposition_at (e : EntryNo) (f : FrameEntry → FrameEntry) (n : Node) : (s.modEntry e f).disposition n = s.disposition n := rfl
@[simp] theorem State.modEntry_rule_at (e : EntryNo) (f : FrameEntry → FrameEntry) (j : RuleNo) : (s.modEntry e f).rule j = s.rule j := rfl
@[simp] theorem State.refuseAlloc_lvl_at (m : Level) : (s.refuseAlloc).lvl m = s.lvl m := rfl
@[simp] theorem State.refuseAlloc_port_at (q : PortNo) : (s.refuseAlloc).port q = s.port q := rfl
@[simp] theorem State.refuseAlloc_rxCtx_at (m : Level) : (s.refuseAlloc).rxCtx m = s.rxCtx m := rfl
@[simp] theorem State.refuseAlloc_slot_at (j : Slot) : (s.refuseAlloc).slot j = s.slot j := rfl
@[simp] theorem State.refuseAlloc_disposition_at (n : Node) : (s.refuseAlloc).disposition n = s.disposition n := rfl
@[simp] theorem State.refuseAlloc_rule_at (j : RuleNo) : (s.refuseAlloc).rule j = s.rule j := rfl
@[simp] theorem State.countHit_lvl_at (i : RuleNo) (m : Level) : (s.countHit i).lvl m = s.lvl m := rfl
@[simp] theorem State.countHit_port_at (i : RuleNo) (q : PortNo) : (s.countHit i).port q = s.port q := rfl
@[simp] theorem State.countHit_rxCtx_at (i : RuleNo) (m : Level) : (s.countHit i).rxCtx m = s.rxCtx m := rfl
@[simp] theorem State.countHit_slot_at (i : RuleNo) (j : Slot) : (s.countHit i).slot j = s.slot j := rfl
@[simp] theorem State.countHit_disposition_at (i : RuleNo) (n : Node) : (s.countHit i).disposition n = s.disposition n := rfl
@[simp] theorem State.countHit_entry_at (i : RuleNo) (d : EntryNo) : (s.countHit i).entry? d = s.entry? d := rfl
@[simp] theorem State.startFragment_lvl_at (f : Fragment) (m : Level) : (s.startFragment f).lvl m = s.lvl m := rfl
@[simp] theorem State.startFragment_port_at (f : Fragment) (q : PortNo) : (s.startFragment f).port q = s.port q := rfl
@[simp] theorem State.startFragment_rxCtx_at (f : Fragment) (m : Level) : (s.startFragment f).rxCtx m = s.rxCtx m := rfl
@[simp] theorem State.startFragment_slot_at (f : Fragment) (j : Slot) : (s.startFragment f).slot j = s.slot j := rfl
@[simp] theorem State.startFragment_disposition_at (f : Fragment) (n : Node) : (s.startFragment f).disposition n = s.disposition n := rfl
@[simp] theorem State.startFragment_rule_at (f : Fragment) (j : RuleNo) : (s.startFragment f).rule j = s.rule j := rfl
@[simp] theorem State.startFragment_entry_at (f : Fragment) (d : EntryNo) : (s.startFragment f).entry? d = s.entry? d := rfl

/-! ### Reading a table after an update -/

@[simp] theorem State.lvl_modLvl_same (l : Level) (f : LevelEntry → LevelEntry) :
    (s.modLvl l f).lvl l = f (s.lvl l) := by
  simp [State.modLvl, State.lvl]

theorem State.lvl_modLvl_ne {l m : Level} (h : m ≠ l) (f : LevelEntry → LevelEntry) :
    (s.modLvl l f).lvl m = s.lvl m := by
  have hv : l.val ≠ m.val := fun e => h (Fin.ext e.symm)
  simp [State.modLvl, State.lvl, Vector.getElem_set_ne _ _ hv]

theorem State.lvl_modLvl (l m : Level) (f : LevelEntry → LevelEntry) :
    (s.modLvl l f).lvl m = if m = l then f (s.lvl l) else s.lvl m := by
  split
  · next h => subst h; simp
  · next h => exact s.lvl_modLvl_ne h f

@[simp] theorem State.port_modPort_same (p : PortNo) (f : Port → Port) :
    (s.modPort p f).port p = f (s.port p) := by
  simp [State.modPort, State.port]

theorem State.port_modPort_ne {p q : PortNo} (h : q ≠ p) (f : Port → Port) :
    (s.modPort p f).port q = s.port q := by
  have hv : p.val ≠ q.val := fun e => h (Fin.ext e.symm)
  simp [State.modPort, State.port, Vector.getElem_set_ne _ _ hv]

theorem State.port_modPort (p q : PortNo) (f : Port → Port) :
    (s.modPort p f).port q = if q = p then f (s.port p) else s.port q := by
  split
  · next h => subst h; simp
  · next h => exact s.port_modPort_ne h f

@[simp] theorem State.rxCtx_setRxCtx_same (l : Level) (c : Reassembly) : (s.setRxCtx l c).rxCtx l = c := by
  simp [State.setRxCtx, State.rxCtx]

theorem State.rxCtx_setRxCtx_ne {l m : Level} (h : m ≠ l) (c : Reassembly) :
    (s.setRxCtx l c).rxCtx m = s.rxCtx m := by
  have hv : l.val ≠ m.val := fun e => h (Fin.ext e.symm)
  simp [State.setRxCtx, State.rxCtx, Vector.getElem_set_ne _ _ hv]

@[simp] theorem State.slot_setSlot_same (k : Slot) (v : KeySlot) : (s.setSlot k v).slot k = v := by
  simp [State.setSlot, State.slot]

theorem State.slot_setSlot_ne {j k : Slot} (h : j ≠ k) (v : KeySlot) : (s.setSlot k v).slot j = s.slot j := by
  have hv : k.val ≠ j.val := fun e => h (Fin.ext e.symm)
  simp [State.setSlot, State.slot, Vector.getElem_set_ne _ _ hv]

/-! ### A map over a table -/

@[simp] theorem getElem_mapTable {α β : Type} {n : Nat} (f : α → β) (t : Vector α n) (i : Nat) (h : i < n) :
    (mapTable f t)[i] = f t[i] := by
  simp [mapTable]

end Sys2Proof.Machine
end

