-- ==== Sys2Proof/Laws/Moves.lean ====
section
/-! SUPPORT. What a step can do, said once: the relation `Moves W` between a state and a later one of the same step.
Every shared operation is a chain of moves; every invariant is checked on the moves alone. `W` says which pieces of
the part, beside those that any work may change, the step has the right to change. -/

namespace Sys2Proof.Machine

open Sys2Proof

/-- The pieces of the part that only some steps change. -/
inductive Piece where
  /-- The mode, the supervision mark and RefreshSeen. -/
  | mode
  /-- Period and Window. -/
  | supervision
  | time | pins | attrs
  /-- FramesSent of a level, and the clearing of level counters. -/
  | levelCounters
  /-- The latch, the line, the receive side, the waits and the counters of a port. -/
  | portLine
  | portConfig | receiver | slots | active | accepted | rejects | sequences | rules | hits | nodeMap | fragSize
  /-- The trunk line state, the egress counters, and the bytes last sent. -/
  | trunkLine
  /-- Records leaving the Egress Record Log. -/
  | logRead
  | access | notices
  /-- The clearing of the fault record. -/
  | faultClear

/-- What may happen in the Frame Store. -/
inductive StoreMove : Store → Store → Prop where
  | note (st : Store) (corrupted : List CellNo) (a b c : Word) :
    StoreMove st { st with corrupted := corrupted, allocRefusals := a, cellCheckFailures := b,
                           framesLostToCheck := c }
  | take (st st' : Store) (cells : Nat) (f : FrameEntry) (e : EntryNo) (h : cells ≤ st.freeCells.length)
    (ht : st.take cells f = some (e, st')) : StoreMove st st'
  | free (st : Store) (e : EntryNo) (f : FrameEntry) (h : st.entries.lookup e = some f) : StoreMove st (st.free e f)
  | change (st : Store) (e : EntryNo) (g : FrameEntry → FrameEntry) (h : ∀ f, (g f).cells = f.cells) :
    StoreMove st { st with entries := changeEntry st.entries e g }
  | retire (st : Store) (e : EntryNo) (f : FrameEntry) (cell : CellNo) (h : st.entries.lookup e = some f)
    (hc : cell ∈ f.cells) : StoreMove st (st.retire e cell)
  | trim (st : Store) (e : EntryNo) (f : FrameEntry) (n : Nat) (h : st.entries.lookup e = some f) :
    StoreMove st (st.trim e f n)
  | write (st : Store) (f : FrameEntry) (offset : Nat) (bytes : List Byte) :
    StoreMove st { st with mem := f.writeBytes st.mem offset bytes }

/-- What any work may do to a level: attributes and FramesSent stay, and transmit sequences only step on. -/
structure LevelWork (v w : LevelEntry) : Prop where
  attrs : w.attrs = v.attrs
  sent : w.framesSent = v.framesSent
  sequences : ∀ k : Slot, TxSequence.le v.txSeq[k.val] w.txSeq[k.val]

/-- What any work may do to a port: its egress queue, its transmitter, Drops and TxAborted. -/
structure PortWork (v w : Port) : Prop where
  same : w = { v with queue := w.queue, tx := w.tx, drops := w.drops, txAborted := w.txAborted }
  queue : w.queue.length ≤ max v.queue.length Config.egressSize

/-- What any work may do to the trunk: the fragment in flight, records joining the log, and forming failures. -/
structure TrunkWork (v w : Trunk) : Prop where
  same : w = { v with inFlight := w.inFlight, log := w.log, logOverflow := w.logOverflow,
                      formingFailures := w.formingFailures }
  log : w.log.length ≤ max v.log.length Config.logSize

/-- What any work may do to the Command Unit. -/
structure CommandWork (v w : CommandUnit) : Prop where
  access : w.access = v.access
  fifo : w.fifo.length ≤ max v.fifo.length Config.fifoSize

/-- One state comes from another within one step that may change the pieces of `W`. -/
inductive Moves (W : Piece → Prop) : State → State → Prop where
  | refl (s : State) : Moves W s s
  | trans {s t u : State} (h : Moves W s t) (h' : Moves W t u) : Moves W s u
  | store (s : State) (st : Store) (h : StoreMove s.store st) : Moves W s { s with store := st }
  | level (s : State) (l : Level) (f : LevelEntry → LevelEntry) (h : LevelWork (s.lvl l) (f (s.lvl l))) :
    Moves W s (s.modLvl l f)
  | port (s : State) (p : PortNo) (f : Port → Port) (h : PortWork (s.port p) (f (s.port p))) :
    Moves W s (s.modPort p f)
  | trunk (s : State) (t : Trunk) (h : TrunkWork s.trunk t) : Moves W s { s with trunk := t }
  | cmd (s : State) (u : CommandUnit) (h : CommandWork s.cmd u) : Moves W s { s with cmd := u }
  | fault (s : State) (r : FaultReport) : Moves W s { s with fault := s.fault.record r }
  | auction (s : State) (b : Bool) : Moves W s { s with auctionDue := b }
  | mode (hW : W .mode) (s : State) (m : Mode) (mark : Option Word) (seen : Bool) :
    Moves W s { s with ctl := { s.ctl with mode := m, mark := mark, refreshSeen := seen } }
  | supervision (hW : W .supervision) (s : State) (period : Nat) (window : Bool) (h : period ≤ 65535) :
    Moves W s { s with ctl := { s.ctl with period := period, window := window } }
  | time (hW : W .time) (s : State) (n : Word) : Moves W s { s with now := n }
  | pins (hW : W .pins) (s : State) (p : Pins) : Moves W s { s with pins := p }
  | attrs (hW : W .attrs) (s : State) (l : Level) (a : Attrs) (hl : 2 ≤ l.val) (ha : a.Lawful) :
    Moves W s (s.modLvl l fun v => { v with attrs := a })
  | sent (hW : W .levelCounters) (s : State) (l : Level) (n : Word) :
    Moves W s (s.modLvl l fun v => { v with framesSent := n })
  | clearLevels (hW : W .levelCounters) (s : State) :
    Moves W s { s with levels := mapTable LevelEntry.cleared s.levels }
  | portLine (hW : W .portLine) (s : State) (p : PortNo) (f : Port → Port)
    (hc : (f (s.port p)).cfg = (s.port p).cfg) (hq : (f (s.port p)).queue = (s.port p).queue) :
    Moves W s (s.modPort p f)
  | clearPorts (hW : W .portLine) (s : State) : Moves W s { s with ports := mapTable Port.cleared s.ports }
  | portConfig (hW : W .portConfig) (s : State) (p : PortNo) (f : Port → Port)
    (hd : 2 ≤ (f (s.port p)).cfg.defaultLevel.val ∨ (f (s.port p)).cfg.defaultLevel = (s.port p).cfg.defaultLevel)
    (hs : (f (s.port p)).cfg.silenceTime ≤ 255 ∨ (f (s.port p)).cfg.silenceTime = (s.port p).cfg.silenceTime)
    (hq : (f (s.port p)).queue = (s.port p).queue) : Moves W s (s.modPort p f)
  | receiver (hW : W .receiver) (s : State) (r : Receiver) : Moves W s { s with rx := r }
  | slots (hW : W .slots) (s : State) (k : Slot) (v : KeySlot) : Moves W s (s.setSlot k v)
  | active (hW : W .active) (s : State) (k : Slot) :
    Moves W s { s with cipher := { s.cipher with active := k } }
  | accepted (hW : W .accepted) (s : State) (k : Slot) (l : Level) (v : Word) : Moves W s (s.recordAccepted k l v)
  | rejects (hW : W .rejects) (s : State) (n : Word) :
    Moves W s { s with cipher := { s.cipher with rejects := n } }
  | sequences (hW : W .sequences) (s : State) (k : Slot) : Moves W s (s.resetSequences k)
  | rules (hW : W .rules) (s : State) (i : RuleNo) (r : Rule) (h : r.Lawful) :
    Moves W s { s with rules := s.rules.set i.val r i.isLt }
  | hits (hW : W .hits) (s : State) (i : RuleNo) : Moves W s (s.countHit i)
  | clearHits (hW : W .hits) (s : State) : Moves W s { s with rules := clearHits s.rules }
  | nodeMap (hW : W .nodeMap) (s : State) (m : Vector Disposition 256)
    (h : ∀ n : Node, m[n.toNat] = s.disposition n ∨ (s.fixedNode n = false ∧ m[n.toNat].writable = true)) :
    Moves W s { s with nodeMap := m }
  | fragSize (hW : W .fragSize) (s : State) (n : Nat) (h : n = 64 ∨ n = 128 ∨ n = 256) :
    Moves W s { s with trunk := { s.trunk with fragSize := n } }
  | trunkLine (hW : W .trunkLine) (s : State) (t : Trunk) (hf : t.fragSize = s.trunk.fragSize)
    (hl : t.log = s.trunk.log) : Moves W s { s with trunk := t }
  | logRead (hW : W .logRead) (s : State) (log : List EgressRecord) (b : Bool)
    (h : log.length ≤ s.trunk.log.length) :
    Moves W s { s with trunk := { s.trunk with log := log, logOverflow := b } }
  | access (hW : W .access) (s : State) (a : Vector Access 7) :
    Moves W s { s with cmd := { s.cmd with access := a } }
  | notices (hW : W .notices) (s : State) (n : Node) (ks : KindSet) :
    Moves W s { s with fault := { s.fault with noticeNode := n, noticeKinds := ks } }
  | faultClear (hW : W .faultClear) (s : State) :
    Moves W s { s with fault := { s.fault with summary := 0, captured := none } }

/-! ### Sequences are ordered -/

theorem TxSequence.le_refl (a : TxSequence) : a.le a := by
  cases a with
  | seq v => exact BitVec.le_refl v
  | exhausted => trivial

theorem TxSequence.le_trans {a b c : TxSequence} (h : a.le b) (h' : b.le c) : a.le c := by
  cases a <;> cases b <;> cases c <;> simp_all [TxSequence.le]
  exact BitVec.le_trans h h'

theorem TxSequence.le_next (v : Word) : (TxSequence.seq v).le (TxSequence.next v) := by
  unfold TxSequence.next
  split
  · trivial
  · next h =>
    simp only [TxSequence.le, BitVec.le_def]
    have : v.toNat ≠ 2 ^ 32 - 1 := fun e => h (BitVec.eq_of_toNat_eq (by simpa using e))
    rw [BitVec.toNat_add]
    have := v.isLt
    simp; omega

/-! ### Small forms of the moves that any work may make -/

theorem LevelWork.of_eq {v w : LevelEntry} (ha : w.attrs = v.attrs) (hs : w.framesSent = v.framesSent)
    (ht : w.txSeq = v.txSeq) : LevelWork v w :=
  ⟨ha, hs, fun k => by rw [ht]; exact TxSequence.le_refl _⟩

theorem PortWork.of_queue {v : Port} {q : List EntryNo} {t : Option PortTx} {d a : Word}
    (h : q.length ≤ max v.queue.length Config.egressSize) :
    PortWork v { v with queue := q, tx := t, drops := d, txAborted := a } :=
  ⟨rfl, h⟩

variable {W : Piece → Prop}

/-- Chain one more move onto others. -/
theorem Moves.chain {s t u : State} (h' : Moves W t u) (h : Moves W s t) : Moves W s u := h.trans h'

theorem Moves.foldl {α : Type} (f : State → α → State) (h : ∀ s a, Moves W s (f s a)) (l : List α) (s : State) :
    Moves W s (l.foldl f s) := by
  induction l generalizing s with
  | nil => exact .refl s
  | cons a l ih => exact (h s a).trans (ih _)

end Sys2Proof.Machine
end

