-- ==== Sys2Proof/Laws/StoreWork.lean ====
section
/-! SUPPORT. Each operation of the Frame Store, of the offers, of the Fault Unit and of the responses is a chain of
moves that any work may make. -/

namespace Sys2Proof.Machine

open Sys2Proof

variable {W : Piece → Prop}

/-! ### Frame Store -/

theorem Moves.trigger (s : State) : Moves W s s.triggerAuction := .auction s true

theorem Moves.corrupt (s : State) (cells : List CellNo) : Moves W s (s.corrupt cells) :=
  .store s _ (.note s.store _ s.store.allocRefusals s.store.cellCheckFailures s.store.framesLostToCheck)

theorem Moves.refuseAlloc (s : State) : Moves W s s.refuseAlloc :=
  .store s _ (.note s.store s.store.corrupted _ s.store.cellCheckFailures s.store.framesLostToCheck)

theorem Moves.modEntry (s : State) (e : EntryNo) (g : FrameEntry → FrameEntry) (h : ∀ f, (g f).cells = f.cells) :
    Moves W s (s.modEntry e g) :=
  .store s _ (.change s.store e g h)

theorem Moves.addHolder (s : State) (e : EntryNo) : Moves W s (s.addHolder e) := .modEntry s e _ fun _ => rfl

theorem Moves.allocTraffic (s : State) (f : FrameEntry) : Moves W s (s.allocTraffic f).2 := by
  unfold State.allocTraffic
  split
  · next h =>
    simp only [Store.trafficOk, Bool.and_eq_true, decide_eq_true_eq] at h
    split
    · next e st ht => exact .store s st (.take _ _ _ f e (by have := h.2; omega) ht)
    · exact .refuseAlloc s
  · exact .refuseAlloc s

theorem Moves.allocReserve (s : State) (n : Nat) (f : FrameEntry) : Moves W s (s.allocReserve n f).2 := by
  unfold State.allocReserve
  split
  · next h =>
    simp only [Store.reserveOk, Bool.and_eq_true, decide_eq_true_eq] at h
    split
    · next e st ht => exact .store s st (.take _ _ _ f e h.2 ht)
    · exact .refuseAlloc s
  · exact .refuseAlloc s

theorem CommandWork.noteFreed (u : CommandUnit) : CommandWork u u.noteFreed := by
  unfold CommandUnit.noteFreed
  split
  · exact ⟨rfl, le_max_left _ _⟩
  · exact ⟨rfl, le_max_left _ _⟩

theorem Moves.release (s : State) (e : EntryNo) : Moves W s (s.release e) := by
  unfold State.release
  split
  · exact .refl s
  · next f h =>
    split
    · exact (Moves.store s _ (.free s.store e f h)).trans
        (.cmd { s with store := s.store.free e f } _ (.noteFreed _))
    · exact .modEntry s e _ fun _ => rfl

theorem Moves.writePayload (s : State) (e : EntryNo) (offset : Nat) (bytes : List Byte) :
    Moves W s (s.writePayload e offset bytes) := by
  refine (Moves.store s _ (.write s.store (s.entryAt e) offset bytes)).trans ?_
  exact .store _ _ (.note _ (s.store.corrupted.filter fun c =>
    !((s.entryAt e).cellsHolding offset bytes.length).contains c) _ _ _)

/-- Trimming an entry that is not in use changes nothing. -/
theorem changeEntry_of_lookup_none (t : List (EntryNo × FrameEntry)) (e : EntryNo) (g : FrameEntry → FrameEntry)
    (h : t.lookup e = none) : changeEntry t e g = t := by
  induction t with
  | nil => rfl
  | cons x t ih =>
    obtain ⟨d, f⟩ := x
    rw [List.lookup_cons] at h
    split at h
    · cases h
    · next hb =>
      have hd : d ≠ e := fun he => by simp [he] at hb
      simp only [changeEntry, List.map_cons, hd, if_false] at ih ⊢
      rw [ih h]

theorem Moves.trim (s : State) (e : EntryNo) (n : Nat) :
    Moves W s { s with store := s.store.trim e (s.entryAt e) n } := by
  cases h : s.entry? e with
  | none =>
    have hc : s.store.trim e (s.entryAt e) n = s.store := by
      unfold Store.trim
      rw [changeEntry_of_lookup_none _ _ _ h]
      simp [State.entryAt, h, FrameEntry.blank]
    rw [hc]
    exact .refl s
  | some f =>
    have hf : s.entryAt e = f := by simp [State.entryAt, h]
    rw [hf]
    exact .store s _ (.trim s.store e f n h)

/-! ### Offers -/

theorem Moves.accept (s : State) (e : EntryNo) (first : Bool) : Moves W s (s.accept e first) := by
  unfold State.accept
  split
  · exact .refl s
  · exact .addHolder s e

theorem Moves.offerLevel (s : State) (l : Level) (e : EntryNo) (first : Bool) :
    Moves W s (s.offerLevel l e first).2 := by
  unfold State.offerLevel
  split
  · exact .level s l _ (.of_eq rfl rfl rfl)
  · exact ((Moves.accept s e first).trans (.level _ l _ (.of_eq rfl rfl rfl))).trans (.trigger _)

theorem Moves.dropCount (s : State) (p : PortNo) : Moves W s (s.modPort p Port.dropped) :=
  .port s p _ ⟨rfl, le_max_left _ _⟩

theorem Moves.startTx (s : State) (p : PortNo) : Moves W s (s.startTx p) := by
  unfold State.startTx
  split
  · split
    · exact .refl s
    · next e rest h =>
      refine .port s p _ ⟨rfl, ?_⟩
      have : (s.port p).queue.length = rest.length + 1 := by rw [h]; rfl
      simp only; omega
  · exact .refl s

theorem State.insertByLevel_length (s : State) (q : List EntryNo) (e : EntryNo) :
    (s.insertByLevel q e).length = q.length + 1 := by
  have h := congrArg List.length (List.takeWhile_append_dropWhile
    (p := fun d => decide ((s.entryAt d).level ≤ (s.entryAt e).level)) (l := q))
  rw [List.length_append] at h
  simp only [State.insertByLevel, List.length_append, List.length_cons]
  omega

theorem Moves.joinEgress (s : State) (p : PortNo) (e : EntryNo) (first : Bool)
    (h : (s.port p).queue.length < Config.egressSize) : Moves W s (s.joinEgress p e first) := by
  unfold State.joinEgress
  refine ((Moves.accept s e first).trans ?_).trans (.startTx _ p)
  have hp : (s.accept e first).port p = s.port p := by unfold State.accept; split <;> rfl
  refine .port _ p _ ⟨rfl, ?_⟩
  simp only [hp, State.insertByLevel_length]
  omega

@[simp] theorem State.port_release (s : State) (e : EntryNo) (p : PortNo) : (s.release e).port p = s.port p := by
  unfold State.release
  split
  · rfl
  · split <;> rfl

/-! Work on the store commutes with a change of a port. -/

theorem State.release_modPort (s : State) (p : PortNo) (f : Port → Port) (e : EntryNo) :
    (s.modPort p f).release e = (s.release e).modPort p f := by
  have he : (s.modPort p f).entry? e = s.entry? e := rfl
  unfold State.release
  rw [he]
  split
  · rfl
  · split <;> rfl

theorem State.accept_modPort (s : State) (p : PortNo) (f : Port → Port) (e : EntryNo) (first : Bool) :
    (s.modPort p f).accept e first = (s.accept e first).modPort p f := by
  unfold State.accept
  split <;> rfl

theorem State.modPort_modPort (s : State) (p : PortNo) (f g : Port → Port) :
    (s.modPort p f).modPort p g = s.modPort p fun v => g (f v) := by
  simp [State.modPort, State.port]

theorem Moves.evictAndJoin (s : State) (p : PortNo) (worst e : EntryNo) (first : Bool)
    (h : (s.port p).queue ≠ []) :
    Moves W s (((s.modPort p fun v => ({ v with queue := v.queue.dropLast }).dropped).release worst).joinEgress p e
      first) := by
  unfold State.joinEgress
  rw [State.release_modPort, State.accept_modPort, State.modPort_modPort]
  refine (((Moves.release s worst).trans (.accept _ e first)).trans ?_).trans (.startTx _ p)
  have hp : ((s.release worst).accept e first).port p = s.port p := by
    unfold State.accept
    split
    · exact s.port_release worst p
    · exact s.port_release worst p
  refine .port _ p _ ⟨rfl, ?_⟩
  have : 0 < (s.port p).queue.length := List.length_pos_iff.mpr h
  simp only [hp, Port.dropped, State.insertByLevel_length, List.length_dropLast]
  omega

theorem Moves.offerPort (s : State) (p : PortNo) (e : EntryNo) (first : Bool) :
    Moves W s (s.offerPort p e first).2 := by
  unfold State.offerPort
  split
  · exact .dropCount s p
  · split
    · next h => exact .joinEgress s p e first h
    · split
      · exact .dropCount s p
      · next worst hw =>
        have hne : (s.port p).queue ≠ [] := fun h => by simp [h] at hw
        split
        · exact .evictAndJoin s p worst e first hne
        · exact .dropCount s p

theorem Moves.makeOffer (e : EntryNo) (acc : Bool × State) (o : Offer) :
    Moves W acc.2 (State.makeOffer e acc o).2 := by
  cases o with
  | level l => exact .offerLevel _ l e _
  | port p => exact .offerPort _ p e _

theorem Moves.offers (e : EntryNo) (os : List Offer) (acc : Bool × State) :
    Moves W acc.2 (os.foldl (State.makeOffer e) acc).2 := by
  induction os generalizing acc with
  | nil => exact .refl _
  | cons o os ih => exact (Moves.makeOffer e acc o).trans (ih _)

theorem Moves.offerAll (s : State) (e : EntryNo) (os : List Offer) : Moves W s (s.offerAll e os) := by
  have h := Moves.offers (W := W) e os (false, s)
  unfold State.offerAll
  simp only
  split
  · exact h
  · exact h.trans (.release _ e)

/-! ### Faults and notices -/

theorem Moves.buildNotice (s : State) (r : FaultReport) (filled : Bool) : Moves W s (s.buildNotice r filled) := by
  have h := Moves.allocReserve (W := W) s 1 s.noticeEntry
  unfold State.buildNotice
  split
  · next t heq => rw [heq] at h; exact h
  · next e t heq => rw [heq] at h; exact (h.trans (.writePayload t e 0 _)).trans (.offerAll _ e _)

theorem Moves.raise (s : State) (k : FaultKind) (f : FaultFields) : Moves W s (s.raise k f) := by
  unfold State.raise
  simp only
  split
  · exact (Moves.fault s _).trans (.buildNotice _ _ _)
  · exact .fault s _

/-! ### Command FIFO and responses -/

theorem Moves.offerFifo (s : State) (e : EntryNo) : Moves W s (s.offerFifo e) := by
  unfold State.offerFifo
  split
  · next h =>
    refine .cmd s _ ⟨rfl, ?_⟩
    simp only [List.length_append, List.length_singleton]
    omega
  · dsimp only
    refine .chain (.raise _ _ _) (.chain (.cmd _ _ ⟨rfl, le_max_left _ _⟩) (.release s e))

theorem Moves.routeResponse (s : State) (e : EntryNo) (o : Sender) : Moves W s (s.routeResponse e o) := by
  cases o with
  | trunk => exact .offerAll s e _
  | station p =>
    unfold State.routeResponse
    simp only
    split
    · exact .offerAll s e _
    · exact (Moves.release s e).trans (.cmd _ _ ⟨rfl, le_max_left _ _⟩)

theorem Moves.fillResponse (s : State) (e : EntryNo) (payload : List Byte) :
    Moves W s (s.fillResponse e payload) := by
  unfold State.fillResponse
  dsimp only
  refine .chain (.writePayload _ e 0 payload) (.chain (.trim _ e _) (.modEntry s e _ fun _ => rfl))

theorem Moves.buildLongResponse (s : State) (r : LongRecord) : Moves W s (s.buildLongResponse r).2 := by
  have h := Moves.allocReserve (W := W) s (cellsFor (responsePayload r.op.code r.tag .ok []).length)
    (s.responseEntry r.node)
  unfold State.buildLongResponse
  dsimp only
  split
  · next t heq => rw [heq] at h; exact h
  · next e t heq =>
    rw [heq] at h
    exact (h.trans (.fillResponse t e _)).trans (.routeResponse _ e _)

theorem Moves.endLongOp (s : State) (op : LongOp) : Moves W s (s.endLongOp op) := by
  unfold State.endLongOp
  split
  · exact .refl s
  · next r _ =>
    simp only
    have h0 : Moves W s { s with cmd := { s.cmd with longOps := s.cmd.longOps.filter fun r => r.op != op } } :=
      .cmd s _ ⟨rfl, le_max_left _ _⟩
    have h := h0.trans (.buildLongResponse _ r)
    split
    · next t heq => rw [heq] at h; exact h
    · next t heq => rw [heq] at h; exact h.trans (.cmd _ _ ⟨rfl, le_max_left _ _⟩)

theorem Moves.flushComplete (s : State) (l : Level) : Moves W s (s.flushComplete l) := by
  unfold State.flushComplete
  split
  · exact (Moves.level s l _ (.of_eq rfl rfl rfl)).trans (.endLongOp _ _)
  · exact .refl s

end Sys2Proof.Machine
end

