-- ==== Sys2Proof/Laws/SchedulerWork.lean ====
section
/-! SUPPORT. Each operation of the Level Scheduler and of the Trunk Transmitter is a chain of moves. -/

namespace Sys2Proof.Machine

open Sys2Proof

variable {W : Piece → Prop}

/-! ### Records, abandoning, suspending, emptying -/

theorem TrunkWork.writeRecord (t : Trunk) (r : EgressRecord) : TrunkWork t (t.writeRecord r) := by
  unfold Trunk.writeRecord
  split
  · next h =>
    refine ⟨rfl, ?_⟩
    simp only [List.length_append, List.length_singleton]
    omega
  · exact ⟨rfl, le_max_left _ _⟩

theorem Moves.recordFinish (s : State) (l : Level) (c : Context) (n : Nat) (o : EgressOutcome) :
    Moves W s (s.recordFinish l c n o) := by
  unfold State.recordFinish
  dsimp only
  split
  · exact .trunk s _ (.writeRecord _ _)
  · exact .refl s

theorem Moves.dropContext (s : State) (l : Level) (c : Context) : Moves W s (s.dropContext l c) :=
  .chain (.level _ l _ (.of_eq rfl rfl rfl)) (.chain (.release _ c.entry)
    (.chain (.level _ l _ (.of_eq rfl rfl rfl)) (.recordFinish s l c c.next .aborted)))

theorem Moves.oweAbort (s : State) (l : Level) (f : FrameEntry) : Moves W s (s.oweAbort l f) :=
  .chain (.trigger _) (.level s l _ (.of_eq rfl rfl rfl))

theorem Moves.abandon (s : State) (l : Level) (started : Bool) : Moves W s (s.abandon l started) := by
  unfold State.abandon
  split
  · exact .refl s
  · split
    · exact .chain (.flushComplete _ l) (.chain (.oweAbort _ l _) (.dropContext s l _))
    · exact .chain (.flushComplete _ l) (.dropContext s l _)

theorem Moves.suspend (s : State) (l : Level) : Moves W s (s.suspend l) := by
  unfold State.suspend
  split
  · exact .abandon s l true
  · exact .level s l _ (.of_eq rfl rfl rfl)

theorem Moves.emptyQueue (s : State) (l : Level) : Moves W s (s.emptyQueue l) := by
  unfold State.emptyQueue
  exact .chain (.foldl _ (fun t e => .release t e) _ _) (.level s l _ (.of_eq rfl rfl rfl))

theorem Moves.bar (s : State) (l : Level) : Moves W s (s.bar l) := by
  unfold State.bar
  dsimp only
  split
  · exact .emptyQueue s l
  · exact .chain (.abandon _ l true) (.emptyQueue s l)

/-! ### A frame lost to a failing cell -/

theorem Moves.levelGivesUp (e : EntryNo) (s : State) (l : Level) : Moves W s (s.levelGivesUp e l) := by
  unfold State.levelGivesUp
  split
  · exact .chain (.release _ e) (.level s l _ (.of_eq rfl rfl rfl))
  · split
    · split
      · exact .abandon s l _
      · exact .refl s
    · exact .refl s

theorem Moves.portGivesUp (e : EntryNo) (s : State) (p : PortNo) : Moves W s (s.portGivesUp e p) := by
  unfold State.portGivesUp
  split
  · exact .chain (.release _ e) (.port s p _ ⟨rfl, le_trans (List.length_filter_le _ _) (le_max_left _ _)⟩)
  · split
    · split
      · exact .chain (.release _ e) (.port s p _ ⟨rfl, le_max_left _ _⟩)
      · exact .refl s
    · exact .refl s

theorem Moves.retireAndCount (s : State) (e : EntryNo) (cell : CellNo) (h : cell ∈ (s.entryAt e).cells) :
    Moves W s { s with store := s.store.retireAndCount e cell } := by
  cases hf : s.entry? e with
  | none => simp [State.entryAt, hf, FrameEntry.blank] at h
  | some f =>
    have hc : cell ∈ f.cells := by simpa [State.entryAt, hf] using h
    exact (Moves.store s _ (.retire s.store e f cell hf hc)).trans
      (.store { s with store := s.store.retire e cell } _
        (.note _ (s.store.retire e cell).corrupted (s.store.retire e cell).allocRefusals _ _))

theorem Moves.loseFrame (s : State) (e : EntryNo) (cell : CellNo) (h : cell ∈ (s.entryAt e).cells) :
    Moves W s (s.loseFrame e cell) :=
  .chain (.foldl State.startTx (fun t p => .startTx t p) allPorts _)
    (.chain (.foldl (State.levelGivesUp e) (fun t l => .levelGivesUp e t l) allLevels _)
      (.chain (.foldl (State.portGivesUp e) (fun t p => .portGivesUp e t p) allPorts _)
        (.retireAndCount s e cell h)))

/-! ### Starting and forming -/

theorem Moves.startNewFrame (s : State) (l : Level) : Moves W s (s.startNewFrame l) := by
  unfold State.startNewFrame
  split
  · exact .refl s
  · dsimp only
    split
    · split
      · exact .refl s
      · next v hv =>
        have h : ∀ q c, LevelWork (s.lvl l) { s.lvl l with
            queue := q, ctx := c,
            txSeq := (s.lvl l).txSeq.set s.cipher.active.val (TxSequence.next v) s.cipher.active.isLt } := by
          refine fun q c => ⟨rfl, rfl, fun k => ?_⟩
          by_cases hk : s.cipher.active.val = k.val
          · have : k = s.cipher.active := Fin.ext hk.symm
            subst this
            simp only [Vector.getElem_set_self]
            rw [hv]
            exact TxSequence.le_next v
          · simp only [Vector.getElem_set_ne _ _ hk]
            exact TxSequence.le_refl _
        split
        · exact .chain (.raise _ _ _) (.level s l _ (h _ _))
        · exact .level s l _ (h _ _)
    · exact .level s l _ (.of_eq rfl rfl rfl)

theorem Moves.startFragment (s : State) (f : Fragment) : Moves W s (s.startFragment f) :=
  .trunk s _ ⟨rfl, le_max_left _ _⟩

theorem TrunkWork.countFailure (t : Trunk) : TrunkWork t t.countFailure := ⟨rfl, le_max_left _ _⟩

theorem Moves.formingFails (s : State) (l : Level) (e : EntryNo) (cell : CellNo)
    (h : cell ∈ (s.entryAt e).cells) : Moves W s (s.formingFails l e cell) :=
  .chain (.raise _ _ _) (.chain (.trunk (s.loseFrame e cell) _ (.countFailure _)) (.loseFrame s e cell h))

theorem FrameEntry.mem_of_cellsHolding {f : FrameEntry} {offset len : Nat} {c : CellNo}
    (h : c ∈ f.cellsHolding offset len) : c ∈ f.cells :=
  List.mem_of_mem_drop (List.mem_of_mem_take h)

theorem State.firstFailing_mem {s : State} {cells : List CellNo} {c : CellNo} (h : s.firstFailing cells = some c) :
    c ∈ cells :=
  List.mem_of_find?_eq_some h

theorem State.failing_mem_entry {s : State} {c : Context} {cell : CellNo}
    (h : s.firstFailing (s.fragmentCells c) = some cell) : cell ∈ (s.entryAt c.entry).cells :=
  FrameEntry.mem_of_cellsHolding (State.firstFailing_mem h)

theorem Moves.answer {s t : State} {b : Bool} (h : Moves W s t) : Moves W s (b, t).2 := h

theorem Moves.formFragment (s : State) (l : Level) : Moves W s (s.formFragment l).2 := by
  unfold State.formFragment
  split
  · exact .refl s
  · next c _ =>
    split
    · next cell h =>
      exact .answer (.formingFails s l c.entry cell (State.failing_mem_entry h))
    · exact .answer (.startFragment s _)

theorem Moves.sendLevel (s : State) (l : Level) : Moves W s (s.sendLevel l).2 := by
  unfold State.sendLevel
  split
  · exact .startFragment s _
  · split
    · exact .formFragment s l
    · exact .chain (.formFragment _ l) (.startNewFrame s l)

/-! ### The auction and the end of a step -/

theorem Moves.auctionRounds (n : Nat) (s : State) : Moves W s (State.auctionRounds n s) := by
  induction n generalizing s with
  | zero => exact .refl s
  | succ n ih =>
    unfold State.auctionRounds
    split
    · exact .refl s
    · split
      · exact .refl s
      · next l _ =>
        have h := Moves.sendLevel (W := W) s l
        split
        · next t heq => rw [heq] at h; exact h.trans (ih t)
        · next t heq => rw [heq] at h; exact h

theorem Moves.holdAuction (s : State) : Moves W s s.auction := .auctionRounds _ s

theorem Moves.sendByDecision (s : State) (l : Level) : Moves W s (s.sendByDecision l) := by
  have h := Moves.sendLevel (W := W) s l
  unfold State.sendByDecision
  split
  · next t heq => rw [heq] at h; exact h.trans (.holdAuction t)
  · next t heq => rw [heq] at h; exact h

theorem Moves.dueAuction (s : State) : Moves W s s.dueAuction := by
  unfold State.dueAuction
  split
  · exact .chain (.auction s.auction false) (.holdAuction s)
  · exact .refl s

theorem Moves.forgetFreed (s : State) : Moves W s s.forgetFreed := by
  unfold State.forgetFreed
  split
  · exact .cmd s _ ⟨rfl, le_max_left _ _⟩
  · exact .refl s

theorem Moves.settle (s : State) : Moves W s s.settle := .chain (.forgetFreed s.dueAuction) (.dueAuction s)

/-! ### Completion -/

theorem Moves.endTrain (s : State) (l : Level) : Moves W s (s.endTrain l) := .level s l _ (.of_eq rfl rfl rfl)

theorem Moves.startNextOfTrain (s : State) (l : Level) : Moves W s (s.startNextOfTrain l) :=
  .chain (.level _ l _ (.of_eq rfl rfl rfl)) (.startNewFrame s l)

theorem Moves.trainDecision (s : State) (l : Level) : Moves W s (s.trainDecision l) := by
  unfold State.trainDecision
  split
  · have h := (Moves.startNextOfTrain (W := W) s l).trans (.formFragment _ l)
    split
    · next t heq => rw [heq] at h; exact h.trans (.holdAuction t)
    · next t heq => rw [heq] at h; exact h
  · exact .chain (.holdAuction _) (.endTrain s l)

theorem Moves.boundaryAuction (s : State) (l : Level) : Moves W s (s.boundaryAuction l) := by
  unfold State.boundaryAuction
  split
  · exact .suspend s l
  · split
    · exact .sendByDecision s l
    · exact .chain (.sendByDecision _ _) (.suspend s l)

theorem Moves.advance (s : State) (l : Level) (n : Nat) : Moves W s (s.advance l n) :=
  .level s l _ (.of_eq rfl rfl rfl)

theorem Moves.boundaryDecision (s : State) (l : Level) : Moves W s (s.boundaryDecision l) := by
  unfold State.boundaryDecision
  split
  · exact .chain (.holdAuction _) (.abandon s l true)
  · split
    · exact .chain (.sendByDecision _ _) (.suspend s l)
    · split
      · exact .sendByDecision s l
      · exact .boundaryAuction s l

theorem Moves.boundary (s : State) (l : Level) (n : Nat) : Moves W s (s.boundary l n) :=
  .chain (.boundaryDecision _ l) (.advance s l n)

theorem Moves.completeFrame (hW : W .levelCounters) (s : State) (l : Level) (c : Context) (n : Nat) :
    Moves W s (s.completeFrame l c n) :=
  .chain (.trainDecision _ l) (.chain (.flushComplete _ l) (.chain (.level _ l _ (.of_eq rfl rfl rfl))
    (.chain (.release _ _) (.chain (.recordFinish _ l c n .sent) (.sent hW s l (bump (s.lvl l).framesSent))))))

theorem Trunk.countCompleted_log (t : Trunk) (f : Fragment) : (t.countCompleted f).log = t.log := by
  unfold Trunk.countCompleted; split <;> rfl

theorem Trunk.countCompleted_fragSize (t : Trunk) (f : Fragment) :
    (t.countCompleted f).fragSize = t.fragSize := by
  unfold Trunk.countCompleted; split <;> rfl

theorem Moves.countFragment (hT : W .trunkLine) (s : State) (f : Fragment) : Moves W s (s.countFragment f) :=
  .trunkLine hT s _ (Trunk.countCompleted_fragSize _ f) (Trunk.countCompleted_log _ f)

theorem Moves.afterFragment (hW : W .levelCounters) (s : State) (f : Fragment) :
    Moves W s (s.afterFragment f) := by
  unfold State.afterFragment
  split
  · exact .chain (.holdAuction _) (.level s f.level _ (.of_eq rfl rfl rfl))
  · split
    · exact .holdAuction s
    · exact .completeFrame hW s f.level _ _
  · split
    · exact .holdAuction s
    · exact .completeFrame hW s f.level _ _
  · split
    · exact .holdAuction s
    · exact .boundary s f.level f.len
  · split
    · exact .holdAuction s
    · exact .boundary s f.level f.len

theorem Moves.completeFragment (hW : W .levelCounters) (hT : W .trunkLine) (s : State) (f : Fragment) :
    Moves W s (s.completeFragment f) :=
  .chain (.afterFragment hW _ f) (.countFragment hT s f)

end Sys2Proof.Machine
end

