-- ==== Sys2Proof/Laws/BlockWork.lean ====
section
/-! SUPPORT. Each operation of the ports, the Classifier, the Trunk Receiver and the Mode Controller is a chain of
moves, with the pieces it has the right to change. -/

namespace Sys2Proof.Machine

open Sys2Proof

variable {W : Piece → Prop}

/-! ### Station ports -/

theorem Moves.startSilence (hW : W .portLine) (s : State) (p : PortNo) : Moves W s (s.startSilence p) :=
  .portLine hW s p _ rfl rfl

theorem Moves.discardReceive (hW : W .portLine) (s : State) (p : PortNo) (counted : Bool) :
    Moves W s (s.discardReceive p counted) := by
  unfold State.discardReceive
  split
  · exact .refl s
  · exact .portLine hW s p _ rfl rfl
  · exact .portLine hW s p _ rfl rfl
  · exact .chain (.portLine hW _ p _ rfl rfl) (.release s _)

theorem Moves.flushEgress (s : State) (p : PortNo) : Moves W s (s.flushEgress p) := by
  unfold State.flushEgress
  dsimp only
  have h : Moves W s ((s.port p).queue.foldl State.release (s.modPort p fun v =>
      { v with queue := [], drops := bumpBy v.drops (s.port p).queue.length })) :=
    .chain (.foldl _ (fun t e => .release t e) _ _) (.port s p _ ⟨rfl, Nat.zero_le _⟩)
  split
  · exact h
  · exact .chain (.port _ p _ ⟨rfl, le_max_left _ _⟩) (.chain (.release _ _) h)

theorem Moves.portReacts (hW : W .portLine) (s : State) (p : PortNo) (old : PortState) :
    Moves W s (s.portReacts p old) := by
  have h1 : ∀ (t : State) (new : PortState), Moves W t (t.leaveTransmit p old new) := fun t new => by
    unfold State.leaveTransmit
    split
    · exact .flushEgress t p
    · exact .refl t
  have h2 : ∀ (t : State) (new : PortState), Moves W t (t.leaveReceive p new) := fun t new => by
    unfold State.leaveReceive
    split
    · exact .refl t
    · exact .discardReceive hW t p true
  have h3 : ∀ (t : State) (new : PortState), Moves W t (t.watchReceive p old new) := fun t new => by
    unfold State.watchReceive
    split
    · exact .chain (.portLine hW _ p _ rfl rfl) (.startSilence hW t p)
    · exact .refl t
  unfold State.portReacts
  split
  · exact .refl s
  · exact .chain (.startTx _ p) (.chain (h3 _ _) (.chain (h2 _ _) (h1 s _)))

theorem Moves.changePort (hW : W .portLine) (s : State) (p : PortNo) (f : Port → Port)
    (h : Moves W s (s.modPort p f)) : Moves W s (s.changePort p f) :=
  .chain (.portReacts hW _ p _) h

theorem Port.startRecovery_cfg (v : Port) (n : Word) : (v.startRecovery n).cfg = v.cfg := rfl

theorem Port.watchLine_cfg (old new : Port) (n : Word) : (Port.watchLine old new n).cfg = new.cfg := by
  unfold Port.watchLine; split <;> rfl

theorem Port.watchLine_queue (old new : Port) (n : Word) : (Port.watchLine old new n).queue = new.queue := by
  unfold Port.watchLine; split <;> rfl

theorem Moves.jabber (hW : W .portLine) (s : State) (p : PortNo) : Moves W s (s.jabber p) :=
  .chain (.portReacts hW _ p _) (.chain (.raise _ _ _) (.chain (.portLine hW _ p _ rfl rfl)
    (.discardReceive hW s p false)))

theorem Moves.dropAt (s : State) (p : PortNo) (e : EntryNo) : Moves W s (s.dropAt p e) :=
  .chain (.dropCount _ p) (.release s e)

theorem Moves.takeHeader (hW : W .portLine) (s : State) (p : PortNo) (h : StationHeader) :
    Moves W s (s.takeHeader p h) := by
  have ha := Moves.allocTraffic (W := W) s (stationEntry p h)
  unfold State.takeHeader
  split
  · exact .jabber hW s p
  · split
    · next e t heq => rw [heq] at ha; exact ha.trans (.portLine hW t p _ rfl rfl)
    · next t heq =>
      rw [heq] at ha
      exact ha.trans (.chain (.raise _ _ _) (.portLine hW t p _ rfl rfl))

theorem Moves.countGood (hW : W .portLine) (s : State) (p : PortNo) : Moves W s (s.countGood p) :=
  .chain (.startSilence hW _ p) (.portLine hW s p _ rfl rfl)

theorem Moves.countRxError (hW : W .portLine) (s : State) (p : PortNo) : Moves W s (s.countRxError p) :=
  .portLine hW s p _ rfl rfl

/-! ### Classifier -/

theorem Moves.classify (hH : W .hits) (s : State) (p : PortNo) (e : EntryNo) : Moves W s (s.classify p e).2 := by
  unfold State.classify
  split
  · next i _ =>
    dsimp only
    split
    · exact .answer (.chain (.modEntry _ e _ fun _ => rfl) (.hits hH s i))
    · exact .answer (.chain (.modEntry _ e _ fun _ => rfl) (.hits hH s i))
  · exact .answer (.modEntry s e _ fun _ => rfl)

theorem Moves.decideDestination (s : State) (p : PortNo) (e : EntryNo) : Moves W s (s.decideDestination p e) := by
  unfold State.decideDestination
  dsimp only
  split
  · exact .dropAt s p e
  · exact .dropAt s p e
  · exact .offerAll s e _
  · split
    · exact .offerAll s e _
    · exact .dropAt s p e
  · exact .offerAll s e _

theorem Moves.classifyAndDecide (hH : W .hits) (s : State) (p : PortNo) (e : EntryNo) :
    Moves W s (s.classifyAndDecide p e) := by
  have h := Moves.classify hH s p e
  unfold State.classifyAndDecide
  split
  · next t heq => rw [heq] at h; exact h.trans (.decideDestination t p e)
  · next t heq => rw [heq] at h; exact h.trans (.dropAt t p e)

theorem Moves.handleGood (hH : W .hits) (s : State) (p : PortNo) (e : EntryNo) :
    Moves W s (s.handleGood p e) := by
  unfold State.handleGood
  dsimp only
  split
  · exact .dropAt s p e
  · split
    · split
      · exact .offerFifo s e
      · exact .chain (.raise _ _ _) (.dropAt s p e)
    · split
      · exact .classifyAndDecide hH s p e
      · exact .chain (.release _ e) (.classify hH s p e)

/-! ### Trunk Receiver -/

theorem Moves.modRx (hR : W .receiver) (s : State) (f : Receiver → Receiver) : Moves W s (s.modRx f) :=
  .receiver hR s _

theorem Moves.setRxCtx (hR : W .receiver) (s : State) (l : Level) (c : Reassembly) : Moves W s (s.setRxCtx l c) :=
  .receiver hR s _

theorem Moves.giveUpPartial (hR : W .receiver) (s : State) (l : Level) (gap : Bool) :
    Moves W s (s.giveUpPartial l gap) := by
  unfold State.giveUpPartial
  split
  · next c _ =>
    dsimp only
    have h : Moves W s ((s.release c.entry).setRxCtx l .idle) := .chain (.setRxCtx hR _ l _) (.release s _)
    split
    · exact .chain (.raise _ _ _) (.chain (.modRx hR _ _) h)
    · exact h
  · exact .refl s
  · exact .refl s

theorem Moves.endReassembly (hR : W .receiver) (s : State) : Moves W s s.endReassembly := by
  refine .foldl _ (fun t l => ?_) allLevels s
  split
  · exact .chain (.modRx hR _ _) (.giveUpPartial hR t l false)
  · exact .setRxCtx hR t l _
  · exact .setRxCtx hR t l _

theorem Moves.dropDispatch (hR : W .receiver) (s : State) (e : EntryNo) : Moves W s (s.dropDispatch e) :=
  .chain (.modRx hR _ _) (.release s e)

theorem Moves.dispatch (hR : W .receiver) (s : State) (e : EntryNo) : Moves W s (s.dispatch e) := by
  unfold State.dispatch
  dsimp only
  split
  · split
    · exact .offerFifo s e
    · exact .dropDispatch hR s e
  · exact .offerAll s e _
  · split
    · exact .dropDispatch hR s e
    · exact .offerAll s e _
  · exact .dropDispatch hR s e
  · exact .dropDispatch hR s e

theorem Moves.recordSequence (hA : W .accepted) (s : State) (l : Level) (key : Option (Slot × Word)) :
    Moves W s (s.recordSequence l key) := by
  unfold State.recordSequence
  split
  · exact .accepted hA s _ l _
  · exact .refl s

theorem Moves.dispatchUnlessBarred (hR : W .receiver) (s : State) (l : Level) (e : EntryNo) :
    Moves W s (s.dispatchUnlessBarred l e) := by
  unfold State.dispatchUnlessBarred
  split
  · exact .dropDispatch hR s e
  · exact .dispatch hR s e

/-- What follows the record of the sequence changes no sequence. -/
theorem Moves.finishRecorded (hR : W .receiver) (s : State) (l : Level) (e : EntryNo) :
    Moves W s (((s.modRx fun r => { r with framesReceived := bump r.framesReceived }).dispatchUnlessBarred
      l e).setRxCtx l .idle) :=
  .chain (.setRxCtx hR _ l _) (.chain (.dispatchUnlessBarred hR _ l e) (.modRx hR s _))

theorem Moves.finishFrame (hR : W .receiver) (hA : W .accepted) (s : State) (l : Level) (e : EntryNo)
    (key : Option (Slot × Word)) : Moves W s (s.finishFrame l e key) :=
  .chain (.finishRecorded hR _ l e) (.recordSequence hA s l key)

theorem Moves.rejectCipher (hJ : W .rejects) (s : State) (l : Level) (n : Node) :
    Moves W s (s.rejectCipher l n) :=
  .chain (.raise _ _ _) (.rejects hJ s _)

theorem Moves.rejectFragment (hR : W .receiver) (hJ : W .rejects) (s : State) (h : FragmentHeader) :
    Moves W s (s.rejectFragment h) :=
  .chain (.rejectCipher hJ _ _ _) (.setRxCtx hR s _ _)

theorem Moves.startFrame (hR : W .receiver) (hJ : W .rejects) (s : State) (h : FragmentHeader)
    (payload : List Byte) : Moves W s (s.startFrame h payload) := by
  have ha := Moves.allocTraffic (W := W) s (trunkEntry h)
  unfold State.startFrame
  split
  · exact .rejectFragment hR hJ s h
  · split
    · next t heq => rw [heq] at ha; exact ha.trans (.chain (.raise _ _ _) (.setRxCtx hR t _ _))
    · next e t heq => rw [heq] at ha; exact ha.trans (.chain (.setRxCtx hR _ _ _) (.writePayload t e 0 _))

theorem Moves.processWhole (hR : W .receiver) (hA : W .accepted) (hJ : W .rejects) (s : State)
    (h : FragmentHeader) (payload : List Byte) : Moves W s (s.processWhole h payload) := by
  have ha := Moves.allocTraffic (W := W) s (trunkEntry h)
  unfold State.processWhole
  split
  · exact .rejectFragment hR hJ s h
  · split
    · next t heq => rw [heq] at ha; exact ha.trans (.raise _ _ _)
    · next e t heq =>
      rw [heq] at ha
      exact ha.trans (.chain (.finishFrame hR hA _ _ e _) (.writePayload t e 0 _))

theorem Moves.append (hR : W .receiver) (hA : W .accepted) (s : State) (c : Collect) (h : FragmentHeader)
    (payload : List Byte) (last : Bool) : Moves W s (s.append c h payload last) := by
  unfold State.append
  dsimp only
  split
  · exact .chain (.finishFrame hR hA _ _ _ _) (.writePayload s _ _ _)
  · exact .chain (.setRxCtx hR _ _ _) (.writePayload s _ _ _)

theorem Moves.continueFrame (hR : W .receiver) (hA : W .accepted) (s : State) (h : FragmentHeader)
    (payload : List Byte) (last : Bool) : Moves W s (s.continueFrame h payload last) := by
  unfold State.continueFrame
  split
  · exact .modRx hR s _
  · exact .refl s
  · split
    · exact .append hR hA s _ h payload last
    · exact .chain (.setRxCtx hR _ _ _) (.giveUpPartial hR s _ true)

theorem Moves.handleFragment (hR : W .receiver) (hA : W .accepted) (hJ : W .rejects) (s : State)
    (h : FragmentHeader) (payload : List Byte) : Moves W s (s.handleFragment h payload) := by
  unfold State.handleFragment
  split
  · exact .chain (.processWhole hR hA hJ _ h payload) (.chain (.setRxCtx hR _ _ _) (.giveUpPartial hR s _ true))
  · exact .chain (.startFrame hR hJ _ h payload) (.chain (.setRxCtx hR _ _ _) (.giveUpPartial hR s _ true))
  · exact .continueFrame hR hA s h payload false
  · exact .continueFrame hR hA s h payload true
  · exact .chain (.modRx hR _ _) (.chain (.setRxCtx hR _ _ _) (.giveUpPartial hR s _ false))
  · exact .refl s

theorem Moves.receiveFragment (hR : W .receiver) (hA : W .accepted) (hJ : W .rejects) (s : State)
    (bytes : List Byte) : Moves W s (s.receiveFragment bytes) := by
  unfold State.receiveFragment
  split
  · exact .modRx hR s _
  · dsimp only
    refine Moves.trans (.modRx hR s fun r => { r with fragmentsReceived := bump r.fragmentsReceived }) ?_
    split
    · exact .modRx hR _ _
    · split
      · exact .modRx hR _ _
      · exact .handleFragment hR hA hJ _ _ _

/-! ### Mode Controller -/

theorem Moves.portsReact (hW : W .portLine) (s old : State) : Moves W s (s.portsReact old) :=
  .foldl _ (fun t p => .portReacts hW t p _) allPorts s

theorem Moves.enterSetup (hM : W .mode) (hP : W .portLine) (hR : W .receiver) (s : State) :
    Moves W s s.enterSetup :=
  .chain (.trigger _) (.chain (.endReassembly hR _) (.chain (.foldl _ (fun t l => .bar t l) trafficLevels _)
    (.chain (.portsReact hP _ s) (.mode hM s .setup none s.ctl.refreshSeen))))

theorem Moves.enterRun (hM : W .mode) (hP : W .portLine) (s : State) : Moves W s s.enterRun :=
  .chain (.trigger _) (.chain (.portsReact hP _ s)
    (.mode hM s .run (if 0 < s.ctl.period then some s.now else none) s.ctl.refreshSeen))

theorem Moves.barUnlessEssential (s : State) (l : Level) : Moves W s (s.barUnlessEssential l) := by
  unfold State.barUnlessEssential
  split
  · exact .refl s
  · exact .bar s l

theorem Moves.enterFallback (hM : W .mode) (s : State) : Moves W s s.enterFallback :=
  .chain (.trigger _) (.chain (.foldl _ (fun t l => .barUnlessEssential t l) trafficLevels _)
    (.mode hM s .fallback none false))

end Sys2Proof.Machine
end

