-- ==== Sys2Proof/Laws/RowWork.lean ====
section
/-! SUPPORT. Each row of the table is a chain of moves over the pieces it has the right to change, resets apart. -/

namespace Sys2Proof.Machine

open Sys2Proof

variable {W : Piece → Prop}

/-! ### Actions of commands -/

/-- The state of a reply. -/
def Reply.state : Reply → State
  | .answer _ _ s => s
  | .pend _ s => s

theorem Moves.answered {s t : State} {st : Status} {r : List Byte} (h : Moves W s t) :
    Moves W s (Reply.answer st r t).state := h

theorem Moves.pended {s t : State} {op : LongOp} (h : Moves W s t) : Moves W s (Reply.pend op t).state := h

/-- The pieces a command's action may change. -/
def Command.pieces : Command → List Piece
  | .writeRule => [.rules]
  | .writeNodeMap => [.nodeMap]
  | .writeLevel => [.attrs]
  | .writePortConfig | .setPortMode => [.portConfig, .portLine]
  | .loadKey => [.slots]
  | .eraseKey => [.slots, .sequences]
  | .selectSlot => [.active]
  | .setMode => [.mode, .portLine, .receiver]
  | .refresh => [.mode]
  | .writeSupervision => [.supervision]
  | .setTrunkConfig => [.fragSize]
  | .readRecords => [.logRead]
  | .clearFaults => [.faultClear]
  | .writeNoticeConfig => [.notices]
  | .clearCounters => [.hits, .levelCounters, .portLine, .rejects, .trunkLine, .receiver]
  | .writeAccess => [.access]
  | .readRules | .readNodeMap | .readLevel | .flushLevel | .readPort | .keyCheck | .readKeyState | .readStatus
  | .resetPart | .readFaults => []

theorem Moves.writeRule_act (hW : W .rules) (c : CommandFrame) (f s : State) :
    Moves W s (actWriteRule c f s).state := by
  unfold actWriteRule
  split
  · exact .refl s
  · split
    · exact .refl s
    · next h =>
      refine .rules hW s _ _ ?_
      simp only [ruleRefusal, firstRefusal, Option.map_eq_none_iff, List.find?_eq_none, List.mem_cons,
        List.not_mem_nil, or_false, forall_eq_or_imp, forall_eq, Bool.or_eq_true, decide_eq_true_eq,
        not_or, beq_iff_eq] at h
      obtain ⟨⟨h1, h2⟩, ⟨⟨⟨⟨h3, h4⟩, h5⟩, h6⟩, h7⟩, ⟨h8, h9⟩, -⟩ := h
      refine ⟨by simpa using h1, by simpa using h2, ⟨by omega, by omega, by omega⟩, ?_⟩
      simp only [CommandFrame.arg] at h8 h9
      show 2 ≤ (c.args.getD 12 0).toNat % 32
      omega

theorem writeNodes_get (m : Vector Disposition 256) (first : Nat) (bs : List Byte) (n : Node)
    (h : first + bs.length ≤ 256) :
    (writeNodes m first bs)[n.toNat] =
      if hb : first ≤ n.toNat ∧ n.toNat < first + bs.length then
        (Disposition.ofCode (bs[n.toNat - first]'(by omega)).toNat).getD .unassigned
      else m[n.toNat] := by
  induction bs generalizing m first with
  | nil =>
    simp [writeNodes]
  | cons b bs ih =>
    simp only [List.length_cons] at h
    have hlt : first < 256 := by omega
    have hf : (BitVec.ofNat 8 first).toNat = first := by simp [BitVec.toNat_ofNat]; omega
    rw [writeNodes, ih _ _ (by omega)]
    by_cases h1 : first + 1 ≤ n.toNat ∧ n.toNat < first + 1 + bs.length
    · have h2 : first ≤ n.toNat ∧ n.toNat < first + (b :: bs).length := by
        simp only [List.length_cons]; omega
      have h3 : n.toNat - first = (n.toNat - (first + 1)) + 1 := by omega
      simp only [h1, h2, and_self, dif_pos, h3, List.getElem_cons_succ]
    · by_cases h2 : n.toNat = first
      · have h3 : first ≤ n.toNat ∧ n.toNat < first + (b :: bs).length := by
          simp only [List.length_cons]; omega
        rw [dif_neg h1, dif_pos h3]
        simp only [hf, h2, Vector.getElem_set_self]
        simp
      · have h3 : ¬ (first ≤ n.toNat ∧ n.toNat < first + (b :: bs).length) := by
          simp only [List.length_cons]; omega
        have hne : first ≠ n.toNat := fun e => h2 e.symm
        rw [dif_neg h1, dif_neg h3]
        simp only [hf, Vector.getElem_set_ne _ _ hne]

theorem Moves.writeNodeMap_act (hW : W .nodeMap) (c : CommandFrame) (f s : State)
    (ha : Command.writeNodeMap.argsFit c.args = true) : Moves W s (actWriteNodeMap c f s).state := by
  unfold actWriteNodeMap
  dsimp only
  split
  · exact .refl s
  · next h =>
    simp only [Command.argsFit, Bool.and_eq_true, decide_eq_true_eq, beq_iff_eq] at ha
    simp only [firstRefusal, Option.map_eq_none_iff, List.find?_eq_none, List.mem_cons, List.not_mem_nil, or_false,
      forall_eq_or_imp, forall_eq, Bool.or_eq_true, decide_eq_true_eq, not_or, beq_iff_eq, List.any_eq_true,
      not_exists, not_and, List.mem_range] at h
    obtain ⟨-, hsum, hd, hfix⟩ := h
    have hlen : (c.args.drop 2).length = c.arg 1 := by
      rw [List.length_drop]
      simp only [CommandFrame.arg]
      omega
    refine .nodeMap hW s _ fun n => ?_
    rw [writeNodes_get _ _ _ _ (by omega)]
    split
    · next hb =>
      right
      constructor
      · have := hfix (n.toNat - c.arg 0) (by omega)
        have hn : BitVec.ofNat 8 (c.arg 0 + (n.toNat - c.arg 0)) = n := by
          have : c.arg 0 + (n.toNat - c.arg 0) = n.toNat := by omega
          rw [this]; simp
        rw [hn] at this
        simpa using this
      · have hm := hd _ (List.getElem_mem (by omega : n.toNat - c.arg 0 < (c.args.drop 2).length))
        simp only [badDisposition] at hm
        split at hm
        · exact absurd rfl hm
        · next d hd' => rw [hd']; simpa using hm
    · exact .inl rfl

theorem Moves.replaceAttrs (hW : W .attrs) (s : State) (l : Level) (a : Attrs) (hl : 2 ≤ l.val) (ha : a.Lawful) :
    Moves W s (s.replaceAttrs l a) := by
  unfold State.replaceAttrs
  split
  · exact .chain (.bar _ l) (.attrs hW s l a hl ha)
  · exact .attrs hW s l a hl ha

theorem Moves.writeAttrs (hW : W .attrs) (s : State) (l : Level) (a : Attrs) (hl : 2 ≤ l.val) (ha : a.Lawful) :
    Moves W s (s.writeAttrs l a) := by
  unfold State.writeAttrs
  split
  · exact .chain (.trigger _) (.replaceAttrs hW s l a hl ha)
  · exact .replaceAttrs hW s l a hl ha

theorem num2_lt (bs : List Byte) (i : Nat) : num2 bs i ≤ 65535 := by
  have h1 := (bs.getD i 0).isLt
  have h2 := (bs.getD (i + 1) 0).isLt
  unfold num2
  omega

theorem Moves.writeLevel_act (hW : W .attrs) (c : CommandFrame) (f s : State) :
    Moves W s (actWriteLevel c f s).state := by
  unfold actWriteLevel
  split
  · exact .refl s
  · next h =>
    simp only [firstRefusal, Option.map_eq_none_iff, List.find?_eq_none, List.mem_cons, List.not_mem_nil, or_false,
      forall_eq_or_imp, forall_eq, Bool.or_eq_true, decide_eq_true_eq, not_or, beq_iff_eq] at h
    obtain ⟨⟨h1, h2⟩, ⟨h3, h4⟩, -⟩ := h
    refine .writeAttrs hW s _ _ ?_ ⟨num2_lt _ _, ⟨?_, ?_⟩, ?_⟩
    · show 2 ≤ c.arg 0 % 32
      omega
    · show 1 ≤ c.arg 4
      omega
    · show c.arg 4 ≤ 16
      omega
    · have := (c.args.getD 5 0).isLt
      show c.arg 5 ≤ 255
      unfold CommandFrame.arg
      omega

theorem Moves.flush (s : State) (l : Level) (c : CommandFrame) : Moves W s (s.flush l c).state := by
  unfold State.flush
  dsimp only
  split
  · exact .emptyQueue s l
  · split
    · exact .pended (.chain (.level _ l _ (.of_eq rfl rfl rfl)) (.emptyQueue s l))
    · exact .answered (.chain (.abandon _ l true) (.emptyQueue s l))

theorem Moves.flushLevel_act (c : CommandFrame) (f s : State) : Moves W s (actFlushLevel c f s).state := by
  unfold actFlushLevel
  dsimp only
  split
  · exact .refl s
  · exact .flush s _ c

theorem Moves.writePort (hP : W .portLine) (hC : W .portConfig) (s : State) (p : PortNo) (cfg : PortConfig)
    (hd : 2 ≤ cfg.defaultLevel.val) (hs : cfg.silenceTime ≤ 255) : Moves W s (s.writePort p cfg) := by
  refine .chain (.startSilence hP _ p) (.portConfig hC s p _ (.inl ?_) (.inl ?_) ?_)
  all_goals
    dsimp only
    split <;> first | assumption | rfl

theorem Moves.writePortConfig_act (hP : W .portLine) (hC : W .portConfig) (c : CommandFrame) (f s : State) :
    Moves W s (actWritePortConfig c f s).state := by
  unfold actWritePortConfig
  dsimp only
  split
  · exact .refl s
  · next h =>
    simp only [firstRefusal, Option.map_eq_none_iff, List.find?_eq_none, List.mem_cons, List.not_mem_nil, or_false,
      forall_eq_or_imp, forall_eq, Bool.or_eq_true, decide_eq_true_eq, not_or] at h
    obtain ⟨-, ⟨h1, h2⟩, -⟩ := h
    refine .writePort hP hC s _ _ ?_ ?_
    · show 2 ≤ c.arg 2 % 32
      omega
    · have := (c.args.getD 3 0).isLt
      show c.arg 3 ≤ 255
      unfold CommandFrame.arg
      omega

theorem Moves.setPortMode_act (hP : W .portLine) (hC : W .portConfig) (c : CommandFrame) (f s : State) :
    Moves W s (actSetPortMode c f s).state := by
  unfold actSetPortMode
  dsimp only
  split
  · exact .refl s
  · exact .changePort hP s _ _ (.portConfig hC s _ _ (.inr rfl) (.inr rfl) rfl)

theorem Moves.setMode_act (hM : W .mode) (hP : W .portLine) (hR : W .receiver) (c : CommandFrame) (f s : State) :
    Moves W s (actSetMode c f s).state := by
  unfold actSetMode
  split
  · exact .enterSetup hM hP hR s
  · exact .enterSetup hM hP hR s
  · split
    · exact .enterRun hM hP s
    · exact .refl s
  · split
    · exact .enterRun hM hP s
    · exact .refl s
  · exact .refl s
  · exact .enterFallback hM s
  all_goals exact .refl s

theorem Moves.refresh_act (hM : W .mode) (c : CommandFrame) (f s : State) :
    Moves W s (actRefresh c f s).state := by
  unfold actRefresh
  split
  · exact .refl s
  · exact .refl s
  · split
    · exact .refl s
    · split
      · exact .answered (.chain (.raise _ _ _) (.enterFallback hM s))
      · exact .mode hM s s.ctl.mode (some s.now) s.ctl.refreshSeen
  · exact .mode hM s s.ctl.mode s.ctl.mark true

theorem Moves.writeSupervision_act (hW : W .supervision) (c : CommandFrame) (f s : State) :
    Moves W s (actWriteSupervision c f s).state := by
  unfold actWriteSupervision
  split
  · exact .refl s
  · exact .supervision hW s _ _ (num2_lt _ _)

theorem Moves.setTrunkConfig_act (hW : W .fragSize) (c : CommandFrame) (f s : State) :
    Moves W s (actSetTrunkConfig c f s).state := by
  unfold actSetTrunkConfig
  dsimp only
  split
  · exact .refl s
  · next h =>
    simp only [firstRefusal, Option.map_eq_none_iff, List.find?_eq_none, List.mem_cons, List.not_mem_nil, or_false,
      forall_eq_or_imp, forall_eq, Bool.and_eq_true, bne_iff_ne, ne_eq, not_and, not_not] at h
    refine .fragSize hW s _ ?_
    by_cases h1 : c.arg2 0 = 64
    · exact .inl h1
    · by_cases h2 : c.arg2 0 = 128
      · exact .inr (.inl h2)
      · exact .inr (.inr (h.1 ⟨h1, h2⟩))

theorem Moves.readRecords_act (hW : W .logRead) (c : CommandFrame) (f s : State) :
    Moves W s (actReadRecords c f s).state := by
  unfold actReadRecords
  dsimp only
  split
  · exact .refl s
  · exact .logRead hW s _ false (by simp [List.length_drop])

theorem Moves.writeNoticeConfig_act (hW : W .notices) (c : CommandFrame) (f s : State) :
    Moves W s (actWriteNoticeConfig c f s).state := by
  unfold actWriteNoticeConfig
  dsimp only
  split
  · exact .refl s
  · exact .notices hW s _ _

theorem Moves.clearCounters_act (hW : ∀ p ∈ Command.clearCounters.pieces, W p) (c : CommandFrame) (f s : State) :
    Moves W s (actClearCounters c f s).state := by
  have hr : W .receiver := hW _ (by simp [Command.pieces])
  have ht : W .trunkLine := hW _ (by simp [Command.pieces])
  unfold actClearCounters
  split
  · exact .refl s
  · next r _ =>
    cases r with
    | rules => exact .clearHits (hW _ (by simp [Command.pieces])) s
    | nodeMap => exact .refl s
    | levels => exact .clearLevels (hW _ (by simp [Command.pieces])) s
    | ports => exact .clearPorts (hW _ (by simp [Command.pieces])) s
    | keys => exact .rejects (hW _ (by simp [Command.pieces])) s 0
    | mode =>
      exact ((Moves.store s s.store.cleared (.note s.store s.store.corrupted 0 0 0)).trans
        (.trunkLine ht { s with store := s.store.cleared } s.trunk.cleared rfl rfl)).trans
        (.receiver hr { s with store := s.store.cleared, trunk := s.trunk.cleared } s.rx.cleared)
    | logs => exact .cmd s _ ⟨rfl, le_max_left _ _⟩

theorem Moves.writeAccess_act (hW : W .access) (c : CommandFrame) (f s : State) :
    Moves W s (actWriteAccess c f s).state := by
  unfold actWriteAccess
  split
  · exact .refl s
  · exact .refl s
  · exact .access hW s _

/-- A read or a check that answers from the state it is given leaves that state. -/
theorem Moves.reads (k : Command) (hk : k.pieces = []) (hf : k ≠ .flushLevel) (c : CommandFrame) (f s : State) :
    (k.act c f s).state = s := by
  cases k with
  | readRules =>
    show (actReadRules c f s).state = s
    unfold actReadRules; dsimp only; split <;> rfl
  | readNodeMap =>
    show (actReadNodeMap c f s).state = s
    unfold actReadNodeMap; dsimp only; split <;> rfl
  | readLevel =>
    show (actReadLevel c f s).state = s
    unfold actReadLevel; split <;> rfl
  | readPort =>
    show (actReadPort c f s).state = s
    unfold actReadPort; split <;> rfl
  | keyCheck =>
    show (actKeyCheck c f s).state = s
    unfold actKeyCheck; split <;> rfl
  | readKeyState | readStatus | resetPart | readFaults => rfl
  | flushLevel => exact absurd rfl hf
  | writeRule | writeNodeMap | writeLevel | writePortConfig | setPortMode | loadKey | eraseKey | selectSlot
    | setMode | refresh | writeSupervision | setTrunkConfig | readRecords | clearFaults | writeNoticeConfig
    | clearCounters | writeAccess => cases hk

/-- Each command's action is a chain of moves over its pieces, when its argument bytes number what it calls for. -/
theorem Moves.act (k : Command) (hW : ∀ p ∈ k.pieces, W p) (c : CommandFrame) (f s : State)
    (ha : k.argsFit c.args = true) : Moves W s (k.act c f s).state := by
  by_cases hk : k.pieces = [] ∧ k ≠ .flushLevel
  · rw [Moves.reads k hk.1 hk.2]
    exact .refl s
  · cases k with
    | writeRule => exact .writeRule_act (hW _ (by simp [Command.pieces])) c f s
    | writeNodeMap => exact .writeNodeMap_act (hW _ (by simp [Command.pieces])) c f s ha
    | writeLevel => exact .writeLevel_act (hW _ (by simp [Command.pieces])) c f s
    | flushLevel => exact .flushLevel_act c f s
    | writePortConfig =>
      exact .writePortConfig_act (hW _ (by simp [Command.pieces])) (hW _ (by simp [Command.pieces])) c f s
    | setPortMode =>
      exact .setPortMode_act (hW _ (by simp [Command.pieces])) (hW _ (by simp [Command.pieces])) c f s
    | loadKey =>
      show Moves W s (actLoadKey c f s).state
      unfold actLoadKey
      split
      · exact .refl s
      · exact .slots (hW _ (by simp [Command.pieces])) s _ _
    | eraseKey =>
      show Moves W s (actEraseKey c f s).state
      unfold actEraseKey
      split
      · exact .refl s
      · exact .chain (.sequences (hW _ (by simp [Command.pieces])) _ _)
          (.slots (hW _ (by simp [Command.pieces])) s _ _)
    | selectSlot =>
      show Moves W s (actSelectSlot c f s).state
      unfold actSelectSlot
      split
      · exact .refl s
      · exact .chain (.trigger _) (.active (hW _ (by simp [Command.pieces])) s _)
    | setMode =>
      exact .setMode_act (hW _ (by simp [Command.pieces])) (hW _ (by simp [Command.pieces]))
        (hW _ (by simp [Command.pieces])) c f s
    | refresh => exact .refresh_act (hW _ (by simp [Command.pieces])) c f s
    | writeSupervision => exact .writeSupervision_act (hW _ (by simp [Command.pieces])) c f s
    | setTrunkConfig => exact .setTrunkConfig_act (hW _ (by simp [Command.pieces])) c f s
    | readRecords => exact .readRecords_act (hW _ (by simp [Command.pieces])) c f s
    | clearFaults => exact .faultClear (hW _ (by simp [Command.pieces])) s
    | writeNoticeConfig => exact .writeNoticeConfig_act (hW _ (by simp [Command.pieces])) c f s
    | clearCounters => exact .clearCounters_act hW c f s
    | writeAccess => exact .writeAccess_act (hW _ (by simp [Command.pieces])) c f s
    | readRules | readNodeMap | readLevel | readPort | keyCheck | readKeyState | readStatus | resetPart
      | readFaults => exact absurd ⟨rfl, by decide⟩ hk

end Sys2Proof.Machine
end

