-- ==== Sys2Proof/Laws/ExecWork.lean ====
section
/-! SUPPORT. The Command Unit's step, and every row of the table, as chains of moves: what one command can do to the
part, said once. -/

namespace Sys2Proof.Machine

open Sys2Proof

variable {W : Piece → Prop}

/-! ### The Command Unit -/

theorem Moves.takeNext {s u : State} {e : EntryNo} (h : s.takeNext = some (e, u)) : Moves W s u := by
  unfold State.takeNext at h
  split at h
  · split at h
    · cases h; exact .cmd s _ ⟨rfl, le_max_left _ _⟩
    · cases h
  · split at h
    · split at h
      · cases h
      · next rest hq =>
        cases h
        refine .cmd s _ ⟨rfl, ?_⟩
        have : s.cmd.fifo.length = rest.length + 1 := by rw [hq]; rfl
        simp only; omega
    · cases h

theorem State.nextCommand_eq_some {s u : State} {c : CommandFrame} (h : s.nextCommand = some (c, u)) :
    ∃ e, s.takeNext = some (e, u) ∧ u.commandFrame e = some c := by
  unfold State.nextCommand at h
  cases ht : s.takeNext with
  | none => simp [ht] at h
  | some x =>
    obtain ⟨e, v⟩ := x
    simp only [ht, Option.bind_some, Option.map_eq_some_iff, Prod.mk.injEq] at h
    obtain ⟨c', hc, rfl, rfl⟩ := h
    exact ⟨e, rfl, hc⟩

theorem Moves.nextCommand {s u : State} {c : CommandFrame} (h : s.nextCommand = some (c, u)) : Moves W s u := by
  obtain ⟨e, he, -⟩ := State.nextCommand_eq_some h
  exact .takeNext he

theorem Moves.finish (s : State) (c : CommandFrame) (e : EntryNo) (st : Status) (r : List Byte) :
    Moves W s (s.finish c e st r) := by
  unfold State.finish
  dsimp only
  exact .chain (.release _ c.entry) (.chain (.routeResponse _ e c.sender)
    (.chain (.cmd (s.fillResponse e _) _ ⟨rfl, le_max_left _ _⟩) (.fillResponse s e _)))

theorem Moves.recordLongOp (s : State) (c : CommandFrame) (e : EntryNo) (op : LongOp) :
    Moves W s (s.recordLongOp c e op) := by
  unfold State.recordLongOp
  dsimp only
  exact .chain (.release _ c.entry) (.chain (.release _ e) (.cmd s _ ⟨rfl, le_max_left _ _⟩))

theorem Moves.deny (s : State) (c : CommandFrame) : Moves W s (s.deny c) :=
  .chain (.raise _ _ _) (.cmd s _ ⟨rfl, le_max_left _ _⟩)

theorem Moves.precheck {s u : State} {k : Command} {c : CommandFrame} {st : Status}
    (h : s.precheck k c = some (st, u)) : Moves W s u := by
  unfold State.precheck at h
  split at h
  · cases h; exact .deny s c
  · split at h
    · cases h
      split
      · exact .raise _ _ _
      · exact .refl s
    · split at h
      · cases h; exact .refl s
      · cases h

theorem State.argsFit_of_precheck {s : State} {k : Command} {c : CommandFrame} (h : s.precheck k c = none) :
    k.argsFit c.args = true := by
  unfold State.precheck at h
  split at h
  · cases h
  · split at h
    · cases h
    · split at h
      · cases h
      · next h' => simpa using h'

theorem Moves.attempt (k : Command) (hW : ∀ p ∈ k.pieces, W p) (s : State) (c : CommandFrame) :
    Moves W s (s.attempt k c k.act) := by
  have ha := Moves.allocReserve (W := W) s Config.attemptCells (s.responseEntry c.node)
  unfold State.attempt
  split
  · next t heq => rw [heq] at ha; exact ha
  · next e t heq =>
    rw [heq] at ha
    split
    · next st u hp => exact (ha.trans (.precheck hp)).trans (.finish u c e st [])
    · next hp =>
      have h := Moves.act k hW c s t (State.argsFit_of_precheck hp)
      split
      · next st r u hr => rw [hr] at h; exact (ha.trans h).trans (.finish u c e st r)
      · next op u hr => rw [hr] at h; exact (ha.trans h).trans (.recordLongOp u c e op)

theorem Moves.attemptUnknown (s : State) (c : CommandFrame) : Moves W s (s.attemptUnknown c) := by
  have ha := Moves.allocReserve (W := W) s Config.attemptCells (s.responseEntry c.node)
  unfold State.attemptUnknown
  split
  · next t heq => rw [heq] at ha; exact ha
  · next e t heq => rw [heq] at ha; exact ha.trans (.finish t c e _ [])

theorem State.done_eq {s t : State} (h : s.done = .next t) : t = s.settle := by
  unfold State.done at h
  cases h
  rfl

theorem Moves.done {s u t : State} (h : Moves W s u) (hd : u.done = .next t) : Moves W s t := by
  rw [State.done_eq hd]
  exact h.trans (.settle u)

theorem Moves.runCommand (k : Command) (hW : ∀ p ∈ k.pieces, W p) {s t : State}
    (h : s.runCommand k k.act = .next t) : Moves W s t := by
  unfold State.runCommand at h
  split at h
  · cases h; exact .refl s
  · next c u hn =>
    split at h
    · exact .done ((Moves.nextCommand hn).trans (.attempt k hW u c)) h
    · cases h; exact .refl s

/-! ### Rows -/

/-- Every command. -/
def Command.all : List Command :=
  [.readRules, .writeRule, .readNodeMap, .writeNodeMap, .readLevel, .writeLevel, .flushLevel, .readPort,
    .writePortConfig, .setPortMode, .loadKey, .eraseKey, .selectSlot, .keyCheck, .readKeyState, .readStatus,
    .setMode, .refresh, .writeSupervision, .setTrunkConfig, .resetPart, .readRecords, .readFaults, .clearFaults,
    .writeNoticeConfig, .clearCounters, .writeAccess]

theorem Command.mem_all (k : Command) : k ∈ Command.all := by cases k <;> decide

/-- The pieces a row may change, beside those that any work may change. Those of a retry are the ones of the
command in hand, so any command's. POWER_ON, RESET_PIN_ASSERT, INIT_END and a ResetPart from the trunk are no chain
of moves: they put every block at its reset values. -/
def rowPieces : Instr → List Piece
  | .powerOn | .resetPinAssert | .initEnd _ => []
  | .resetPinRelease => [.pins]
  | .readRules => Command.readRules.pieces
  | .writeRule => Command.writeRule.pieces
  | .readNodeMap => Command.readNodeMap.pieces
  | .writeNodeMap => Command.writeNodeMap.pieces
  | .readLevel => Command.readLevel.pieces
  | .writeLevel => Command.writeLevel.pieces
  | .flushLevel => Command.flushLevel.pieces
  | .readPort => Command.readPort.pieces
  | .writePortConfig => Command.writePortConfig.pieces
  | .setPortMode => Command.setPortMode.pieces
  | .loadKey => Command.loadKey.pieces
  | .eraseKey => Command.eraseKey.pieces
  | .selectSlot => Command.selectSlot.pieces
  | .keyCheck => Command.keyCheck.pieces
  | .readKeyState => Command.readKeyState.pieces
  | .readStatus => Command.readStatus.pieces
  | .setMode => Command.setMode.pieces
  | .refresh => Command.refresh.pieces
  | .writeSupervision => Command.writeSupervision.pieces
  | .setTrunkConfig => Command.setTrunkConfig.pieces
  | .resetPart => Command.resetPart.pieces
  | .readRecords => Command.readRecords.pieces
  | .readFaults => Command.readFaults.pieces
  | .clearFaults => Command.clearFaults.pieces
  | .writeNoticeConfig => Command.writeNoticeConfig.pieces
  | .clearCounters => Command.clearCounters.pieces
  | .writeAccess => Command.writeAccess.pieces
  | .malformedCommand | .unknownCommand => []
  | .waitingResponseBuild => List.flatMap Command.pieces Command.all
  | .fragmentCompletion _ => [.levelCounters, .trunkLine]
  | .spacingDeadlinePasses _ _ => []
  | .expansionCompletes _ => [.slots, .sequences]
  | .trunkLineDown => [.pins, .trunkLine, .receiver]
  | .trunkLineUp _ => [.pins, .trunkLine]
  | .fragmentReceived _ => [.receiver, .accepted, .rejects]
  | .supervisionExpiry => [.mode]
  | .receiveLineActive _ | .portLineDown _ | .portLineUp _ => [.pins, .portLine]
  | .receiveLineSilent _ _ _ => [.pins, .portLine, .hits]
  | .headerReceived _ _ | .excessPayloadByte _ | .jabberTimeout _ | .jabberRecovery _ | .silenceTimeout _
    | .transmissionCompletes _ => [.portLine]
  | .loopbackCompletion _ _ => [.portLine, .hits]
  | .portCellCheckFailure _ _ => []

theorem Moves.attemptAny (hW : ∀ k : Command, ∀ p ∈ k.pieces, W p) (s : State) (c : CommandFrame) :
    Moves W s (s.attemptAny c) := by
  unfold State.attemptAny
  split
  · exact .attempt _ (hW _) s c
  · exact .attemptUnknown s c

theorem Moves.buildWaiting (rs : List LongRecord) (s : State) : Moves W s (State.buildWaiting rs s).2 := by
  induction rs generalizing s with
  | nil => exact .refl s
  | cons r rs ih =>
    have h := Moves.buildLongResponse (W := W) s r
    unfold State.buildWaiting
    split
    · next t heq => rw [heq] at h; exact h
    · next t heq =>
      rw [heq] at h
      exact h.trans (.chain (ih _) (.cmd t _ ⟨rfl, le_max_left _ _⟩))

theorem Moves.runWaiting (hW : ∀ k : Command, ∀ p ∈ k.pieces, W p) (s : State) : Moves W s s.runWaiting := by
  have h0 : Moves W s { s with cmd := { s.cmd with freed := s.cmd.freed - 1 } } :=
    .cmd s _ ⟨rfl, le_max_left _ _⟩
  have h := h0.trans (.buildWaiting s.cmd.waiting _)
  unfold State.runWaiting
  split
  · next t heq => rw [heq] at h; exact h
  · next t heq =>
    rw [heq] at h
    split
    · exact h
    · next c _ => exact h.trans (.attemptAny hW t c)

theorem Moves.releaseMalformed (s : State) (e : EntryNo) : Moves W s (s.releaseMalformed e) := by
  unfold State.releaseMalformed
  exact .chain (.release _ e) (.cmd s _ ⟨rfl, le_max_left _ _⟩)

theorem Moves.countLineDown (hT : W .trunkLine) (s : State) :
    Moves W s { s with trunk := { s.trunk with lineDowns := bump s.trunk.lineDowns } } :=
  .trunkLine hT s _ rfl rfl

theorem Moves.lineUp (hT : W .trunkLine) (s : State) :
    Moves W s { s with trunk := { s.trunk with lineUp := true } } :=
  .trunkLine hT s _ rfl rfl

theorem Moves.lineDown (hT : W .trunkLine) (hR : W .receiver) (s : State) : Moves W s s.lineDown := by
  unfold State.lineDown
  dsimp only
  exact .chain (.raise _ _ _) (.chain (.countLineDown hT _) (.chain (.endReassembly hR _)
    (.chain (.foldl _ (fun t l => .abandon t l true) allLevels _)
      (.trunkLine hT s s.trunk.goDown rfl rfl))))

theorem Moves.expansionEnds (hS : W .slots) (hQ : W .sequences) (s : State) (k : Slot) (key : Block) :
    Moves W s (s.expansionEnds k key) := by
  have h : Moves W s (((s.setSlot k (.ready key)).resetSequences k).endLongOp (.loadKey k)) :=
    .chain (.endLongOp _ _) (.chain (.sequences hQ _ k) (.slots hS s k _))
  unfold State.expansionEnds
  split
  · exact .chain (.trigger _) h
  · exact h

theorem Moves.lineActive (hL : W .portLine) (s : State) (p : PortNo) : Moves W s (s.lineActive p) := by
  unfold State.lineActive
  dsimp only
  exact .portLine hL s p _ (Port.watchLine_cfg _ _ _) (Port.watchLine_queue _ _ _)

theorem Moves.lineSilent (hL : W .portLine) (s : State) (p : PortNo) : Moves W s (s.lineSilent p) :=
  .portLine hL s p _ (Port.watchLine_cfg _ _ _) (Port.watchLine_queue _ _ _)

theorem Moves.jabberIfOverlong (hL : W .portLine) (s : State) (p : PortNo) (bytes : List Byte) :
    Moves W s (s.jabberIfOverlong p bytes) := by
  unfold State.jabberIfOverlong
  split
  · exact .jabber hL s p
  · exact .refl s

theorem Moves.arrive (s : State) (p : PortNo) (bytes : List Byte) : Moves W s (s.arrive p bytes) := by
  unfold State.arrive
  split
  · exact .writePayload s _ 0 _
  all_goals exact .refl s

theorem Moves.endReceive (hL : W .portLine) (hH : W .hits) (s : State) (p : PortNo) (bytes : List Byte) :
    Moves W s (s.endReceive p bytes) := by
  unfold State.endReceive
  split
  · exact .refl s
  · exact .countRxError hL s p
  · exact .portLine hL s p _ rfl rfl
  · split
    · exact .chain (.handleGood hH _ p _) (.countGood hL _ p)
    · exact .chain (.countRxError hL _ p) (.release s _)

theorem Moves.receiveEnds (hP : W .pins) (hL : W .portLine) (hH : W .hits) (s : State) (p : PortNo)
    (bytes : List Byte) (cells : List CellNo) : Moves W s (s.receiveEnds p bytes cells) :=
  .chain (.endReceive hL hH _ p bytes) (.chain (.lineSilent hL _ p) (.chain (.jabberIfOverlong hL _ p bytes)
    (.chain (.pins hP _ _) (.chain (.corrupt _ cells) (.arrive s p bytes)))))

theorem Moves.recover (hL : W .portLine) (s : State) (p : PortNo) : Moves W s (s.recover p) := by
  unfold State.recover
  split
  · exact .changePort hL s p _ (.portLine hL s p _ rfl rfl)
  · exact .portLine hL s p _ rfl rfl

theorem Moves.goSilent (hL : W .portLine) (s : State) (p : PortNo) : Moves W s (s.goSilent p) := by
  unfold State.goSilent
  split
  · exact .portLine hL s p _ rfl rfl
  · exact .chain (.raise _ _ _) (.portLine hL s p _ rfl rfl)

theorem Moves.setLine (hL : W .portLine) (s : State) (p : PortNo) (up : Bool) : Moves W s (s.setLine p up) :=
  .changePort hL s p _ (.portLine hL s p _ (Port.watchLine_cfg _ _ _) (Port.watchLine_queue _ _ _))

theorem Moves.endTx (hL : W .portLine) (s : State) (p : PortNo) (e : EntryNo) : Moves W s (s.endTx p e) :=
  .chain (.release _ e) (.portLine hL s p _ rfl rfl)

theorem Moves.lineTxCompletes (hL : W .portLine) (s : State) (p : PortNo) (e : EntryNo) :
    Moves W s (s.lineTxCompletes p e) :=
  .chain (.startTx _ p) (.chain (.endTx hL _ p e) (.portLine hL s p _ rfl rfl))

theorem Moves.portCellFails (s : State) (p : PortNo) (e : EntryNo) (cell : CellNo)
    (h : cell ∈ (s.entryAt e).cells) : Moves W s (s.portCellFails p e cell) := by
  unfold State.portCellFails
  dsimp only
  exact .chain (.raise _ _ _) (.loseFrame s e cell h)

/-! ### The table of entries in use -/

theorem lookup_putEntry_ne {t : List (EntryNo × FrameEntry)} {d e : EntryNo} (f : FrameEntry) (h : e ≠ d) :
    (putEntry t d f).lookup e = t.lookup e := by
  induction t with
  | nil => simp [putEntry, List.lookup_cons, beq_eq_false_iff_ne.mpr h]
  | cons x t ih =>
    obtain ⟨c, g⟩ := x
    unfold putEntry
    split
    · simp [List.lookup_cons, beq_eq_false_iff_ne.mpr h]
    · split
      · next hd => subst hd; simp [List.lookup_cons, beq_eq_false_iff_ne.mpr h]
      · rw [List.lookup_cons, List.lookup_cons, ih]

theorem lookup_dropEntry_ne {t : List (EntryNo × FrameEntry)} {d e : EntryNo} (h : e ≠ d) :
    (dropEntry t d).lookup e = t.lookup e := by
  induction t with
  | nil => rfl
  | cons x t ih =>
    obtain ⟨c, g⟩ := x
    unfold dropEntry at ih ⊢
    by_cases hc : c = d
    · subst hc
      simp [List.lookup_cons, beq_eq_false_iff_ne.mpr h, ih]
    · simp [hc, List.lookup_cons, ih]

theorem lookup_changeEntry_ne {t : List (EntryNo × FrameEntry)} {d e : EntryNo} (g : FrameEntry → FrameEntry)
    (h : e ≠ d) : (changeEntry t d g).lookup e = t.lookup e := by
  induction t with
  | nil => rfl
  | cons x t ih =>
    obtain ⟨c, f⟩ := x
    unfold changeEntry at ih ⊢
    by_cases hc : c = d
    · subst hc
      simp only [List.map_cons, if_true, List.lookup_cons, beq_eq_false_iff_ne.mpr h]
      exact ih
    · simp only [List.map_cons, hc, if_false, List.lookup_cons]
      rw [ih]

theorem lookup_mem {t : List (EntryNo × FrameEntry)} {e : EntryNo} {f : FrameEntry} (h : t.lookup e = some f) :
    (e, f) ∈ t := by
  induction t with
  | nil => cases h
  | cons x t ih =>
    obtain ⟨c, g⟩ := x
    rw [List.lookup_cons] at h
    split at h
    · next hb => cases h; simp at hb; subst hb; exact List.mem_cons_self
    · exact List.mem_cons_of_mem _ (ih h)

/-- R25: a free entry number is not in use. -/
theorem Store.Conserved.free_not_used {st : Store} (h : st.Conserved) {d : EntryNo} {rest : List EntryNo}
    (hd : st.freeEntries = d :: rest) : st.entries.lookup d = none := by
  have hn : (st.freeEntries ++ st.entries.map Prod.fst).Nodup := h.entries.nodup_iff.mpr List.nodup_range
  cases hl : st.entries.lookup d with
  | none => rfl
  | some f =>
    refine absurd (lookup_mem hl) fun hm => ?_
    exact (List.disjoint_of_nodup_append hn) (by simp [hd]) (List.mem_map_of_mem (f := Prod.fst) hm)

/-- An entry in use is as before when another one is released. -/
theorem State.entry?_release_ne (s : State) {d e : EntryNo} (h : e ≠ d) : (s.release d).entry? e = s.entry? e := by
  unfold State.release
  split
  · rfl
  · split
    · exact lookup_dropEntry_ne h
    · exact lookup_changeEntry_ne (t := s.store.entries) (fun f => { f with holders := f.holders - 1 }) h

/-- An allocation changes no entry but the one it takes. -/
theorem State.allocTraffic_spec {s t : State} {f : FrameEntry} {d : EntryNo}
    (h : s.allocTraffic f = (some d, t)) :
    ∃ rest, s.store.freeEntries = d :: rest ∧ t = { s with store := { s.store with
      freeEntries := rest
      freeCells := s.store.freeCells.drop (cellsFor f.len)
      entries := putEntry s.store.entries d
        { f with cells := s.store.freeCells.take (cellsFor f.len), holders := 1 } } } := by
  unfold State.allocTraffic at h
  split at h
  · split at h
    · next e st ht =>
      cases h
      unfold Store.take at ht
      split at ht
      · cases ht
      · next rest hr => cases ht; exact ⟨rest, hr, rfl⟩
    · cases h
  · cases h

theorem Moves.loopCompletes (hL : W .portLine) (hH : W .hits) (s : State) (p : PortNo) (e : EntryNo)
    (hs : s.store.Conserved) : Moves W s (s.loopCompletes p e) := by
  have ha := Moves.allocTraffic (W := W) s ((s.entryAt e).loopbackCopy p)
  unfold State.loopCompletes
  dsimp only
  split
  · next t heq =>
    rw [heq] at ha
    exact ha.trans (.chain (.startTx _ p) (.chain (.endTx hL _ p e) (.chain (.raise _ _ _) (.dropCount t p))))
  · next d t heq =>
    rw [heq] at ha
    split
    · next cell hc =>
      refine ha.trans (.chain (.portCellFails _ p e cell ?_) (.release t d))
      have hm : cell ∈ (s.entryAt e).cells := State.firstFailing_mem hc
      obtain ⟨rest, hf, ht⟩ := State.allocTraffic_spec heq
      have hd : s.entry? d = none := hs.free_not_used hf
      have hne : e ≠ d := fun he => by simp [State.entryAt, he, hd, FrameEntry.blank] at hm
      have hl : (t.release d).entry? e = s.entry? e := by
        rw [State.entry?_release_ne t hne, ht]
        exact lookup_putEntry_ne _ hne
      unfold State.entryAt at hm ⊢
      rw [hl]
      exact hm
    · exact ha.trans (.chain (.startTx _ p) (.chain (.classifyAndDecide hH _ p d)
        (.chain (.endTx hL _ p e) (.writePayload t d 0 _))))

/-! ### Every row -/

/-- The rights of a row. -/
def mayChange (i : Instr) (p : Piece) : Prop := p ∈ rowPieces i

/-- A row's right to a piece, read off its list. -/
theorem mayChange_of {i : Instr} {p : Piece} (h : p ∈ rowPieces i) : mayChange i p := h

theorem Moves.quiet {s t : State} (h : (Host.Outcome.next s : Result) = .next t) : Moves W s t := by cases h; exact .refl s

/-- The rows that may put every block at its reset values. -/
def mayReset : Instr → Bool
  | .powerOn | .resetPinAssert | .initEnd _ | .resetPart => true
  | _ => false

/-- What a command can do, said once: it is a chain of moves over the pieces of its row, or a reset that puts every
block at its reset values. -/
theorem exec_moves {i : Instr} {s t : State} (h : exec i s = .next t) (hs : s.store.Conserved) :
    Moves (mayChange i) s t ∨ (mayReset i = true ∧ ∃ m c b p q, t = State.blank m c b p q) := by
  cases i with
  | powerOn => cases h; exact .inr ⟨rfl, _, _, _, _, _, rfl⟩
  | resetPinAssert =>
    simp only [exec, execResetPinAssert] at h
    split at h
    · exact .inl (.quiet h)
    · cases h; exact .inr ⟨rfl, _, _, _, _, _, rfl⟩
  | resetPinRelease =>
    cases h
    exact .inl (.pins (mayChange_of (by simp [rowPieces])) s _)
  | initEnd b =>
    simp only [exec, execInitEnd] at h
    split at h
    · cases h; exact .inr ⟨rfl, _, _, _, _, _, rfl⟩
    · exact .inl (.quiet h)
  | readRules => exact .inl (.runCommand .readRules (fun _ h => h) h)
  | writeRule => exact .inl (.runCommand .writeRule (fun _ h => h) h)
  | readNodeMap => exact .inl (.runCommand .readNodeMap (fun _ h => h) h)
  | writeNodeMap => exact .inl (.runCommand .writeNodeMap (fun _ h => h) h)
  | readLevel => exact .inl (.runCommand .readLevel (fun _ h => h) h)
  | writeLevel => exact .inl (.runCommand .writeLevel (fun _ h => h) h)
  | flushLevel => exact .inl (.runCommand .flushLevel (fun _ h => h) h)
  | readPort => exact .inl (.runCommand .readPort (fun _ h => h) h)
  | writePortConfig => exact .inl (.runCommand .writePortConfig (fun _ h => h) h)
  | setPortMode => exact .inl (.runCommand .setPortMode (fun _ h => h) h)
  | loadKey => exact .inl (.runCommand .loadKey (fun _ h => h) h)
  | eraseKey => exact .inl (.runCommand .eraseKey (fun _ h => h) h)
  | selectSlot => exact .inl (.runCommand .selectSlot (fun _ h => h) h)
  | keyCheck => exact .inl (.runCommand .keyCheck (fun _ h => h) h)
  | readKeyState => exact .inl (.runCommand .readKeyState (fun _ h => h) h)
  | readStatus => exact .inl (.runCommand .readStatus (fun _ h => h) h)
  | setMode => exact .inl (.runCommand .setMode (fun _ h => h) h)
  | refresh => exact .inl (.runCommand .refresh (fun _ h => h) h)
  | writeSupervision => exact .inl (.runCommand .writeSupervision (fun _ h => h) h)
  | setTrunkConfig => exact .inl (.runCommand .setTrunkConfig (fun _ h => h) h)
  | resetPart =>
    simp only [exec, execResetPart] at h
    split at h
    · exact .inl (.quiet h)
    · next c u hn =>
      split at h
      · split at h
        · cases h; exact .inr ⟨rfl, _, _, _, _, _, rfl⟩
        · exact .inl (.done ((Moves.nextCommand hn).trans (.attempt .resetPart (fun _ h => h) u c)) h)
      · exact .inl (.quiet h)
  | readRecords => exact .inl (.runCommand .readRecords (fun _ h => h) h)
  | readFaults => exact .inl (.runCommand .readFaults (fun _ h => h) h)
  | clearFaults => exact .inl (.runCommand .clearFaults (fun _ h => h) h)
  | writeNoticeConfig => exact .inl (.runCommand .writeNoticeConfig (fun _ h => h) h)
  | clearCounters => exact .inl (.runCommand .clearCounters (fun _ h => h) h)
  | writeAccess => exact .inl (.runCommand .writeAccess (fun _ h => h) h)
  | malformedCommand =>
    refine .inl ?_
    simp only [exec, execMalformedCommand] at h
    split at h
    · exact .quiet h
    · next e u hn =>
      split at h
      · exact .quiet h
      · exact .done ((Moves.takeNext hn).trans (.releaseMalformed u e)) h
  | waitingResponseBuild =>
    refine .inl ?_
    simp only [exec, execWaitingResponseBuild] at h
    split at h
    · exact .done (.runWaiting (fun k p hp => List.mem_flatMap.mpr ⟨k, Command.mem_all k, hp⟩) s) h
    · exact .quiet h
  | fragmentCompletion cells =>
    refine .inl ?_
    simp only [exec, execFragmentCompletion] at h
    split at h
    · cases h; exact .corrupt s cells
    · next f _ =>
      exact .done ((Moves.corrupt s cells).trans (.completeFragment (mayChange_of (by simp [rowPieces]))
        (mayChange_of (by simp [rowPieces])) _ f)) h
  | spacingDeadlinePasses l cells =>
    refine .inl ?_
    simp only [exec, execSpacingDeadlinePasses] at h
    split at h
    · exact .done ((Moves.corrupt s cells).trans (.chain (.trigger _) (.level _ l _ (.of_eq rfl rfl rfl)))) h
    · cases h; exact .corrupt s cells
  | expansionCompletes k =>
    refine .inl ?_
    simp only [exec, execExpansionCompletes] at h
    split at h
    · exact .done (.expansionEnds (mayChange_of (by simp [rowPieces])) (mayChange_of (by simp [rowPieces])) s k _) h
    · exact .quiet h
    · exact .quiet h
  | trunkLineDown =>
    refine .inl ?_
    have hp : Moves (mayChange .trunkLineDown) s (s.setTrunkPin false) :=
      .pins (mayChange_of (by simp [rowPieces])) s _
    simp only [exec, execTrunkLineDown] at h
    split at h
    · cases h; exact hp
    · exact .done (hp.trans (.lineDown (mayChange_of (by simp [rowPieces])) (mayChange_of (by simp [rowPieces])) _)) h
  | trunkLineUp cells =>
    refine .inl ?_
    have hp : Moves (mayChange (.trunkLineUp cells)) s ((s.corrupt cells).setTrunkPin true) :=
      (Moves.corrupt s cells).trans (.pins (mayChange_of (by simp [rowPieces])) _ _)
    simp only [exec, execTrunkLineUp] at h
    split at h
    · cases h; exact hp
    · refine .done (hp.trans ?_) h
      exact (Moves.lineUp (mayChange_of (by simp [rowPieces])) _).trans (.trigger _)
  | fragmentReceived bytes =>
    refine .inl ?_
    simp only [exec, execFragmentReceived] at h
    split at h
    · exact .quiet h
    · exact .done (.receiveFragment (mayChange_of (by simp [rowPieces])) (mayChange_of (by simp [rowPieces]))
        (mayChange_of (by simp [rowPieces])) s bytes) h
  | supervisionExpiry =>
    refine .inl ?_
    simp only [exec, execSupervisionExpiry] at h
    split at h
    · exact .done (.chain (.raise _ _ _) (.enterFallback (mayChange_of (by simp [rowPieces])) s)) h
    · exact .quiet h
  | receiveLineActive p =>
    refine .inl ?_
    have hp : Moves (mayChange (.receiveLineActive p)) s (s.setReceivePin p true) :=
      .pins (mayChange_of (by simp [rowPieces])) s _
    simp only [exec, execReceiveLineActive] at h
    split at h
    · cases h; exact hp
    · exact .done (hp.trans (.lineActive (mayChange_of (by simp [rowPieces])) _ p)) h
  | headerReceived p hd =>
    refine .inl ?_
    simp only [exec, execHeaderReceived] at h
    split at h
    · exact .done (.takeHeader (mayChange_of (by simp [rowPieces])) s p hd) h
    · exact .quiet h
    · exact .quiet h
    · exact .quiet h
  | excessPayloadByte p =>
    refine .inl ?_
    simp only [exec, execExcessPayloadByte] at h
    split at h
    · exact .done (.jabber (mayChange_of (by simp [rowPieces])) s p) h
    · exact .done (.jabber (mayChange_of (by simp [rowPieces])) s p) h
    · exact .quiet h
    · exact .quiet h
  | receiveLineSilent p bytes cells =>
    refine .inl ?_
    simp only [exec, execReceiveLineSilent] at h
    split at h
    · cases h
      exact (Moves.corrupt s cells).trans (.pins (mayChange_of (by simp [rowPieces])) _ _)
    · exact .done (.receiveEnds (mayChange_of (by simp [rowPieces])) (mayChange_of (by simp [rowPieces]))
        (mayChange_of (by simp [rowPieces])) s p bytes cells) h
  | jabberTimeout p =>
    refine .inl ?_
    simp only [exec, execJabberTimeout] at h
    split at h
    · exact .done (.jabber (mayChange_of (by simp [rowPieces])) s p) h
    · exact .quiet h
  | jabberRecovery p =>
    refine .inl ?_
    simp only [exec, execJabberRecovery] at h
    split at h
    · exact .done (.recover (mayChange_of (by simp [rowPieces])) s p) h
    · exact .quiet h
  | silenceTimeout p =>
    refine .inl ?_
    simp only [exec, execSilenceTimeout] at h
    split at h
    · exact .done (.goSilent (mayChange_of (by simp [rowPieces])) s p) h
    · exact .quiet h
  | portLineDown p =>
    refine .inl ?_
    have hp : Moves (mayChange (.portLineDown p)) s (s.setLinePin p false) :=
      .pins (mayChange_of (by simp [rowPieces])) s _
    simp only [exec, execPortLineDown] at h
    split at h
    · cases h; exact hp
    · exact .done (hp.trans (.setLine (mayChange_of (by simp [rowPieces])) _ p false)) h
  | portLineUp p =>
    refine .inl ?_
    have hp : Moves (mayChange (.portLineUp p)) s (s.setLinePin p true) :=
      .pins (mayChange_of (by simp [rowPieces])) s _
    simp only [exec, execPortLineUp] at h
    split at h
    · cases h; exact hp
    · exact .done (hp.trans (.setLine (mayChange_of (by simp [rowPieces])) _ p true)) h
  | transmissionCompletes p =>
    refine .inl ?_
    simp only [exec, execTransmissionCompletes] at h
    split at h
    · exact .done (.lineTxCompletes (mayChange_of (by simp [rowPieces])) s p _) h
    · exact .quiet h
    · exact .quiet h
  | loopbackCompletion p cells =>
    refine .inl ?_
    simp only [exec, execLoopbackCompletion] at h
    split at h
    · exact .done ((Moves.corrupt s cells).trans (.loopCompletes (mayChange_of (by simp [rowPieces]))
        (mayChange_of (by simp [rowPieces])) _ p _ ⟨hs.entries, hs.cells⟩)) h
    · cases h; exact .corrupt s cells
    · cases h; exact .corrupt s cells
  | portCellCheckFailure p cell =>
    refine .inl ?_
    simp only [exec, execPortCellCheckFailure] at h
    split at h
    · cases h
    · split at h
      · exact .quiet h
      · next u _ =>
        split at h
        · next hc => exact .done (.portCellFails s p u.entry cell (by simpa using hc)) h
        · exact .quiet h
  | unknownCommand =>
    refine .inl ?_
    simp only [exec, execUnknownCommand] at h
    split at h
    · exact .quiet h
    · next c u hn =>
      split at h
      · exact .done ((Moves.nextCommand hn).trans (.attemptUnknown u c)) h
      · exact .quiet h

end Sys2Proof.Machine
end

