-- ==== Sys2Proof/Laws/Invariants.lean ====
section
/-! SUPPORT. What every chain of moves keeps: entries and cells are conserved, the canonical form of the cell contents,
the ranges of the settings, and the order of the transmit sequences. -/

namespace Sys2Proof.Machine

open Sys2Proof

variable {W : Piece → Prop}

/-! ### The table of entries, up to order -/

theorem putEntry_perm {t : List (EntryNo × FrameEntry)} {e : EntryNo} (f : FrameEntry) (h : t.lookup e = none) :
    (putEntry t e f).Perm ((e, f) :: t) := by
  induction t with
  | nil => exact .refl _
  | cons x t ih =>
    obtain ⟨d, g⟩ := x
    rw [List.lookup_cons] at h
    split at h
    · cases h
    · next hb =>
      have hd : e ≠ d := fun he => by simp [he] at hb
      unfold putEntry
      split
      · exact .refl _
      · exact ((ih h).cons _).trans (.swap _ _ _)

/-- An entry in use stands once in the table. -/
theorem entry_perm {t : List (EntryNo × FrameEntry)} {e : EntryNo} {f : FrameEntry} (g : FrameEntry → FrameEntry)
    (hn : (t.map Prod.fst).Nodup) (h : t.lookup e = some f) :
    t.Perm ((e, f) :: dropEntry t e) ∧ (changeEntry t e g).Perm ((e, g f) :: dropEntry t e) := by
  induction t with
  | nil => cases h
  | cons x t ih =>
    obtain ⟨d, k⟩ := x
    simp only [List.map_cons, List.nodup_cons] at hn
    by_cases hd : d = e
    · subst hd
      rw [List.lookup_cons, beq_self_eq_true] at h
      cases h
      have h1 : dropEntry ((d, f) :: t) d = t := by
        unfold dropEntry
        simp only [bne_self_eq_false, Bool.false_eq_true, not_false_eq_true, List.filter_cons_of_neg]
        refine List.filter_eq_self.mpr fun x hx => ?_
        simp only [bne_iff_ne, ne_eq]
        exact fun he => hn.1 (he ▸ List.mem_map_of_mem hx)
      have h2 : changeEntry ((d, f) :: t) d g = (d, g f) :: t := by
        unfold changeEntry
        simp only [List.map_cons, if_true, List.cons.injEq, true_and]
        refine (List.map_congr_left fun x hx => ?_).trans (List.map_id t)
        have : x.1 ≠ d := fun he => hn.1 (he ▸ List.mem_map_of_mem hx)
        simp [this]
      rw [h1, h2]
      exact ⟨.refl _, .refl _⟩
    · rw [List.lookup_cons, beq_eq_false_iff_ne.mpr (Ne.symm hd)] at h
      have ⟨h1, h2⟩ := ih hn.2 h
      have h3 : dropEntry ((d, k) :: t) e = (d, k) :: dropEntry t e := by simp [dropEntry, hd]
      have h4 : changeEntry ((d, k) :: t) e g = (d, k) :: changeEntry t e g := by simp [changeEntry, hd]
      rw [h3, h4]
      exact ⟨(h1.cons _).trans (.swap _ _ _), (h2.cons _).trans (.swap _ _ _)⟩

/-! ### Entries and cells are conserved (R25, R27) -/

theorem Store.Conserved.keys_nodup {st : Store} (h : st.Conserved) : (st.entries.map Prod.fst).Nodup :=
  (List.nodup_append.mp (h.entries.nodup_iff.mpr List.nodup_range)).2.1

/-- The table of entries may be put in another order. -/
theorem Store.Conserved.of_perm {fe : List EntryNo} {fc rt : List CellNo} {t u : List (EntryNo × FrameEntry)}
    (hp : t.Perm u) (he : (fe ++ u.map Prod.fst).Perm (List.range Config.entryCount))
    (hc : (fc ++ rt ++ u.flatMap fun x => x.2.cells).Perm (List.range Config.cellCount)) :
    (fe ++ t.map Prod.fst).Perm (List.range Config.entryCount) ∧
      (fc ++ rt ++ t.flatMap fun x => x.2.cells).Perm (List.range Config.cellCount) :=
  ⟨((hp.map Prod.fst).append_left fe).trans he, ((hp.flatMap_right _).append_left _).trans hc⟩

theorem StoreMove.conserved {st st' : Store} (hm : StoreMove st st') (h : st.Conserved) : st'.Conserved := by
  cases hm with
  | note => exact ⟨h.entries, h.cells⟩
  | take _ cells f e hle ht =>
    unfold Store.take at ht
    split at ht
    · cases ht
    · next d rest hr =>
      cases ht
      have hp := putEntry_perm { f with cells := st.freeCells.take cells, holders := 1 }
        (h.free_not_used hr)
      have he := h.entries
      have hc := h.cells
      rw [hr] at he
      obtain ⟨h1, h2⟩ := Store.Conserved.of_perm hp (fe := rest) (fc := st.freeCells.drop cells) (rt := st.retired)
        (List.perm_middle.trans he) (by
          refine .trans ?_ hc
          simp only [List.flatMap_cons]
          rw [← List.append_assoc]
          refine List.Perm.append_right _ ?_
          rw [List.append_assoc]
          refine (List.Perm.append_left _ List.perm_append_comm).trans ?_
          rw [← List.append_assoc]
          refine List.Perm.append_right _ ?_
          exact List.perm_append_comm.trans (by rw [List.take_append_drop]))
      exact ⟨h1, h2⟩
  | free e f hl =>
    obtain ⟨hp, -⟩ := entry_perm id h.keys_nodup hl
    obtain ⟨h1, h2⟩ := Store.Conserved.of_perm hp.symm (fe := st.freeEntries) (fc := st.freeCells) (rt := st.retired)
      h.entries h.cells
    refine ⟨?_, ?_⟩
    · refine .trans ?_ h1
      simp only [Store.free, List.map_cons, List.append_assoc, List.singleton_append]
      exact .refl _
    · refine .trans ?_ h2
      simp only [Store.free, List.flatMap_cons, List.append_assoc]
      refine List.Perm.append_left _ ?_
      rw [← List.append_assoc, ← List.append_assoc]
      exact List.Perm.append_right _ List.perm_append_comm
  | change e g hg =>
    cases hl : st.entries.lookup e with
    | none => rw [changeEntry_of_lookup_none _ _ _ hl]; exact ⟨h.entries, h.cells⟩
    | some f =>
      have ⟨hp, hq⟩ := entry_perm g h.keys_nodup hl
      obtain ⟨h1, h2⟩ := Store.Conserved.of_perm hp.symm (fe := st.freeEntries) (fc := st.freeCells)
        (rt := st.retired) h.entries h.cells
      obtain ⟨h3, h4⟩ := Store.Conserved.of_perm hq (fe := st.freeEntries) (fc := st.freeCells) (rt := st.retired)
        (by simpa using h1) (by simpa [hg] using h2)
      exact ⟨h3, h4⟩
  | retire e f cell hl hc =>
    have ⟨hp, hq⟩ := entry_perm (fun f => { f with cells := f.cells.erase cell }) h.keys_nodup hl
    obtain ⟨h1, h2⟩ := Store.Conserved.of_perm hp.symm (fe := st.freeEntries) (fc := st.freeCells)
      (rt := st.retired) h.entries h.cells
    obtain ⟨h3, h4⟩ := Store.Conserved.of_perm hq (fe := st.freeEntries) (fc := st.freeCells)
      (rt := st.retired ++ [cell]) (by simpa using h1) (by
        refine .trans ?_ h2
        simp only [List.flatMap_cons, List.append_assoc, List.singleton_append]
        refine List.Perm.append_left _ (List.Perm.append_left _ ?_)
        exact List.Perm.append_right _ (List.perm_cons_erase hc).symm)
    exact ⟨h3, h4⟩
  | trim e f n hl =>
    have ⟨hp, hq⟩ := entry_perm (fun f => { f with cells := f.cells.take n }) h.keys_nodup hl
    obtain ⟨h1, h2⟩ := Store.Conserved.of_perm hp.symm (fe := st.freeEntries) (fc := st.freeCells)
      (rt := st.retired) h.entries h.cells
    obtain ⟨h3, h4⟩ := Store.Conserved.of_perm hq (fe := st.freeEntries) (fc := st.freeCells ++ f.cells.drop n)
      (rt := st.retired) (by simpa using h1) (by
        refine .trans ?_ h2
        simp only [List.flatMap_cons, List.append_assoc]
        refine List.Perm.append_left _ ?_
        refine List.perm_iff_count.mpr fun a => ?_
        have hk : f.cells.count a = (f.cells.take n).count a + (f.cells.drop n).count a := by
          rw [← List.count_append, List.take_append_drop]
        simp only [List.count_append, hk]
        omega)
    exact ⟨h3, h4⟩
  | write => exact ⟨h.entries, h.cells⟩

/-! ### Contents of the cells -/

/-- The canonical form, said of the head and the tail. -/
theorem Memory.wf_cons (a : Nat) (v : Byte) (m : Memory) :
    Memory.wf ((a, v) :: m) = true ↔ v ≠ 0 ∧ (∀ x ∈ m, a < x.1) ∧ Memory.wf m = true := by
  induction m generalizing a v with
  | nil => simp [Memory.wf]
  | cons x m ih =>
    obtain ⟨b, w⟩ := x
    rw [Memory.wf]
    simp only [Bool.and_eq_true, bne_iff_ne, ne_eq, decide_eq_true_eq, ih b w, List.mem_cons, forall_eq_or_imp]
    constructor
    · rintro ⟨⟨hv, hab⟩, hw, hb, hm⟩
      exact ⟨hv, ⟨hab, fun y hy => Nat.lt_trans hab (hb y hy)⟩, hw, hb, hm⟩
    · rintro ⟨hv, ⟨hab, -⟩, hw, hb, hm⟩
      exact ⟨⟨hv, hab⟩, hw, hb, hm⟩

theorem Memory.mem_write {m : Memory} {a : Nat} {v : Byte} {x : Host.Cell} (h : x ∈ m.write a v) :
    x = (a, v) ∨ x ∈ m := by
  induction m with
  | nil => unfold Memory.write at h; split at h <;> simp_all
  | cons y m ih =>
    obtain ⟨b, w⟩ := y
    unfold Memory.write at h
    split at h
    · split at h <;> simp_all
    · split at h
      · split at h
        · exact .inr (List.mem_cons_of_mem _ h)
        · rcases List.mem_cons.mp h with h | h
          · exact .inl h
          · exact .inr (List.mem_cons_of_mem _ h)
      · rcases List.mem_cons.mp h with h | h
        · exact .inr (h ▸ List.mem_cons_self)
        · rcases ih h with h | h
          · exact .inl h
          · exact .inr (List.mem_cons_of_mem _ h)

/-- A write of one byte keeps the canonical form. -/
theorem Memory.wf_write {m : Memory} (h : m.wf = true) (a : Nat) (v : Byte) : (m.write a v).wf = true := by
  induction m with
  | nil => unfold Memory.write; split <;> simp_all [Memory.wf]
  | cons y m ih =>
    obtain ⟨b, w⟩ := y
    obtain ⟨hw, hb, hm⟩ := (Memory.wf_cons b w m).mp h
    unfold Memory.write
    split
    · next hab =>
      split
      · exact h
      · next hv =>
        refine (Memory.wf_cons _ _ _).mpr ⟨hv, ?_, h⟩
        intro x hx
        rcases List.mem_cons.mp hx with hx | hx
        · rw [hx]; exact hab
        · exact Nat.lt_trans hab (hb x hx)
    · split
      · next he =>
        subst he
        split
        · exact hm
        · next hv => exact (Memory.wf_cons _ _ _).mpr ⟨hv, hb, hm⟩
      · next h1 h2 =>
        refine (Memory.wf_cons _ _ _).mpr ⟨hw, ?_, ih hm⟩
        intro x hx
        rcases Memory.mem_write hx with hx | hx
        · rw [hx]; show b < a; omega
        · exact hb x hx

theorem Memory.read_of_lt {m : Memory} {a : Nat} (h : ∀ x ∈ m, a < x.1) : m.read a = 0 := by
  induction m with
  | nil => rfl
  | cons y m ih =>
    obtain ⟨b, w⟩ := y
    have hb : a < b := h (b, w) List.mem_cons_self
    unfold Memory.read
    rw [if_neg (by omega)]
    exact ih fun x hx => h x (List.mem_cons_of_mem _ hx)

/-- Reading a byte after a write of one. -/
theorem Memory.read_write {m : Memory} (h : m.wf = true) (a b : Nat) (v : Byte) :
    (m.write a v).read b = if b = a then v else m.read b := by
  induction m with
  | nil =>
    unfold Memory.write
    split
    · next hv => subst hv; simp [Memory.read]
    · simp [Memory.read]
  | cons y m ih =>
    obtain ⟨c, w⟩ := y
    obtain ⟨hw, hc, hm⟩ := (Memory.wf_cons c w m).mp h
    unfold Memory.write
    split
    · next hac =>
      split
      · next hv =>
        subst hv
        split
        · next hb =>
          subst hb
          exact Memory.read_of_lt fun x hx => by
            rcases List.mem_cons.mp hx with hx | hx
            · rw [hx]; exact hac
            · exact Nat.lt_trans hac (hc x hx)
        · rfl
      · rw [Memory.read]
    · split
      · next he =>
        subst he
        split
        · next hv =>
          subst hv
          split
          · next hb => subst hb; exact Memory.read_of_lt hc
          · next hb => rw [Memory.read, if_neg hb]
        · rw [Memory.read, Memory.read]
          split <;> rfl
      · rw [Memory.read, Memory.read, ih hm]
        split
        · next hbc =>
          split
          · omega
          · rfl
        · rfl

theorem FrameEntry.wf_writeBytes (f : FrameEntry) {m : Memory} (h : m.wf = true) (j : Nat) (bs : List Byte) :
    (f.writeBytes m j bs).wf = true := by
  induction bs generalizing m j with
  | nil => exact h
  | cons b bs ih =>
    unfold FrameEntry.writeBytes
    split
    · exact ih (Memory.wf_write h _ _) _
    · exact ih h _

theorem StoreMove.wf {st st' : Store} (hm : StoreMove st st') (h : st.mem.wf = true) : st'.mem.wf = true := by
  cases hm with
  | take _ cells f e hle ht =>
    unfold Store.take at ht
    split at ht
    · cases ht
    · cases ht; exact h
  | write f offset bytes => exact f.wf_writeBytes h _ _
  | note | free | change | retire | trim => exact h

/-! ### The store, along a chain of moves -/

/-- What every move of the Frame Store keeps, every chain of moves keeps. -/
theorem Moves.store_keeps (P : Store → Prop) (hP : ∀ st st', StoreMove st st' → P st → P st') {s t : State}
    (h : Moves W s t) (hs : P s.store) : P t.store := by
  induction h with
  | refl => exact hs
  | trans _ _ h1 h2 => exact h2 (h1 hs)
  | store s st h => exact hP _ _ h hs
  | _ => exact hs

theorem Moves.conserved {s t : State} (h : Moves W s t) (hs : s.store.Conserved) : t.store.Conserved :=
  h.store_keeps Store.Conserved (fun _ _ => StoreMove.conserved) hs

theorem Moves.wf {s t : State} (h : Moves W s t) (hs : s.store.mem.wf = true) : t.store.mem.wf = true :=
  h.store_keeps (fun st => st.mem.wf = true) (fun _ _ => StoreMove.wf) hs

/-! ### Settings in range -/

/-- The parts of Lawful that the levels carry. -/
structure LevelsLawful (s : State) : Prop where
  notices : (s.lvl 0).attrs = .builtIn 8
  responses : (s.lvl 1).attrs = .builtIn 4
  levels : ∀ l : Level, (s.lvl l).attrs.Lawful

theorem State.Lawful.of_levels {s t : State} (h : s.Lawful) (hl : LevelsLawful t) (h1 : t.trunk = s.trunk)
    (h2 : t.rules = s.rules) (h3 : t.nodeMap = s.nodeMap) (h4 : t.ports = s.ports) (h5 : t.cmd = s.cmd)
    (h6 : t.ctl = s.ctl) : t.Lawful := by
  refine ⟨hl.notices, hl.responses, hl.levels, by rw [h1]; exact h.fragSize, by rw [h1]; exact h.log, ?_, ?_, ?_,
    by rw [h5]; exact h.fifo, by rw [h6]; exact h.period⟩
  · intro i; unfold State.rule; rw [h2]; exact h.rules i
  · have := h.nodes
    refine ⟨?_, ?_, ?_, ?_⟩ <;> simp only [State.disposition, State.self, h3, h6]
    · exact this.zero
    · exact this.broadcast
    · exact this.self
    · exact this.others
  · intro p; unfold State.port; simp only [h4]; exact h.ports p

theorem State.Lawful.of_ports {s t : State} (h : s.Lawful) (hp : ∀ p, (t.port p).Lawful) (h0 : t.levels = s.levels)
    (h1 : t.trunk = s.trunk) (h2 : t.rules = s.rules) (h3 : t.nodeMap = s.nodeMap) (h5 : t.cmd = s.cmd)
    (h6 : t.ctl = s.ctl) : t.Lawful := by
  refine ⟨?_, ?_, ?_, by rw [h1]; exact h.fragSize, by rw [h1]; exact h.log, ?_, ?_, hp,
    by rw [h5]; exact h.fifo, by rw [h6]; exact h.period⟩
  · unfold State.lvl; simp only [h0]; exact h.notices
  · unfold State.lvl; simp only [h0]; exact h.responses
  · intro l; unfold State.lvl; simp only [h0]; exact h.levels l
  · intro i; unfold State.rule; simp only [h2]; exact h.rules i
  · have := h.nodes
    refine ⟨?_, ?_, ?_, ?_⟩ <;> simp only [State.disposition, State.self, h3, h6]
    · exact this.zero
    · exact this.broadcast
    · exact this.self
    · exact this.others

theorem LevelsLawful.modLvl {s : State} (h : s.Lawful) (l : Level) (f : LevelEntry → LevelEntry)
    (hf : (f (s.lvl l)).attrs = (s.lvl l).attrs ∨ (2 ≤ l.val ∧ (f (s.lvl l)).attrs.Lawful)) :
    LevelsLawful (s.modLvl l f) := by
  have hlow : ∀ m : Level, m.val < 2 → ((s.modLvl l f).lvl m).attrs = (s.lvl m).attrs := by
    intro m hm
    rw [State.lvl_modLvl]
    split
    · next he =>
      subst he
      rcases hf with hf | ⟨h2, -⟩
      · exact hf
      · omega
    · rfl
  refine ⟨(hlow 0 (by decide)).trans h.notices, (hlow 1 (by decide)).trans h.responses, fun m => ?_⟩
  rw [State.lvl_modLvl]
  split
  · rcases hf with hf | ⟨-, hf⟩
    · rw [hf]; exact h.levels l
    · exact hf
  · exact h.levels m

theorem State.Lawful.modLvl {s : State} (h : s.Lawful) (l : Level) (f : LevelEntry → LevelEntry)
    (hf : (f (s.lvl l)).attrs = (s.lvl l).attrs ∨ (2 ≤ l.val ∧ (f (s.lvl l)).attrs.Lawful)) :
    (s.modLvl l f).Lawful :=
  h.of_levels (.modLvl h l f hf) rfl rfl rfl rfl rfl rfl

/-- The same change of every level, which leaves the attributes. -/
theorem State.Lawful.mapLevels {s t : State} (h : s.Lawful) (f : LevelEntry → LevelEntry)
    (hf : ∀ v, (f v).attrs = v.attrs) (h0 : t.levels = mapTable f s.levels) (h1 : t.trunk = s.trunk)
    (h2 : t.rules = s.rules) (h3 : t.nodeMap = s.nodeMap) (h4 : t.ports = s.ports) (h5 : t.cmd = s.cmd)
    (h6 : t.ctl = s.ctl) : t.Lawful := by
  have hl : ∀ l, (t.lvl l).attrs = (s.lvl l).attrs := fun l => by
    unfold State.lvl
    rw [h0, getElem_mapTable, hf]
  exact h.of_levels ⟨(hl 0).trans h.notices, (hl 1).trans h.responses, fun l => by rw [hl]; exact h.levels l⟩
    h1 h2 h3 h4 h5 h6

theorem State.Lawful.modPort {s : State} (h : s.Lawful) (p : PortNo) (f : Port → Port)
    (hf : (f (s.port p)).Lawful) : (s.modPort p f).Lawful := by
  refine h.of_ports (fun q => ?_) rfl rfl rfl rfl rfl rfl
  rw [State.port_modPort]
  split
  · exact hf
  · exact h.ports q

/-- Every chain of moves keeps the settings in range. -/
theorem Moves.lawful {s t : State} (h : Moves W s t) (hs : s.Lawful) : t.Lawful := by
  induction h with
  | refl => exact hs
  | trans _ _ h1 h2 => exact h2 (h1 hs)
  | level s l f h => exact hs.modLvl l f (.inl h.attrs)
  | port s p f h =>
    refine hs.modPort p f ?_
    have hp := hs.ports p
    refine ⟨by rw [h.same]; exact hp.defaultLevel, by rw [h.same]; exact hp.silenceTime, ?_⟩
    exact le_trans h.queue (max_le hp.queue (le_refl _))
  | trunk s u h =>
    refine ⟨hs.notices, hs.responses, hs.levels, ?_, le_trans h.log (max_le hs.log (le_refl _)), hs.rules,
      ⟨hs.nodes.zero, hs.nodes.broadcast, hs.nodes.self, hs.nodes.others⟩, hs.ports, hs.fifo, hs.period⟩
    show u.fragSize = 64 ∨ u.fragSize = 128 ∨ u.fragSize = 256
    rw [h.same]
    exact hs.fragSize
  | cmd s u h =>
    exact ⟨hs.notices, hs.responses, hs.levels, hs.fragSize, hs.log, hs.rules,
      ⟨hs.nodes.zero, hs.nodes.broadcast, hs.nodes.self, hs.nodes.others⟩, hs.ports,
      le_trans h.fifo (max_le hs.fifo (le_refl _)), hs.period⟩
  | attrs hW s l a hl ha => exact hs.modLvl l _ (.inr ⟨hl, ha⟩)
  | sent hW s l n => exact hs.modLvl l _ (.inl rfl)
  | clearLevels hW s => exact hs.mapLevels LevelEntry.cleared (fun _ => rfl) rfl rfl rfl rfl rfl rfl rfl
  | portLine hW s p f hc hq =>
    refine hs.modPort p f ?_
    have hp := hs.ports p
    exact ⟨by rw [hc]; exact hp.defaultLevel, by rw [hc]; exact hp.silenceTime, by rw [hq]; exact hp.queue⟩
  | clearPorts hW s =>
    refine hs.of_ports (fun p => ?_) rfl rfl rfl rfl rfl rfl
    have hp := hs.ports p
    unfold State.port at hp ⊢
    rw [getElem_mapTable]
    exact ⟨hp.defaultLevel, hp.silenceTime, hp.queue⟩
  | portConfig hW s p f hd hsil hq =>
    refine hs.modPort p f ?_
    have hp := hs.ports p
    refine ⟨?_, ?_, by rw [hq]; exact hp.queue⟩
    · rcases hd with hd | hd
      · exact hd
      · rw [hd]; exact hp.defaultLevel
    · rcases hsil with h | h
      · exact h
      · rw [h]; exact hp.silenceTime
  | sequences hW s k =>
    exact hs.mapLevels (t := s.resetSequences k) (fun v => { v with txSeq := v.txSeq.set k.val (.seq 1) k.isLt })
      (fun _ => rfl) rfl rfl rfl rfl rfl rfl rfl
  | rules hW s i r h =>
    refine ⟨hs.notices, hs.responses, hs.levels, hs.fragSize, hs.log, fun j => ?_,
      ⟨hs.nodes.zero, hs.nodes.broadcast, hs.nodes.self, hs.nodes.others⟩, hs.ports, hs.fifo, hs.period⟩
    have hj := hs.rules j
    unfold State.rule at hj ⊢
    simp only [Vector.getElem_set]
    split
    · exact h
    · exact hj
  | hits hW s i =>
    refine ⟨hs.notices, hs.responses, hs.levels, hs.fragSize, hs.log, fun j => ?_,
      ⟨hs.nodes.zero, hs.nodes.broadcast, hs.nodes.self, hs.nodes.others⟩, hs.ports, hs.fifo, hs.period⟩
    have hj := hs.rules j
    have hi := hs.rules i
    unfold State.rule State.countHit at *
    simp only [Vector.getElem_set]
    split
    · exact ⟨hi.src, hi.dst, hi.len, hi.level⟩
    · exact hj
  | clearHits hW s =>
    refine ⟨hs.notices, hs.responses, hs.levels, hs.fragSize, hs.log, fun j => ?_,
      ⟨hs.nodes.zero, hs.nodes.broadcast, hs.nodes.self, hs.nodes.others⟩, hs.ports, hs.fifo, hs.period⟩
    have hj := hs.rules j
    unfold State.rule at *
    show ((mapTable (fun r : Rule => { r with hits := 0 }) s.rules)[j.val]).Lawful
    rw [getElem_mapTable]
    exact ⟨hj.src, hj.dst, hj.len, hj.level⟩
  | nodeMap hW s m h =>
    refine ⟨hs.notices, hs.responses, hs.levels, hs.fragSize, hs.log, hs.rules, ?_, hs.ports, hs.fifo, hs.period⟩
    have hn := hs.nodes
    have hfix : ∀ n : Node, s.fixedNode n = true → m[n.toNat] = s.disposition n := fun n hf => by
      rcases h n with h | ⟨h, -⟩
      · exact h
      · rw [hf] at h; cases h
    refine ⟨(hfix 0 (by simp [State.fixedNode])).trans hn.zero,
      (hfix 255 (by simp [State.fixedNode])).trans hn.broadcast,
      (hfix s.self (by simp [State.fixedNode])).trans hn.self, fun n h1 h2 => ?_⟩
    rcases h n with h | ⟨-, h⟩
    · show (m[n.toNat]).writable = true
      rw [h]
      exact hn.others n h1 h2
    · exact h
  | fragSize hW s n h =>
    exact ⟨hs.notices, hs.responses, hs.levels, h, hs.log, hs.rules,
      ⟨hs.nodes.zero, hs.nodes.broadcast, hs.nodes.self, hs.nodes.others⟩, hs.ports, hs.fifo, hs.period⟩
  | trunkLine hW s u hf hl =>
    refine ⟨hs.notices, hs.responses, hs.levels, ?_, ?_, hs.rules,
      ⟨hs.nodes.zero, hs.nodes.broadcast, hs.nodes.self, hs.nodes.others⟩, hs.ports, hs.fifo, hs.period⟩
    · show u.fragSize = 64 ∨ u.fragSize = 128 ∨ u.fragSize = 256
      rw [hf]; exact hs.fragSize
    · show u.log.length ≤ Config.logSize
      rw [hl]; exact hs.log
  | logRead hW s log b h =>
    exact ⟨hs.notices, hs.responses, hs.levels, hs.fragSize, le_trans h hs.log, hs.rules,
      ⟨hs.nodes.zero, hs.nodes.broadcast, hs.nodes.self, hs.nodes.others⟩, hs.ports, hs.fifo, hs.period⟩
  | supervision hW s period window h =>
    exact ⟨hs.notices, hs.responses, hs.levels, hs.fragSize, hs.log, hs.rules,
      ⟨hs.nodes.zero, hs.nodes.broadcast, hs.nodes.self, hs.nodes.others⟩, hs.ports, hs.fifo, h⟩
  | _ =>
    exact ⟨hs.notices, hs.responses, hs.levels, hs.fragSize, hs.log, hs.rules,
      ⟨hs.nodes.zero, hs.nodes.broadcast, hs.nodes.self, hs.nodes.others⟩, hs.ports, hs.fifo, hs.period⟩

/-! ### Transmit sequences (R67, R78) -/

/-- No transmit sequence goes back along a chain of moves without the right to reset sequences. -/
theorem Moves.txSequence {s t : State} (h : Moves W s t) (hW : ¬ W .sequences) (k : Slot) (l : Level) :
    (s.txSequence k l).le (t.txSequence k l) := by
  unfold State.txSequence
  induction h with
  | trans _ _ h1 h2 => exact TxSequence.le_trans h1 h2
  | level s m f h =>
    rw [State.lvl_modLvl]
    split
    · next he => subst he; exact h.sequences k
    · exact TxSequence.le_refl _
  | attrs _ s m a | sent _ s m n =>
    rw [State.lvl_modLvl]
    split
    · next he => subst he; exact TxSequence.le_refl _
    · exact TxSequence.le_refl _
  | clearLevels _ s =>
    have : ({ s with levels := mapTable LevelEntry.cleared s.levels } : State).lvl l = (s.lvl l).cleared := by
      unfold State.lvl
      rw [getElem_mapTable]
    rw [this]
    exact TxSequence.le_refl _
  | sequences h => exact absurd h hW
  | _ => exact TxSequence.le_refl _

end Sys2Proof.Machine
end

