-- ==== Sys2Proof/Laws/Frames.lean ====
section
/-! SUPPORT. What a chain of moves leaves: each piece of the part stays as it is without the right to change it. -/

namespace Sys2Proof.Machine

open Sys2Proof

variable {W : Piece → Prop} {s t : State}

/-! ### Modes, time, pins -/

theorem Moves.cause (h : Moves W s t) : t.ctl.cause = s.ctl.cause := by
  induction h with
  | trans _ _ a b => exact b.trans a
  | _ => rfl

theorem Moves.straps (h : Moves W s t) : t.ctl.straps = s.ctl.straps := by
  induction h with
  | trans _ _ a b => exact b.trans a
  | _ => rfl

theorem Moves.pending (h : Moves W s t) : t.pending = s.pending := by
  induction h with
  | trans _ _ a b => exact b.trans a
  | _ => rfl

theorem Moves.keeps_mode (h : Moves W s t) (h0 : ¬ W .mode) : t.ctl.mode = s.ctl.mode := by
  induction h with
  | trans _ _ a b => exact b.trans a
  | mode h => exact absurd h h0
  | _ => rfl

theorem Moves.keeps_mark (h : Moves W s t) (h0 : ¬ W .mode) : t.ctl.mark = s.ctl.mark := by
  induction h with
  | trans _ _ a b => exact b.trans a
  | mode h => exact absurd h h0
  | _ => rfl

theorem Moves.keeps_refreshSeen (h : Moves W s t) (h0 : ¬ W .mode) : t.ctl.refreshSeen = s.ctl.refreshSeen := by
  induction h with
  | trans _ _ a b => exact b.trans a
  | mode h => exact absurd h h0
  | _ => rfl

theorem Moves.keeps_period (h : Moves W s t) (h0 : ¬ W .supervision) : t.ctl.period = s.ctl.period := by
  induction h with
  | trans _ _ a b => exact b.trans a
  | supervision h => exact absurd h h0
  | _ => rfl

theorem Moves.keeps_window (h : Moves W s t) (h0 : ¬ W .supervision) : t.ctl.window = s.ctl.window := by
  induction h with
  | trans _ _ a b => exact b.trans a
  | supervision h => exact absurd h h0
  | _ => rfl

theorem Moves.keeps_now (h : Moves W s t) (h0 : ¬ W .time) : t.now = s.now := by
  induction h with
  | trans _ _ a b => exact b.trans a
  | time h => exact absurd h h0
  | _ => rfl

theorem Moves.keeps_pins (h : Moves W s t) (h0 : ¬ W .pins) : t.pins = s.pins := by
  induction h with
  | trans _ _ a b => exact b.trans a
  | pins h => exact absurd h h0
  | _ => rfl

/-! ### Levels -/

theorem Moves.keeps_attrs (h : Moves W s t) (h0 : ¬ W .attrs) (l : Level) :
    (t.lvl l).attrs = (s.lvl l).attrs := by
  induction h with
  | trans _ _ a b => exact b.trans a
  | level s m f h =>
    rw [State.lvl_modLvl]
    split
    · next he => subst he; exact h.attrs
    · rfl
  | attrs h => exact absurd h h0
  | sent _ s m n =>
    rw [State.lvl_modLvl]
    split
    · next he => subst he; rfl
    · rfl
  | clearLevels _ s =>
    show ((mapTable LevelEntry.cleared s.levels)[l.val]).attrs = (s.levels[l.val]).attrs
    rw [getElem_mapTable]
    rfl
  | sequences _ s k =>
    show ((mapTable (fun v : LevelEntry => { v with txSeq := v.txSeq.set k.val (.seq 1) k.isLt })
      s.levels)[l.val]).attrs = (s.levels[l.val]).attrs
    rw [getElem_mapTable]
  | _ => rfl

theorem Moves.keeps_framesSent (h : Moves W s t) (h0 : ¬ W .levelCounters) (l : Level) :
    (t.lvl l).framesSent = (s.lvl l).framesSent := by
  induction h with
  | trans _ _ a b => exact b.trans a
  | level s m f h =>
    rw [State.lvl_modLvl]
    split
    · next he => subst he; exact h.sent
    · rfl
  | attrs _ s m a =>
    rw [State.lvl_modLvl]
    split
    · next he => subst he; rfl
    · rfl
  | sent h => exact absurd h h0
  | clearLevels h => exact absurd h h0
  | sequences _ s k =>
    show ((mapTable (fun v : LevelEntry => { v with txSeq := v.txSeq.set k.val (.seq 1) k.isLt })
      s.levels)[l.val]).framesSent = (s.levels[l.val]).framesSent
    rw [getElem_mapTable]
  | _ => rfl

/-! ### Ports -/

theorem Moves.keeps_portConfig (h : Moves W s t) (h0 : ¬ W .portConfig) (p : PortNo) :
    (t.port p).cfg = (s.port p).cfg := by
  induction h with
  | trans _ _ a b => exact b.trans a
  | port s q f h =>
    rw [State.port_modPort]
    split
    · next he => subst he; rw [h.same]
    · rfl
  | portLine _ s q f hc =>
    rw [State.port_modPort]
    split
    · next he => subst he; exact hc
    · rfl
  | clearPorts _ s =>
    show ((mapTable Port.cleared s.ports)[p.val]).cfg = (s.ports[p.val]).cfg
    rw [getElem_mapTable]
    rfl
  | portConfig h => exact absurd h h0
  | _ => rfl

/-- A port's fields other than its egress queue, its transmitter, Drops and TxAborted. -/
def Port.still (v : Port) : Port := { v with queue := [], tx := none, drops := 0, txAborted := 0 }

theorem Moves.keeps_port (h : Moves W s t) (h0 : ¬ W .portConfig) (h1 : ¬ W .portLine) (p : PortNo) :
    (t.port p).still = (s.port p).still := by
  induction h with
  | trans _ _ a b => exact b.trans a
  | port s q f h =>
    rw [State.port_modPort]
    split
    · next he => subst he; rw [h.same]; rfl
    · rfl
  | portLine h => exact absurd h h1
  | clearPorts h => exact absurd h h1
  | portConfig h => exact absurd h h0
  | _ => rfl

/-! ### Receiver, ciphers, rules, Node Map -/

theorem Moves.keeps_receiver (h : Moves W s t) (h0 : ¬ W .receiver) : t.rx = s.rx := by
  induction h with
  | trans _ _ a b => exact b.trans a
  | receiver h => exact absurd h h0
  | _ => rfl

theorem Moves.keeps_slots (h : Moves W s t) (h0 : ¬ W .slots) : t.cipher.slots = s.cipher.slots := by
  induction h with
  | trans _ _ a b => exact b.trans a
  | slots h => exact absurd h h0
  | _ => rfl

theorem Moves.keeps_active (h : Moves W s t) (h0 : ¬ W .active) : t.cipher.active = s.cipher.active := by
  induction h with
  | trans _ _ a b => exact b.trans a
  | active h => exact absurd h h0
  | _ => rfl

theorem Moves.keeps_accepted (h : Moves W s t) (h0 : ¬ W .accepted) (h1 : ¬ W .sequences) : t.cipher.lastAccepted = s.cipher.lastAccepted := by
  induction h with
  | trans _ _ a b => exact b.trans a
  | accepted h => exact absurd h h0
  | sequences h => exact absurd h h1
  | _ => rfl

theorem Moves.keeps_rejects (h : Moves W s t) (h0 : ¬ W .rejects) : t.cipher.rejects = s.cipher.rejects := by
  induction h with
  | trans _ _ a b => exact b.trans a
  | rejects h => exact absurd h h0
  | _ => rfl

theorem Moves.keeps_rules (h : Moves W s t) (h0 : ¬ W .rules) (h1 : ¬ W .hits) : t.rules = s.rules := by
  induction h with
  | trans _ _ a b => exact b.trans a
  | rules h => exact absurd h h0
  | hits h => exact absurd h h1
  | clearHits h => exact absurd h h1
  | _ => rfl

/-- A rule without its hit counter. -/
def Rule.still (r : Rule) : Rule := { r with hits := 0 }

theorem Moves.keeps_rule (h : Moves W s t) (h0 : ¬ W .rules) (i : RuleNo) : (t.rule i).still = (s.rule i).still := by
  induction h with
  | trans _ _ a b => exact b.trans a
  | rules h => exact absurd h h0
  | hits _ s j =>
    unfold State.rule State.countHit
    simp only [Vector.getElem_set]
    split
    · next he =>
      obtain rfl : j = i := Fin.ext he
      rfl
    · rfl
  | clearHits _ s =>
    show ((mapTable (fun r : Rule => { r with hits := 0 }) s.rules)[i.val]).still = (s.rules[i.val]).still
    rw [getElem_mapTable]
    rfl
  | _ => rfl

theorem Moves.keeps_nodeMap (h : Moves W s t) (h0 : ¬ W .nodeMap) : t.nodeMap = s.nodeMap := by
  induction h with
  | trans _ _ a b => exact b.trans a
  | nodeMap h => exact absurd h h0
  | _ => rfl

/-! ### Trunk, Command Unit, Fault Unit -/

theorem Moves.keeps_fragSize (h : Moves W s t) (h0 : ¬ W .fragSize) : t.trunk.fragSize = s.trunk.fragSize := by
  induction h with
  | trans _ _ a b => exact b.trans a
  | trunk s u h => rw [h.same]
  | fragSize h => exact absurd h h0
  | trunkLine _ s u hf => exact hf
  | _ => rfl

/-- The line state, the egress counters and the bytes last sent. -/
def Trunk.still (v : Trunk) : Trunk :=
  { v with fragSize := 0, inFlight := none, log := [], logOverflow := false, formingFailures := 0 }

theorem Moves.keeps_trunkLine (h : Moves W s t) (h0 : ¬ W .trunkLine) : t.trunk.still = s.trunk.still := by
  induction h with
  | trans _ _ a b => exact b.trans a
  | trunk s u h => rw [h.same]; rfl
  | trunkLine h => exact absurd h h0
  | _ => rfl

theorem Moves.keeps_access (h : Moves W s t) (h0 : ¬ W .access) : t.cmd.access = s.cmd.access := by
  induction h with
  | trans _ _ a b => exact b.trans a
  | cmd s u h => exact h.access
  | access h => exact absurd h h0
  | _ => rfl

theorem Moves.keeps_noticeNode (h : Moves W s t) (h0 : ¬ W .notices) : t.fault.noticeNode = s.fault.noticeNode := by
  induction h with
  | trans _ _ a b => exact b.trans a
  | notices h => exact absurd h h0
  | _ => rfl

theorem Moves.keeps_noticeKinds (h : Moves W s t) (h0 : ¬ W .notices) : t.fault.noticeKinds = s.fault.noticeKinds := by
  induction h with
  | trans _ _ a b => exact b.trans a
  | notices h => exact absurd h h0
  | _ => rfl

end Sys2Proof.Machine
end

