-- ==== Sys2Proof/Laws/Leaves.lean ====
section
/-! SUPPORT. What the shared operations leave: the levels but the one they offer to, the trunk, the mode, and a store
with no corrupted cell. -/

namespace Sys2Proof.Machine

open Sys2Proof

variable (s : State)

/-- What an operation that works for a level leaves: every level but one, the trunk, the mode, the Time Base, the
settings and keys, and a store in which no cell is corrupted. -/
structure LeavesBut (l : Level) (s t : State) : Prop where
  lvl : ∀ m, m ≠ l → t.lvl m = s.lvl m
  trunk : t.trunk = s.trunk
  ctl : t.ctl = s.ctl
  now : t.now = s.now
  cipher : t.cipher = s.cipher
  rx : t.rx = s.rx
  sound : s.store.corrupted = [] → t.store.corrupted = []

theorem LeavesBut.refl (l : Level) : LeavesBut l s s := ⟨fun _ _ => rfl, rfl, rfl, rfl, rfl, rfl, id⟩

theorem LeavesBut.trans {l : Level} {s t u : State} (h : LeavesBut l s t) (h' : LeavesBut l t u) : LeavesBut l s u :=
  ⟨fun m hm => (h'.lvl m hm).trans (h.lvl m hm), h'.trunk.trans h.trunk, h'.ctl.trans h.ctl, h'.now.trans h.now,
    h'.cipher.trans h.cipher, h'.rx.trans h.rx, fun hs => h'.sound (h.sound hs)⟩

/-- An operation that changes no level. -/
structure LeavesLevels (s t : State) : Prop where
  levels : t.levels = s.levels
  trunk : t.trunk = s.trunk
  ctl : t.ctl = s.ctl
  now : t.now = s.now
  cipher : t.cipher = s.cipher
  rx : t.rx = s.rx
  sound : s.store.corrupted = [] → t.store.corrupted = []

theorem LeavesLevels.refl : LeavesLevels s s := ⟨rfl, rfl, rfl, rfl, rfl, rfl, id⟩

theorem LeavesLevels.trans {s t u : State} (h : LeavesLevels s t) (h' : LeavesLevels t u) : LeavesLevels s u :=
  ⟨h'.levels.trans h.levels, h'.trunk.trans h.trunk, h'.ctl.trans h.ctl, h'.now.trans h.now,
    h'.cipher.trans h.cipher, h'.rx.trans h.rx, fun hs => h'.sound (h.sound hs)⟩

theorem LeavesLevels.lvl {s t : State} (h : LeavesLevels s t) (l : Level) : t.lvl l = s.lvl l := by
  unfold State.lvl; simp only [h.levels]

theorem LeavesLevels.but {s t : State} (h : LeavesLevels s t) (l : Level) : LeavesBut l s t :=
  ⟨fun m _ => h.lvl m, h.trunk, h.ctl, h.now, h.cipher, h.rx, h.sound⟩

/-! ### Store, ports -/

theorem State.release_leaves (e : EntryNo) : LeavesLevels s (s.release e) := by
  unfold State.release
  split
  · exact .refl s
  · split
    · exact ⟨rfl, rfl, rfl, rfl, rfl, rfl, id⟩
    · exact ⟨rfl, rfl, rfl, rfl, rfl, rfl, id⟩

theorem State.modEntry_leaves (e : EntryNo) (f : FrameEntry → FrameEntry) : LeavesLevels s (s.modEntry e f) :=
  ⟨rfl, rfl, rfl, rfl, rfl, rfl, id⟩

theorem State.modPort_leaves (p : PortNo) (f : Port → Port) : LeavesLevels s (s.modPort p f) :=
  ⟨rfl, rfl, rfl, rfl, rfl, rfl, id⟩

theorem State.accept_leaves (e : EntryNo) (first : Bool) : LeavesLevels s (s.accept e first) := by
  unfold State.accept
  split
  · exact .refl s
  · exact s.modEntry_leaves e _

theorem State.startTx_leaves (p : PortNo) : LeavesLevels s (s.startTx p) := by
  unfold State.startTx
  split
  · split
    · exact .refl s
    · exact s.modPort_leaves p _
  · exact .refl s

theorem State.allocReserve_leaves (n : Nat) (f : FrameEntry) : LeavesLevels s (s.allocReserve n f).2 := by
  unfold State.allocReserve
  split
  · split
    · next e st h =>
      refine ⟨rfl, rfl, rfl, rfl, rfl, rfl, fun hs => ?_⟩
      unfold Store.take at h
      split at h
      · cases h
      · cases h; exact hs
    · exact ⟨rfl, rfl, rfl, rfl, rfl, rfl, id⟩
  · exact ⟨rfl, rfl, rfl, rfl, rfl, rfl, id⟩

theorem State.writePayload_leaves (e : EntryNo) (offset : Nat) (bytes : List Byte) :
    LeavesLevels s (s.writePayload e offset bytes) := by
  refine ⟨rfl, rfl, rfl, rfl, rfl, rfl, fun hs => ?_⟩
  show List.filter _ s.store.corrupted = []
  rw [hs]; rfl

theorem State.fillResponse_leaves (e : EntryNo) (payload : List Byte) : LeavesLevels s (s.fillResponse e payload) := by
  unfold State.fillResponse
  dsimp only
  refine LeavesLevels.trans ?_ (State.writePayload_leaves _ e 0 payload)
  exact ⟨rfl, rfl, rfl, rfl, rfl, rfl, id⟩

theorem State.joinEgress_leaves (p : PortNo) (e : EntryNo) (first : Bool) :
    LeavesLevels s (s.joinEgress p e first) :=
  ((s.accept_leaves e first).trans (State.modPort_leaves _ p _)).trans (State.startTx_leaves _ p)

theorem State.offerPort_leaves (p : PortNo) (e : EntryNo) (first : Bool) :
    LeavesLevels s (s.offerPort p e first).2 := by
  unfold State.offerPort
  split
  · exact s.modPort_leaves p _
  · split
    · exact s.joinEgress_leaves p e first
    · split
      · exact s.modPort_leaves p _
      · split
        · exact ((s.modPort_leaves p _).trans (State.release_leaves _ _)).trans (State.joinEgress_leaves _ p e first)
        · exact s.modPort_leaves p _

/-! ### Offers to a level -/

theorem State.modLvl_leaves (l : Level) (f : LevelEntry → LevelEntry) : LeavesBut l s (s.modLvl l f) :=
  ⟨fun _ hm => s.lvl_modLvl_ne hm f, rfl, rfl, rfl, rfl, rfl, id⟩

theorem State.triggerAuction_leaves : LeavesLevels s s.triggerAuction := ⟨rfl, rfl, rfl, rfl, rfl, rfl, id⟩

theorem State.offerLevel_leaves (l : Level) (e : EntryNo) (first : Bool) :
    LeavesBut l s (s.offerLevel l e first).2 := by
  unfold State.offerLevel
  split
  · exact s.modLvl_leaves l _
  · exact (((s.accept_leaves e first).but l).trans (State.modLvl_leaves _ l _)).trans
      ((State.triggerAuction_leaves _).but l)

theorem State.offerAll_level (l : Level) (e : EntryNo) : LeavesBut l s (s.offerAll e [.level l]) := by
  have h := s.offerLevel_leaves l e true
  unfold State.offerAll
  simp only [List.foldl_cons, List.foldl_nil, State.makeOffer, Bool.not_false, Bool.false_or]
  split
  · exact h
  · exact h.trans ((State.release_leaves _ e).but l)

theorem State.offerAll_port (p : PortNo) (e : EntryNo) : LeavesLevels s (s.offerAll e [.port p]) := by
  have h := s.offerPort_leaves p e true
  unfold State.offerAll
  simp only [List.foldl_cons, List.foldl_nil, State.makeOffer, Bool.not_false, Bool.false_or]
  split
  · exact h
  · exact h.trans (State.release_leaves _ e)

/-! ### Faults and responses -/

theorem State.raise_leaves (k : FaultKind) (f : FaultFields) : LeavesBut 0 s (s.raise k f) := by
  unfold State.raise
  dsimp only
  have h0 : LeavesBut 0 s { s with fault := s.fault.record { kind := k, time := s.now, fields := f } } :=
    ⟨fun _ _ => rfl, rfl, rfl, rfl, rfl, rfl, id⟩
  split
  · refine h0.trans ?_
    have ha := State.allocReserve_leaves { s with fault := s.fault.record { kind := k, time := s.now, fields := f } } 1
      (State.noticeEntry { s with fault := s.fault.record { kind := k, time := s.now, fields := f } })
    unfold State.buildNotice
    split
    · next t heq => rw [heq] at ha; exact ha.but 0
    · next e t heq =>
      rw [heq] at ha
      exact ((ha.trans (t.writePayload_leaves e 0 _)).but 0).trans (State.offerAll_level _ 0 e)
  · exact h0

theorem State.routeResponse_leaves (e : EntryNo) (o : Sender) : LeavesBut 1 s (s.routeResponse e o) := by
  cases o with
  | trunk => exact s.offerAll_level 1 e
  | station p =>
    unfold State.routeResponse
    dsimp only
    split
    · exact (s.offerAll_port p e).but 1
    · have h := (s.release_leaves e).but 1
      exact ⟨h.lvl, h.trunk, h.ctl, h.now, h.cipher, h.rx, h.sound⟩

theorem State.buildLongResponse_leaves (r : LongRecord) : LeavesBut 1 s (s.buildLongResponse r).2 := by
  have ha := s.allocReserve_leaves (cellsFor (responsePayload r.op.code r.tag .ok []).length) (s.responseEntry r.node)
  unfold State.buildLongResponse
  dsimp only
  split
  · next t heq => rw [heq] at ha; exact ha.but 1
  · next e t heq =>
    rw [heq] at ha
    exact ((ha.trans (t.fillResponse_leaves e _)).but 1).trans (State.routeResponse_leaves _ e _)

theorem State.setCmd_leaves (u : CommandUnit) (l : Level) : LeavesBut l s { s with cmd := u } :=
  ⟨fun _ _ => rfl, rfl, rfl, rfl, rfl, rfl, id⟩

theorem State.endLongOp_leaves (op : LongOp) : LeavesBut 1 s (s.endLongOp op) := by
  unfold State.endLongOp
  split
  · exact .refl s 1
  · next r _ =>
    dsimp only
    have h := (s.setCmd_leaves { s.cmd with longOps := s.cmd.longOps.filter fun r => r.op != op } 1).trans
      (State.buildLongResponse_leaves _ r)
    split
    · next t heq => rw [heq] at h; exact h
    · next t heq => rw [heq] at h; exact h.trans (t.setCmd_leaves _ 1)

/-- R19: the completion of a flush clears the level's note; the response may join level 1. -/
theorem State.flushComplete_spec (l : Level) :
    LeavesBut 1 (s.modLvl l fun v => { v with flushPending := none }) (s.flushComplete l) := by
  unfold State.flushComplete
  split
  · exact State.endLongOp_leaves _ _
  · next h =>
    have hn : (s.lvl l).flushPending = none := by simpa using h
    refine ⟨fun m _ => ?_, rfl, rfl, rfl, rfl, rfl, id⟩
    rw [State.lvl_modLvl]
    split
    · next he => subst he; rw [← hn]
    · rfl

theorem State.flushComplete_of_none (l : Level) (h : (s.lvl l).flushPending = none) : s.flushComplete l = s := by
  unfold State.flushComplete
  simp [h]

/-! ### Attempts -/

/-- An attempt that reaches its action and answers ends as its answer says. -/
theorem State.Attempts.answers {s found t u : State} {k : Command} {c : CommandFrame} {e : EntryNo} {st : Status}
    {r : List Byte} {act : CommandAct} (h : s.Attempts k c found e t) (ha : act c found t = .answer st r u) :
    s.runCommand k act = .next (u.answered c e st r) := by
  unfold State.runCommand State.attempt
  simp only [h.turn, h.code, if_true, h.storage, State.precheck, h.access, h.mode, h.args, Bool.not_true,
    Bool.false_eq_true, if_false, ha]
  rfl

/-- An attempt that reaches its action and becomes pending ends as a long operation. -/
theorem State.Attempts.pends {s found t u : State} {k : Command} {c : CommandFrame} {e : EntryNo} {op : LongOp}
    {act : CommandAct} (h : s.Attempts k c found e t) (ha : act c found t = .pend op u) :
    s.runCommand k act = .next (u.pended c e op) := by
  unfold State.runCommand State.attempt
  simp only [h.turn, h.code, if_true, h.storage, State.precheck, h.access, h.mode, h.args, Bool.not_true,
    Bool.false_eq_true, if_false, ha]
  rfl

end Sys2Proof.Machine
end

