-- ==== Sys2Proof/Laws/Holders.lean ====
section
/-! SUPPORT. The accounting of holders (R28) through the operations of the Frame Store, the offers, the Fault Unit and
the responses: a step is followed with the holds that a block has in hand beside those that stand in the state. -/

namespace Sys2Proof.Machine

open Sys2Proof

/-! ### Counting -/

/-- Changing what one index of a list without repetition gives changes the count by that index alone. -/
theorem count_flatMap_update {ι : Type} (is : List ι) (hn : is.Nodup) {i : ι} (hi : i ∈ is)
    {g g' : ι → List EntryNo} (hg : ∀ j, j ≠ i → g' j = g j) (e : EntryNo) :
    (is.flatMap g').count e + (g i).count e = (is.flatMap g).count e + (g' i).count e := by
  induction is with
  | nil => cases hi
  | cons j is ih =>
    simp only [List.flatMap_cons, List.count_append]
    have ⟨hj, hn'⟩ := List.nodup_cons.mp hn
    rcases List.mem_cons.mp hi with rfl | hi
    · have h : is.flatMap g' = is.flatMap g :=
        List.flatMap_congr fun k hk => hg k fun he => hj (he ▸ hk)
      rw [h]; omega
    · have hne : j ≠ i := fun h => hj (h ▸ hi)
      have := ih hn' hi
      rw [hg j hne]; omega

theorem allLevels_nodup : allLevels.Nodup := by decide
theorem allPorts_nodup : allPorts.Nodup := by decide
theorem mem_allLevels (l : Level) : l ∈ allLevels := by revert l; decide
theorem mem_allPorts (p : PortNo) : p ∈ allPorts := by revert p; decide

/-! ### The accounting -/

/-- What the receives, the reassemblies and the Command Unit hold, as the state has it. -/
structure SoleView where
  rx : PortNo → Receive
  active : PortNo → Bool
  ctxs : Vector Reassembly 32
  fifo : List EntryNo
  inHand : Option EntryNo

/-- The view of a state. -/
def State.soleView (s : State) : SoleView :=
  { rx := fun p => (s.port p).rx, active := fun p => (s.port p).rxActive, ctxs := s.rx.ctxs, fifo := s.cmd.fifo,
    inHand := s.cmd.inHand }

/-- The entries a view holds. -/
def SoleView.held (v : SoleView) : List EntryNo :=
  (allPorts.flatMap fun p => (v.rx p).held) ++ (allLevels.flatMap fun l => v.ctxs[l.val].held) ++
    (v.fifo ++ v.inHand.toList)

/-- How often an entry is referenced: by the levels, by the transmit sides of the ports, as a sole hold, and loosely in
the hand of the operation under way. -/
def references (lv : List EntryNo) (eg : PortNo → List EntryNo) (so L : List EntryNo) (e : EntryNo) : Nat :=
  lv.count e + (allPorts.flatMap eg).count e + so.count e + L.count e

/-- The holder counts of a table of entries agree with the references. -/
structure HoldersAgree (free : List EntryNo) (table : List (EntryNo × FrameEntry)) (lv : List EntryNo)
    (eg : PortNo → List EntryNo) (so L : List EntryNo) : Prop where
  keys : (free ++ table.map Prod.fst).Nodup
  counted : ∀ e f, table.lookup e = some f →
    f.holders = references lv eg so L e ∧ 1 ≤ f.holders ∧ f.holders ≤ 4
  inUse : ∀ e, 0 < references lv eg so L e → (table.lookup e).isSome = true
  alone : ∀ e ∈ so, references lv eg so L e = 1
  oneLevel : ∀ e, lv.count e ≤ 1
  onePlace : ∀ p e, (eg p).count e ≤ 1

/-- The accounting of a state within a step: `v` is its view, `so` are the sole holds, those of the view and of what an
operation has newly allocated, and `L` are the holds that have been taken from their holder and are about to be
released. -/
def State.Held (v : SoleView) (so L : List EntryNo) (s : State) : Prop :=
  s.soleView = v ∧
    HoldersAgree s.store.freeEntries s.store.entries s.levelHeld (fun p => (s.port p).egressHeld) so L

section
variable {free : List EntryNo} {table : List (EntryNo × FrameEntry)} {lv lv' : List EntryNo}
  {eg eg' : PortNo → List EntryNo} {so so' L L' : List EntryNo}

/-- Holds may move from place to place. -/
theorem HoldersAgree.recount (h : HoldersAgree free table lv eg so L)
    (hr : ∀ e, references lv' eg' so' L' e = references lv eg so L e) (ha : ∀ e ∈ so', references lv eg so L e = 1)
    (ho : ∀ e, lv'.count e ≤ 1) (hp : ∀ p e, (eg' p).count e ≤ 1) : HoldersAgree free table lv' eg' so' L' :=
  ⟨h.keys, fun e f hf => by rw [hr]; exact h.counted e f hf, fun e he => h.inUse e (by rw [← hr]; exact he),
    fun e he => by rw [hr]; exact ha e he, ho, hp⟩

/-- The table may change in anything but the numbers in use and the holder counts. -/
theorem HoldersAgree.retable {table' : List (EntryNo × FrameEntry)} (h : HoldersAgree free table lv eg so L)
    (hk : table'.map Prod.fst = table.map Prod.fst)
    (hl : ∀ e, (table'.lookup e).map FrameEntry.holders = (table.lookup e).map FrameEntry.holders) :
    HoldersAgree free table' lv eg so L := by
  refine ⟨by rw [hk]; exact h.keys, fun e f hf => ?_, fun e he => ?_, h.alone, h.oneLevel, h.onePlace⟩
  · have := hl e
    rw [hf] at this
    obtain ⟨g, hg, hh⟩ := Option.map_eq_some_iff.mp this.symm
    rw [← hh]
    exact h.counted e g hg
  · have := congrArg Option.isSome (hl e)
    rw [Option.isSome_map, Option.isSome_map] at this
    rw [this]
    exact h.inUse e he

theorem HoldersAgree.keys_nodup (h : HoldersAgree free table lv eg so L) : (table.map Prod.fst).Nodup :=
  (List.nodup_append.mp h.keys).2.1

/-- A free entry has no references. -/
theorem HoldersAgree.free_unreferenced (h : HoldersAgree free table lv eg so L) {e : EntryNo} (he : e ∈ free) :
    table.lookup e = none ∧ references lv eg so L e = 0 := by
  have hn : table.lookup e = none := by
    cases hl : table.lookup e with
    | none => rfl
    | some f =>
      have hm : e ∈ table.map Prod.fst := List.mem_map_of_mem (f := Prod.fst) (lookup_mem hl)
      exact absurd rfl ((List.nodup_append.mp h.keys).2.2 e he e hm)
  refine ⟨hn, ?_⟩
  by_contra hr
  have := h.inUse e (Nat.pos_of_ne_zero hr)
  rw [hn] at this
  cases this

end

theorem lookup_putEntry_same (t : List (EntryNo × FrameEntry)) (e : EntryNo) (f : FrameEntry) :
    (putEntry t e f).lookup e = some f := by
  induction t with
  | nil => simp [putEntry]
  | cons x t ih =>
    obtain ⟨d, g⟩ := x
    unfold putEntry
    split
    · simp
    · split
      · simp
      · next hd => simp only [List.lookup_cons, beq_eq_false_iff_ne.mpr hd, ih]

theorem lookup_dropEntry_same (t : List (EntryNo × FrameEntry)) (e : EntryNo) : (dropEntry t e).lookup e = none := by
  induction t with
  | nil => rfl
  | cons x t ih =>
    obtain ⟨d, g⟩ := x
    unfold dropEntry at ih ⊢
    by_cases hd : d = e
    · simp [hd, ih]
    · simp [hd, List.lookup_cons, beq_eq_false_iff_ne.mpr (Ne.symm hd), ih]

theorem lookup_changeEntry_same (t : List (EntryNo × FrameEntry)) (e : EntryNo) (g : FrameEntry → FrameEntry) :
    (changeEntry t e g).lookup e = (t.lookup e).map g := by
  induction t with
  | nil => rfl
  | cons x t ih =>
    obtain ⟨d, f⟩ := x
    unfold changeEntry at ih ⊢
    by_cases hd : d = e
    · simp [hd]
    · simp only [List.map_cons, hd, if_false, List.lookup_cons, beq_eq_false_iff_ne.mpr (Ne.symm hd)]
      exact ih

theorem changeEntry_keys (t : List (EntryNo × FrameEntry)) (e : EntryNo) (g : FrameEntry → FrameEntry) :
    (changeEntry t e g).map Prod.fst = t.map Prod.fst := by
  unfold changeEntry
  rw [List.map_map]
  refine List.map_congr_left fun x _ => ?_
  simp only [Function.comp]
  split <;> rfl

theorem State.modEntry_entries (s : State) (e : EntryNo) (g : FrameEntry → FrameEntry) :
    (s.modEntry e g).store.entries = changeEntry s.store.entries e g := rfl

variable {v w : SoleView} {so so' L L' : List EntryNo} {s : State}

/-! ### Changes that move no hold -/

theorem State.Held.view (h : s.Held v so L) : s.soleView = v := h.1

theorem State.Held.perm (h : s.Held v so L) (h1 : so'.Perm so) (h2 : L'.Perm L) : s.Held v so' L' := by
  refine ⟨h.1, h.2.recount (fun e => ?_) (fun e he => h.2.alone e (h1.mem_iff.mp he)) h.2.oneLevel h.2.onePlace⟩
  simp only [references, h1.count_eq, h2.count_eq]

/-- An entry that is a sole hold may be made loose. -/
theorem State.Held.loosen {e : EntryNo} (h : s.Held v (e :: so) L) : s.Held v so (e :: L) := by
  refine ⟨h.1, h.2.recount (fun d => ?_) (fun d hd => h.2.alone d (List.mem_cons_of_mem e hd)) h.2.oneLevel
    h.2.onePlace⟩
  simp only [references, List.count_cons]
  omega

theorem State.Held.modEntry (h : s.Held v so L) (e : EntryNo) (g : FrameEntry → FrameEntry)
    (hg : ∀ f, (g f).holders = f.holders) : (s.modEntry e g).Held v so L := by
  refine ⟨h.1, h.2.retable (changeEntry_keys _ e g) fun d => ?_⟩
  by_cases hd : d = e
  · subst hd
    show ((changeEntry s.store.entries d g).lookup d).map _ = _
    rw [lookup_changeEntry_same]
    cases s.store.entries.lookup d with
    | none => rfl
    | some f => simp [hg]
  · show ((changeEntry s.store.entries e g).lookup d).map _ = _
    rw [lookup_changeEntry_ne _ hd]

theorem State.Held.trim (h : s.Held v so L) (e : EntryNo) (f : FrameEntry) (n : Nat) :
    ({ s with store := s.store.trim e f n } : State).Held v so L :=
  h.modEntry e (fun f => { f with cells := f.cells.take n }) fun _ => rfl

theorem State.Held.retireAndCount (h : s.Held v so L) (e : EntryNo) (cell : CellNo) :
    ({ s with store := s.store.retireAndCount e cell } : State).Held v so L :=
  h.modEntry e (fun f => { f with cells := f.cells.erase cell }) fun _ => rfl

theorem State.Held.writePayload (h : s.Held v so L) (e : EntryNo) (offset : Nat) (bytes : List Byte) :
    (s.writePayload e offset bytes).Held v so L := h

theorem State.Held.refuseAlloc (h : s.Held v so L) : s.refuseAlloc.Held v so L := h

theorem State.Held.corrupt (h : s.Held v so L) (cells : List CellNo) : (s.corrupt cells).Held v so L := h

theorem State.Held.triggerAuction (h : s.Held v so L) : s.triggerAuction.Held v so L := h

/-! ### Changes of one level or port -/

/-- A change of one level moves holds between the level and the hands of the operation. -/
theorem State.Held.modLvl (h : s.Held v so L) (l : Level) (f : LevelEntry → LevelEntry)
    (hr : ∀ e, (f (s.lvl l)).held.count e + so'.count e + L'.count e =
      (s.lvl l).held.count e + so.count e + L.count e)
    (ha : ∀ e ∈ so', e ∈ so) (ho : ∀ e, (f (s.lvl l)).held.count e ≤ (s.lvl l).held.count e ∨ e ∈ so) :
    (s.modLvl l f).Held v so' L' := by
  have hc : ∀ e, (s.modLvl l f).levelHeld.count e + (s.lvl l).held.count e =
      s.levelHeld.count e + (f (s.lvl l)).held.count e := fun e => by
    have := count_flatMap_update allLevels allLevels_nodup (mem_allLevels l)
      (g := fun m => (s.lvl m).held) (g' := fun m => ((s.modLvl l f).lvl m).held)
      (fun m hm => by rw [s.lvl_modLvl_ne hm]) e
    simp only [State.lvl_modLvl_same] at this
    exact this
  have href : ∀ e, references (s.modLvl l f).levelHeld (fun p => (s.port p).egressHeld) so' L' e =
      references s.levelHeld (fun p => (s.port p).egressHeld) so L e := fun e => by
    have h1 := hc e
    have h2 := hr e
    simp only [references]
    omega
  refine ⟨h.1, h.2.recount href (fun e he => h.2.alone e (ha e he)) (fun e => ?_) h.2.onePlace⟩
  rcases ho e with hle | hs
  · have h1 := hc e
    have h2 := h.2.oneLevel e
    omega
  · have h1 := (href e).trans (h.2.alone e hs)
    simp only [references] at h1
    omega

/-- A change of a level's fields that leaves its queue and its context's entry. -/
theorem State.Held.modLvl_same (h : s.Held v so L) (l : Level) (f : LevelEntry → LevelEntry)
    (hf : (f (s.lvl l)).held = (s.lvl l).held) : (s.modLvl l f).Held v so L :=
  h.modLvl l f (fun e => by rw [hf]) (fun _ he => he) fun e => .inl (by rw [hf])

/-- The view after a change of one port that leaves its receive. -/
theorem State.soleView_modPort (s : State) (p : PortNo) (f : Port → Port) (h1 : (f (s.port p)).rx = (s.port p).rx)
    (h2 : (f (s.port p)).rxActive = (s.port p).rxActive) : (s.modPort p f).soleView = s.soleView := by
  unfold State.soleView
  congr 1
  · funext q
    rw [State.port_modPort]
    split
    · next he => subst he; exact h1
    · rfl
  · funext q
    rw [State.port_modPort]
    split
    · next he => subst he; exact h2
    · rfl

/-- A change of one port moves holds between its transmit side and the hands of the operation. -/
theorem State.Held.modPort (h : s.Held v so L) (p : PortNo) (f : Port → Port)
    (hv : (s.modPort p f).soleView = w)
    (hr : ∀ e, (f (s.port p)).egressHeld.count e + so'.count e + L'.count e =
      (s.port p).egressHeld.count e + so.count e + L.count e)
    (ha : ∀ e ∈ so', e ∈ so) (ho : ∀ e, (f (s.port p)).egressHeld.count e ≤ 1) :
    (s.modPort p f).Held w so' L' := by
  refine ⟨hv, h.2.recount (fun e => ?_) (fun e he => h.2.alone e (ha e he)) h.2.oneLevel fun q e => ?_⟩
  · have hc := count_flatMap_update allPorts allPorts_nodup (mem_allPorts p)
      (g := fun q => (s.port q).egressHeld) (g' := fun q => ((s.modPort p f).port q).egressHeld)
      (fun q hq => by rw [s.port_modPort_ne hq]) e
    simp only [State.port_modPort_same] at hc
    have h2 := hr e
    show s.levelHeld.count e + _ + _ + _ = _
    simp only [references]
    omega
  · show ((s.modPort p f).port q).egressHeld.count e ≤ 1
    rw [State.port_modPort]
    split
    · exact ho e
    · exact h.2.onePlace q e

/-- A change of a port's fields that leaves its transmit side and its receive. -/
theorem State.Held.modPort_same (h : s.Held v so L) (p : PortNo) (f : Port → Port)
    (h1 : (f (s.port p)).rx = (s.port p).rx) (h2 : (f (s.port p)).rxActive = (s.port p).rxActive)
    (h3 : (f (s.port p)).egressHeld = (s.port p).egressHeld) : (s.modPort p f).Held v so L :=
  h.modPort p f ((s.soleView_modPort p f h1 h2).trans h.1) (fun e => by rw [h3]) (fun _ he => he)
    fun e => by rw [h3]; exact h.2.onePlace p e

/-! ### Allocation, release, a further holder -/

theorem State.Held.take {cells : Nat} {f : FrameEntry} {e : EntryNo} {st : Store} (h : s.Held v so L)
    (ht : s.store.take cells f = some (e, st)) : ({ s with store := st } : State).Held v (e :: so) L := by
  unfold Store.take at ht
  split at ht
  · cases ht
  · next d rest hr =>
    cases ht
    obtain ⟨hn, h0⟩ := h.2.free_unreferenced (e := e) (by rw [hr]; exact List.mem_cons_self)
    have href : ∀ d, references s.levelHeld (fun p => (s.port p).egressHeld) (e :: so) L d =
        references s.levelHeld (fun p => (s.port p).egressHeld) so L d + (if d = e then 1 else 0) := fun d => by
      simp only [references, List.count_cons, beq_iff_eq, eq_comm (a := e)]
      omega
    refine ⟨h.1, ?_, fun d g hd => ?_, fun d hd => ?_, fun d hd => ?_, h.2.oneLevel, h.2.onePlace⟩
    · have hk := h.2.keys
      rw [hr] at hk
      have hp := (putEntry_perm { f with cells := s.store.freeCells.take cells, holders := 1 } hn).map Prod.fst
      refine ((List.Perm.append_left rest hp).trans List.perm_middle).nodup_iff.mpr ?_
      exact hk
    · show _ = references s.levelHeld (fun p => (s.port p).egressHeld) (e :: so) L d ∧ _
      rw [href d]
      by_cases he : d = e
      · subst he
        have hd' : (putEntry s.store.entries d _).lookup d = some g := hd
        rw [lookup_putEntry_same] at hd'
        cases hd'
        simp [h0]
      · have hd' : (putEntry s.store.entries e _).lookup d = some g := hd
        rw [lookup_putEntry_ne _ he] at hd'
        simpa [he] using h.2.counted d g hd'
    · show ((putEntry s.store.entries e _).lookup d).isSome = true
      by_cases he : d = e
      · subst he
        rw [lookup_putEntry_same]; rfl
      · rw [lookup_putEntry_ne _ he]
        have hd' : 0 < references s.levelHeld (fun p => (s.port p).egressHeld) (e :: so) L d := hd
        rw [href d, if_neg he] at hd'
        exact h.2.inUse d hd'
    · show references s.levelHeld (fun p => (s.port p).egressHeld) (e :: so) L d = 1
      rw [href d]
      by_cases he : d = e
      · subst he; simp [h0]
      · rw [if_neg he]
        rcases List.mem_cons.mp hd with hd | hd
        · exact absurd hd he
        · exact h.2.alone d hd

theorem State.Held.allocTraffic {f : FrameEntry} (h : s.Held v so L) :
    (∀ e t, s.allocTraffic f = (some e, t) → t.Held v (e :: so) L) ∧
      ∀ t, s.allocTraffic f = (none, t) → t.Held v so L := by
  unfold State.allocTraffic
  split
  · split
    · next e st ht => exact ⟨fun d t hd => by cases hd; exact h.take ht, fun t ht => by cases ht⟩
    · exact ⟨fun d t hd => (by cases hd), fun t ht => by cases ht; exact h.refuseAlloc⟩
  · exact ⟨fun d t hd => (by cases hd), fun t ht => by cases ht; exact h.refuseAlloc⟩

theorem State.Held.allocReserve {n : Nat} {f : FrameEntry} (h : s.Held v so L) :
    (∀ e t, s.allocReserve n f = (some e, t) → t.Held v (e :: so) L) ∧
      ∀ t, s.allocReserve n f = (none, t) → t.Held v so L := by
  unfold State.allocReserve
  split
  · split
    · next e st ht => exact ⟨fun d t hd => by cases hd; exact h.take ht, fun t ht => by cases ht⟩
    · exact ⟨fun d t hd => (by cases hd), fun t ht => by cases ht; exact h.refuseAlloc⟩
  · exact ⟨fun d t hd => (by cases hd), fun t ht => by cases ht; exact h.refuseAlloc⟩

theorem CommandUnit.noteFreed_fifo (u : CommandUnit) : u.noteFreed.fifo = u.fifo := by
  unfold CommandUnit.noteFreed; split <;> rfl

theorem CommandUnit.noteFreed_inHand (u : CommandUnit) : u.noteFreed.inHand = u.inHand := by
  unfold CommandUnit.noteFreed; split <;> rfl

/-- R29, R30: a release takes one loose hold away. -/
theorem State.Held.release {e : EntryNo} (h : s.Held v so (e :: L)) : (s.release e).Held v so L := by
  have href : ∀ d, references s.levelHeld (fun p => (s.port p).egressHeld) so (e :: L) d =
      references s.levelHeld (fun p => (s.port p).egressHeld) so L d + (if d = e then 1 else 0) := fun d => by
    simp only [references, List.count_cons, beq_iff_eq, eq_comm (a := e)]
    omega
  have hso : e ∉ so := fun he => by
    have h1 := h.2.alone e he
    rw [href e, if_pos rfl] at h1
    have := List.count_pos_iff.mpr he
    simp only [references] at h1
    omega
  have halone : ∀ d ∈ so, references s.levelHeld (fun p => (s.port p).egressHeld) so L d = 1 := fun d hd => by
    have := h.2.alone d hd
    rw [href d, if_neg (fun he : d = e => hso (he ▸ hd))] at this
    exact this
  unfold State.release
  split
  · next hn =>
    have := h.2.inUse e (by rw [href e, if_pos rfl]; omega)
    rw [show s.store.entries.lookup e = none from hn] at this
    cases this
  · next f hf =>
    obtain ⟨h1, h2, h3⟩ := h.2.counted e f hf
    rw [href e, if_pos rfl] at h1
    split
    · next hle =>
      have h0 : references s.levelHeld (fun p => (s.port p).egressHeld) so L e = 0 := by omega
      refine ⟨?_, ?_, fun d g hd => ?_, fun d hd => ?_, halone, h.2.oneLevel, h.2.onePlace⟩
      · rw [← h.1]
        unfold State.soleView
        simp only [CommandUnit.noteFreed_fifo, CommandUnit.noteFreed_inHand]
        rfl
      · refine List.Perm.nodup_iff ?_ |>.mpr h.2.keys
        show (s.store.freeEntries ++ [e] ++ (dropEntry s.store.entries e).map Prod.fst).Perm _
        have hp := (entry_perm id h.2.keys_nodup hf).1.map Prod.fst
        rw [List.append_assoc]
        exact List.Perm.append_left _ hp.symm
      · have hd' : (dropEntry s.store.entries e).lookup d = some g := hd
        have hne : d ≠ e := fun he => by subst he; rw [lookup_dropEntry_same] at hd'; cases hd'
        rw [lookup_dropEntry_ne hne] at hd'
        have := h.2.counted d g hd'
        rw [href d, if_neg hne] at this
        exact this
      · have hd' : 0 < references s.levelHeld (fun p => (s.port p).egressHeld) so L d := hd
        have hne : d ≠ e := fun he => by subst he; omega
        show ((dropEntry s.store.entries e).lookup d).isSome = true
        rw [lookup_dropEntry_ne hne]
        exact h.2.inUse d (by rw [href d]; omega)
    · next hle =>
      refine ⟨h.1, ?_, fun d g hd => ?_, fun d hd => ?_, halone, h.2.oneLevel, h.2.onePlace⟩
      · rw [State.modEntry_entries, changeEntry_keys]
        exact h.2.keys
      · show _ = references s.levelHeld (fun p => (s.port p).egressHeld) so L d ∧ _
        have hd' := hd
        rw [State.modEntry_entries] at hd'
        by_cases hne : d = e
        · subst hne
          rw [lookup_changeEntry_same, show s.store.entries.lookup d = some f from hf] at hd'
          cases hd'
          simp only
          omega
        · rw [lookup_changeEntry_ne _ hne] at hd'
          have := h.2.counted d g hd'
          rw [href d, if_neg hne] at this
          exact this
      · have hd' : 0 < references s.levelHeld (fun p => (s.port p).egressHeld) so L d := hd
        rw [State.modEntry_entries]
        have h4 := h.2.inUse d (by rw [href d]; omega)
        by_cases hne : d = e
        · subst hne
          rw [lookup_changeEntry_same, Option.isSome_map]
          exact h4
        · rw [lookup_changeEntry_ne _ hne]
          exact h4

/-- The loose holds of a list are released one by one. -/
theorem State.Held.releases (es : List EntryNo) {s : State} (h : s.Held v so (es ++ L)) :
    (es.foldl State.release s).Held v so L := by
  induction es generalizing s with
  | nil => exact h
  | cons e es ih => exact ih h.release

/-- R29: a further acceptance adds one hold, to an entry that some holder has already and that is no sole hold. -/
theorem State.Held.addHolder {e : EntryNo} (h : s.Held v so L) (he : e ∉ so)
    (h1 : 0 < references s.levelHeld (fun p => (s.port p).egressHeld) so L e)
    (h2 : references s.levelHeld (fun p => (s.port p).egressHeld) so L e ≤ 3) :
    (s.addHolder e).Held v so (e :: L) := by
  have href : ∀ d, references s.levelHeld (fun p => (s.port p).egressHeld) so (e :: L) d =
      references s.levelHeld (fun p => (s.port p).egressHeld) so L d + (if d = e then 1 else 0) := fun d => by
    simp only [references, List.count_cons, beq_iff_eq, eq_comm (a := e)]
    omega
  unfold State.addHolder
  refine ⟨h.1, ?_, fun d g hd => ?_, fun d hd => ?_, fun d hd => ?_, h.2.oneLevel, h.2.onePlace⟩
  · rw [State.modEntry_entries, changeEntry_keys]
    exact h.2.keys
  · show _ = references s.levelHeld (fun p => (s.port p).egressHeld) so (e :: L) d ∧ _
    rw [href d]
    have hd' := hd
    rw [State.modEntry_entries] at hd'
    by_cases hne : d = e
    · subst hne
      rw [lookup_changeEntry_same] at hd'
      obtain ⟨f, hf, rfl⟩ := Option.map_eq_some_iff.mp hd'
      have := h.2.counted d f hf
      simp only [if_pos]
      omega
    · rw [lookup_changeEntry_ne _ hne] at hd'
      simpa [hne] using h.2.counted d g hd'
  · have hd' : 0 < references s.levelHeld (fun p => (s.port p).egressHeld) so (e :: L) d := hd
    rw [href d] at hd'
    rw [State.modEntry_entries]
    by_cases hne : d = e
    · subst hne
      rw [lookup_changeEntry_same, Option.isSome_map]
      exact h.2.inUse d h1
    · rw [lookup_changeEntry_ne _ hne]
      exact h.2.inUse d (by rw [if_neg hne] at hd'; exact hd')
  · show references s.levelHeld (fun p => (s.port p).egressHeld) so (e :: L) d = 1
    rw [href d, if_neg (fun hde : d = e => he (hde ▸ hd))]
    exact h.2.alone d hd

/-! ### Offers (R29) -/

/-- A sole hold has no other reference. -/
theorem State.Held.fresh {e : EntryNo} (h : s.Held v (e :: so) L) :
    e ∉ so ∧ s.levelHeld.count e = 0 ∧ (∀ p, (s.port p).egressHeld.count e = 0) ∧ L.count e = 0 := by
  have h1 := h.2.alone e List.mem_cons_self
  have h2 : ∀ p, (s.port p).egressHeld.count e ≤ (allPorts.flatMap fun p => (s.port p).egressHeld).count e := fun p =>
    List.Sublist.count_le e (List.sublist_flatten_of_mem (List.mem_map_of_mem (mem_allPorts p)))
  simp only [references, List.count_cons_self] at h1
  refine ⟨fun he => ?_, by omega, fun p => ?_, by omega⟩
  · have := List.count_pos_iff.mpr he
    omega
  · have := h2 p
    omega

theorem State.Held.offerLevel {e : EntryNo} (h : s.Held v (e :: so) L) (l : Level) :
    ((s.offerLevel l e true).1 = true ∧ (s.offerLevel l e true).2.Held v so L) ∨
      ((s.offerLevel l e true).1 = false ∧ (s.offerLevel l e true).2.Held v (e :: so) L) := by
  unfold State.offerLevel
  split
  · exact .inr ⟨rfl, h.modLvl_same l _ rfl⟩
  · refine .inl ⟨rfl, State.Held.triggerAuction ?_⟩
    refine h.modLvl l _ (fun d => ?_) (fun d hd => List.mem_cons_of_mem e hd) fun d => ?_
    · simp only [LevelEntry.held, List.count_append, List.count_cons, List.count_nil]
      omega
    · by_cases hd : d = e
      · exact .inr (hd ▸ List.mem_cons_self)
      · refine .inl ?_
        simp only [LevelEntry.held, List.count_append, List.count_cons, List.count_nil, beq_iff_eq,
          if_neg (Ne.symm hd)]
        omega

theorem State.Held.startTx (h : s.Held v so L) (p : PortNo) : (s.startTx p).Held v so L := by
  unfold State.startTx
  split
  · next hb =>
    have hn : (s.port p).tx = none := by
      simp only [Bool.and_eq_true, Option.isNone_iff_eq_none] at hb
      exact hb.2
    split
    · exact h
    · next e rest hq =>
      have hc : ∀ d, (rest ++ [e]).count d = (s.port p).egressHeld.count d := fun d => by
        simp only [Port.egressHeld, hq, hn, Option.map_none, Option.toList_none, List.append_nil, List.count_append,
          List.count_cons, List.count_nil]
        omega
      refine h.modPort p _ ((s.soleView_modPort p _ rfl rfl).trans h.1) (fun d => ?_) (fun _ hd => hd) fun d => ?_
      · have := hc d
        simp only [Port.egressHeld, Option.map_some, Option.toList_some] at this ⊢
        omega
      · have h1 := hc d
        have h2 := h.2.onePlace p d
        simp only [Port.egressHeld, Option.map_some, Option.toList_some] at h1 h2 ⊢
        omega
  · exact h

theorem State.insertByLevel_count (s : State) (q : List EntryNo) (e d : EntryNo) :
    (s.insertByLevel q e).count d = (e :: q).count d := by
  have h := congrArg (List.count d) (List.takeWhile_append_dropWhile
    (p := fun d => decide ((s.entryAt d).level ≤ (s.entryAt e).level)) (l := q))
  rw [List.count_append] at h
  simp only [State.insertByLevel, List.count_append, List.count_cons]
  omega

/-- An entry in the hand of the operation joins an egress queue that does not have it. -/
theorem State.Held.join {e : EntryNo} {u : State} (h : s.Held v so' L') (p : PortNo)
    (hr : ∀ d, so'.count d + L'.count d = so.count d + L.count d + (if d = e then 1 else 0))
    (ha : ∀ d ∈ so, d ∈ so') (h0 : (s.port p).egressHeld.count e = 0) :
    ((s.modPort p fun x => { x with queue := u.insertByLevel x.queue e }).startTx p).Held v so L := by
  refine State.Held.startTx ?_ p
  have hc : ∀ d, ({ s.port p with queue := u.insertByLevel (s.port p).queue e } : Port).egressHeld.count d =
      (s.port p).egressHeld.count d + (if d = e then 1 else 0) := fun d => by
    simp only [Port.egressHeld, List.count_append, u.insertByLevel_count, List.count_cons, beq_iff_eq,
      eq_comm (a := e)]
    omega
  refine h.modPort p _ ((s.soleView_modPort p _ rfl rfl).trans h.1) (fun d => ?_) ha fun d => ?_
  · rw [hc d]
    have := hr d
    omega
  · rw [hc d]
    split
    · next he => subst he; omega
    · exact h.2.onePlace p d

theorem State.Held.joinEgress_first {e : EntryNo} (h : s.Held v (e :: so) L) (p : PortNo) :
    (s.joinEgress p e true).Held v so L := by
  refine h.join (u := s) p (fun d => ?_) (fun d hd => List.mem_cons_of_mem e hd) (h.fresh.2.2.1 p)
  simp only [List.count_cons, beq_iff_eq, eq_comm (a := e)]
  omega

theorem State.Held.joinEgress_more {e : EntryNo} (h : s.Held v so L) (p : PortNo) (he : e ∉ so)
    (h0 : (s.port p).egressHeld.count e = 0)
    (h1 : 0 < references s.levelHeld (fun p => (s.port p).egressHeld) so L e)
    (h2 : references s.levelHeld (fun p => (s.port p).egressHeld) so L e ≤ 3) :
    (s.joinEgress p e false).Held v so L := by
  refine (h.addHolder he h1 h2).join (u := s) p (fun d => ?_) (fun d hd => hd) h0
  simp only [List.count_cons, beq_iff_eq, eq_comm (a := e)]
  omega

/-- R115: the worst entry of an egress queue leaves it and is released. -/
theorem State.Held.evict {worst : EntryNo} (h : s.Held v so L) (p : PortNo)
    (hw : (s.port p).queue.getLast? = some worst) :
    ((s.modPort p fun x => ({ x with queue := x.queue.dropLast }).dropped).release worst).Held v so L := by
  refine State.Held.release ?_
  obtain ⟨ys, hq⟩ := List.getLast?_eq_some_iff.mp hw
  have hc : ∀ d, (s.port p).egressHeld.count d = ({ s.port p with queue := ys } : Port).egressHeld.count d +
      [worst].count d := fun d => by
    simp only [Port.egressHeld, hq, List.count_append]
    omega
  have hd : (s.port p).queue.dropLast = ys := by rw [hq, List.dropLast_concat]
  refine h.modPort p _ ((s.soleView_modPort p _ rfl rfl).trans h.1) (fun d => ?_) (fun _ hd => hd) fun d => ?_
  · have := hc d
    simp only [Port.egressHeld, Port.dropped, hd, List.count_append, List.count_cons, List.count_nil] at this ⊢
    omega
  · have h1 := hc d
    have h2 := h.2.onePlace p d
    simp only [Port.egressHeld, Port.dropped, hd] at h1 h2 ⊢
    omega

theorem State.startTx_port_ne (s : State) {p q : PortNo} (hq : q ≠ p) : (s.startTx p).port q = s.port q := by
  unfold State.startTx
  split
  · split
    · rfl
    · exact s.port_modPort_ne hq _
  · rfl

theorem State.joinEgress_port_ne (s : State) {p q : PortNo} (hq : q ≠ p) (e : EntryNo) (first : Bool) :
    (s.joinEgress p e first).port q = s.port q := by
  unfold State.joinEgress
  rw [State.startTx_port_ne _ hq, State.port_modPort_ne _ hq]
  unfold State.accept
  split <;> rfl

/-- An offer to a port changes no other port. -/
theorem State.offerPort_port_ne (s : State) {p q : PortNo} (hq : q ≠ p) (e : EntryNo) (first : Bool) :
    (s.offerPort p e first).2.port q = s.port q := by
  unfold State.offerPort
  split
  · exact s.port_modPort_ne hq _
  · split
    · exact s.joinEgress_port_ne hq e first
    · split
      · exact s.port_modPort_ne hq _
      · split
        · exact (State.joinEgress_port_ne _ hq e first).trans
            ((State.port_release _ _ q).trans (s.port_modPort_ne hq _))
        · exact s.port_modPort_ne hq _

theorem State.Held.dropCount (h : s.Held v so L) (p : PortNo) : (s.modPort p Port.dropped).Held v so L :=
  h.modPort_same p _ rfl rfl rfl

/-- An entry in use that is no sole and no loose hold is referenced by a queue, a context or a transmitter. -/
theorem State.Held.referenced {e : EntryNo} (h : s.Held v so L) (he : (s.entry? e).isSome = true) :
    0 < references s.levelHeld (fun p => (s.port p).egressHeld) so L e := by
  obtain ⟨f, hf⟩ := Option.isSome_iff_exists.mp he
  have := h.2.counted e f hf
  omega

theorem State.Held.isSome {e : EntryNo} (h : s.Held v (e :: so) L) : (s.entry? e).isSome = true :=
  h.2.inUse e (by rw [h.2.alone e List.mem_cons_self]; exact Nat.one_pos)

theorem State.startTx_store (s : State) (p : PortNo) : (s.startTx p).store = s.store := by
  unfold State.startTx
  split
  · split <;> rfl
  · rfl

theorem State.joinEgress_entry (s : State) (p : PortNo) (e d : EntryNo) :
    (s.joinEgress p e true).entry? d = s.entry? d := by
  unfold State.joinEgress State.entry?
  rw [State.startTx_store]
  rfl

theorem State.offerPort_entry {e : EntryNo} (s : State) (p : PortNo) (h0 : (s.port p).egressHeld.count e = 0) :
    (s.offerPort p e true).2.entry? e = s.entry? e := by
  unfold State.offerPort
  split
  · rfl
  · split
    · exact s.joinEgress_entry p e e
    · split
      · rfl
      · next worst hw =>
        split
        · have hne : e ≠ worst := fun he => by
            have : 0 < (s.port p).queue.count e := List.count_pos_iff.mpr (he ▸ List.mem_of_getLast? hw)
            simp only [Port.egressHeld, List.count_append] at h0
            omega
          exact (State.joinEgress_entry _ p e e).trans (State.entry?_release_ne _ hne)
        · rfl

theorem State.Held.offerPort_first {e : EntryNo} (h : s.Held v (e :: so) L) (p : PortNo) :
    ((s.offerPort p e true).1 = true ∧ (s.offerPort p e true).2.Held v so L) ∨
      ((s.offerPort p e true).1 = false ∧ (s.offerPort p e true).2.Held v (e :: so) L) := by
  unfold State.offerPort
  split
  · exact .inr ⟨rfl, h.dropCount p⟩
  · split
    · exact .inl ⟨rfl, h.joinEgress_first p⟩
    · split
      · exact .inr ⟨rfl, h.dropCount p⟩
      · next worst hw =>
        split
        · exact .inl ⟨rfl, (h.evict p hw).joinEgress_first p⟩
        · exact .inr ⟨rfl, h.dropCount p⟩

theorem State.Held.offerPort_more {e : EntryNo} (h : s.Held v so L) (p : PortNo) (he : e ∉ so)
    (h0 : (s.port p).egressHeld.count e = 0)
    (h1 : 0 < references s.levelHeld (fun p => (s.port p).egressHeld) so L e)
    (h2 : references s.levelHeld (fun p => (s.port p).egressHeld) so L e ≤ 3) :
    (s.offerPort p e false).2.Held v so L := by
  unfold State.offerPort
  split
  · exact h.dropCount p
  · split
    · exact h.joinEgress_more p he h0 h1 h2
    · split
      · exact h.dropCount p
      · next worst hw =>
        split
        · have h' := h.evict p hw
          obtain ⟨ys, hq⟩ := List.getLast?_eq_some_iff.mp hw
          have hout : ∀ q, ((((s.modPort p fun x =>
              ({ x with queue := x.queue.dropLast }).dropped).release worst).port q).egressHeld.count e) =
                (s.port q).egressHeld.count e := fun q => by
            rw [State.port_release, State.port_modPort]
            split
            · next hqp =>
              subst hqp
              simp only [Port.egressHeld, hq, List.count_append] at h0
              simp only [Port.egressHeld, Port.dropped, hq, List.dropLast_concat, List.count_append]
              omega
            · rfl
          have href : references ((s.modPort p fun x =>
              ({ x with queue := x.queue.dropLast }).dropped).release worst).levelHeld (fun q =>
                (((s.modPort p fun x => ({ x with queue := x.queue.dropLast }).dropped).release
                  worst).port q).egressHeld) so L e =
              references s.levelHeld (fun p => (s.port p).egressHeld) so L e := by
            have hl : ((s.modPort p fun x =>
                ({ x with queue := x.queue.dropLast }).dropped).release worst).levelHeld = s.levelHeld := by
              unfold State.levelHeld
              refine List.flatMap_congr fun l _ => ?_
              rw [(State.release_leaves _ worst).lvl l]
              rfl
            simp only [references, hl, List.count_flatMap]
            refine congrArg (· + L.count e) (congrArg (· + so.count e) (congrArg (s.levelHeld.count e + ·) ?_))
            exact congrArg List.sum (List.map_congr_left fun q _ => hout q)
          exact h'.joinEgress_more p he (by rw [hout p]; exact h0) (by rw [href]; exact h1)
            (by rw [href]; exact h2)
        · exact h.dropCount p

/-- What an offer of a frame that some holder has does to the references of its entry. -/
theorem State.Held.offerPort_references {e : EntryNo} {first : Bool} (p : PortNo)
    (h' : (s.offerPort p e first).2.Held w so' L') (h0 : (s.port p).egressHeld.count e = 0) :
    references s.levelHeld (fun p => (s.port p).egressHeld) so L e ≤
      references (s.offerPort p e first).2.levelHeld (fun q => ((s.offerPort p e first).2.port q).egressHeld) so L e ∧
    references (s.offerPort p e first).2.levelHeld (fun q => ((s.offerPort p e first).2.port q).egressHeld) so L e ≤
      references s.levelHeld (fun p => (s.port p).egressHeld) so L e + 1 := by
  have hl : (s.offerPort p e first).2.levelHeld = s.levelHeld := by
    unfold State.levelHeld
    refine List.flatMap_congr fun l _ => ?_
    rw [(s.offerPort_leaves p e first).lvl l]
  have hc := count_flatMap_update allPorts allPorts_nodup (mem_allPorts p)
    (g := fun q => (s.port q).egressHeld) (g' := fun q => ((s.offerPort p e first).2.port q).egressHeld)
    (fun q hq => by rw [s.offerPort_port_ne hq]) e
  have h1 := h'.2.onePlace p e
  simp only [h0, Nat.add_zero] at hc
  simp only [references, hl]
  constructor <;> omega

/-- Offers to ports of a frame that some holder has already. -/
theorem State.Held.offers_more {e : EntryNo} (ps : List PortNo) (hn : ps.Nodup) {s : State} (h : s.Held v so L)
    (he : e ∉ so) (h0 : ∀ p ∈ ps, (s.port p).egressHeld.count e = 0)
    (h1 : 0 < references s.levelHeld (fun p => (s.port p).egressHeld) so L e)
    (h2 : references s.levelHeld (fun p => (s.port p).egressHeld) so L e + ps.length ≤ 4) :
    ((ps.map Offer.port).foldl (State.makeOffer e) (true, s)).1 = true ∧
      ((ps.map Offer.port).foldl (State.makeOffer e) (true, s)).2.Held v so L := by
  induction ps generalizing s with
  | nil => exact ⟨rfl, h⟩
  | cons p ps ih =>
    have ⟨hp, hn'⟩ := List.nodup_cons.mp hn
    simp only [List.length_cons] at h2
    have h3 := h.offerPort_more p he (h0 p List.mem_cons_self) h1 (by omega)
    have h4 := State.Held.offerPort_references (so := so) (L := L) p h3 (h0 p List.mem_cons_self)
    simp only [List.map_cons, List.foldl_cons, State.makeOffer, Bool.true_or, Bool.not_true]
    refine ih hn' h3 (fun q hq => ?_) (by omega) (by omega)
    rw [s.offerPort_port_ne (fun hqp : q = p => hp (hqp ▸ hq))]
    exact h0 q (List.mem_cons_of_mem p hq)

/-- Offers to ports of a frame that only the offerer has. -/
theorem State.Held.offers_first {e : EntryNo} (ps : List PortNo) (hn : ps.Nodup) (hlen : ps.length ≤ 4) {s : State}
    (h : s.Held v (e :: so) L) :
    let r := (ps.map Offer.port).foldl (State.makeOffer e) (false, s)
    (r.1 = true → r.2.Held v so L) ∧ (r.1 = false → r.2.Held v (e :: so) L) := by
  induction ps generalizing s with
  | nil =>
    intro r
    exact ⟨fun hf => (by cases hf), fun _ => h⟩
  | cons p ps ih =>
    have ⟨hp, hn'⟩ := List.nodup_cons.mp hn
    simp only [List.length_cons] at hlen
    simp only [List.map_cons, List.foldl_cons, State.makeOffer, Bool.false_or, Bool.not_false]
    rcases h.offerPort_first p with ⟨ha, h'⟩ | ⟨ha, h'⟩
    · rw [ha]
      obtain ⟨hso, -, hports, -⟩ := h.fresh
      have h3 := State.Held.offerPort_references (so := so) (L := L) p h' (hports p)
      have h4 := h'.2
      have h5 := h.2.alone e List.mem_cons_self
      have h6 : references s.levelHeld (fun p => (s.port p).egressHeld) so L e = 0 := by
        simp only [references, List.count_cons_self] at h5 ⊢
        omega
      have h7 : 0 < references (s.offerPort p e true).2.levelHeld
          (fun q => ((s.offerPort p e true).2.port q).egressHeld) so L e := h'.referenced (by rw [s.offerPort_entry p (hports p)]; exact h.isSome)
      have := h'.offers_more ps hn' hso (fun q hq => by
        rw [s.offerPort_port_ne (fun hqp : q = p => hp (hqp ▸ hq))]; exact hports q) h7 (by omega)
      exact ⟨fun _ => this.2, fun hf => by rw [this.1] at hf; cases hf⟩
    · rw [ha]
      exact ih hn' (by omega) h'

/-- Offers to a level, when there is one, and then to ports, no more than four in all. -/
inductive OffersFit : List Offer → Prop where
  | ports (ps : List PortNo) (hn : ps.Nodup) (hl : ps.length ≤ 4) : OffersFit (ps.map .port)
  | level (l : Level) (ps : List PortNo) (hn : ps.Nodup) (hl : ps.length ≤ 3) :
    OffersFit (.level l :: ps.map .port)

theorem State.offerLevel_ports (s : State) (l : Level) (e : EntryNo) (p : PortNo) :
    ((s.offerLevel l e true).2.port p) = s.port p := by
  unfold State.offerLevel
  split <;> rfl

theorem State.offerLevel_entry (s : State) (l : Level) (e d : EntryNo) :
    (s.offerLevel l e true).2.entry? d = s.entry? d := by
  unfold State.offerLevel
  split <;> rfl

/-- R29: the offers of a frame that only the offerer has end with no hold left in the offerer's hand. -/
theorem State.Held.offerAll {e : EntryNo} (h : s.Held v (e :: so) L) {os : List Offer} (hf : OffersFit os) :
    (s.offerAll e os).Held v so L := by
  unfold State.offerAll
  cases hf with
  | ports ps hn hl =>
    have ⟨h1, h2⟩ := h.offers_first ps hn hl
    dsimp only
    split
    · next ha => exact h1 ha
    · next ha => exact (h2 (by simpa using ha)).loosen.release
  | level l ps hn hl =>
    simp only [List.foldl_cons, State.makeOffer, Bool.false_or, Bool.not_false]
    rcases h.offerLevel l with ⟨ha, h'⟩ | ⟨ha, h'⟩
    · rw [ha]
      obtain ⟨hso, -, hports, -⟩ := h.fresh
      have h1 := h'.referenced (by rw [s.offerLevel_entry l e e]; exact h.isSome)
      have h2 : references (s.offerLevel l e true).2.levelHeld
          (fun p => ((s.offerLevel l e true).2.port p).egressHeld) so L e ≤ 1 := by
        have h3 := h.2.alone e List.mem_cons_self
        have h4 := h'.2.oneLevel e
        simp only [references, List.count_cons_self, s.offerLevel_ports] at h3 ⊢
        omega
      have h5 := h'.offers_more ps hn hso (fun p _ => by rw [s.offerLevel_ports]; exact hports p) h1 (by omega)
      rw [h5.1, if_pos rfl]
      exact h5.2
    · rw [ha]
      have ⟨h1, h2⟩ := h'.offers_first ps hn (by omega)
      split
      · next ha => exact h1 ha
      · next ha => exact (h2 (by simpa using ha)).loosen.release

theorem OffersFit.one_level (l : Level) : OffersFit [.level l] := .level l [] .nil (Nat.zero_le _)

theorem OffersFit.one_port (p : PortNo) : OffersFit [.port p] :=
  .ports [p] (List.nodup_singleton p) (Nat.le_add_left 1 3)

/-- The ports of a condition number no more than four, and no more than three without one port. -/
theorem OffersFit.active (f : PortNo → Bool) : OffersFit ((allPorts.filter f).map .port) :=
  .ports _ (allPorts_nodup.filter f) (List.length_filter_le f allPorts)

theorem OffersFit.broadcast (l : Level) (p : PortNo) (f : PortNo → Bool) (hp : f p = false) :
    OffersFit (.level l :: (allPorts.filter f).map .port) := by
  refine .level l _ (allPorts_nodup.filter f) ?_
  have h1 : (allPorts.filter f).length < allPorts.length :=
    List.length_filter_lt_length_iff_exists.mpr ⟨p, mem_allPorts p, by simp [hp]⟩
  exact Nat.le_of_lt_succ h1

/-! ### Faults, responses, long operations -/

theorem State.Held.buildNotice (h : s.Held v so L) (r : FaultReport) (filled : Bool) :
    (s.buildNotice r filled).Held v so L := by
  have ha := h.allocReserve (n := 1) (f := s.noticeEntry)
  unfold State.buildNotice
  split
  · next t heq => exact ha.2 t heq
  · next e t heq => exact ((ha.1 e t heq).writePayload e 0 _).offerAll (.one_level 0)

theorem State.Held.raise (h : s.Held v so L) (k : FaultKind) (f : FaultFields) : (s.raise k f).Held v so L := by
  unfold State.raise
  dsimp only
  split
  · exact State.Held.buildNotice (s := { s with
      fault := s.fault.record { kind := k, time := s.now, fields := f } }) h _ _
  · exact h

theorem State.Held.routeResponse {e : EntryNo} (h : s.Held v (e :: so) L) (o : Sender) :
    (s.routeResponse e o).Held v so L := by
  cases o with
  | trunk => exact h.offerAll (.one_level 1)
  | station p =>
    unfold State.routeResponse
    dsimp only
    split
    · exact h.offerAll (.one_port p)
    · exact h.loosen.release

theorem State.Held.fillResponse (h : s.Held v so L) (e : EntryNo) (payload : List Byte) :
    (s.fillResponse e payload).Held v so L := by
  have h1 := h.modEntry e (fun f => { f with len := payload.length }) fun _ => rfl
  exact (h1.trim e (State.entryAt _ e) (cellsFor payload.length)).writePayload e 0 payload

theorem State.Held.buildLongResponse (h : s.Held v so L) (r : LongRecord) : (s.buildLongResponse r).2.Held v so L := by
  have ha := h.allocReserve (n := cellsFor (responsePayload r.op.code r.tag .ok []).length)
    (f := s.responseEntry r.node)
  unfold State.buildLongResponse
  dsimp only
  split
  · next t heq => exact ha.2 t heq
  · next e t heq => exact ((ha.1 e t heq).fillResponse e _).routeResponse _

theorem State.Held.endLongOp (h : s.Held v so L) (op : LongOp) : (s.endLongOp op).Held v so L := by
  unfold State.endLongOp
  split
  · exact h
  · next r _ =>
    have hb := State.Held.buildLongResponse (s := { s with cmd := { s.cmd with
      longOps := s.cmd.longOps.filter fun r => r.op != op } }) h r
    dsimp only
    split
    · next t heq => rw [heq] at hb; exact hb
    · next t heq => rw [heq] at hb; exact hb

theorem State.Held.flushComplete (h : s.Held v so L) (l : Level) : (s.flushComplete l).Held v so L := by
  unfold State.flushComplete
  split
  · exact (h.modLvl_same l _ rfl).endLongOp _
  · exact h

end Sys2Proof.Machine
end

