-- ==== Sys2Proof/Laws/HolderWork.lean ====
section
/-! SUPPORT. The accounting of holders (R28) through the Level Scheduler and the Trunk Transmitter. -/

namespace Sys2Proof.Machine

open Sys2Proof

variable {v w : SoleView} {so so' L L' : List EntryNo} {s : State}

/-! ### Contexts that stay -/

/-- Every level keeps its context, its attributes and its owed Abort. -/
def KeepsContexts (s t : State) : Prop :=
  ∀ m, (t.lvl m).ctx = (s.lvl m).ctx ∧ (t.lvl m).attrs = (s.lvl m).attrs ∧
    (t.lvl m).abortOwed = (s.lvl m).abortOwed

theorem KeepsContexts.refl (s : State) : KeepsContexts s s := fun _ => ⟨rfl, rfl, rfl⟩

theorem KeepsContexts.trans {s t u : State} (h : KeepsContexts s t) (h' : KeepsContexts t u) : KeepsContexts s u :=
  fun m => ⟨(h' m).1.trans (h m).1, (h' m).2.1.trans (h m).2.1, (h' m).2.2.trans (h m).2.2⟩

theorem LeavesLevels.contexts {s t : State} (h : LeavesLevels s t) : KeepsContexts s t := fun m => by
  rw [h.lvl m]; exact ⟨rfl, rfl, rfl⟩

theorem State.modLvl_contexts (s : State) (l : Level) (f : LevelEntry → LevelEntry)
    (h1 : (f (s.lvl l)).ctx = (s.lvl l).ctx) (h2 : (f (s.lvl l)).attrs = (s.lvl l).attrs)
    (h3 : (f (s.lvl l)).abortOwed = (s.lvl l).abortOwed) : KeepsContexts s (s.modLvl l f) := fun m => by
  rw [State.lvl_modLvl]
  split
  · next he => subst he; exact ⟨h1, h2, h3⟩
  · exact ⟨rfl, rfl, rfl⟩

theorem State.offerAll_level_contexts (s : State) (l : Level) (e : EntryNo) :
    KeepsContexts s (s.offerAll e [.level l]) := by
  have h : KeepsContexts s (s.offerLevel l e true).2 := by
    unfold State.offerLevel
    split
    · exact s.modLvl_contexts l _ rfl rfl rfl
    · have h1 : KeepsContexts s (s.accept e true) := by
        unfold State.accept
        split
        · exact .refl s
        · exact (s.modEntry_leaves e _).contexts
      exact h1.trans (State.modLvl_contexts _ l (fun v => { v with queue := v.queue ++ [e] }) rfl rfl rfl)
  unfold State.offerAll
  simp only [List.foldl_cons, List.foldl_nil, State.makeOffer, Bool.not_false, Bool.false_or]
  split
  · exact h
  · exact h.trans (State.release_leaves _ e).contexts

theorem State.buildLongResponse_contexts (s : State) (r : LongRecord) :
    KeepsContexts s (s.buildLongResponse r).2 := by
  have ha := (s.allocReserve_leaves (cellsFor (responsePayload r.op.code r.tag .ok []).length)
    (s.responseEntry r.node)).contexts
  unfold State.buildLongResponse
  dsimp only
  split
  · next t heq => rw [heq] at ha; exact ha
  · next e t heq =>
    rw [heq] at ha
    refine (ha.trans (t.fillResponse_leaves e (responsePayload r.op.code r.tag .ok [])).contexts).trans ?_
    show KeepsContexts _ (State.routeResponse _ e r.sender)
    cases r.sender with
    | trunk => exact State.offerAll_level_contexts _ 1 e
    | station p =>
      unfold State.routeResponse
      dsimp only
      split
      · exact (State.offerAll_port _ p e).contexts
      · exact (State.release_leaves (t.fillResponse e _) e).contexts

theorem State.endLongOp_contexts (s : State) (op : LongOp) : KeepsContexts s (s.endLongOp op) := by
  unfold State.endLongOp
  split
  · exact .refl s
  · next r _ =>
    have hb := State.buildLongResponse_contexts { s with cmd := { s.cmd with
      longOps := s.cmd.longOps.filter fun r => r.op != op } } r
    dsimp only
    split
    · next t heq => rw [heq] at hb; exact hb
    · next t heq => rw [heq] at hb; exact hb

theorem State.flushComplete_contexts (s : State) (l : Level) : KeepsContexts s (s.flushComplete l) := by
  unfold State.flushComplete
  split
  · exact (s.modLvl_contexts l _ rfl rfl rfl).trans (State.endLongOp_contexts _ _)
  · exact .refl s

/-! ### Abandoning, suspending, emptying -/

theorem State.release_modLvl (s : State) (e : EntryNo) (l : Level) (f : LevelEntry → LevelEntry) :
    (s.release e).modLvl l f = (s.modLvl l f).release e := by
  unfold State.release
  simp only [State.modLvl_entry_at]
  split
  · rfl
  · split <;> rfl

theorem State.Held.recordFinish (h : s.Held v so L) (l : Level) (c : Context) (n : Nat) (o : EgressOutcome) :
    (s.recordFinish l c n o).Held v so L := by
  unfold State.recordFinish
  dsimp only
  split
  · exact h
  · exact h

theorem State.recordFinish_lvl (s : State) (l : Level) (c : Context) (n : Nat) (o : EgressOutcome) (m : Level) :
    (s.recordFinish l c n o).lvl m = s.lvl m := by
  unfold State.recordFinish
  dsimp only
  split <;> rfl

/-- Entries leave a level and are in the operation's hand. -/
theorem State.Held.level_drop (h : s.Held v so L) (l : Level) (f : LevelEntry → LevelEntry) (es : List EntryNo)
    (hr : ∀ d, (f (s.lvl l)).held.count d + es.count d = (s.lvl l).held.count d) :
    (s.modLvl l f).Held v so (es ++ L) :=
  h.modLvl l f (fun d => by have := hr d; rw [List.count_append]; omega) (fun _ hd => hd)
    fun d => .inl (by have := hr d; omega)

/-- The context of a level is cleared and its hold released. -/
theorem State.Held.clearContext {c : Context} (h : s.Held v so L) (l : Level) (hc : (s.lvl l).ctx = some c)
    (f : LevelEntry → LevelEntry) (h1 : (f (s.lvl l)).ctx = none) (h2 : (f (s.lvl l)).queue = (s.lvl l).queue) :
    ((s.release c.entry).modLvl l f).Held v so L := by
  rw [State.release_modLvl]
  refine State.Held.release (h.level_drop l f [c.entry] fun d => ?_)
  simp only [LevelEntry.held, h1, h2, hc, Option.map_none, Option.toList_none, Option.map_some, Option.toList_some,
    List.append_nil, List.count_append]

theorem State.Held.dropContext {c : Context} (h : s.Held v so L) (l : Level) (hc : (s.lvl l).ctx = some c) :
    (s.dropContext l c).Held v so L := by
  have h1 : (((s.recordFinish l c c.next .aborted).modLvl l fun v =>
      { v with framesAborted := bump v.framesAborted }).lvl l).ctx = some c := by
    rw [State.lvl_modLvl_same, State.recordFinish_lvl]
    exact hc
  exact ((h.recordFinish l c c.next .aborted).modLvl_same l _ rfl).clearContext l h1 _ rfl rfl

theorem State.Held.oweAbort (h : s.Held v so L) (l : Level) (f : FrameEntry) : (s.oweAbort l f).Held v so L :=
  (h.modLvl_same l _ rfl).triggerAuction

theorem State.Held.abandon (h : s.Held v so L) (l : Level) (started : Bool) : (s.abandon l started).Held v so L := by
  unfold State.abandon
  split
  · exact h
  · next c hc =>
    split
    · exact ((h.dropContext l hc).oweAbort l _).flushComplete l
    · exact (h.dropContext l hc).flushComplete l

theorem State.Held.suspend (h : s.Held v so L) (l : Level) : (s.suspend l).Held v so L := by
  unfold State.suspend
  split
  · exact h.abandon l true
  · refine h.modLvl_same l _ ?_
    simp only [LevelEntry.held]
    cases (s.lvl l).ctx <;> rfl

theorem State.Held.emptyQueue (h : s.Held v so L) (l : Level) : (s.emptyQueue l).Held v so L := by
  refine State.Held.releases (s.lvl l).queue (h.level_drop l _ (s.lvl l).queue fun d => ?_)
  simp only [LevelEntry.held, List.nil_append, List.count_append]
  omega

theorem State.Held.bar (h : s.Held v so L) (l : Level) : (s.bar l).Held v so L := by
  unfold State.bar
  dsimp only
  split
  · exact h.emptyQueue l
  · exact (h.emptyQueue l).abandon l true

/-! ### A frame lost to a failing cell -/

/-- A list that has an entry once is the list without it, and it. -/
theorem count_filter_ne {q : List EntryNo} {e : EntryNo} (h1 : q.count e = 1) (d : EntryNo) :
    (q.filter fun x => x != e).count d + [e].count d = q.count d := by
  by_cases hd : d = e
  · subst hd
    have h0 : (q.filter fun x => x != d).count d = 0 := List.count_eq_zero.mpr (by simp)
    rw [h0, h1]
    simp
  · rw [List.count_filter (by simp [hd])]
    simp [Ne.symm hd]

theorem State.Held.level_once (h : s.Held v so L) (l : Level) (e : EntryNo) : (s.lvl l).held.count e ≤ 1 := by
  have h1 := h.2.oneLevel e
  have h2 : (s.lvl l).held.count e ≤ s.levelHeld.count e :=
    List.Sublist.count_le e (List.sublist_flatten_of_mem (List.mem_map_of_mem (mem_allLevels l)))
  omega

theorem State.Held.levelGivesUp (h : s.Held v so L) (e : EntryNo) (l : Level) : (s.levelGivesUp e l).Held v so L := by
  unfold State.levelGivesUp
  split
  · next hq =>
    refine State.Held.release (h.level_drop l _ [e] fun d => ?_)
    have h1 : (s.lvl l).queue.count e = 1 := by
      have h2 := h.level_once l e
      have h3 : 0 < (s.lvl l).queue.count e := List.count_pos_iff.mpr (by simpa using hq)
      simp only [LevelEntry.held, List.count_append] at h2
      omega
    have := count_filter_ne h1 d
    simp only [LevelEntry.held, List.count_append]
    omega
  · split
    · split
      · exact h.abandon l _
      · exact h
    · exact h

theorem State.Held.port_drop (h : s.Held v so L) (p : PortNo) (f : Port → Port) (es : List EntryNo)
    (h1 : (f (s.port p)).rx = (s.port p).rx) (h2 : (f (s.port p)).rxActive = (s.port p).rxActive)
    (hr : ∀ d, (f (s.port p)).egressHeld.count d + es.count d = (s.port p).egressHeld.count d) :
    (s.modPort p f).Held v so (es ++ L) :=
  h.modPort p f ((s.soleView_modPort p f h1 h2).trans h.1)
    (fun d => by have := hr d; rw [List.count_append]; omega) (fun _ hd => hd)
    fun d => by have h1 := hr d; exact le_trans (by omega) (h.2.onePlace p d)

theorem State.Held.portGivesUp (h : s.Held v so L) (e : EntryNo) (p : PortNo) : (s.portGivesUp e p).Held v so L := by
  unfold State.portGivesUp
  split
  · next hq =>
    refine State.Held.release (h.port_drop p _ [e] rfl rfl fun d => ?_)
    have h1 : (s.port p).queue.count e = 1 := by
      have h2 := h.2.onePlace p e
      have h3 : 0 < (s.port p).queue.count e := List.count_pos_iff.mpr (by simpa using hq)
      simp only [Port.egressHeld, List.count_append] at h2
      omega
    have := count_filter_ne h1 d
    simp only [Port.egressHeld, List.count_append]
    omega
  · split
    · next t ht =>
      split
      · next he =>
        refine State.Held.release (h.port_drop p _ [e] rfl rfl fun d => ?_)
        simp only [Port.egressHeld, ht, he, Option.map_none, Option.toList_none, Option.map_some, Option.toList_some,
          List.append_nil, List.count_append]
      · exact h
    · exact h

theorem State.Held.foldl {α : Type} (f : State → α → State)
    (hf : ∀ {t : State} (a : α), t.Held v so L → (f t a).Held v so L) (as : List α) {s : State} (h : s.Held v so L) :
    (as.foldl f s).Held v so L := by
  induction as generalizing s with
  | nil => exact h
  | cons a as ih => exact ih (hf a h)

theorem State.Held.loseFrame (h : s.Held v so L) (e : EntryNo) (cell : CellNo) : (s.loseFrame e cell).Held v so L :=
  .foldl State.startTx (fun p h => h.startTx p) allPorts
    (.foldl (State.levelGivesUp e) (fun l h => h.levelGivesUp e l) allLevels
      (.foldl (State.portGivesUp e) (fun p h => h.portGivesUp e p) allPorts (h.retireAndCount e cell)))

/-! ### Starting, forming, the auction -/

theorem State.Held.startNewFrame (h : s.Held v so L) (l : Level) (hc : (s.lvl l).ctx = none) :
    (s.startNewFrame l).Held v so L := by
  have hm : ∀ (e : EntryNo) (rest : List EntryNo) (f : LevelEntry → LevelEntry), (s.lvl l).queue = e :: rest →
      (f (s.lvl l)).queue = rest → (f (s.lvl l)).ctx.map Context.entry = some e → (s.modLvl l f).Held v so L :=
    fun e rest f hq h1 h2 => by
      have hcount : ∀ d, (f (s.lvl l)).held.count d = (s.lvl l).held.count d := fun d => by
        simp only [LevelEntry.held, h1, h2, hq, hc, Option.map_none, Option.toList_none, Option.toList_some,
          List.append_nil, List.count_append, List.count_cons, List.count_nil]
        omega
      exact h.modLvl l f (fun d => by rw [hcount d]) (fun _ hd => hd) fun d => .inl (by rw [hcount d])
  unfold State.startNewFrame
  split
  · exact h
  · next e rest hq =>
    dsimp only
    split
    · split
      · exact h
      · split
        · exact (hm e rest _ hq rfl rfl).raise _ _
        · exact hm e rest _ hq rfl rfl
    · exact hm e rest _ hq rfl rfl

theorem State.Held.formingFails (h : s.Held v so L) (l : Level) (e : EntryNo) (cell : CellNo) :
    (s.formingFails l e cell).Held v so L := by
  have h1 := h.loseFrame e cell
  unfold State.formingFails
  generalize s.loseFrame e cell = t at h1 ⊢
  exact State.Held.raise (s := { t with trunk := t.trunk.countFailure }) h1 _ _

theorem State.Held.answer (b : Bool) (h : s.Held v so L) : (b, s).2.Held v so L := h

theorem State.Held.formFragment (h : s.Held v so L) (l : Level) : (s.formFragment l).2.Held v so L := by
  unfold State.formFragment
  split
  · exact h
  · next c _ =>
    split
    · next cell _ =>
      exact State.Held.answer true (h.formingFails l c.entry cell)
    · exact h

/-- A level may be asked to send: it owes an Abort, or it has no context, or its Enable is 1. -/
def State.MaySend (s : State) (l : Level) : Prop :=
  (s.lvl l).abortOwed.isSome = true ∨ (s.lvl l).ctx = none ∨ (s.lvl l).attrs.enable = true

theorem State.maySend_of_hasWork {l : Level} (h : s.hasWork l = true) : s.MaySend l := by
  simp only [State.hasWork, State.eligible, Bool.or_eq_true, Bool.and_eq_true] at h
  unfold State.MaySend
  rcases h with h | ⟨-, (h | h) | h⟩
  · exact .inl h
  · exact .inl h
  · exact .inr (.inr h.2)
  · exact .inr (.inr h.1.1.2)

theorem State.hasWork_of_winner {l : Level} (h : s.winner = some l) : s.hasWork l = true :=
  List.find?_some h

theorem State.Held.sendLevel (h : s.Held v so L) (l : Level) (hm : s.MaySend l) :
    (s.sendLevel l).2.Held v so L := by
  unfold State.sendLevel
  split
  · exact h
  · next ha =>
    split
    · exact h.formFragment l
    · next hn =>
      refine (h.startNewFrame l ?_).formFragment l
      rcases hm with hm | hm | hm
      · rw [ha] at hm; cases hm
      · exact hm
      · simpa [hm] using hn

theorem State.Held.auctionRounds (n : Nat) {s : State} (h : s.Held v so L) :
    (State.auctionRounds n s).Held v so L := by
  induction n generalizing s with
  | zero => exact h
  | succ n ih =>
    unfold State.auctionRounds
    split
    · exact h
    · split
      · exact h
      · next l hw =>
        have hs := h.sendLevel l (State.maySend_of_hasWork (State.hasWork_of_winner hw))
        split
        · next t heq => rw [heq] at hs; exact ih hs
        · next t heq => rw [heq] at hs; exact hs

theorem State.Held.auction (h : s.Held v so L) : s.auction.Held v so L := h.auctionRounds _

theorem State.Held.sendByDecision (h : s.Held v so L) (l : Level) (hm : s.MaySend l) :
    (s.sendByDecision l).Held v so L := by
  have hs := h.sendLevel l hm
  unfold State.sendByDecision
  split
  · next t heq => rw [heq] at hs; exact hs.auction
  · next t heq => rw [heq] at hs; exact hs

theorem State.Held.forgetFreed (h : s.Held v so L) : s.forgetFreed.Held v so L := by
  unfold State.forgetFreed
  split
  · exact h
  · exact h

theorem State.Held.settle (h : s.Held v so L) : s.settle.Held v so L := by
  refine State.Held.forgetFreed (s := s.dueAuction) ?_
  unfold State.dueAuction
  split
  · exact h.auction
  · exact h

/-! ### Completion -/

theorem State.Held.trainDecision (h : s.Held v so L) (l : Level) (hc : (s.lvl l).ctx = none) :
    (s.trainDecision l).Held v so L := by
  unfold State.trainDecision
  split
  · have hs := ((h.startNewFrame l hc).modLvl_same l
      (fun w => { w with trainCount := (s.lvl l).trainSoFar + 1 }) rfl).formFragment l
    split
    · next t heq => rw [State.startNextOfTrain] at heq; rw [heq] at hs; exact hs.auction
    · next t heq => rw [State.startNextOfTrain] at heq; rw [heq] at hs; exact hs
  · exact State.Held.auction (h.modLvl_same l _ rfl)

theorem State.Held.completeFrame {c : Context} (h : s.Held v so L) (l : Level) (n : Nat)
    (hc : (s.lvl l).ctx = some c) : (s.completeFrame l c n).Held v so L := by
  have h1 : (((s.modLvl l fun v => { v with framesSent := bump v.framesSent }).recordFinish l c n .sent).lvl
      l).ctx = some c := by
    rw [State.recordFinish_lvl, State.lvl_modLvl_same]
    exact hc
  have h2 := (((h.modLvl_same l (fun v => { v with framesSent := bump v.framesSent }) rfl).recordFinish l c n
    .sent).clearContext l h1 (fun v => { v with ctx := none }) rfl rfl).flushComplete l
  refine h2.trainDecision l ?_
  rw [(State.flushComplete_contexts _ l l).1, State.lvl_modLvl_same]

/-- The suspension of one level leaves the others as ready to send as they were. -/
theorem State.suspend_maySend {l m : Level} (hm : m ≠ l) (h : s.MaySend m) : (s.suspend l).MaySend m := by
  have h1 : ((s.suspend l).lvl m).ctx = (s.lvl m).ctx ∧ ((s.suspend l).lvl m).attrs = (s.lvl m).attrs ∧
      ((s.suspend l).lvl m).abortOwed = (s.lvl m).abortOwed := by
    have hd : ∀ c, (s.dropContext l c).lvl m = s.lvl m := fun c => by
      unfold State.dropContext
      rw [State.lvl_modLvl_ne _ hm, (State.release_leaves _ c.entry).lvl m, State.lvl_modLvl_ne _ hm,
        State.recordFinish_lvl]
    unfold State.suspend
    split
    · unfold State.abandon
      split
      · exact ⟨rfl, rfl, rfl⟩
      · next c _ =>
        split
        · have h2 := State.flushComplete_contexts ((s.dropContext l c).oweAbort l (s.entryAt c.entry)) l m
          unfold State.oweAbort at h2 ⊢
          rw [State.triggerAuction_lvl_at, State.lvl_modLvl_ne _ hm, hd c] at h2
          exact h2
        · have h2 := State.flushComplete_contexts (s.dropContext l c) l m
          rw [hd c] at h2
          exact h2
    · rw [State.lvl_modLvl_ne _ hm]
      exact ⟨rfl, rfl, rfl⟩
  unfold State.MaySend at h ⊢
  rw [h1.1, h1.2.1, h1.2.2]
  exact h

theorem State.Held.boundaryAuction (h : s.Held v so L) (l : Level) : (s.boundaryAuction l).Held v so L := by
  unfold State.boundaryAuction
  split
  · exact h.suspend l
  · next w hw =>
    have hm := State.maySend_of_hasWork (State.hasWork_of_winner hw)
    split
    · next he => exact h.sendByDecision l (he ▸ hm)
    · next he => exact (h.suspend l).sendByDecision w (State.suspend_maySend he hm)

theorem State.Held.boundaryDecision (h : s.Held v so L) (l : Level) : (s.boundaryDecision l).Held v so L := by
  unfold State.boundaryDecision
  split
  · exact (h.abandon l true).auction
  · split
    · next h0 =>
      simp only [Bool.and_eq_true, bne_iff_ne, ne_eq] at h0
      exact (h.suspend l).sendByDecision 0 (State.suspend_maySend (Ne.symm h0.1) (State.maySend_of_hasWork h0.2))
    · split
      · next h2 =>
        simp only [Bool.and_eq_true] at h2
        exact h.sendByDecision l (.inr (.inr h2.1))
      · exact h.boundaryAuction l

theorem State.Held.boundary (h : s.Held v so L) (l : Level) (n : Nat) : (s.boundary l n).Held v so L := by
  refine State.Held.boundaryDecision (s := s.advance l n) (h.modLvl_same l _ ?_) l
  simp only [LevelEntry.held]
  cases (s.lvl l).ctx <;> rfl

theorem State.Held.completeFragment (h : s.Held v so L) (f : Fragment) : (s.completeFragment f).Held v so L := by
  have h1 : (s.countFragment f).Held v so L := h
  unfold State.completeFragment State.afterFragment
  split
  · exact State.Held.auction (h1.modLvl_same f.level _ rfl)
  · split
    · exact h1.auction
    · next c hc => exact h1.completeFrame f.level _ hc
  · split
    · exact h1.auction
    · next c hc => exact h1.completeFrame f.level _ hc
  · split
    · exact h1.auction
    · exact h1.boundary f.level f.len
  · split
    · exact h1.auction
    · exact h1.boundary f.level f.len

end Sys2Proof.Machine
end

