-- ==== Sys2Proof/Laws/HolderRows.lean ====
section
/-! SUPPORT. The accounting of holders (R28) through the ports, the Classifier, the Trunk Receiver, the Mode Controller
and the Command Unit, and so through every row. -/

namespace Sys2Proof.Machine

open Sys2Proof

variable {v w : SoleView} {so so' L L' : List EntryNo} {s : State}

/-! ### Views -/

/-- A view with another receive on a port. -/
def SoleView.setRx (v : SoleView) (p : PortNo) (r : Receive) : SoleView :=
  { v with rx := fun q => if q = p then r else v.rx q }

/-- A view with another reassembly context on a level. -/
def SoleView.setCtx (v : SoleView) (l : Level) (c : Reassembly) : SoleView :=
  { v with ctxs := v.ctxs.set l.val c l.isLt }

theorem SoleView.setRx_count (v : SoleView) (p : PortNo) (r : Receive) (e : EntryNo) :
    (v.setRx p r).held.count e + (v.rx p).held.count e = v.held.count e + r.held.count e := by
  have h := count_flatMap_update allPorts allPorts_nodup (mem_allPorts p)
    (g := fun q => (v.rx q).held) (g' := fun q => ((v.setRx p r).rx q).held)
    (fun q hq => by simp [SoleView.setRx, hq]) e
  simp only [SoleView.setRx, if_true] at h
  simp only [SoleView.held, SoleView.setRx, List.count_append]
  omega

theorem SoleView.setCtx_count (v : SoleView) (l : Level) (c : Reassembly) (e : EntryNo) :
    (v.setCtx l c).held.count e + (v.ctxs[l.val]).held.count e = v.held.count e + c.held.count e := by
  have h := count_flatMap_update allLevels allLevels_nodup (mem_allLevels l)
    (g := fun m => (v.ctxs[m.val]).held) (g' := fun m => ((v.setCtx l c).ctxs[m.val]).held)
    (fun m hm => by
      have hv : l.val ≠ m.val := fun e => hm (Fin.ext e.symm)
      simp [SoleView.setCtx, Vector.getElem_set_ne _ _ hv]) e
  simp only [SoleView.setCtx, Vector.getElem_set_self] at h
  simp only [SoleView.held, SoleView.setCtx, List.count_append]
  omega

theorem State.Held.setRxCtx (h : s.Held v so L) (l : Level) (c : Reassembly) :
    (s.setRxCtx l c).Held (v.setCtx l c) so L :=
  ⟨by rw [← h.1]; rfl, h.2⟩

/-- A change of a port that gives it a receive and leaves its transmit side. -/
theorem State.Held.setRx (h : s.Held v so L) (p : PortNo) (f : Port → Port) {r : Receive}
    (h1 : (f (s.port p)).rx = r) (h2 : (f (s.port p)).rxActive = (s.port p).rxActive)
    (h3 : (f (s.port p)).egressHeld = (s.port p).egressHeld) : (s.modPort p f).Held (v.setRx p r) so L := by
  refine h.modPort p f ?_ (fun e => by rw [h3]) (fun _ he => he) fun e => by rw [h3]; exact h.2.onePlace p e
  rw [← h.1]
  unfold State.soleView SoleView.setRx
  congr 1
  · funext q
    rw [State.port_modPort]
    split
    · exact h1
    · rfl
  · funext q
    rw [State.port_modPort]
    split
    · next he => subst he; exact h2
    · rfl

/-! ### Between steps -/

/-- The accounting of a state with the sole holds that it has and those in `H`, which an operation has in hand; the
command in hand is `hand`. -/
def State.Holds (hand : Option EntryNo) (H : List EntryNo) (s : State) : Prop :=
  s.Held s.soleView (s.soleView.held ++ H) [] ∧ (∀ p, (s.port p).rxActive = false → (s.port p).rx = .idle) ∧
    s.cmd.inHand = hand

variable {hand : Option EntryNo} {H H' : List EntryNo} {t : State}

/-- From an accounting whose sole holds are, in number, those of its view and of the hand. -/
theorem State.Held.holds (h : s.Held v so []) (hc : ∀ e, so.count e = v.held.count e + H.count e)
    (hr : ∀ p, v.active p = false → v.rx p = .idle) (hh : v.inHand = hand) : s.Holds hand H := by
  have hv := h.1
  subst hv
  refine ⟨h.perm (List.perm_iff_count.mpr fun e => ?_) (.refl _), hr, hh⟩
  rw [List.count_append, hc]

/-- An operation that leaves the view leaves the accounting of the rest. -/
theorem State.Holds.same (h : s.Holds hand H) (h' : t.Held s.soleView (s.soleView.held ++ H') []) :
    t.Holds hand H' :=
  h'.holds (fun e => by rw [List.count_append]) h.2.1 h.2.2

theorem State.Holds.foldl {α : Type} (f : State → α → State)
    (hf : ∀ {t : State} (a : α), t.Holds hand H → (f t a).Holds hand H) (as : List α) {s : State}
    (h : s.Holds hand H) : (as.foldl f s).Holds hand H := by
  induction as generalizing s with
  | nil => exact h
  | cons a as ih => exact ih (hf a h)

theorem State.Holds.raise (h : s.Holds hand H) (k : FaultKind) (f : FaultFields) : (s.raise k f).Holds hand H :=
  h.same (h.1.raise k f)

/-- The entry in hand, out of the sole holds. -/
theorem State.Holds.front {e : EntryNo} (h : s.Holds hand (e :: H)) :
    s.Held s.soleView (e :: (s.soleView.held ++ H)) [] :=
  h.1.perm (List.perm_middle.symm) (.refl _)

/-! ### Station ports -/

theorem State.Held.startSilence (h : s.Held v so L) (p : PortNo) : (s.startSilence p).Held v so L :=
  h.modPort_same p _ rfl rfl rfl

theorem State.Held.flushEgress (h : s.Held v so L) (p : PortNo) : (s.flushEgress p).Held v so L := by
  have h1 := State.Held.releases (s.port p).queue (h.port_drop p (fun v =>
    { v with queue := [], drops := bumpBy v.drops v.queue.length }) (s.port p).queue rfl rfl fun d => by
      simp only [Port.egressHeld, List.nil_append, List.count_append]
      omega)
  unfold State.flushEgress
  dsimp only
  split
  · exact h1
  · next x hx =>
    rw [← State.release_modPort]
    refine State.Held.release (h1.port_drop p _ [x.entry] rfl rfl fun d => ?_)
    have hp : ∀ (es : List EntryNo) (u : State), (es.foldl State.release u).port p = u.port p := fun es => by
      induction es with
      | nil => exact fun _ => rfl
      | cons e es ih => exact fun u => (ih _).trans (State.port_release u e p)
    simp only [hp, State.port_modPort_same, Port.egressHeld, hx, Option.map_none, Option.toList_none, Option.map_some,
      Option.toList_some, List.append_nil, List.nil_append, List.count_nil, Nat.zero_add]

theorem State.Holds.discardReceive (h : s.Holds hand H) (p : PortNo) (counted : Bool) :
    (s.discardReceive p counted).Holds hand H := by
  have hidle : ∀ {t : State} {so : List EntryNo}, t.Held (s.soleView.setRx p .idle) so [] →
      (∀ e, so.count e + (s.soleView.rx p).held.count e = (s.soleView.held ++ H).count e) → t.Holds hand H :=
    fun ht hc => ht.holds (fun e => by
      have h1 := hc e
      have h2 := s.soleView.setRx_count p .idle e
      simp only [Receive.held, List.count_nil, List.count_append] at h1 h2
      omega) (fun q hq => by
        simp only [SoleView.setRx]
        split
        · rfl
        · exact h.2.1 q hq) h.2.2
  unfold State.discardReceive
  split
  · exact h
  · next hr =>
    refine hidle (h.1.setRx p _ rfl rfl rfl) fun e => ?_
    have : s.soleView.rx p = .header := hr
    simp [this, Receive.held]
  · next hr =>
    refine hidle (h.1.setRx p _ rfl rfl rfl) fun e => ?_
    have : s.soleView.rx p = .unstored := hr
    simp [this, Receive.held]
  · next e hd hr =>
    have hx : s.soleView.rx p = .storing e hd := hr
    have hm : e ∈ s.soleView.held ++ H := by
      refine List.mem_append_left _ (List.mem_append_left _ (List.mem_append_left _ ?_))
      exact List.mem_flatMap.mpr ⟨p, mem_allPorts p, by rw [hx]; exact List.mem_singleton_self e⟩
    have hf := h.1.perm (List.perm_cons_erase hm).symm (.refl _)
    refine hidle ((hf.loosen.release).setRx p _ rfl rfl rfl) fun d => ?_
    have := (List.perm_cons_erase hm).count_eq d
    rw [this]
    simp only [hx, Receive.held, List.count_cons, List.count_nil]
    omega

theorem State.Holds.portReacts (h : s.Holds hand H) (p : PortNo) (old : PortState) :
    (s.portReacts p old).Holds hand H := by
  unfold State.portReacts
  split
  · exact h
  · have h1 : (s.leaveTransmit p old (s.portState p)).Holds hand H := by
      unfold State.leaveTransmit
      split
      · exact h.same (h.1.flushEgress p)
      · exact h
    have h2 : ((s.leaveTransmit p old (s.portState p)).leaveReceive p (s.portState p)).Holds hand H := by
      generalize s.leaveTransmit p old (s.portState p) = t at h1 ⊢
      unfold State.leaveReceive
      split
      · exact h1
      · exact h1.discardReceive p true
    generalize (s.leaveTransmit p old (s.portState p)).leaveReceive p (s.portState p) = t at h2 ⊢
    have h3 : (t.watchReceive p old (s.portState p)).Holds hand H := by
      unfold State.watchReceive
      split
      · exact h2.same ((h2.1.startSilence p).modPort_same p _ rfl rfl rfl)
      · exact h2
    exact h3.same (h3.1.startTx p)

theorem State.Holds.modPort_same (h : s.Holds hand H) (p : PortNo) (f : Port → Port)
    (h1 : (f (s.port p)).rx = (s.port p).rx) (h2 : (f (s.port p)).rxActive = (s.port p).rxActive)
    (h3 : (f (s.port p)).egressHeld = (s.port p).egressHeld) : (s.modPort p f).Holds hand H :=
  h.same (h.1.modPort_same p f h1 h2 h3)

theorem State.Holds.changePort (h : s.Holds hand H) (p : PortNo) (f : Port → Port)
    (h1 : (f (s.port p)).rx = (s.port p).rx) (h2 : (f (s.port p)).rxActive = (s.port p).rxActive)
    (h3 : (f (s.port p)).egressHeld = (s.port p).egressHeld) : (s.changePort p f).Holds hand H :=
  (h.modPort_same p f h1 h2 h3).portReacts p _

theorem State.Holds.jabber (h : s.Holds hand H) (p : PortNo) : (s.jabber p).Holds hand H :=
  (((h.discardReceive p false).modPort_same p _ rfl rfl rfl).raise _ _).portReacts p _

theorem State.Held.dropAt {e : EntryNo} (h : s.Held v (e :: so) L) (p : PortNo) : (s.dropAt p e).Held v so L :=
  h.loosen.release.dropCount p

/-- A receive that had no storage yet takes a receive that has, or has none. -/
theorem State.Held.receives (h : s.Held v so []) (p : PortNo) (f : Port → Port) {r : Receive}
    (h0 : (v.rx p).held = []) (hc : ∀ e, so.count e = v.held.count e + r.held.count e + H.count e)
    (hr : ∀ q, v.active q = false → v.rx q = .idle) (ha : v.active p = true ∨ r = .idle) (hh : v.inHand = hand)
    (h1 : (f (s.port p)).rx = r) (h2 : (f (s.port p)).rxActive = (s.port p).rxActive)
    (h3 : (f (s.port p)).egressHeld = (s.port p).egressHeld) : (s.modPort p f).Holds hand H :=
  (h.setRx p f h1 h2 h3).holds (fun e => by
    have h4 := v.setRx_count p r e
    have h5 := hc e
    rw [h0, List.count_nil] at h4
    omega) (fun q hq => by
      simp only [SoleView.setRx]
      split
      · next he =>
        subst he
        rcases ha with ha | ha
        · have hq' : v.active q = false := hq
          rw [ha] at hq'
          cases hq'
        · exact ha
      · exact hr q hq) hh

theorem State.Holds.takeHeader (h : s.Holds hand H) (p : PortNo) (hd : StationHeader)
    (hx : (s.port p).rx = .header) : (s.takeHeader p hd).Holds hand H := by
  have ha := h.1.allocTraffic (f := stationEntry p hd)
  have hv : (s.soleView.rx p).held = [] := by
    have : s.soleView.rx p = .header := hx
    rw [this]; rfl
  have hact : s.soleView.active p = true := by
    cases hb : (s.port p).rxActive with
    | true => exact hb
    | false =>
      have := h.2.1 p hb
      rw [hx] at this
      cases this
  unfold State.takeHeader
  split
  · exact h.jabber p
  · split
    · next e t heq =>
      refine (ha.1 e t heq).receives p _ hv (fun d => ?_) h.2.1 (.inl hact) h.2.2 rfl rfl rfl
      simp only [Receive.held, List.count_cons, List.count_append, List.count_nil]
      omega
    · next t heq =>
      refine State.Holds.raise ((ha.2 t heq).receives p (r := .unstored) _ hv (fun d => ?_) h.2.1 (.inl hact) h.2.2
        rfl rfl rfl) _ _
      simp only [Receive.held, List.count_append, List.count_nil]
      omega

/-! ### Classifier -/

theorem State.Held.countHit (h : s.Held v so L) (i : RuleNo) : (s.countHit i).Held v so L := h

theorem State.Held.classify (h : s.Held v so L) (p : PortNo) (e : EntryNo) : (s.classify p e).2.Held v so L := by
  unfold State.classify
  split
  · next i _ =>
    dsimp only
    split
    · exact .answer true ((h.countHit i).modEntry e _ fun _ => rfl)
    · exact .answer false ((h.countHit i).modEntry e _ fun _ => rfl)
  · exact .answer _ (h.modEntry e _ fun _ => rfl)

theorem State.Held.decideDestination {e : EntryNo} (h : s.Held v (e :: so) L) (p : PortNo) :
    (s.decideDestination p e).Held v so L := by
  unfold State.decideDestination
  dsimp only
  split
  · exact h.dropAt p
  · exact h.dropAt p
  · exact h.offerAll (.one_level _)
  · split
    · exact h.offerAll (.one_port _)
    · exact h.dropAt p
  · exact h.offerAll (.broadcast _ p _ (by simp))

theorem State.Held.classifyAndDecide {e : EntryNo} (h : s.Held v (e :: so) L) (p : PortNo) :
    (s.classifyAndDecide p e).Held v so L := by
  have hc := h.classify p e
  unfold State.classifyAndDecide
  split
  · next t heq => rw [heq] at hc; exact hc.decideDestination p
  · next t heq => rw [heq] at hc; exact hc.dropAt p

/-- R140: the frame joins the FIFO, or is released. -/
theorem State.Held.offerFifo {e : EntryNo} (h : s.Held v (e :: so) L) :
    (s.offerFifo e).Held { v with fifo := v.fifo ++ [e] } (e :: so) L ∨ (s.offerFifo e).Held v so L := by
  unfold State.offerFifo
  split
  · refine .inl ⟨?_, h.2⟩
    rw [← h.1]
    rfl
  · refine .inr (State.Held.raise ?_ _ _)
    exact h.loosen.release

theorem SoleView.push_count (v : SoleView) (e d : EntryNo) :
    ({ v with fifo := v.fifo ++ [e] } : SoleView).held.count d = v.held.count d + [e].count d := by
  simp only [SoleView.held, List.count_append]
  omega

theorem State.Holds.offerFifo {e : EntryNo} (h : s.Holds hand (e :: H)) : (s.offerFifo e).Holds hand H := by
  rcases h.front.offerFifo with h' | h'
  · refine h'.holds (fun d => ?_) h.2.1 h.2.2
    rw [SoleView.push_count, List.count_cons, List.count_append]
    simp only [List.count_cons, List.count_nil]
    omega
  · exact h.same h'

theorem State.Holds.handleGood {e : EntryNo} (h : s.Holds hand (e :: H)) (p : PortNo) :
    (s.handleGood p e).Holds hand H := by
  unfold State.handleGood
  dsimp only
  split
  · exact h.same (h.front.dropAt p)
  · split
    · split
      · exact h.offerFifo
      · exact h.same ((h.front.dropAt p).raise _ _)
    · split
      · exact h.same (h.front.classifyAndDecide p)
      · exact h.same ((h.front.classify p e).loosen.release)

/-! ### Trunk Receiver -/

theorem State.Holds.modRx (h : s.Holds hand H) (f : Receiver → Receiver) (hf : (f s.rx).ctxs = s.rx.ctxs) :
    (s.modRx f).Holds hand H := by
  refine h.same ⟨?_, h.1.2⟩
  unfold State.soleView State.modRx
  congr 1

theorem Reassembly.held_of_not_collecting {c : Reassembly} (h : ∀ x, c ≠ .collecting x) : c.held = [] := by
  cases c with
  | collecting x => exact absurd rfl (h x)
  | idle | discarding => rfl

/-- A context that is not Collecting takes another value, with the hold it brings. -/
theorem State.Held.recontexts (h : s.Held v so []) (l : Level) (c : Reassembly) (h0 : (v.ctxs[l.val]).held = [])
    (hc : ∀ e, so.count e = v.held.count e + c.held.count e + H.count e)
    (hr : ∀ q, v.active q = false → v.rx q = .idle) (hh : v.inHand = hand) : (s.setRxCtx l c).Holds hand H :=
  (h.setRxCtx l c).holds (fun e => by
    have h4 := v.setCtx_count l c e
    have h5 := hc e
    rw [h0, List.count_nil] at h4
    omega) hr hh

theorem State.Holds.setRxCtx (h : s.Holds hand H) (l : Level) (c : Reassembly) (h0 : ∀ x, s.rxCtx l ≠ .collecting x)
    (h1 : ∀ x, c ≠ .collecting x) : (s.setRxCtx l c).Holds hand H :=
  h.1.recontexts l c (Reassembly.held_of_not_collecting h0) (fun e => by
    rw [Reassembly.held_of_not_collecting h1, List.count_append, List.count_nil]
    omega) h.2.1 h.2.2

/-- The hold of a Collecting context is one of the state's. -/
theorem State.Holds.collected {c : Collect} (h : s.Holds hand H) {l : Level} (hx : s.rxCtx l = .collecting c) :
    ∃ so, s.Held s.soleView (c.entry :: so) [] ∧
      ∀ e, so.count e = (s.soleView.setCtx l .idle).held.count e + H.count e := by
  have hv : s.soleView.ctxs[l.val] = .collecting c := hx
  have hm : c.entry ∈ s.soleView.held ++ H := by
    refine List.mem_append_left _ (List.mem_append_left _ (List.mem_append_right _ ?_))
    exact List.mem_flatMap.mpr ⟨l, mem_allLevels l, by rw [hv]; exact List.mem_singleton_self _⟩
  refine ⟨_, h.1.perm (List.perm_cons_erase hm).symm (.refl _), fun e => ?_⟩
  have h1 := (List.perm_cons_erase hm).count_eq e
  have h2 := s.soleView.setCtx_count l .idle e
  rw [hv] at h2
  simp only [Reassembly.held, List.count_cons, List.count_nil, List.count_append] at h1 h2
  omega

theorem State.Holds.giveUpPartial (h : s.Holds hand H) (l : Level) (gap : Bool) :
    (s.giveUpPartial l gap).Holds hand H := by
  unfold State.giveUpPartial
  split
  · next c hx =>
    obtain ⟨so, hs, hc⟩ := h.collected hx
    have h1 : ((s.release c.entry).setRxCtx l .idle).Holds hand H :=
      (hs.loosen.release.setRxCtx l .idle).holds hc h.2.1 h.2.2
    dsimp only
    split
    · exact (h1.modRx _ rfl).raise _ _
    · exact h1
  · exact h
  · exact h

/-- A partial frame that is given up leaves no Collecting context on its level. -/
theorem State.giveUpPartial_idle (s : State) (l : Level) (gap : Bool) (x : Collect) :
    (s.giveUpPartial l gap).rxCtx l ≠ .collecting x := by
  unfold State.giveUpPartial
  split
  · next c hx =>
    dsimp only
    split
    · intro hy
      have h1 := (State.raise_leaves (((s.release c.entry).setRxCtx l .idle).modRx fun r =>
        { r with reassemblyGaps := bump r.reassemblyGaps }) .reassemblyGap
        { level := some l, node := some c.src }).rx
      unfold State.rxCtx at hy
      rw [h1] at hy
      have h2 : ((s.release c.entry).setRxCtx l .idle).rxCtx l = .idle := State.rxCtx_setRxCtx_same _ l .idle
      rw [show ((s.release c.entry).setRxCtx l .idle).rxCtx l = .collecting x from hy] at h2
      cases h2
    · rw [State.rxCtx_setRxCtx_same]
      exact fun hy => by cases hy
  · next hx => rw [hx]; exact fun hy => by cases hy
  · next hx => rw [hx]; exact fun hy => by cases hy

theorem State.Holds.endReassembly (h : s.Holds hand H) : s.endReassembly.Holds hand H := by
  refine .foldl _ (fun {t} l ht => ?_) allLevels h
  split
  · exact (ht.giveUpPartial l false).modRx _ rfl
  · next hx => exact ht.setRxCtx l .idle (fun x hy => by rw [hx] at hy; cases hy) fun x hy => by cases hy
  · next hx => exact ht.setRxCtx l .idle (fun x hy => by rw [hx] at hy; cases hy) fun x hy => by cases hy

theorem State.Held.modRx (h : s.Held v so L) (f : Receiver → Receiver) (hf : (f s.rx).ctxs = s.rx.ctxs) :
    (s.modRx f).Held v so L := by
  refine ⟨?_, h.2⟩
  rw [← h.1]
  unfold State.soleView State.modRx
  congr 1

theorem State.Held.dropDispatch {e : EntryNo} (h : s.Held v (e :: so) L) : (s.dropDispatch e).Held v so L :=
  h.loosen.release.modRx _ rfl

/-- R133: a complete frame joins the FIFO, or its hold passes to others or is released. -/
theorem State.Held.dispatchUnlessBarred {e : EntryNo} (h : s.Held v (e :: so) L) (l : Level) :
    (s.dispatchUnlessBarred l e).Held { v with fifo := v.fifo ++ [e] } (e :: so) L ∨
      (s.dispatchUnlessBarred l e).Held v so L := by
  unfold State.dispatchUnlessBarred
  split
  · exact .inr h.dropDispatch
  · unfold State.dispatch
    dsimp only
    split
    · split
      · exact h.offerFifo
      · exact .inr h.dropDispatch
    · exact .inr (h.offerAll (.one_port _))
    · split
      · exact .inr h.dropDispatch
      · next ms hms =>
        refine .inr (h.offerAll ?_)
        exact .active fun m => decide (s.portState m = .active)
    · exact .inr h.dropDispatch
    · exact .inr h.dropDispatch

theorem State.Held.recordSequence (h : s.Held v so L) (l : Level) (key : Option (Slot × Word)) :
    (s.recordSequence l key).Held v so L := by
  unfold State.recordSequence
  split
  · exact h
  · exact h

/-- R133: the frame of a level is received whole, and the context is Idle. -/
theorem State.Held.finishFrame {e : EntryNo} (h : s.Held v (e :: so) []) (l : Level) (key : Option (Slot × Word))
    (hc : ∀ d, so.count d = (v.setCtx l .idle).held.count d + H.count d)
    (hr : ∀ q, v.active q = false → v.rx q = .idle) (hh : v.inHand = hand) :
    (s.finishFrame l e key).Holds hand H := by
  unfold State.finishFrame
  rcases ((h.recordSequence l key).modRx (fun r => { r with framesReceived := bump r.framesReceived })
    rfl).dispatchUnlessBarred l with h' | h'
  · refine (h'.setRxCtx l .idle).holds (fun d => ?_) hr hh
    have h1 := hc d
    have h2 := (v.setCtx l .idle).push_count e d
    have h3 : (({ v with fifo := v.fifo ++ [e] } : SoleView).setCtx l .idle) =
      { v.setCtx l .idle with fifo := (v.setCtx l .idle).fifo ++ [e] } := rfl
    rw [h3, h2, List.count_cons]
    simp only [List.count_cons, List.count_nil]
    omega
  · exact (h'.setRxCtx l .idle).holds hc hr hh

theorem State.Holds.rejectFragment (h : s.Holds hand H) (hd : FragmentHeader)
    (h0 : ∀ x, s.rxCtx hd.level ≠ .collecting x) : (s.rejectFragment hd).Holds hand H := by
  have h1 := h.setRxCtx hd.level .discarding h0 fun x hy => by cases hy
  exact State.Holds.raise (s := { s.setRxCtx hd.level .discarding with
    cipher := { s.cipher with rejects := bump s.cipher.rejects } }) h1 _ _

/-- A level whose context is not Collecting holds the same with it Idle. -/
theorem SoleView.setCtx_idle (v : SoleView) (l : Level) (h0 : (v.ctxs[l.val]).held = []) (d : EntryNo) :
    (v.setCtx l .idle).held.count d = v.held.count d := by
  have := v.setCtx_count l .idle d
  rw [h0] at this
  simpa [Reassembly.held] using this

theorem State.Holds.startFrame (h : s.Holds hand H) (hd : FragmentHeader) (payload : List Byte)
    (h0 : ∀ x, s.rxCtx hd.level ≠ .collecting x) : (s.startFrame hd payload).Holds hand H := by
  have ha := h.1.allocTraffic (f := trunkEntry hd)
  have hv : (s.soleView.ctxs[hd.level.val]).held = [] := Reassembly.held_of_not_collecting h0
  unfold State.startFrame
  split
  · exact h.rejectFragment hd h0
  · split
    · next t heq =>
      refine State.Holds.raise ((ha.2 t heq).recontexts hd.level .discarding hv (fun d => ?_) h.2.1 h.2.2) _ _
      simp only [Reassembly.held, List.count_append, List.count_nil]
      omega
    · next e t heq =>
      refine ((ha.1 e t heq).writePayload e 0 _).recontexts hd.level _ hv (fun d => ?_) h.2.1 h.2.2
      simp only [Reassembly.held, List.count_cons, List.count_append, List.count_nil]
      omega

theorem State.Holds.processWhole (h : s.Holds hand H) (hd : FragmentHeader) (payload : List Byte)
    (h0 : ∀ x, s.rxCtx hd.level ≠ .collecting x) : (s.processWhole hd payload).Holds hand H := by
  have ha := h.1.allocTraffic (f := trunkEntry hd)
  have hv : (s.soleView.ctxs[hd.level.val]).held = [] := Reassembly.held_of_not_collecting h0
  unfold State.processWhole
  split
  · exact h.rejectFragment hd h0
  · split
    · next t heq => exact (h.same (ha.2 t heq)).raise _ _
    · next e t heq =>
      refine ((ha.1 e t heq).writePayload e 0 _).finishFrame hd.level _ (fun d => ?_) h.2.1 h.2.2
      rw [SoleView.setCtx_idle _ _ hv, List.count_append]

theorem State.Holds.append {c : Collect} (h : s.Holds hand H) (hd : FragmentHeader) (payload : List Byte)
    (last : Bool) (hx : s.rxCtx hd.level = .collecting c) : (s.append c hd payload last).Holds hand H := by
  obtain ⟨so, hs, hc⟩ := h.collected hx
  unfold State.append
  dsimp only
  split
  · exact (hs.writePayload c.entry c.received _).finishFrame hd.level c.key hc h.2.1 h.2.2
  · refine ((hs.writePayload c.entry c.received _).setRxCtx hd.level _).holds (fun d => ?_) h.2.1 h.2.2
    have h1 := hc d
    have h2 := s.soleView.setCtx_count hd.level .idle d
    have h3 := s.soleView.setCtx_count hd.level
      (.collecting { c with expected := c.expected + 1, received := c.received + hd.len }) d
    simp only [Reassembly.held, List.count_cons, List.count_nil] at h2 h3 ⊢
    omega

theorem State.Holds.continueFrame (h : s.Holds hand H) (hd : FragmentHeader) (payload : List Byte) (last : Bool) :
    (s.continueFrame hd payload last).Holds hand H := by
  unfold State.continueFrame
  split
  · exact h.modRx _ rfl
  · exact h
  · next c hx =>
    split
    · exact h.append hd payload last hx
    · exact (h.giveUpPartial hd.level true).setRxCtx hd.level .discarding (s.giveUpPartial_idle hd.level true)
        fun x hy => by cases hy

theorem State.Holds.cleared (h : s.Holds hand H) (l : Level) (gap : Bool) :
    ((s.giveUpPartial l gap).setRxCtx l .idle).Holds hand H :=
  (h.giveUpPartial l gap).setRxCtx l .idle (s.giveUpPartial_idle l gap) fun x hy => by cases hy

theorem State.Holds.handleFragment (h : s.Holds hand H) (hd : FragmentHeader) (payload : List Byte) :
    (s.handleFragment hd payload).Holds hand H := by
  have hi : ∀ x, ((s.giveUpPartial hd.level true).setRxCtx hd.level .idle).rxCtx hd.level ≠ .collecting x := by
    intro x hy
    rw [State.rxCtx_setRxCtx_same] at hy
    cases hy
  unfold State.handleFragment
  split
  · exact (h.cleared hd.level true).processWhole hd payload hi
  · exact (h.cleared hd.level true).startFrame hd payload hi
  · exact h.continueFrame hd payload false
  · exact h.continueFrame hd payload true
  · exact (h.cleared hd.level false).modRx _ rfl
  · exact h

theorem State.Holds.receiveFragment (h : s.Holds hand H) (bytes : List Byte) :
    (s.receiveFragment bytes).Holds hand H := by
  have h1 := h.modRx (fun r => { r with fragmentsReceived := bump r.fragmentsReceived }) rfl
  unfold State.receiveFragment
  split
  · exact h.modRx _ rfl
  · dsimp only
    split
    · exact h1.modRx _ rfl
    · split
      · exact h1.modRx _ rfl
      · exact h1.handleFragment _ _

/-! ### Mode Controller -/

theorem State.Holds.bar (h : s.Holds hand H) (l : Level) : (s.bar l).Holds hand H := h.same (h.1.bar l)

theorem State.Holds.triggerAuction (h : s.Holds hand H) : s.triggerAuction.Holds hand H := h

theorem State.Holds.portsReact (h : s.Holds hand H) (old : State) : (s.portsReact old).Holds hand H := by
  unfold State.portsReact
  exact .foldl _ (fun p ht => ht.portReacts p _) allPorts h

theorem State.Holds.enterSetup (h : s.Holds hand H) : s.enterSetup.Holds hand H := by
  have h1 : ({ s with ctl := { s.ctl with mode := .setup, mark := none } } : State).Holds hand H := h
  unfold State.enterSetup
  dsimp only
  exact (State.Holds.endReassembly (.foldl State.bar (fun l ht => ht.bar l) trafficLevels
    (h1.portsReact s))).triggerAuction

theorem State.Holds.enterRun (h : s.Holds hand H) : s.enterRun.Holds hand H := by
  have h1 : ({ s with ctl := { s.ctl with
    mode := .run, mark := if 0 < s.ctl.period then some s.now else none } } : State).Holds hand H := h
  unfold State.enterRun
  dsimp only
  exact (h1.portsReact s).triggerAuction

theorem State.Holds.barUnlessEssential (h : s.Holds hand H) (l : Level) :
    (s.barUnlessEssential l).Holds hand H := by
  unfold State.barUnlessEssential
  split
  · exact h
  · exact h.bar l

theorem State.Holds.enterFallback (h : s.Holds hand H) : s.enterFallback.Holds hand H := by
  have h1 : ({ s with ctl := { s.ctl with mode := .fallback, mark := none, refreshSeen := false } } : State).Holds
    hand H := h
  unfold State.enterFallback
  dsimp only
  exact (State.Holds.foldl State.barUnlessEssential (fun l ht => ht.barUnlessEssential l) trafficLevels
    h1).triggerAuction

end Sys2Proof.Machine
end

