-- ==== Sys2Proof/Laws/HolderSteps.lean ====
section
/-! SUPPORT. The accounting of holders (R28) through the Command Unit's step, and so through every row. -/

namespace Sys2Proof.Machine

open Sys2Proof

variable {hand : Option EntryNo} {H : List EntryNo} {s t : State}

/-! ### Actions of commands -/

/-- A change of the tables that moves no hold. -/
theorem State.Holds.tables (h : s.Holds hand H) (hst : t.store.freeEntries = s.store.freeEntries ∧
    t.store.entries = s.store.entries) (hl : t.levelHeld = s.levelHeld)
    (hp : ∀ p, (t.port p).egressHeld = (s.port p).egressHeld) (hv : t.soleView = s.soleView) : t.Holds hand H := by
  refine h.same ⟨hv, ?_⟩
  rw [hst.1, hst.2, hl, show (fun p => (t.port p).egressHeld) = fun p => (s.port p).egressHeld from funext hp]
  exact h.1.2

theorem State.Holds.mapLevels (h : s.Holds hand H) (f : LevelEntry → LevelEntry) (hf : ∀ v, (f v).held = v.held) :
    ({ s with levels := mapTable f s.levels } : State).Holds hand H := by
  refine h.tables ⟨rfl, rfl⟩ (List.flatMap_congr fun l _ => ?_) (fun _ => rfl) rfl
  show ((mapTable f s.levels)[l.val]).held = _
  rw [getElem_mapTable]
  exact hf _

theorem State.Holds.mapPorts (h : s.Holds hand H) (f : Port → Port) (h1 : ∀ v, (f v).egressHeld = v.egressHeld)
    (h2 : ∀ v, (f v).rx = v.rx) (h3 : ∀ v, (f v).rxActive = v.rxActive) :
    ({ s with ports := mapTable f s.ports } : State).Holds hand H := by
  have hp : ∀ p, ({ s with ports := mapTable f s.ports } : State).port p = f (s.port p) := fun p =>
    getElem_mapTable f s.ports p.val p.isLt
  refine h.tables ⟨rfl, rfl⟩ rfl (fun p => by rw [hp, h1]) ?_
  unfold State.soleView
  simp only [hp, h2, h3]

theorem State.Holds.modLvl_same (h : s.Holds hand H) (l : Level) (f : LevelEntry → LevelEntry)
    (hf : (f (s.lvl l)).held = (s.lvl l).held) : (s.modLvl l f).Holds hand H :=
  h.same (h.1.modLvl_same l f hf)

theorem State.Holds.replaceAttrs (h : s.Holds hand H) (l : Level) (a : Attrs) :
    (s.replaceAttrs l a).Holds hand H := by
  unfold State.replaceAttrs
  split
  · exact (h.modLvl_same l _ rfl).bar l
  · exact h.modLvl_same l _ rfl

theorem State.Holds.flush (h : s.Holds hand H) (l : Level) (c : CommandFrame) :
    (s.flush l c).state.Holds hand H := by
  have h1 := h.same (h.1.emptyQueue l)
  unfold State.flush
  dsimp only
  split
  · exact h1
  · split
    · exact h1.modLvl_same l (fun v => { v with flushPending := some { tag := c.tag, sender := c.sender } }) rfl
    · exact h1.same (h1.1.abandon l true)

theorem State.Holds.resetSequences (h : s.Holds hand H) (k : Slot) : (s.resetSequences k).Holds hand H :=
  State.Holds.mapLevels (s := { s with cipher := (s.resetSequences k).cipher }) h _ fun _ => rfl

theorem State.Holds.clearRegion (h : s.Holds hand H) (r : Region) : (s.clearRegion r).Holds hand H := by
  cases r with
  | levels => exact h.mapLevels _ fun _ => rfl
  | ports => exact h.mapPorts _ (fun _ => rfl) (fun _ => rfl) fun _ => rfl
  | rules | nodeMap | keys | mode | logs => exact h

theorem State.Holds.reply (st : Status) (r : List Byte) (h : s.Holds hand H) :
    (Reply.answer st r s).state.Holds hand H := h

/-- A command's action keeps the accounting. -/
theorem State.Holds.act (h : s.Holds hand H) (k : Command) (c : CommandFrame) (f : State) :
    (k.act c f s).state.Holds hand H := by
  by_cases hk : k.pieces = [] ∧ k ≠ .flushLevel
  · rw [Moves.reads k hk.1 hk.2]
    exact h
  · cases k with
    | writeRule =>
      show (actWriteRule c f s).state.Holds hand H
      unfold actWriteRule
      split
      · exact h
      · split <;> exact h
    | writeNodeMap =>
      show (actWriteNodeMap c f s).state.Holds hand H
      unfold actWriteNodeMap
      dsimp only
      split <;> exact h
    | writeLevel =>
      show (actWriteLevel c f s).state.Holds hand H
      unfold actWriteLevel
      split
      · exact h
      · show (s.writeAttrs _ _).Holds hand H
        unfold State.writeAttrs
        split
        · exact (h.replaceAttrs _ _).triggerAuction
        · exact h.replaceAttrs _ _
    | flushLevel =>
      show (actFlushLevel c f s).state.Holds hand H
      unfold actFlushLevel
      dsimp only
      split
      · exact h
      · exact h.flush _ c
    | writePortConfig =>
      show (actWritePortConfig c f s).state.Holds hand H
      unfold actWritePortConfig
      dsimp only
      split
      · exact h
      · refine State.Holds.same (h.modPort_same _ _ ?_ ?_ ?_) (State.Held.startSilence
          (State.Holds.modPort_same h _ _ ?_ ?_ ?_).1 _)
        all_goals
          dsimp only
          split <;> rfl
    | setPortMode =>
      show (actSetPortMode c f s).state.Holds hand H
      unfold actSetPortMode
      dsimp only
      split
      · exact h
      · exact h.changePort _ _ rfl rfl rfl
    | loadKey =>
      show (actLoadKey c f s).state.Holds hand H
      unfold actLoadKey
      split <;> exact h
    | eraseKey =>
      show (actEraseKey c f s).state.Holds hand H
      unfold actEraseKey
      split
      · exact h
      · exact State.Holds.resetSequences (s := s.setSlot c.slot .empty) h c.slot
    | selectSlot =>
      show (actSelectSlot c f s).state.Holds hand H
      unfold actSelectSlot
      split <;> exact h
    | setMode =>
      show (actSetMode c f s).state.Holds hand H
      unfold actSetMode
      split
      · exact h.enterSetup
      · exact h.enterSetup
      · split
        · exact h.enterRun
        · exact h
      · split
        · exact h.enterRun
        · exact h
      · exact h
      · exact h.enterFallback
      all_goals exact h
    | refresh =>
      show (actRefresh c f s).state.Holds hand H
      unfold actRefresh
      split
      · exact h
      · exact h
      · split
        · exact h
        · split
          · exact State.Holds.reply .early [] (h.enterFallback.raise .supervisionEarly _)
          · exact h
      · exact h
    | writeSupervision =>
      show (actWriteSupervision c f s).state.Holds hand H
      unfold actWriteSupervision
      split <;> exact h
    | setTrunkConfig =>
      show (actSetTrunkConfig c f s).state.Holds hand H
      unfold actSetTrunkConfig
      dsimp only
      split <;> exact h
    | readRecords =>
      show (actReadRecords c f s).state.Holds hand H
      unfold actReadRecords
      dsimp only
      split <;> exact h
    | clearFaults => exact h
    | writeNoticeConfig =>
      show (actWriteNoticeConfig c f s).state.Holds hand H
      unfold actWriteNoticeConfig
      dsimp only
      split <;> exact h
    | clearCounters =>
      show (actClearCounters c f s).state.Holds hand H
      unfold actClearCounters
      split
      · exact h
      · exact h.clearRegion _
    | writeAccess =>
      show (actWriteAccess c f s).state.Holds hand H
      unfold actWriteAccess
      split <;> exact h
    | readRules | readNodeMap | readLevel | readPort | keyCheck | readKeyState | readStatus | resetPart
      | readFaults => exact absurd ⟨rfl, by decide⟩ hk

/-! ### The Command Unit -/

/-- A change of the command in hand, with its hold passing between the state and the operation. -/
theorem State.Held.setCmd {v : SoleView} {so : List EntryNo} (h : s.Held v so []) (u : CommandUnit)
    (hc : ∀ e, so.count e = ({ v with fifo := u.fifo, inHand := u.inHand } : SoleView).held.count e + H.count e)
    (hr : ∀ p, v.active p = false → v.rx p = .idle) : ({ s with cmd := u } : State).Holds u.inHand H := by
  have hv := h.1
  subst hv
  exact State.Held.holds (v := { s.soleView with fifo := u.fifo, inHand := u.inHand }) ⟨rfl, h.2⟩ hc hr rfl

theorem State.Holds.takeNext {e : EntryNo} (h : s.Holds hand H) (ht : s.takeNext = some (e, t)) :
    t.Holds (some e) H := by
  unfold State.takeNext at ht
  split at ht
  · next d hd =>
    split at ht
    · cases ht
      exact ⟨h.1, h.2.1, hd⟩
    · cases ht
  · next hn =>
    split at ht
    · split at ht
      · cases ht
      · next rest hq =>
        cases ht
        refine h.1.setCmd { s.cmd with
          fifo := rest, inHand := some e, commandsTaken := bump s.cmd.commandsTaken } (fun d => ?_) h.2.1
        simp only [SoleView.held, State.soleView, hq, hn, List.count_append, List.count_cons, List.count_nil,
          Option.toList_none, Option.toList_some]
        omega
    · cases ht

theorem State.Holds.finish {c : CommandFrame} {e : EntryNo} (h : s.Holds (some c.entry) (e :: H)) (st : Status)
    (r : List Byte) : (s.finish c e st r).Holds none H := by
  have h1 := h.same (h.1.fillResponse e (responsePayload c.code c.tag st r))
  unfold State.finish
  dsimp only
  generalize s.fillResponse e (responsePayload c.code c.tag st r) = u at h1 ⊢
  have h2 := h1.1.setCmd (H := e :: c.entry :: H) { u.cmd with inHand := none } (fun d => by
    have h3 : u.cmd.inHand = some c.entry := h1.2.2
    simp only [SoleView.held, State.soleView, h3, List.count_append, List.count_cons, List.count_nil,
      Option.toList_none, Option.toList_some]
    omega) h1.2.1
  have h4 := h2.same (h2.front.routeResponse c.sender)
  exact h4.same h4.front.loosen.release

theorem State.Holds.recordLongOp {c : CommandFrame} {e : EntryNo} (h : s.Holds (some c.entry) (e :: H))
    (op : LongOp) : (s.recordLongOp c e op).Holds none H := by
  unfold State.recordLongOp
  dsimp only
  have h2 := h.1.setCmd (H := e :: c.entry :: H) { s.cmd with inHand := none, longOps := s.cmd.longOps ++
      [{ op := op, tag := c.tag, sender := c.sender, node := c.node }] } (fun d => by
    have h3 : s.cmd.inHand = some c.entry := h.2.2
    simp only [SoleView.held, State.soleView, h3, List.count_append, List.count_cons, List.count_nil,
      Option.toList_none, Option.toList_some]
    omega) h.2.1
  have h4 := h2.same (h2.front.loosen.release)
  exact h4.same h4.front.loosen.release

theorem State.Holds.precheck {k : Command} {c : CommandFrame} {st : Status} (h : s.Holds hand H)
    (hp : s.precheck k c = some (st, t)) : t.Holds hand H := by
  unfold State.precheck at hp
  split at hp
  · cases hp
    exact State.Holds.raise (s := { s with cmd := { s.cmd with
      commandsDenied := bump s.cmd.commandsDenied } }) h _ _
  · split at hp
    · cases hp
      split
      · exact h.raise _ _
      · exact h
    · split at hp
      · cases hp; exact h
      · cases hp

/-- R142: after an attempt the command is still in hand, or its hold has been released. -/
theorem State.Holds.attempt {c : CommandFrame} (h : s.Holds (some c.entry) H) (k : Command) :
    ∃ hand', (s.attempt k c k.act).Holds hand' H := by
  have ha := h.1.allocReserve (n := Config.attemptCells) (f := s.responseEntry c.node)
  unfold State.attempt
  split
  · next t heq => exact ⟨_, h.same (ha.2 t heq)⟩
  · next e t heq =>
    have ht : t.Holds (some c.entry) (e :: H) :=
      (ha.1 e t heq).holds (fun d => by rw [List.count_cons, List.count_cons, List.count_append]; omega) h.2.1 h.2.2
    split
    · next st u hp => exact ⟨_, (ht.precheck hp).finish st []⟩
    · have hk := ht.act k c s
      split
      · next st r u hr => rw [hr] at hk; exact ⟨_, State.Holds.finish hk st r⟩
      · next op u hr => rw [hr] at hk; exact ⟨_, State.Holds.recordLongOp hk op⟩

theorem State.Holds.attemptUnknown {c : CommandFrame} (h : s.Holds (some c.entry) H) :
    ∃ hand', (s.attemptUnknown c).Holds hand' H := by
  have ha := h.1.allocReserve (n := Config.attemptCells) (f := s.responseEntry c.node)
  unfold State.attemptUnknown
  split
  · next t heq => exact ⟨_, h.same (ha.2 t heq)⟩
  · next e t heq =>
    have ht : t.Holds (some c.entry) (e :: H) :=
      (ha.1 e t heq).holds (fun d => by rw [List.count_cons, List.count_cons, List.count_append]; omega) h.2.1 h.2.2
    exact ⟨_, ht.finish _ []⟩

theorem State.Holds.attemptAny {c : CommandFrame} (h : s.Holds (some c.entry) H) :
    ∃ hand', (s.attemptAny c).Holds hand' H := by
  unfold State.attemptAny
  split
  · exact h.attempt _
  · exact h.attemptUnknown

theorem State.commandFrame_entry {e : EntryNo} {c : CommandFrame} (h : s.commandFrame e = some c) : c.entry = e := by
  unfold State.commandFrame at h
  split at h
  · cases h; rfl
  · cases h

theorem State.Holds.nextCommand {c : CommandFrame} (h : s.Holds hand H) (hn : s.nextCommand = some (c, t)) :
    t.Holds (some c.entry) H := by
  obtain ⟨e, he, hc⟩ := State.nextCommand_eq_some hn
  rw [State.commandFrame_entry hc]
  exact h.takeNext he

theorem State.Holds.settle (h : s.Holds hand H) : s.settle.Holds hand H := h.same h.1.settle

theorem State.Holds.done {u : State} (h : s.Holds hand H) (hd : s.done = .next u) : u.Holds hand H := by
  rw [State.done_eq hd]
  exact h.settle

theorem State.Holds.buildWaiting (rs : List LongRecord) {s : State} (h : s.Holds hand H) :
    (State.buildWaiting rs s).2.Holds hand H := by
  induction rs generalizing s with
  | nil => exact h
  | cons r rs ih =>
    have hb := h.same (h.1.buildLongResponse r)
    unfold State.buildWaiting
    split
    · next t heq => rw [heq] at hb; exact hb
    · next t heq => rw [heq] at hb; exact ih (s := { t with cmd := { t.cmd with waiting := t.cmd.waiting.tail } }) hb

theorem State.Holds.runWaiting (h : s.Holds hand H) : ∃ hand', s.runWaiting.Holds hand' H := by
  have hb := State.Holds.buildWaiting (s := { s with cmd := { s.cmd with freed := s.cmd.freed - 1 } })
    s.cmd.waiting h
  unfold State.runWaiting
  split
  · next t heq => rw [heq] at hb; exact ⟨_, hb⟩
  · next t heq =>
    rw [heq] at hb
    split
    · exact ⟨_, hb⟩
    · next c hc =>
      obtain ⟨e, he, hf⟩ := Option.bind_eq_some_iff.mp hc
      refine State.Holds.attemptAny ?_
      rw [State.commandFrame_entry hf, ← he]
      exact ⟨hb.1, hb.2.1, rfl⟩

/-! ### Rows -/

/-- Between steps nothing is in hand. -/
def State.AllHeld (s : State) : Prop := s.Holds s.cmd.inHand []

theorem State.Holds.all (h : s.Holds hand []) : s.AllHeld := ⟨h.1, h.2.1, rfl⟩

theorem State.AllHeld.runCommand (h : s.AllHeld) (k : Command) (hx : s.runCommand k k.act = .next t) : t.AllHeld := by
  unfold State.runCommand at hx
  split at hx
  · cases hx; exact h
  · next c u hn =>
    split at hx
    · obtain ⟨hand', ha⟩ := (State.Holds.nextCommand h hn).attempt k
      exact (ha.done hx).all
    · cases hx; exact h

theorem State.AllHeld.unchanged (h : s.AllHeld) (hx : (Host.Outcome.next s : Result) = .next t) : t.AllHeld := by
  cases hx; exact h

theorem State.allHeld_blank (m : Mode) (c : ResetCause) (b : Byte) (p : Pins) (q : List Instr) :
    (State.blank m c b p q).AllHeld := by
  have hl : ∀ l, ((State.blank m c b p q).lvl l).held = [] := by
    intro l
    show ((levelsAtReset)[l.val]).held = []
    revert l; decide
  have hp : ∀ i, ((State.blank m c b p q).port i).egressHeld = [] ∧ ((State.blank m c b p q).port i).rx = .idle := by
    intro i
    have : ∀ i : Fin 4, ∃ x y, (portsAtReset p)[i.val] = Port.blank x y := by
      intro i
      match i with
      | 0 => exact ⟨_, _, rfl⟩
      | 1 => exact ⟨_, _, rfl⟩
      | 2 => exact ⟨_, _, rfl⟩
      | 3 => exact ⟨_, _, rfl⟩
    obtain ⟨x, y, hxy⟩ := this i
    show ((portsAtReset p)[i.val]).egressHeld = [] ∧ ((portsAtReset p)[i.val]).rx = .idle
    rw [hxy]
    exact ⟨rfl, rfl⟩
  have h1 : (State.blank m c b p q).levelHeld = [] := by
    unfold State.levelHeld
    exact List.flatMap_eq_nil_iff.mpr fun l _ => hl l
  have h2 : (State.blank m c b p q).soleView.held = [] := by
    unfold SoleView.held
    have ha : (allPorts.flatMap fun i => ((State.blank m c b p q).soleView.rx i).held) = [] :=
      List.flatMap_eq_nil_iff.mpr fun i _ => by
        show ((State.blank m c b p q).port i).rx.held = []
        rw [(hp i).2]; rfl
    have hb : (allLevels.flatMap fun l => ((State.blank m c b p q).soleView.ctxs[l.val]).held) = [] :=
      List.flatMap_eq_nil_iff.mpr fun l _ => by
        show (((Vector.replicate 32 Reassembly.idle)[l.val])).held = []
        rw [Vector.getElem_replicate]; rfl
    rw [ha, hb]
    rfl
  have hr : ∀ e, references (State.blank m c b p q).levelHeld (fun i => ((State.blank m c b p q).port i).egressHeld)
      ((State.blank m c b p q).soleView.held ++ []) [] e = 0 := fun e => by
    have h3 : (fun i => ((State.blank m c b p q).port i).egressHeld) = fun _ => [] := funext fun i => (hp i).1
    have h4 : (allPorts.flatMap fun _ => ([] : List EntryNo)) = [] := rfl
    rw [references, h1, h2, h3, h4]
    simp
  refine ⟨⟨rfl, ?_, fun e f hf => ?_, fun e he => ?_, fun e he => ?_, fun e => ?_, fun i e => ?_⟩,
    fun i _ => (hp i).2, rfl⟩
  · rw [show (State.blank m c b p q).store.entries = [] from rfl, List.map_nil, List.append_nil]
    have hf : (State.blank m c b p q).store.freeEntries = List.range Config.entryCount := by
      simp only [State.blank, Store.blank]
    rw [hf]
    exact List.nodup_range
  · cases hf
  · rw [hr e] at he; cases he
  · rw [h2] at he; cases he
  · rw [h1]; exact Nat.zero_le _
  · rw [(hp i).1]; exact Nat.zero_le _

theorem State.Holds.endTx {e : EntryNo} {loop : Bool} (h : s.Holds hand H) (p : PortNo)
    (hx : (s.port p).tx = some { entry := e, loop := loop }) : (s.endTx p e).Holds hand H := by
  refine h.same (State.Held.release (h.1.port_drop p _ [e] rfl rfl fun d => ?_))
  simp only [Port.egressHeld, hx, Option.map_none, Option.toList_none, Option.map_some, Option.toList_some,
    List.append_nil, List.count_append]

theorem State.Holds.lineTxCompletes {e : EntryNo} (h : s.Holds hand H) (p : PortNo)
    (hx : (s.port p).tx = some { entry := e, loop := false }) : (s.lineTxCompletes p e).Holds hand H := by
  have h1 := (h.modPort_same p (fun v => { v with
    lastSent := stationFrame (s.entryAt e) (s.payload e) }) rfl rfl rfl).endTx p (loop := false) (e := e)
    (by rw [State.port_modPort_same]; exact hx)
  exact h1.same (h1.1.startTx p)

theorem State.Holds.portCellFails (h : s.Holds hand H) (p : PortNo) (e : EntryNo) (cell : CellNo) :
    (s.portCellFails p e cell).Holds hand H := by
  unfold State.portCellFails
  dsimp only
  exact (h.same (h.1.loseFrame e cell)).raise _ _

theorem State.allocTraffic_port {f : FrameEntry} {o : Option EntryNo} (h : s.allocTraffic f = (o, t)) (p : PortNo) :
    t.port p = s.port p := by
  unfold State.allocTraffic at h
  split at h
  · split at h <;> (cases h; rfl)
  · cases h; rfl

theorem State.port_raise (s : State) (k : FaultKind) (f : FaultFields) (p : PortNo) :
    ((s.raise k f).port p) = s.port p := by
  have h : ∀ (u : State) (l : Level) (e : EntryNo), (u.offerAll e [.level l]).port p = u.port p := fun u l e => by
    unfold State.offerAll
    simp only [List.foldl_cons, List.foldl_nil, State.makeOffer, Bool.not_false, Bool.false_or]
    split
    · exact u.offerLevel_ports l e p
    · exact (State.port_release _ e p).trans (u.offerLevel_ports l e p)
  unfold State.raise
  dsimp only
  split
  · unfold State.buildNotice State.allocReserve
    split
    · next t heq =>
      split at heq
      · split at heq <;> (cases heq; try rfl)
      · cases heq; rfl
    · next e t heq =>
      rw [h]
      split at heq
      · split at heq
        · cases heq; rfl
        · cases heq
      · cases heq
  · rfl

theorem State.Holds.loopCompletes {e : EntryNo} (h : s.Holds hand H) (p : PortNo)
    (hx : (s.port p).tx = some { entry := e, loop := true }) : (s.loopCompletes p e).Holds hand H := by
  have ha := h.1.allocTraffic (f := (s.entryAt e).loopbackCopy p)
  unfold State.loopCompletes
  dsimp only
  split
  · next t heq =>
    have h1 := ((h.same (ha.2 t heq)).modPort_same p Port.dropped rfl rfl rfl).raise .poolExhausted
      { port := some p }
    have h2 := h1.endTx p (e := e) (loop := true)
      (by rw [State.port_raise, State.port_modPort_same, State.allocTraffic_port heq]; exact hx)
    exact h2.same (h2.1.startTx p)
  · next d t heq =>
    have ht : t.Holds hand (d :: H) :=
      (ha.1 d t heq).holds (fun d => by rw [List.count_cons, List.count_cons, List.count_append]; omega) h.2.1 h.2.2
    split
    · next cell _ => exact State.Holds.portCellFails (ht.same ht.front.loosen.release) p e cell
    · have h1 := (ht.same (ht.1.writePayload d 0 (t.payload e))).endTx p (e := e) (loop := true)
        (by rw [show ((t.writePayload d 0 (t.payload e)).port p) = t.port p from rfl, State.allocTraffic_port heq]
            exact hx)
      have h2 := h1.same (h1.front.classifyAndDecide p)
      exact h2.same (h2.1.startTx p)

/-- R107, R108: the line falls silent and the receive ends, good or not. -/
theorem State.Holds.receiveEnd (h : s.Holds hand H) (p : PortNo) (bytes : List Byte) :
    ((s.lineSilent p).endReceive p bytes).Holds hand H := by
  have hw : ∀ x : Port, (x.watchLine { x with rxActive := false, activeSince := none } s.now).rx = x.rx ∧
      (x.watchLine { x with rxActive := false, activeSince := none } s.now).rxActive = false ∧
      (x.watchLine { x with rxActive := false, activeSince := none } s.now).egressHeld = x.egressHeld := fun x => by
    unfold Port.watchLine
    split <;> exact ⟨rfl, rfl, rfl⟩
  have hv : (s.lineSilent p).soleView =
      { s.soleView with active := fun q => if q = p then false else s.soleView.active q } := by
    unfold State.lineSilent State.soleView
    congr 1
    · funext q
      rw [State.port_modPort]
      split
      · next he => subst he; exact (hw _).1
      · rfl
    · funext q
      rw [State.port_modPort]
      split
      · next he => subst he; exact (hw _).2.1
      · rfl
  have h1 : (s.lineSilent p).Held { s.soleView with active := fun q => if q = p then false else s.soleView.active q }
      (s.soleView.held ++ H) [] := by
    refine ⟨hv, h.1.2.recount (fun e => ?_) h.1.2.alone h.1.2.oneLevel fun q e => ?_⟩
    · have hq : (fun q => ((s.lineSilent p).port q).egressHeld) = fun q => (s.port q).egressHeld := by
        funext q
        unfold State.lineSilent
        rw [State.port_modPort]
        split
        · next he => subst he; exact (hw _).2.2
        · rfl
      rw [hq]
      rfl
    · unfold State.lineSilent
      rw [State.port_modPort]
      split
      · next he => subst he; rw [(hw _).2.2]; exact h.1.2.onePlace q e
      · exact h.1.2.onePlace q e
  have hx : ((s.lineSilent p).port p).rx = s.soleView.rx p := by
    unfold State.lineSilent
    rw [State.port_modPort_same]
    exact (hw _).1
  generalize s.lineSilent p = u at h1 hx ⊢
  have hidle : ∀ {t : State} {so : List EntryNo}, t.Held ({ s.soleView with
      active := fun q => if q = p then false else s.soleView.active q } : SoleView) so [] →
      ∀ (f : Port → Port), (f (t.port p)).rx = .idle → (f (t.port p)).rxActive = (t.port p).rxActive →
      (f (t.port p)).egressHeld = (t.port p).egressHeld → ∀ H', 
      (∀ e, so.count e + (s.soleView.rx p).held.count e = s.soleView.held.count e + H'.count e) →
      (t.modPort p f).Holds hand H' :=
    fun ht f f1 f2 f3 H' hc => (ht.setRx p f f1 f2 f3).holds (fun e => by
      have h2 := hc e
      have h3 := s.soleView.setRx_count p .idle e
      simp only [show Receive.idle.held = [] from rfl, List.count_nil] at h3
      have h4 : (SoleView.setRx { s.soleView with
        active := fun q => if q = p then false else s.soleView.active q } p .idle).held =
          (s.soleView.setRx p .idle).held := rfl
      rw [h4]
      omega) (fun q hq => by
        by_cases hqp : q = p
        · simp [SoleView.setRx, hqp]
        · simp only [SoleView.setRx, hqp, if_false] at hq ⊢
          exact h.2.1 q hq) h.2.2
  unfold State.endReceive
  split
  · next hr =>
    refine h1.holds (fun e => by rw [List.count_append]; rfl) (fun q hq => ?_) h.2.2
    by_cases hqp : q = p
    · subst hqp
      show s.soleView.rx q = .idle
      rw [← hx, hr]
    · simp only [hqp, if_false] at hq
      exact h.2.1 q hq
  · next hr =>
    refine hidle h1 _ rfl rfl rfl H fun e => ?_
    rw [← hx, hr, List.count_append]
    rfl
  · next hr =>
    refine hidle h1 _ rfl rfl rfl H fun e => ?_
    rw [← hx, hr, List.count_append]
    rfl
  · next e hd hr =>
    have hm : e ∈ s.soleView.held ++ H := by
      refine List.mem_append_left _ (List.mem_append_left _ (List.mem_append_left _ ?_))
      exact List.mem_flatMap.mpr ⟨p, mem_allPorts p, by rw [← hx, hr]; exact List.mem_singleton_self e⟩
    have hc := (List.perm_cons_erase hm).count_eq
    split
    · refine State.Holds.handleGood (State.Holds.same (hidle h1 _ rfl rfl rfl (e :: H) fun d => ?_)
        (State.Held.startSilence (hidle h1 _ rfl rfl rfl (e :: H) fun d => ?_).1 p)) p
      all_goals
        rw [← hx, hr, List.count_append, List.count_cons]
        simp only [Receive.held, List.count_cons, List.count_nil]
        omega
    · refine hidle (h1.perm (List.perm_cons_erase hm).symm (.refl _)).loosen.release _ rfl rfl rfl H fun d => ?_
      have := hc d
      rw [← hx, hr]
      simp only [Receive.held, List.count_cons, List.count_nil, List.count_append] at this ⊢
      omega

theorem State.Holds.setReceivePin (h : s.Holds hand H) (p : PortNo) (b : Bool) : (s.setReceivePin p b).Holds hand H := h

theorem State.Holds.receiveEnds (h : s.Holds hand H) (p : PortNo) (bytes : List Byte) (cells : List CellNo) :
    (s.receiveEnds p bytes cells).Holds hand H := by
  have h1 : (s.arrive p bytes).Holds hand H := by
    unfold State.arrive
    split
    · exact h.same (h.1.writePayload _ 0 bytes)
    all_goals exact h
  have h2 : (((s.arrive p bytes).corrupt cells).setReceivePin p false).Holds hand H :=
    h1.same (h1.1.corrupt cells)
  unfold State.receiveEnds
  dsimp only
  refine State.Holds.receiveEnd ?_ p bytes
  unfold State.jabberIfOverlong
  split
  · exact h2.jabber p
  · exact h2

theorem State.Holds.lineActive (h : s.Holds hand H) (p : PortNo) (hq : (s.port p).rxActive = false) :
    (s.lineActive p).Holds hand H := by
  have h0 := h.2.1 p hq
  unfold State.lineActive
  dsimp only
  have hw : ∀ (x : Port) (r : Receive) (n : Option Word),
      (x.watchLine { x with rxActive := true, rx := r, activeSince := n } s.now).rx = r ∧
      (x.watchLine { x with rxActive := true, rx := r, activeSince := n } s.now).rxActive = true ∧
      (x.watchLine { x with rxActive := true, rx := r, activeSince := n } s.now).egressHeld = x.egressHeld :=
    fun x r n => by
      unfold Port.watchLine
      split <;> exact ⟨rfl, rfl, rfl⟩
  obtain ⟨r, hr, hrr⟩ : ∃ r, (if (s.portState p).receives then Receive.header else (s.port p).rx) = r ∧ r.held = [] := by
    refine ⟨_, rfl, ?_⟩
    split
    · rfl
    · rw [h0]; rfl
  refine State.Held.holds (v := { s.soleView.setRx p r with
    active := fun q => if q = p then true else s.soleView.active q }) (so := s.soleView.held ++ H)
    (h.1.modPort p _ ?_ (fun e => by rw [(hw _ _ _).2.2]) (fun _ he => he) fun e => by
      rw [(hw _ _ _).2.2]; exact h.1.2.onePlace p e) (fun e => ?_) (fun q hq => ?_) h.2.2
  · unfold State.soleView SoleView.setRx
    congr 1
    · funext q
      rw [State.port_modPort]
      dsimp only
      split
      · exact (hw _ _ _).1.trans hr
      · rfl
    · funext q
      rw [State.port_modPort]
      split
      · exact (hw _ _ _).2.1
      · rfl
  · have h3 := s.soleView.setRx_count p r e
    have h4 : s.soleView.rx p = .idle := h0
    rw [h4, hrr] at h3
    simp only [Receive.held, List.count_nil, Nat.add_zero] at h3
    rw [List.count_append]
    exact congrArg (· + H.count e) h3.symm
  · by_cases hqp : q = p
    · simp [hqp] at hq
    · simp only [SoleView.setRx, hqp, if_false] at hq ⊢
      exact h.2.1 q hq

theorem State.Holds.watchLine (h : s.Holds hand H) (p : PortNo) (up : Bool) : (s.setLine p up).Holds hand H := by
  unfold State.setLine
  refine h.changePort p _ ?_ ?_ ?_
  all_goals
    unfold Port.watchLine
    split <;> rfl

theorem State.Holds.lineDown (h : s.Holds hand H) : s.lineDown.Holds hand H := by
  have h0 : ({ s with trunk := s.trunk.goDown } : State).Holds hand H := h
  have h1 := State.Holds.endReassembly (.foldl (fun s l => s.abandon l true)
    (fun {t} l (ht : t.Holds hand H) => ht.same (ht.1.abandon l true)) allLevels h0)
  unfold State.lineDown
  dsimp only
  generalize State.endReassembly _ = u at h1 ⊢
  exact State.Holds.raise (s := { u with trunk := { u.trunk with lineDowns := bump u.trunk.lineDowns } }) h1 _ _

theorem State.Holds.expansionEnds (h : s.Holds hand H) (k : Slot) (key : Block) :
    (s.expansionEnds k key).Holds hand H := by
  have h1 : ((s.setSlot k (.ready key)).resetSequences k).Holds hand H :=
    State.Holds.resetSequences (s := s.setSlot k (.ready key)) h k
  have h2 := h1.same (h1.1.endLongOp (.loadKey k))
  unfold State.expansionEnds
  split
  · exact h2.triggerAuction
  · exact h2

/-- R28: no row loses or adds a hold. -/
theorem State.AllHeld.of_exec {i : Instr} (h : s.AllHeld) (hx : exec i s = .next t) : t.AllHeld := by
  cases i with
  | powerOn => cases hx; exact State.allHeld_blank _ _ _ _ _
  | resetPinAssert =>
    simp only [exec, execResetPinAssert] at hx
    split at hx
    · exact h.unchanged hx
    · cases hx; exact State.allHeld_blank _ _ _ _ _
  | resetPinRelease => cases hx; exact h
  | initEnd b =>
    simp only [exec, execInitEnd] at hx
    split at hx
    · cases hx; exact State.allHeld_blank _ _ _ _ _
    · exact h.unchanged hx
  | readRules => exact h.runCommand .readRules hx
  | writeRule => exact h.runCommand .writeRule hx
  | readNodeMap => exact h.runCommand .readNodeMap hx
  | writeNodeMap => exact h.runCommand .writeNodeMap hx
  | readLevel => exact h.runCommand .readLevel hx
  | writeLevel => exact h.runCommand .writeLevel hx
  | flushLevel => exact h.runCommand .flushLevel hx
  | readPort => exact h.runCommand .readPort hx
  | writePortConfig => exact h.runCommand .writePortConfig hx
  | setPortMode => exact h.runCommand .setPortMode hx
  | loadKey => exact h.runCommand .loadKey hx
  | eraseKey => exact h.runCommand .eraseKey hx
  | selectSlot => exact h.runCommand .selectSlot hx
  | keyCheck => exact h.runCommand .keyCheck hx
  | readKeyState => exact h.runCommand .readKeyState hx
  | readStatus => exact h.runCommand .readStatus hx
  | setMode => exact h.runCommand .setMode hx
  | refresh => exact h.runCommand .refresh hx
  | writeSupervision => exact h.runCommand .writeSupervision hx
  | setTrunkConfig => exact h.runCommand .setTrunkConfig hx
  | resetPart =>
    simp only [exec, execResetPart] at hx
    split at hx
    · exact h.unchanged hx
    · next c u hn =>
      split at hx
      · split at hx
        · cases hx; exact State.allHeld_blank _ _ _ _ _
        · obtain ⟨hand', ha⟩ := (State.Holds.nextCommand h hn).attempt .resetPart
          exact (State.Holds.done ha hx).all
      · exact h.unchanged hx
  | readRecords => exact h.runCommand .readRecords hx
  | readFaults => exact h.runCommand .readFaults hx
  | clearFaults => exact h.runCommand .clearFaults hx
  | writeNoticeConfig => exact h.runCommand .writeNoticeConfig hx
  | clearCounters => exact h.runCommand .clearCounters hx
  | writeAccess => exact h.runCommand .writeAccess hx
  | malformedCommand =>
    simp only [exec, execMalformedCommand] at hx
    split at hx
    · exact h.unchanged hx
    · next e u hn =>
      split at hx
      · exact h.unchanged hx
      · have h1 := State.Holds.takeNext h hn
        have h2 := h1.1.setCmd (H := [e]) { u.cmd with
          inHand := none, malformedCommands := bump u.cmd.malformedCommands } (fun d => by
            have h3 : u.cmd.inHand = some e := h1.2.2
            simp only [SoleView.held, State.soleView, h3, List.append_nil, List.count_append, List.count_cons,
              List.count_nil, Option.toList_none, Option.toList_some]
            omega) h1.2.1
        exact (State.Holds.done (h2.same h2.front.loosen.release) hx).all
  | unknownCommand =>
    simp only [exec, execUnknownCommand] at hx
    split at hx
    · exact h.unchanged hx
    · next c u hn =>
      split at hx
      · obtain ⟨hand', ha⟩ := (State.Holds.nextCommand h hn).attemptUnknown
        exact (ha.done hx).all
      · exact h.unchanged hx
  | waitingResponseBuild =>
    simp only [exec, execWaitingResponseBuild] at hx
    split at hx
    · obtain ⟨hand', ha⟩ := State.Holds.runWaiting h
      exact (ha.done hx).all
    · exact h.unchanged hx
  | fragmentCompletion cells =>
    have h1 := h.same (h.1.corrupt cells)
    simp only [exec, execFragmentCompletion] at hx
    split at hx
    · exact State.AllHeld.unchanged h1.all hx
    · next f _ => exact (State.Holds.done (h1.same (h1.1.completeFragment f)) hx).all
  | spacingDeadlinePasses l cells =>
    have h1 := h.same (h.1.corrupt cells)
    simp only [exec, execSpacingDeadlinePasses] at hx
    split at hx
    · exact (State.Holds.done (h1.modLvl_same l _ rfl).triggerAuction hx).all
    · exact State.AllHeld.unchanged h1.all hx
  | expansionCompletes k =>
    simp only [exec, execExpansionCompletes] at hx
    split at hx
    · exact (State.Holds.done (State.Holds.expansionEnds h k _) hx).all
    · exact h.unchanged hx
    · exact h.unchanged hx
  | trunkLineDown =>
    have h1 : (s.setTrunkPin false).Holds s.cmd.inHand [] := h
    simp only [exec, execTrunkLineDown] at hx
    split at hx
    · exact State.AllHeld.unchanged h1.all hx
    · exact (State.Holds.done h1.lineDown hx).all
  | trunkLineUp cells =>
    have h1 : ((s.corrupt cells).setTrunkPin true).Holds s.cmd.inHand [] := h.same (h.1.corrupt cells)
    simp only [exec, execTrunkLineUp] at hx
    split at hx
    · exact State.AllHeld.unchanged h1.all hx
    · refine (State.Holds.done (s := State.triggerAuction { (s.corrupt cells).setTrunkPin true with
        trunk := { ((s.corrupt cells).setTrunkPin true).trunk with lineUp := true } }) (hand := s.cmd.inHand) h1 hx).all
  | fragmentReceived bytes =>
    simp only [exec, execFragmentReceived] at hx
    split at hx
    · exact h.unchanged hx
    · exact (State.Holds.done (State.Holds.receiveFragment h bytes) hx).all
  | supervisionExpiry =>
    simp only [exec, execSupervisionExpiry] at hx
    split at hx
    · exact (State.Holds.done ((State.Holds.enterFallback h).raise _ _) hx).all
    · exact h.unchanged hx
  | receiveLineActive p =>
    have h1 := State.Holds.setReceivePin h p true
    simp only [exec, execReceiveLineActive] at hx
    split at hx
    · exact State.AllHeld.unchanged h1.all hx
    · next hn =>
      simp only [not_or, Bool.not_eq_true] at hn
      exact (State.Holds.done (h1.lineActive p hn.2) hx).all
  | headerReceived p hd =>
    simp only [exec, execHeaderReceived] at hx
    split at hx
    · next hr => exact (State.Holds.done (State.Holds.takeHeader h p hd hr) hx).all
    all_goals exact h.unchanged hx
  | excessPayloadByte p =>
    simp only [exec, execExcessPayloadByte] at hx
    split at hx
    · exact (State.Holds.done (State.Holds.jabber h p) hx).all
    · exact (State.Holds.done (State.Holds.jabber h p) hx).all
    all_goals exact h.unchanged hx
  | receiveLineSilent p bytes cells =>
    simp only [exec, execReceiveLineSilent] at hx
    split at hx
    · exact State.AllHeld.unchanged ((h.same (h.1.corrupt cells)).setReceivePin p false).all hx
    · exact (State.Holds.done (State.Holds.receiveEnds h p bytes cells) hx).all
  | jabberTimeout p =>
    simp only [exec, execJabberTimeout] at hx
    split at hx
    · exact (State.Holds.done (State.Holds.jabber h p) hx).all
    · exact h.unchanged hx
  | jabberRecovery p =>
    simp only [exec, execJabberRecovery] at hx
    split at hx
    · refine (State.Holds.done (s := s.recover p) (hand := s.cmd.inHand) ?_ hx).all
      unfold State.recover
      split
      · exact State.Holds.changePort h p _ rfl rfl rfl
      · exact State.Holds.modPort_same h p _ rfl rfl rfl
    · exact h.unchanged hx
  | silenceTimeout p =>
    simp only [exec, execSilenceTimeout] at hx
    split at hx
    · refine (State.Holds.done (s := s.goSilent p) (hand := s.cmd.inHand) ?_ hx).all
      unfold State.goSilent
      split
      · exact State.Holds.modPort_same h p _ rfl rfl rfl
      · exact (State.Holds.modPort_same h p _ rfl rfl rfl).raise _ _
    · exact h.unchanged hx
  | portLineDown p =>
    have h1 : (s.setLinePin p false).Holds s.cmd.inHand [] := h
    simp only [exec, execPortLineDown] at hx
    split at hx
    · exact State.AllHeld.unchanged h1.all hx
    · exact (State.Holds.done (h1.watchLine p false) hx).all
  | portLineUp p =>
    have h1 : (s.setLinePin p true).Holds s.cmd.inHand [] := h
    simp only [exec, execPortLineUp] at hx
    split at hx
    · exact State.AllHeld.unchanged h1.all hx
    · exact (State.Holds.done (h1.watchLine p true) hx).all
  | transmissionCompletes p =>
    simp only [exec, execTransmissionCompletes] at hx
    split at hx
    · next hr => exact (State.Holds.done (State.Holds.lineTxCompletes h p hr) hx).all
    all_goals exact h.unchanged hx
  | loopbackCompletion p cells =>
    have h1 := h.same (h.1.corrupt cells)
    simp only [exec, execLoopbackCompletion] at hx
    split at hx
    · next hr => exact (State.Holds.done (h1.loopCompletes p hr) hx).all
    all_goals exact State.AllHeld.unchanged h1.all hx
  | portCellCheckFailure p cell =>
    simp only [exec, execPortCellCheckFailure] at hx
    split at hx
    · cases hx
    · split at hx
      · exact h.unchanged hx
      · split at hx
        · exact (State.Holds.done (State.Holds.portCellFails h p _ cell) hx).all
        · exact h.unchanged hx

/-- The accounting between steps says what R28 says, given that no entry number stands twice. -/
theorem State.allHeld_iff (hk : (s.store.freeEntries ++ s.store.entries.map Prod.fst).Nodup) :
    s.AllHeld ↔ s.HoldersCounted := by
  have hr : ∀ e, references s.levelHeld (fun p => (s.port p).egressHeld) (s.soleView.held ++ []) [] e =
      s.held.count e := fun e => by
    have h1 : s.soleView.held = s.soleHeld := rfl
    rw [references, List.append_nil, h1, List.count_nil, State.held, List.count_append, List.count_append]
    rfl
  constructor
  · intro h
    have h1 : ∀ e, s.soleView.held.count e = s.soleHeld.count e := fun _ => rfl
    refine ⟨fun e f hf => ?_, fun e he => ?_, ?_, fun p => ?_, fun e he => ?_, h.2.1⟩
    · rw [← hr e]; exact h.1.2.counted e f hf
    · exact h.1.2.inUse e (by rw [hr e]; exact List.count_pos_iff.mpr he)
    · exact List.nodup_iff_count_le_one.mpr h.1.2.oneLevel
    · exact List.nodup_iff_count_le_one.mpr (h.1.2.onePlace p)
    · rw [← hr e]
      exact h.1.2.alone e (by rw [List.append_nil]; exact he)
  · intro h
    refine ⟨⟨rfl, hk, fun e f hf => ?_, fun e he => ?_, fun e he => ?_, fun e => ?_, fun p e => ?_⟩, h.receiving, rfl⟩
    · rw [hr e]; exact h.counted e f hf
    · rw [hr e] at he
      exact h.inUse e (List.count_pos_iff.mp he)
    · rw [hr e]
      rw [List.append_nil] at he
      exact h.alone e he
    · exact List.nodup_iff_count_le_one.mp h.oneLevel e
    · exact List.nodup_iff_count_le_one.mp (h.onePlace p) e

end Sys2Proof.Machine
end

