-- ==== Sys2Proof/Laws/Auction.lean ====
section
/-! SUPPORT. The auction that follows a forming failure (R55, R56): the bound on the rounds of an auction (log 24) is
never reached in a conserved Frame Store, so it is an auction like any other. -/

namespace Sys2Proof.Machine

open Sys2Proof

variable {W : Piece → Prop} {s t : State}

/-! ### Retired cells -/

theorem StoreMove.retired {st st' : Store} (h : StoreMove st st') : st.retired.length ≤ st'.retired.length := by
  cases h with
  | take _ cells f e _ ht =>
    unfold Store.take at ht
    split at ht
    · cases ht
    · cases ht; exact le_rfl
  | retire => simp [Store.retire]
  | _ => exact le_rfl

/-- No move takes a cell out of the retired set. -/
theorem Moves.retired (h : Moves W s t) : s.store.retired.length ≤ t.store.retired.length :=
  h.store_keeps (fun st => s.store.retired.length ≤ st.retired.length) (fun _ _ hm hs => hs.trans hm.retired) le_rfl

theorem Store.Conserved.retired_le {st : Store} (h : st.Conserved) : st.retired.length ≤ Config.cellCount := by
  have := h.cells.length_eq
  simp only [List.length_append, List.length_range] at this
  omega

/-- A lost frame retires its failing cell. -/
theorem State.loseFrame_retired (s : State) (e : EntryNo) (cell : CellNo) :
    s.store.retired.length + 1 ≤ (s.loseFrame e cell).store.retired.length := by
  have h : Moves (fun _ => True) { s with store := s.store.retireAndCount e cell } (s.loseFrame e cell) :=
    .chain (.foldl State.startTx (fun t p => .startTx t p) allPorts _)
      (.chain (.foldl (State.levelGivesUp e) (fun t l => .levelGivesUp e t l) allLevels _)
        (.foldl (State.portGivesUp e) (fun t p => .portGivesUp e t p) allPorts _))
  simpa [Store.retireAndCount, Store.retire] using h.retired

theorem State.formingFails_retired (s : State) (l : Level) (e : EntryNo) (cell : CellNo) :
    s.store.retired.length + 1 ≤ (s.formingFails l e cell).store.retired.length :=
  (s.loseFrame_retired e cell).trans
    (Moves.retired (W := fun _ => True)
      (.chain (.raise _ _ _) (.trunk (s.loseFrame e cell) _ (.countFailure _))))

theorem State.formFragment_retired {l : Level} (h : s.formFragment l = (true, t)) :
    s.store.retired.length + 1 ≤ t.store.retired.length := by
  unfold State.formFragment at h
  split at h
  · cases h
  · split at h
    · next cell _ => rw [← (Prod.mk.inj h).2]; exact s.formingFails_retired l _ cell
    · cases h

theorem State.sendLevel_retired {l : Level} (h : s.sendLevel l = (true, t)) :
    s.store.retired.length + 1 ≤ t.store.retired.length := by
  unfold State.sendLevel at h
  split at h
  · cases h
  · split at h
    · exact State.formFragment_retired h
    · have := Moves.retired (W := fun _ => True) (.startNewFrame s l)
      have := State.formFragment_retired h
      omega

/-! ### Rounds -/

/-- Rounds beyond the cells that may still fail make no difference. -/
theorem State.auctionRounds_enough {n m : Nat} (hs : s.store.Conserved)
    (hn : Config.cellCount < n + s.store.retired.length) (hm : Config.cellCount < m + s.store.retired.length) :
    State.auctionRounds n s = State.auctionRounds m s := by
  induction n generalizing m s with
  | zero => have := hs.retired_le; omega
  | succ n ih =>
    cases m with
    | zero => have := hs.retired_le; omega
    | succ m =>
      unfold State.auctionRounds
      split
      · rfl
      · split
        · rfl
        · next l _ =>
          split
          · next t heq =>
            have hr := State.sendLevel_retired heq
            have hc : t.store.Conserved := by
              have := (Moves.sendLevel (W := fun _ => True) s l).conserved hs
              rwa [heq] at this
            exact ih hc (by omega) (by omega)
          · rfl

/-- R56: when the winner's fragment fails to form, the auction is the one held after the failure. -/
theorem State.auction_of_failure {l : Level} (hs : s.store.Conserved) (h0 : s.trunk.inFlight = none)
    (h1 : s.trunk.lineUp = true) (hw : s.winner = some l) (hf : s.sendLevel l = (true, t)) :
    s.auction = t.auction := by
  have hr := State.sendLevel_retired hf
  have hc : t.store.Conserved := by
    have := (Moves.sendLevel (W := fun _ => True) s l).conserved hs
    rwa [hf] at this
  have : s.auction = State.auctionRounds Config.cellCount t := by
    unfold State.auction
    rw [State.auctionRounds]
    simp [h0, h1, hw, hf]
  rw [this]
  exact State.auctionRounds_enough hc (by omega) (by omega)

end Sys2Proof.Machine
end

