-- ==== Sys2Proof/Laws/GivingUp.lean ====
section
/-! SUPPORT. What the loss of a frame to a failing cell leaves (R35, R36, R55): at the level whose context held it, and
of the frame itself. -/

namespace Sys2Proof.Machine

open Sys2Proof

variable {s t u : State}

/-! ### Work that stays -/

/-- Every level is as before but for its queue and FramesDropped. -/
def KeepsWork (s t : State) : Prop :=
  ∀ m, t.lvl m = { s.lvl m with queue := (t.lvl m).queue, framesDropped := (t.lvl m).framesDropped }

theorem KeepsWork.trans (h : KeepsWork s t) (h' : KeepsWork t u) : KeepsWork s u := fun m => by
  have h1 := h m
  have h2 := h' m
  rw [h1] at h2
  rw [h2]

theorem LeavesLevels.keepsWork (h : LeavesLevels s t) : KeepsWork s t := fun m => by rw [h.lvl m]

theorem State.modLvl_keepsWork (s : State) (l : Level) (f : LevelEntry → LevelEntry)
    (h : f (s.lvl l) = { s.lvl l with queue := (f (s.lvl l)).queue, framesDropped := (f (s.lvl l)).framesDropped }) :
    KeepsWork s (s.modLvl l f) := fun m => by
  rw [State.lvl_modLvl]
  split
  · next he => subst he; exact h
  · rfl

theorem State.offerLevel_keepsWork (s : State) (l : Level) (e : EntryNo) (first : Bool) :
    KeepsWork s (s.offerLevel l e first).2 := by
  unfold State.offerLevel
  split
  · exact s.modLvl_keepsWork l _ rfl
  · exact ((s.accept_leaves e first).keepsWork.trans (State.modLvl_keepsWork _ l _ rfl)).trans
      (State.triggerAuction_leaves _).keepsWork

theorem State.offerAll_level_keepsWork (s : State) (l : Level) (e : EntryNo) :
    KeepsWork s (s.offerAll e [.level l]) := by
  have h := s.offerLevel_keepsWork l e true
  unfold State.offerAll
  simp only [List.foldl_cons, List.foldl_nil, State.makeOffer, Bool.not_false, Bool.false_or]
  split
  · exact h
  · exact h.trans (State.release_leaves _ e).keepsWork

theorem State.raise_keepsWork (s : State) (k : FaultKind) (f : FaultFields) : KeepsWork s (s.raise k f) := by
  unfold State.raise
  dsimp only
  have h0 : KeepsWork s { s with fault := s.fault.record { kind := k, time := s.now, fields := f } } := fun _ => rfl
  split
  · refine h0.trans ?_
    have ha := State.allocReserve_leaves { s with fault := s.fault.record { kind := k, time := s.now, fields := f } } 1
      (State.noticeEntry { s with fault := s.fault.record { kind := k, time := s.now, fields := f } })
    unfold State.buildNotice
    split
    · next t heq => rw [heq] at ha; exact ha.keepsWork
    · next e t heq =>
      rw [heq] at ha
      exact (ha.trans (t.writePayload_leaves e 0 _)).keepsWork.trans (State.offerAll_level_keepsWork _ 0 e)
  · exact h0

theorem State.routeResponse_keepsWork (s : State) (e : EntryNo) (o : Sender) : KeepsWork s (s.routeResponse e o) := by
  cases o with
  | trunk => exact s.offerAll_level_keepsWork 1 e
  | station p =>
    unfold State.routeResponse
    dsimp only
    split
    · exact (s.offerAll_port p e).keepsWork
    · exact (s.release_leaves e).keepsWork

theorem State.endLongOp_keepsWork (s : State) (op : LongOp) : KeepsWork s (s.endLongOp op) := by
  have hb : ∀ (u : State) (r : LongRecord), KeepsWork u (u.buildLongResponse r).2 := fun u r => by
    have ha := u.allocReserve_leaves (cellsFor (responsePayload r.op.code r.tag .ok []).length) (u.responseEntry r.node)
    unfold State.buildLongResponse
    dsimp only
    split
    · next t heq => rw [heq] at ha; exact ha.keepsWork
    · next e t heq =>
      rw [heq] at ha
      exact (ha.trans (t.fillResponse_leaves e _)).keepsWork.trans (State.routeResponse_keepsWork _ e _)
  unfold State.endLongOp
  split
  · exact fun _ => rfl
  · next r _ =>
    dsimp only
    have h0 : KeepsWork s { s with cmd := { s.cmd with longOps := s.cmd.longOps.filter fun r => r.op != op } } :=
      fun _ => rfl
    have h := h0.trans (hb _ r)
    split
    · next t heq => rw [heq] at h; exact h
    · next t heq => rw [heq] at h; exact h

theorem State.flushComplete_keepsWork (s : State) (l : Level) :
    KeepsWork (s.modLvl l fun v => { v with flushPending := none }) (s.flushComplete l) := by
  unfold State.flushComplete
  split
  · exact State.endLongOp_keepsWork _ _
  · next h =>
    intro m
    rw [State.lvl_modLvl]
    split
    · next he =>
      subst he
      have hn : (s.lvl m).flushPending = none := by simpa using h
      generalize s.lvl m = v at hn
      cases v
      cases hn
      rfl
    · rfl

/-! ### Abandoning (R12) -/

/-- What an abandonment leaves of the level's entry. -/
def LevelEntry.abandoned (v : LevelEntry) (a : Option AbortAddress) : LevelEntry :=
  { v with ctx := none, trainCount := 0, framesAborted := bump v.framesAborted, flushPending := none
           abortOwed := if a.isSome then a else v.abortOwed }

/-- The Abort that a context frame leaves owed when a fragment of it was started (R51). -/
def State.abortFor (s : State) (c : Context) (started : Bool) : Option AbortAddress :=
  if started then some { dst := (s.entryAt c.entry).dst, src := (s.entryAt c.entry).src,
                         ptype := (s.entryAt c.entry).ptype }
  else none

theorem State.dropContext_lvl (s : State) (l : Level) (c : Context) (m : Level) :
    (s.dropContext l c).lvl m = if m = l then
      { s.lvl l with ctx := none, trainCount := 0, framesAborted := bump (s.lvl l).framesAborted } else s.lvl m := by
  unfold State.dropContext
  rw [State.lvl_modLvl]
  split
  · next he =>
    subst he
    rw [(State.release_leaves _ c.entry).lvl, State.lvl_modLvl, if_pos rfl, State.recordFinish_lvl]
  · next he => rw [(State.release_leaves _ c.entry).lvl, State.lvl_modLvl, if_neg he, State.recordFinish_lvl]

theorem State.flushComplete_after {l : Level} {w : LevelEntry} (h : ∀ m, t.lvl m = if m = l then w else s.lvl m)
    (f : LevelEntry → LevelEntry) (hw : { w with flushPending := none } = f (s.lvl l)) :
    KeepsWork (s.modLvl l f) (t.flushComplete l) := fun m => by
  have h1 := t.flushComplete_keepsWork l m
  have h2 : (t.modLvl l fun v => { v with flushPending := none }).lvl m = (s.modLvl l f).lvl m := by
    rw [State.lvl_modLvl, State.lvl_modLvl]
    split
    · rw [h l, if_pos rfl, hw]
    · next he => rw [h m, if_neg he]
  rw [h2] at h1
  exact h1

theorem State.abandon_keepsWork {l : Level} {c : Context} (hc : (s.lvl l).ctx = some c) (started : Bool) :
    KeepsWork (s.modLvl l fun v => v.abandoned (s.abortFor c started)) (s.abandon l started) := by
  unfold State.abandon
  rw [hc]
  dsimp only
  cases started with
  | true =>
    refine State.flushComplete_after (w := { s.lvl l with
      ctx := none, trainCount := 0, framesAborted := bump (s.lvl l).framesAborted
      abortOwed := s.abortFor c true }) (fun m => ?_) _ rfl
    unfold State.oweAbort
    rw [(State.triggerAuction_leaves _).lvl, State.lvl_modLvl, State.dropContext_lvl, State.dropContext_lvl, if_pos rfl]
    split
    · rfl
    · rfl
  | false => exact State.flushComplete_after (s.dropContext_lvl l c) _ rfl

/-! ### The loss of a frame -/

/-- The work of one level is as before. -/
def SameWork (l : Level) (s t : State) : Prop :=
  t.lvl l = { s.lvl l with queue := (t.lvl l).queue, framesDropped := (t.lvl l).framesDropped }

theorem SameWork.trans {l : Level} (h : SameWork l s t) (h' : SameWork l t u) : SameWork l s u := by
  unfold SameWork at *
  rw [h] at h'
  rw [h']

theorem State.levelGivesUp_other (s : State) (e : EntryNo) {l m : Level} (hm : m ≠ l) :
    SameWork l s (s.levelGivesUp e m) := by
  have hr : SameWork l s (s.modLvl m fun v => { v with queue := v.queue.filter fun d => d != e }) := by
    unfold SameWork
    rw [s.lvl_modLvl_ne hm.symm]
  unfold State.levelGivesUp
  split
  · exact hr.trans ((State.release_leaves _ e).keepsWork l)
  · split
    · next c hc =>
      split
      · have h := State.abandon_keepsWork hc (s.sending m || decide (0 < c.next)) l
        rw [s.lvl_modLvl_ne hm.symm] at h
        exact h
      · exact rfl
    · exact rfl

theorem State.levelGivesUp_none (s : State) (e : EntryNo) (l : Level) (h : e ∉ (s.lvl l).held) :
    s.levelGivesUp e l = s := by
  simp only [LevelEntry.held, List.mem_append, not_or] at h
  unfold State.levelGivesUp
  rw [if_neg (by simpa using h.1)]
  split
  · next c hc =>
    rw [if_neg]
    intro he
    exact h.2 (by simp [hc, he])
  · rfl

theorem State.foldl_levelGivesUp_none (s : State) (e : EntryNo) (ls : List Level) (h : ∀ l ∈ ls, e ∉ (s.lvl l).held) :
    ls.foldl (State.levelGivesUp e) s = s := by
  induction ls with
  | nil => rfl
  | cons l ls ih =>
    rw [List.foldl_cons, s.levelGivesUp_none e l (h l (List.mem_cons_self ..))]
    exact ih fun m hm => h m (List.mem_cons_of_mem _ hm)

theorem State.foldl_levelGivesUp_other (s : State) (e : EntryNo) {l : Level} (ls : List Level) (h : l ∉ ls) :
    SameWork l s (ls.foldl (State.levelGivesUp e) s) := by
  induction ls generalizing s with
  | nil => exact rfl
  | cons m ls ih =>
    rw [List.mem_cons, not_or] at h
    exact (s.levelGivesUp_other e (fun he => h.1 he.symm)).trans (ih _ h.2)

/-- Under R28 one level at most holds an entry. -/
theorem State.HoldersCounted.one_level (h : s.HoldersCounted) {e : EntryNo} {l m : Level} (hl : e ∈ (s.lvl l).held)
    (hm : e ∈ (s.lvl m).held) : l = m := by
  by_contra hne
  have hd := List.nodup_iff_count_le_one.mp h.oneLevel e
  obtain ⟨as, bs, hs⟩ := List.append_of_mem (mem_allLevels l)
  have hn : (as ++ l :: bs).Nodup := hs ▸ allLevels_nodup
  have hmem : m ∈ as ++ bs := by
    have := hs ▸ mem_allLevels m
    simp only [List.mem_append, List.mem_cons] at this ⊢
    rcases this with h | h | h
    · exact .inl h
    · exact absurd h.symm hne
    · exact .inr h
  have h1 : 0 < (s.lvl l).held.count e := List.count_pos_iff.mpr hl
  have h2 : 0 < ((as ++ bs).flatMap fun l => (s.lvl l).held).count e :=
    List.count_pos_iff.mpr (List.mem_flatMap.mpr ⟨m, hmem, hm⟩)
  unfold State.levelHeld at hd
  rw [hs] at hd
  simp only [List.flatMap_append, List.flatMap_cons, List.count_append] at hd h2
  omega

/-- What is in use under a number afterwards was in use before, with the same addressing. -/
def SameAddress (e : EntryNo) (s t : State) : Prop :=
  ∀ g, t.entry? e = some g → ∃ f, s.entry? e = some f ∧ g.dst = f.dst ∧ g.src = f.src ∧ g.ptype = f.ptype

theorem SameAddress.refl (e : EntryNo) (s : State) : SameAddress e s s := fun g h => ⟨g, h, rfl, rfl, rfl⟩

theorem SameAddress.trans {e : EntryNo} (h : SameAddress e s t) (h' : SameAddress e t u) : SameAddress e s u :=
  fun g hg => by
    obtain ⟨f, hf, h1, h2, h3⟩ := h' g hg
    obtain ⟨f', hf', h4, h5, h6⟩ := h f hf
    exact ⟨f', hf', h1.trans h4, h2.trans h5, h3.trans h6⟩

theorem State.changeEntry_address (s : State) (e : EntryNo) (f : FrameEntry → FrameEntry) (st : Store)
    (h : st.entries = changeEntry s.store.entries e f)
    (hf : ∀ g, (f g).dst = g.dst ∧ (f g).src = g.src ∧ (f g).ptype = g.ptype) :
    SameAddress e s { s with store := st } := fun g hg => by
  unfold State.entry? at hg
  rw [h, lookup_changeEntry_same] at hg
  obtain ⟨f', hf', rfl⟩ := Option.map_eq_some_iff.mp hg
  exact ⟨f', hf', hf f'⟩

theorem State.release_address (s : State) (e : EntryNo) : SameAddress e s (s.release e) := by
  unfold State.release
  split
  · exact .refl e s
  · split
    · intro g hg
      unfold State.entry? Store.free at hg
      rw [lookup_dropEntry_same] at hg
      cases hg
    · exact s.changeEntry_address e (fun f => { f with holders := f.holders - 1 }) _ rfl fun _ => ⟨rfl, rfl, rfl⟩

theorem State.portGivesUp_address (s : State) (e : EntryNo) (p : PortNo) : SameAddress e s (s.portGivesUp e p) := by
  have hr : ∀ f : Port → Port, SameAddress e s ((s.modPort p f).release e) := fun f =>
    (show SameAddress e s (s.modPort p f) from .refl e s).trans (State.release_address _ e)
  unfold State.portGivesUp
  split
  · exact hr _
  · split
    · split
      · exact hr _
      · exact .refl e s
    · exact .refl e s

theorem State.portGivesUp_leaves (s : State) (e : EntryNo) (p : PortNo) : LeavesLevels s (s.portGivesUp e p) := by
  unfold State.portGivesUp
  split
  · exact (s.modPort_leaves p _).trans (State.release_leaves _ e)
  · split
    · split
      · exact (s.modPort_leaves p _).trans (State.release_leaves _ e)
      · exact .refl s
    · exact .refl s

/-- What every step of a fold leaves, the fold leaves. -/
theorem foldl_leaves {α : Type} (f : State → α → State) (hf : ∀ s a, LeavesLevels s (f s a)) (as : List α) (s : State) :
    LeavesLevels s (as.foldl f s) := by
  induction as generalizing s with
  | nil => exact .refl s
  | cons a as ih => exact (hf s a).trans (ih _)

/-- The part once the failing cell is retired and the ports have given the frame up. -/
def State.portsGaveUp (s : State) (e : EntryNo) (cell : CellNo) : State :=
  allPorts.foldl (State.portGivesUp e) { s with store := s.store.retireAndCount e cell }

theorem State.portsGaveUp_leaves (s : State) (e : EntryNo) (cell : CellNo) : LeavesLevels s (s.portsGaveUp e cell) :=
  have h : LeavesLevels s { s with store := s.store.retireAndCount e cell } := ⟨rfl, rfl, rfl, rfl, rfl, rfl, id⟩
  h.trans (foldl_leaves _ (fun s p => s.portGivesUp_leaves e p) allPorts _)

theorem State.portsGaveUp_address (s : State) (e : EntryNo) (cell : CellNo) :
    SameAddress e s (s.portsGaveUp e cell) := by
  have h : SameAddress e s { s with store := s.store.retireAndCount e cell } :=
    s.changeEntry_address e (fun f => { f with cells := f.cells.erase cell }) _ rfl fun _ => ⟨rfl, rfl, rfl⟩
  refine h.trans ?_
  unfold State.portsGaveUp
  generalize ({ s with store := s.store.retireAndCount e cell } : State) = t
  induction allPorts generalizing t with
  | nil => exact .refl e t
  | cons p ps ih => exact (t.portGivesUp_address e p).trans (ih _)

theorem State.loseFrame_eq (s : State) (e : EntryNo) (cell : CellNo) :
    s.loseFrame e cell = allPorts.foldl State.startTx (allLevels.foldl (State.levelGivesUp e) (s.portsGaveUp e cell)) :=
  rfl

/-- The levels on either side of one. -/
theorem allLevels_split (l : Level) : ∃ as bs, allLevels = as ++ l :: bs ∧ l ∉ as ∧ l ∉ bs := by
  obtain ⟨as, bs, h⟩ := List.append_of_mem (mem_allLevels l)
  have hn := List.nodup_middle.mp (h ▸ allLevels_nodup)
  have := List.nodup_cons.mp hn
  rw [List.mem_append, not_or] at this
  exact ⟨as, bs, h, this.1.1, this.1.2⟩

theorem State.HoldersCounted.held (h : s.HoldersCounted) (hc : s.store.Conserved) :
    s.Held s.soleView (s.soleView.held ++ []) [] :=
  ((State.allHeld_iff (hc.entries.nodup_iff.mpr List.nodup_range)).mpr h).1

/-- R36, R55: the level whose context holds a lost frame abandons it, whoever found the failure. -/
theorem State.loseFrame_context (h : s.HoldersCounted) (hs : s.store.Conserved) {l : Level} {c : Context}
    (hc : (s.lvl l).ctx = some c) (cell : CellNo) :
    SameWork l (s.modLvl l fun v => v.abandoned (s.abortFor c (s.sending l || decide (0 < c.next))))
      (s.loseFrame c.entry cell) := by
  have hl := s.portsGaveUp_leaves c.entry cell
  have hh : (s.portsGaveUp c.entry cell).Held s.soleView (s.soleView.held ++ []) [] :=
    .foldl (State.portGivesUp c.entry) (fun p h => h.portGivesUp c.entry p) allPorts
      ((h.held hs).retireAndCount c.entry cell)
  have hmem : c.entry ∈ (s.lvl l).held := by simp [LevelEntry.held, hc]
  have ha : ∀ b, (s.portsGaveUp c.entry cell).abortFor c b = s.abortFor c b := by
    have hu : ((s.portsGaveUp c.entry cell).entry? c.entry).isSome = true := by
      refine hh.2.inUse c.entry ?_
      have : c.entry ∈ (s.portsGaveUp c.entry cell).levelHeld :=
        List.mem_flatMap.mpr ⟨l, mem_allLevels l, by rw [hl.lvl]; exact hmem⟩
      have := List.count_pos_iff.mpr this
      unfold references
      omega
    obtain ⟨g, hg⟩ := Option.isSome_iff_exists.mp hu
    obtain ⟨f, hf, h1, h2, h3⟩ := s.portsGaveUp_address c.entry cell g hg
    intro b
    unfold State.abortFor State.entryAt
    rw [hg, hf, Option.getD_some, Option.getD_some, h1, h2, h3]
  obtain ⟨as, bs, hsp, has, hbs⟩ := allLevels_split l
  have hpre : as.foldl (State.levelGivesUp c.entry) (s.portsGaveUp c.entry cell) = s.portsGaveUp c.entry cell := by
    refine State.foldl_levelGivesUp_none _ c.entry as fun m hm he => ?_
    rw [hl.lvl] at he
    exact has (h.one_level hmem he ▸ hm)
  have hq : c.entry ∉ (s.lvl l).queue := by
    have h1 := (h.held hs).level_once l c.entry
    simp only [LevelEntry.held, hc, Option.map_some, Option.toList_some, List.count_append,
      List.count_singleton_self] at h1
    exact fun hm => by have := List.count_pos_iff.mpr hm; omega
  have hsend : (s.portsGaveUp c.entry cell).sending l = s.sending l := by
    unfold State.sending; rw [hl.trunk]
  have hat : (s.portsGaveUp c.entry cell).levelGivesUp c.entry l =
      (s.portsGaveUp c.entry cell).abandon l (s.sending l || decide (0 < c.next)) := by
    unfold State.levelGivesUp
    rw [hl.lvl, if_neg (by simpa using hq), hc]
    dsimp only
    rw [if_pos rfl, hsend]
  have hab := State.abandon_keepsWork (s := s.portsGaveUp c.entry cell) (c := c) (l := l) (by rw [hl.lvl]; exact hc)
    (s.sending l || decide (0 < c.next)) l
  rw [ha, State.lvl_modLvl, if_pos rfl, hl.lvl] at hab
  rw [State.loseFrame_eq, hsp, List.foldl_append, hpre, List.foldl_cons, hat]
  have h1 : SameWork l (s.modLvl l fun v => v.abandoned (s.abortFor c (s.sending l || decide (0 < c.next))))
      ((s.portsGaveUp c.entry cell).abandon l (s.sending l || decide (0 < c.next))) := by
    unfold SameWork
    rw [State.lvl_modLvl, if_pos rfl]
    exact hab
  exact (h1.trans (State.foldl_levelGivesUp_other _ c.entry bs hbs)).trans
    ((foldl_leaves State.startTx (fun s p => s.startTx_leaves p) allPorts _).keepsWork l)

/-! ### No holder is left (R35) -/

theorem State.release_ports (s : State) (e : EntryNo) : (s.release e).ports = s.ports := by
  unfold State.release
  split
  · rfl
  · split <;> rfl

theorem State.startTx_held (s : State) (p q : PortNo) (e : EntryNo) (h : e ∉ (s.port q).egressHeld) :
    e ∉ ((s.startTx p).port q).egressHeld := by
  unfold State.startTx
  split
  · next hb =>
    split
    · exact h
    · next d rest hq =>
      by_cases hp : q = p
      · subst hp
        simp only [Bool.and_eq_true, Option.isNone_iff_eq_none] at hb
        simp only [Port.egressHeld, hq, hb.2, Option.map_none, Option.toList_none, List.append_nil,
          List.mem_cons, not_or] at h
        simp [Port.egressHeld, h]
      · rw [s.port_modPort_ne hp]
        exact h
  · exact h

theorem State.portGivesUp_other (s : State) (e : EntryNo) {p q : PortNo} (h : q ≠ p) :
    (s.portGivesUp e p).port q = s.port q := by
  unfold State.portGivesUp
  split
  · rw [State.port_release, s.port_modPort_ne h]
  · split
    · split
      · rw [State.port_release, s.port_modPort_ne h]
      · rfl
    · rfl

theorem State.portGivesUp_gone (s : State) (e : EntryNo) (p : PortNo) (h : (s.port p).egressHeld.count e ≤ 1) :
    e ∉ ((s.portGivesUp e p).port p).egressHeld := by
  simp only [Port.egressHeld, List.count_append] at h
  unfold State.portGivesUp
  split
  · next hq =>
    have h1 : 0 < (s.port p).queue.count e := List.count_pos_iff.mpr (by simpa using hq)
    have h2 : e ∉ ((s.port p).tx.map PortTx.entry).toList := fun hm => by
      have := List.count_pos_iff.mpr hm
      omega
    rw [State.port_release, State.port_modPort_same]
    simp only [Port.egressHeld, List.mem_append, List.mem_filter, bne_self_eq_false, Bool.false_eq_true, and_false,
      false_or]
    exact h2
  · next hq =>
    have hq' : e ∉ (s.port p).queue := by simpa using hq
    split
    · next x hx =>
      split
      · rw [State.port_release, State.port_modPort_same]
        simpa [Port.egressHeld] using hq'
      · next hne =>
        simp only [Port.egressHeld, hx, Option.map_some, Option.toList_some, List.mem_append, List.mem_singleton,
          not_or]
        exact ⟨hq', fun he => hne he.symm⟩
    · next hx => simpa [Port.egressHeld, hx] using hq'

theorem State.foldl_portGivesUp_gone (e : EntryNo) (ps : List PortNo) (s : State)
    (h : ∀ q, (s.port q).egressHeld.count e ≤ 1) (q : PortNo) (hq : q ∈ ps ∨ e ∉ (s.port q).egressHeld) :
    e ∉ ((ps.foldl (State.portGivesUp e) s).port q).egressHeld := by
  induction ps generalizing s with
  | nil => exact hq.resolve_left (by simp)
  | cons p ps ih =>
    have hp := s.portGivesUp_gone e p (h p)
    refine ih _ (fun r => ?_) ?_
    · by_cases hr : r = p
      · rw [hr, List.count_eq_zero.mpr hp]; exact Nat.zero_le 1
      · rw [s.portGivesUp_other e hr]; exact h r
    · by_cases hr : q = p
      · exact .inr (hr ▸ hp)
      · rw [s.portGivesUp_other e hr]
        exact hq.imp_left fun hm => (List.mem_cons.mp hm).resolve_left hr

/-- A level with no flush waiting gives an entry up by itself alone. -/
theorem State.levelGivesUp_alone (s : State) (e : EntryNo) (l : Level) (h : (s.lvl l).held.count e ≤ 1)
    (hf : ∀ c, (s.lvl l).ctx = some c → c.entry = e → (s.lvl l).flushPending = none) :
    e ∉ ((s.levelGivesUp e l).lvl l).held ∧ (∀ m, m ≠ l → (s.levelGivesUp e l).lvl m = s.lvl m) ∧
      (s.levelGivesUp e l).ports = s.ports := by
  simp only [LevelEntry.held, List.count_append] at h
  unfold State.levelGivesUp
  split
  · next hq =>
    have h1 : 0 < (s.lvl l).queue.count e := List.count_pos_iff.mpr (by simpa using hq)
    have h2 : e ∉ ((s.lvl l).ctx.map Context.entry).toList := fun hm => by
      have := List.count_pos_iff.mpr hm
      omega
    refine ⟨?_, fun m hm => ?_, ?_⟩
    · rw [(State.release_leaves _ e).lvl, State.lvl_modLvl, if_pos rfl]
      simp only [LevelEntry.held, List.mem_append, List.mem_filter, bne_self_eq_false, Bool.false_eq_true, and_false,
        false_or]
      exact h2
    · rw [(State.release_leaves _ e).lvl, s.lvl_modLvl_ne hm]
    · rw [State.release_ports]; rfl
  · next hq =>
    have hq' : e ∉ (s.lvl l).queue := by simpa using hq
    split
    · next c hc =>
      split
      · next he =>
        have hn := hf c hc he
        have hd := s.dropContext_lvl l c
        have hp : (s.dropContext l c).ports = s.ports := by
          unfold State.dropContext
          rw [State.modLvl_ports, State.release_ports, State.modLvl_ports]
          unfold State.recordFinish
          dsimp only
          split <;> rfl
        have ho : ∀ f : FrameEntry,
            ((s.dropContext l c).oweAbort l f).flushComplete l = (s.dropContext l c).oweAbort l f :=
          fun f => State.flushComplete_of_none _ l (by
            unfold State.oweAbort
            rw [(State.triggerAuction_leaves _).lvl, State.lvl_modLvl, if_pos rfl, hd, if_pos rfl]
            exact hn)
        unfold State.abandon
        rw [hc]
        dsimp only
        split
        · rw [ho]
          unfold State.oweAbort
          refine ⟨?_, fun m hm => ?_, ?_⟩
          · rw [(State.triggerAuction_leaves _).lvl, State.lvl_modLvl, if_pos rfl, hd, if_pos rfl]
            simpa [LevelEntry.held] using hq'
          · rw [(State.triggerAuction_leaves _).lvl, State.lvl_modLvl, if_neg hm, hd, if_neg hm]
          · exact hp
        · rw [State.flushComplete_of_none _ l (by rw [hd, if_pos rfl]; exact hn)]
          refine ⟨?_, fun m hm => ?_, hp⟩
          · rw [hd, if_pos rfl]
            simpa [LevelEntry.held] using hq'
          · rw [hd, if_neg hm]
      · next hne =>
        refine ⟨?_, fun _ _ => rfl, rfl⟩
        simp only [LevelEntry.held, hc, Option.map_some, Option.toList_some, List.mem_append, List.mem_singleton,
          not_or]
        exact ⟨hq', fun he => hne he.symm⟩
    · next hc =>
      exact ⟨by simpa [LevelEntry.held, hc] using hq', fun _ _ => rfl, rfl⟩

theorem State.portsGaveUp_gone (h : s.HoldersCounted) (e : EntryNo) (cell : CellNo) (p : PortNo) :
    e ∉ ((s.portsGaveUp e cell).port p).egressHeld := by
  unfold State.portsGaveUp
  refine State.foldl_portGivesUp_gone e allPorts _ (fun q => ?_) p (.inl (mem_allPorts p))
  exact List.nodup_iff_count_le_one.mp (h.onePlace q) e

/-- When one level at most holds an entry, the levels give it up and nothing else of them changes. -/
theorem State.foldl_levelGivesUp_gone (s : State) (e : EntryNo) {ls : List Level} (hn : ls.Nodup)
    (hall : ∀ l, l ∈ ls) (hone : ∀ l, (s.lvl l).held.count e ≤ 1)
    (hl : ∀ l m, e ∈ (s.lvl l).held → e ∈ (s.lvl m).held → l = m)
    (hf : ∀ l c, (s.lvl l).ctx = some c → c.entry = e → (s.lvl l).flushPending = none) :
    (∀ l, e ∉ ((ls.foldl (State.levelGivesUp e) s).lvl l).held) ∧
      (ls.foldl (State.levelGivesUp e) s).ports = s.ports := by
  by_cases hex : ∃ l, e ∈ (s.lvl l).held
  · obtain ⟨l, hmem⟩ := hex
    obtain ⟨as, bs, rfl⟩ := List.append_of_mem (hall l)
    have hab := (List.nodup_cons.mp (List.nodup_middle.mp hn)).1
    rw [List.mem_append, not_or] at hab
    have hother : ∀ m, m ≠ l → e ∉ (s.lvl m).held := fun m hm he => hm (hl m l he hmem)
    have hpre := s.foldl_levelGivesUp_none e as fun m hm => hother m fun he => hab.1 (he ▸ hm)
    have ⟨h1, h2, h3⟩ := s.levelGivesUp_alone e l (hone l) (hf l)
    have hpost := (s.levelGivesUp e l).foldl_levelGivesUp_none e bs fun m hm => by
      have hne : m ≠ l := fun he => hab.2 (he ▸ hm)
      rw [h2 m hne]
      exact hother m hne
    rw [List.foldl_append, hpre, List.foldl_cons, hpost]
    refine ⟨fun m => ?_, h3⟩
    by_cases hm : m = l
    · rw [hm]; exact h1
    · rw [h2 m hm]; exact hother m hm
  · have hno : ∀ l, e ∉ (s.lvl l).held := fun l hm => hex ⟨l, hm⟩
    rw [s.foldl_levelGivesUp_none e ls fun m _ => hno m]
    exact ⟨hno, rfl⟩

theorem State.soleView_held (s : State) : s.soleView.held = s.soleHeld := rfl

theorem State.foldl_startTx_held (e : EntryNo) (ps : List PortNo) (s : State) (h : ∀ p, e ∉ (s.port p).egressHeld)
    (p : PortNo) : e ∉ ((ps.foldl State.startTx s).port p).egressHeld := by
  induction ps generalizing s with
  | nil => exact h p
  | cons q ps ih => exact ih _ fun r => s.startTx_held q r e (h r)

/-- R35: after the loss of a frame no level and no port holds it; what a receive, a reassembly or the Command Unit holds
is as before. A flush that waits on the level that abandons the frame may take the freed number for its response. -/
theorem State.loseFrame_gone (h : s.HoldersCounted) (hs : s.store.Conserved) (e : EntryNo) (cell : CellNo)
    (hf : ∀ l c, (s.lvl l).ctx = some c → c.entry = e → (s.lvl l).flushPending = none) :
    (∀ l, e ∉ ((s.loseFrame e cell).lvl l).held) ∧ (∀ p, e ∉ ((s.loseFrame e cell).port p).egressHeld) ∧
      (s.loseFrame e cell).soleHeld = s.soleHeld := by
  have hl : ∀ l, (s.portsGaveUp e cell).lvl l = s.lvl l := (s.portsGaveUp_leaves e cell).lvl
  have ⟨h1, h2⟩ := (s.portsGaveUp e cell).foldl_levelGivesUp_gone e allLevels_nodup mem_allLevels
    (fun l => by rw [hl]; exact (h.held hs).level_once l e) (fun l m => by rw [hl, hl]; exact h.one_level) (fun l c => by rw [hl]; exact hf l c)
  refine ⟨fun l => ?_, fun p => ?_, ?_⟩
  · rw [State.loseFrame_eq, (foldl_leaves State.startTx (fun s p => s.startTx_leaves p) allPorts _).lvl]
    exact h1 l
  · rw [State.loseFrame_eq]
    refine State.foldl_startTx_held e allPorts _ (fun q => ?_) p
    have : (allLevels.foldl (State.levelGivesUp e) (s.portsGaveUp e cell)).port q = (s.portsGaveUp e cell).port q := by
      unfold State.port
      rw [h2]
    rw [this]
    exact State.portsGaveUp_gone h e cell q
  · have := ((h.held hs).loseFrame e cell).1
    rw [← State.soleView_held, ← State.soleView_held, this]

/-- R35: the entry of a lost frame is free when no receive, no reassembly and not the Command Unit holds it. -/
theorem State.loseFrame_freed (h : s.HoldersCounted) (hs : s.store.Conserved) (e : EntryNo) (cell : CellNo)
    (hf : ∀ l c, (s.lvl l).ctx = some c → c.entry = e → (s.lvl l).flushPending = none) (he : e ∉ s.soleHeld) :
    (s.loseFrame e cell).entry? e = none := by
  have ⟨h1, h2, h3⟩ := s.loseFrame_gone h hs e cell hf
  have hh := (h.held hs).loseFrame e cell
  by_contra hne
  have hpos := hh.referenced (Option.isSome_iff_ne_none.mpr hne)
  have h4 : (s.loseFrame e cell).levelHeld.count e = 0 :=
    List.count_eq_zero.mpr fun hm => by
      obtain ⟨l, _, hl⟩ := List.mem_flatMap.mp hm
      exact h1 l hl
  have h5 : (allPorts.flatMap fun p => ((s.loseFrame e cell).port p).egressHeld).count e = 0 :=
    List.count_eq_zero.mpr fun hm => by
      obtain ⟨p, _, hp⟩ := List.mem_flatMap.mp hm
      exact h2 p hp
  have h6 : (s.soleView.held ++ []).count e = 0 := by
    rw [List.append_nil]
    exact List.count_eq_zero.mpr he
  unfold references at hpos
  rw [h4, h5, h6] at hpos
  simp at hpos

end Sys2Proof.Machine
end

