-- ==== Sys2Proof/Laws/Retry.lean ====
section
/-! SUPPORT. What a retry can do (R142, R153): no more than the command in hand that it comes to. -/

namespace Sys2Proof.Machine

open Sys2Proof

variable {s t : State}

/-- What a retry can do, said once: it is a chain of moves over the pieces of the command it comes to. -/
theorem exec_retry_moves (h : exec .waitingResponseBuild s = .next t) :
    Moves (fun p => ∃ k, s.retried = some k ∧ p ∈ k.pieces) s t := by
  simp only [exec, execWaitingResponseBuild] at h
  split at h
  · refine .done ?_ h
    have h0 : Moves (fun p => ∃ k, s.retried = some k ∧ p ∈ k.pieces) s
        { s with cmd := { s.cmd with freed := s.cmd.freed - 1 } } := .cmd s _ ⟨rfl, le_max_left _ _⟩
    have h := h0.trans (.buildWaiting s.cmd.waiting _)
    unfold State.runWaiting
    split
    · next t heq => rw [heq] at h; exact h
    · next t heq =>
      rw [heq] at h
      split
      · exact h
      · next c hc =>
        refine h.trans ?_
        unfold State.attemptAny
        split
        · next k hk =>
          refine .attempt k (fun p hp => ⟨k, ?_, hp⟩) t c
          simp only [State.retried, heq, hc, Option.bind_some, hk]
        · exact .attemptUnknown t c
  · exact .quiet h

/-- What a row that is no reset can do, said once: it is a chain of moves over the pieces of its own row, or, for a
retry, of the command that it runs. -/
theorem exec_moves_run {i : Instr} (h : exec i s = .next t) (hs : s.store.Conserved) (hr : mayReset i = false) :
    ∃ W : Piece → Prop, Moves W s t ∧
      ∀ p, W p → (p ∈ rowPieces i ∧ i ≠ .waitingResponseBuild) ∨ ∃ k, s.runs i k ∧ p ∈ k.pieces := by
  by_cases hi : i = .waitingResponseBuild
  · subst hi
    exact ⟨_, exec_retry_moves h, fun p ⟨k, hk, hp⟩ => .inr ⟨k, .inr ⟨rfl, hk⟩, hp⟩⟩
  · rcases exec_moves h hs with hm | ⟨hr', _⟩
    · exact ⟨_, hm, fun p hp => .inl ⟨hp, hi⟩⟩
    · rw [hr] at hr'
      cases hr'

end Sys2Proof.Machine
end

