-- ==== Sys2Proof/Tests/Slice0.lean ====
section
/-! SUPPORT. The model's own tests: ill-formed terms, layouts from the manual's figures, one step of each command,
and a witness for the hypotheses of each statement of Obligations.lean. -/

namespace Sys2Proof.Tests

open Sys2Proof Sys2Proof.Machine

set_option maxRecDepth 4000

/-! ### Helpers -/

/-- What is tested of a step that goes on. -/
def goesTo (r : Result) (p : State → Bool) : Bool :=
  match r with
  | .next t => p t
  | .fault _ => false
  | .refused _ => false

/-- The state after reset in a mode, with the trunk line as given. -/
def part (m : Mode) (up : Bool) : State :=
  { State.reset with
    ctl := { State.reset.ctl with mode := m }
    trunk := { State.reset.trunk with lineUp := up } }

/-- A frame to the part itself, from node 9. -/
def frameFrom (o : Origin) (t : PayloadType) : FrameEntry :=
  { origin := o, src := 9, dst := 1, classTag := some 0, ptype := t, level := 5, rule := none, label := 0,
    record := false, len := 0, cells := [], holders := 1 }

/-- A frame with its payload, stored by a traffic allocation. -/
def stored (s : State) (f : FrameEntry) (bytes : List Byte) : EntryNo × State :=
  match s.allocTraffic { f with len := bytes.length } with
  | (some e, t) => (e, t.writePayload e 0 bytes)
  | (none, t) => (0, t)

/-- A command frame in the FIFO. -/
def given (s : State) (bytes : List Byte) (o : Origin := .trunk) : State :=
  (stored s (frameFrom o .command) bytes).2.offerFifo (stored s (frameFrom o .command) bytes).1

/-- A frame in the queue of an enabled level. -/
def queued (s : State) (l : Level) (bytes : List Byte) : State :=
  let r := stored s (frameFrom (.port 0) .data) bytes
  r.2.modLvl l fun v => { v with attrs := { v.attrs with enable := true }, queue := v.queue ++ [r.1] }

/-- A port in a configured mode with its line Up. -/
def withPort (s : State) (p : PortNo) (m : PortMode) : State :=
  s.modPort p fun v => { v with cfg := { v.cfg with mode := m }, lineUp := true }

/-- The payload of the one response queued on level 1 after a step. -/
def response (r : Result) : List Byte :=
  match r with
  | .next t =>
    match (t.lvl 1).queue with
    | [e] => t.payload e
    | _ => []
  | .fault _ => []
  | .refused _ => []

/-- The response to a command given from the trunk with tag 300 to the part in Setup. -/
def answer (i : Instr) (code : Byte) (args : List Byte) : List Byte :=
  response (exec i (given (part .setup false) ([code, 1, 44] ++ args)))

/-- The header of the manual's ReadLevel fragment (11, worked example). -/
def exampleHeader : FragmentHeader :=
  { dst := 1, src := 9, level := 5, position := some .whole, cipher := false, slot := 0, ptype := .command,
    index := 0, sequence := 0, total := 4, len := 4 }

/-- A header of a frame with 2 payload bytes from node 20 to node 30. -/
def shortHeader : StationHeader := { dst := 30, src := 20, cls := 0, typ := 0, len := 2 }

/-- An Active port 1 in the middle of receiving that frame, with source checking off and default Pass to level 7. -/
def receiving : State :=
  match (withPort (part .run false) 1 .active).allocTraffic (stationEntry 1 shortHeader) with
  | (some e, t) => t.modPort 1 fun v => { v with
      cfg := { v.cfg with sourceCheck := false, defaultAction := .pass, defaultLevel := 7 }
      rxActive := true, rx := .storing e shortHeader, activeSince := some 0 }
  | (none, t) => t

/-- The bytes of that frame after its header. -/
def shortBody : List Byte :=
  [65, 66] ++ bytes2 (crc16 (stationHeaderBytes shortHeader ++ [65, 66])).toNat

/-- A frame in the transmitter of port 1, which is in a given mode. -/
def sendingPort (m : PortMode) (bytes : List Byte) : State :=
  let r := stored (withPort (part .run false) 1 m) (frameFrom .trunk .data) bytes
  (r.2.joinEgress 1 r.1 true)

/-! ### Tests -/

theorem test_illFormedTerms :
    (-- illFormed_cells
      ((Instr.fragmentCompletion [1024]).wellFormed || (Instr.spacingDeadlinePasses 2 [0, 1024]).wellFormed ||
        (Instr.trunkLineUp [5000]).wellFormed || (Instr.receiveLineSilent 0 [] [1024]).wellFormed ||
        (Instr.loopbackCompletion 0 [1024]).wellFormed || (Instr.portCellCheckFailure 0 1024).wellFormed) = false) ∧
    (-- illFormed_body
      (Instr.receiveLineSilent 0 (List.replicate 499 0) []).wellFormed = false) ∧
    (-- wellFormed_boundary
      ((Instr.fragmentCompletion [0, 1023]).wellFormed && (Instr.portCellCheckFailure 3 1023).wellFormed &&
        (Instr.receiveLineSilent 0 (List.replicate 498 0) [1023]).wellFormed) = true) := by decide +kernel

/-- The check values that the two generators of R185 and R186 give for the digits 1 to 9. R27: 1 cell for a payload up
to 48, and 8 cells from 433 to 496. R47: the table of fragment counts. Every field of an enciphered Last header in its
place (R185). The reports' sizes (R188). -/
theorem test_layouts :
    (-- checkValues
      crc32 [0x31, 0x32, 0x33, 0x34, 0x35, 0x36, 0x37, 0x38, 0x39] = 0xFC891918#32 ∧
        crc16 [0x31, 0x32, 0x33, 0x34, 0x35, 0x36, 0x37, 0x38, 0x39] = 0x29B1#16) ∧
    (-- cellsFor
      (cellsFor 1, cellsFor 48, cellsFor 49, cellsFor 432, cellsFor 433, cellsFor 496) =
      (1, 1, 2, 7, 8, 8)) ∧
    (-- fragmentCounts
      ([1, 64, 65, 128, 129, 257, 449, 496].map fun p =>
      (fragmentCount p 64, fragmentCount p 128, fragmentCount p 256)) =
      [(1, 1, 1), (1, 1, 1), (2, 1, 1), (2, 1, 1), (3, 2, 1), (5, 3, 2), (8, 4, 2), (8, 4, 2)]) ∧
    (-- exampleHeader
      exampleHeader.bytes = [1, 9, 40, 16, 0, 0, 0, 0, 0, 4, 0, 4] ∧
      (fragmentBytes exampleHeader [5, 1, 44, 5]).length = 20) ∧
    (-- cipherHeader
      FragmentHeader.bytes
      { dst := 7, src := 8, level := 31, position := some .last, cipher := true, slot := 1, ptype := .notice,
        index := 7, sequence := 0x01020304#32, total := 496, len := 48 } =
      [7, 8, 251, 247, 1, 2, 3, 4, 1, 240, 0, 48]) ∧
    (-- abortHeader
      ((((part .run true).sendAbort 3 { dst := 2, src := 9, ptype := .data }).trunk.inFlight.map Fragment.bytes).getD
        []).take 12 = [2, 9, 28, 0, 0, 0, 0, 0, 0, 0, 0, 0]) ∧
    (-- reportSizes
      (State.reset.statusReport.length, (State.reset.levelReport 5).length,
      (State.reset.portReport 3).length, State.reset.faultReport.length, State.reset.keyReport.length) =
      (165, 29, 34, 21, 20)) := by decide +kernel

theorem test_ruleAndNodeCommands :
    (-- readRules
      answer .readRules 1 [63, 1] =
      [1, 1, 44, 0, 2, 0, 255, 0, 255, 0, 0, 0, 1, 1, 240, 31, 0, 0, 0, 0, 0] ∧
      answer .readRules 1 [63, 2] = [1, 1, 44, 2]) ∧
    (-- writeRule
      goesTo (exec .writeRule (given (part .setup false)
        [2, 1, 44, 7, 0x15, 10, 20, 30, 40, 50, 0xFF, 0, 1, 1, 240, 9, 77])) (fun t => t.rule 7 == {
          valid := true, portMask := 1, srcLow := 10, srcHigh := 20, dstLow := 30, dstHigh := 40, clsValue := 50,
          clsMask := 255, lenMin := 1, lenMax := 496, action := .pass, level := 9, label := 77, record := true,
          hits := 0 }) = true ∧
      answer .writeRule 2 [7, 0x15, 10, 20, 30, 40, 50, 0xFF, 0, 1, 1, 241, 9, 77] = [2, 1, 44, 3]) ∧
    (-- readNodeMap
      answer .readNodeMap 3 [254, 2] = [3, 1, 44, 0, 0, 7] ∧
      answer .readNodeMap 3 [0, 2] = [3, 1, 44, 0, 0, 6]) ∧
    (-- writeNodeMap
      goesTo (exec .writeNodeMap (given (part .setup false) [4, 1, 44, 10, 2, 1, 3]))
        (fun t => t.disposition 10 == .trunk && t.disposition 11 == .port 1 && t.disposition 12 == .unassigned) = true ∧
      answer .writeNodeMap 4 [1, 1, 0] = [4, 1, 44, 2]) := by decide +kernel

/-- The manual's ReadLevel: 33 bytes, or 4 for level 40 (11, worked example). -/
theorem test_levelCommands :
    (-- readLevel
      answer .readLevel 5 [5] =
      [5, 1, 44, 0, 2, 0, 0, 1, 16, 7, 0, 0, 0, 0, 0, 0, 0, 0, 0, 0, 0, 0, 0, 0, 0, 0, 0, 0, 0, 0, 0, 0, 0] ∧
      answer .readLevel 5 [40] = [5, 1, 44, 2]) ∧
    (-- writeLevel
      goesTo (exec .writeLevel (given (part .setup false) [6, 1, 44, 5, 19, 1, 2, 16, 255]))
        (fun t => (t.lvl 5).attrs == {
          enable := true, yields := true, cipher := false, record := false,
          essential := true, spacing := 258, trainMax := 16, queueLimit := 255 }) = true ∧
      answer .writeLevel 6 [1, 19, 0, 0, 1, 0] = [6, 1, 44, 2]) ∧
    (-- flushLevel
      goesTo (exec .flushLevel (given (queued (part .run false) 5 [1, 2]) [7, 1, 44, 5]))
        (fun t => (t.lvl 5).queue.isEmpty && (t.lvl 5).framesDropped == 1 && t.store.entries.length == 1) = true ∧
      answer .flushLevel 7 [5] = [7, 1, 44, 0]) := by decide +kernel

theorem test_portCommands :
    (-- readPort
      answer .readPort 8 [3] = [8, 1, 44, 0, 0, 11, 31, 0, 0, 0, 0, 255, 255, 255] ++
        List.replicate 24 0 ∧ answer .readPort 8 [4] = [8, 1, 44, 2]) ∧
    (-- writePortConfig
      goesTo (exec .writePortConfig (given (part .setup false) [9, 1, 44, 2, 4, 3, 25]))
        (fun t => (t.port 2).cfg == {
          mode := .offline, defaultAction := .pass, defaultLevel := 3,
          sourceCheck := false, commandsAllowed := true, autoRecover := false, silenceTime := 25 }) = true ∧
      answer .writePortConfig 9 [2, 16, 3, 25] = [9, 1, 44, 3]) ∧
    (-- setPortMode
      goesTo (exec .setPortMode (given (part .run false) [10, 1, 44, 2, 3]))
        (fun t => t.portState 2 == .loopback) = true ∧ answer .setPortMode 10 [2, 4] = [10, 1, 44, 3]) := by decide +kernel

theorem test_keyCommands :
    (-- loadKey
      goesTo (exec .loadKey (given (part .setup false) ([11, 1, 44, 1] ++ List.replicate 16 255)))
        (fun t => t.slot 1 == .expanding (BitVec.allOnes 128) 0 && t.cmd.longOps.length == 1 &&
          t.outstanding == 1 && t.store.entries.isEmpty) = true ∧
      answer .loadKey 11 ([2] ++ List.replicate 16 255) = [11, 1, 44, 2]) ∧
    (-- eraseKey
      answer .eraseKey 12 [1] = [12, 1, 44, 0] ∧ answer .eraseKey 12 [2] = [12, 1, 44, 2]) ∧
    (-- selectSlot
      answer .selectSlot 13 [1] = [13, 1, 44, 7] ∧
      goesTo (exec .selectSlot (given ((part .run false).setSlot 1 (.ready 3)) [13, 1, 44, 1]))
        (fun t => t.cipher.active == 1) = true) ∧
    (-- keyCheck
      answer .keyCheck 14 [0] = [14, 1, 44, 7] ∧ answer .keyCheck 14 [2] = [14, 1, 44, 2]) ∧
    (-- readKeyState
      answer .readKeyState 15 [] = [15, 1, 44, 0] ++ List.replicate 20 0) ∧
    (-- expansionCompletes
      goesTo (exec .loadKey (given (part .setup false)
        ([11, 1, 44, 1] ++ List.replicate 16 7)))
      (fun t => response (exec (.expansionCompletes 1) t) == [11, 1, 44, 0] &&
        goesTo (exec (.expansionCompletes 1) t) (fun u => u.slotReady 1 && u.cmd.longOps.isEmpty)) = true) := by decide +kernel

/-- R171: in Run with Period 1 the deadline comes 1000 µs after the mark. -/
theorem test_modeCommands :
    (-- readStatus
      (answer .readStatus 16 []).take 9 = [16, 1, 44, 0, 1, 0, 1, 1, 1] ∧
      (answer .readStatus 16 []).length = 169) ∧
    (-- setMode
      goesTo (exec .setMode (given (part .setup false) [17, 1, 44, 2]))
        (fun t => t.ctl.mode == .run) = true ∧ answer .setMode 17 [3] = [17, 1, 44, 4] ∧
      answer .setMode 17 [0] = [17, 1, 44, 3]) ∧
    (-- refresh
      answer .refresh 18 [] = [18, 1, 44, 0] ∧
      goesTo (exec .refresh (given (part .fallback false) [18, 1, 44])) (fun t => t.ctl.refreshSeen) = true) ∧
    (-- writeSupervision
      goesTo (exec .writeSupervision (given (part .setup false) [19, 1, 44, 255, 255, 1]))
        (fun t => t.ctl.period == 65535 && t.ctl.window) = true ∧
      goesTo (exec .writeSupervision (given (part .run false) [19, 1, 44, 0, 1, 1]))
        (fun t => KindSet.has t.fault.summary .supervisionChange && t.ctl.period == 0) = true) ∧
    (-- setTrunkConfig
      goesTo (exec .setTrunkConfig (given (part .setup false) [20, 1, 44, 1, 0]))
        (fun t => t.trunk.fragSize == 256) = true ∧ answer .setTrunkConfig 20 [0, 63] = [20, 1, 44, 3]) ∧
    (-- resetPart
      goesTo (exec .resetPart (given (part .run false) [21, 1, 44]))
        (fun t => t.ctl.mode == .init && t.ctl.cause == .resetCommand && t.store.entries.isEmpty) = true ∧
      goesTo (exec .resetPart (given (part .run false) [21, 1, 44] (.port 2)))
        (fun t => t.ctl.mode == .run && t.cmd.commandsDenied == 1 && t.cmd.responsesUnsent == 1) = true) ∧
    (-- supervisionExpiry
      goesTo (exec .supervisionExpiry { part .run true with
        ctl := { (part .run true).ctl with period := 1, mark := some 0 }, now := 1000 })
      (fun t => t.ctl.mode == .fallback && KindSet.has t.fault.summary .supervisionExpired) = true ∧
      goesTo (exec .supervisionExpiry { part .run true with
        ctl := { (part .run true).ctl with period := 1, mark := some 0 }, now := 999 })
      (fun t => t.ctl.mode == .run) = true) := by decide +kernel

theorem test_logCommands :
    (-- readRecords
      answer .readRecords 22 [8] = [22, 1, 44, 0, 0, 0, 0] ∧
      answer .readRecords 22 [9] = [22, 1, 44, 3]) ∧
    (-- readFaults
      answer .readFaults 23 [] =
      [23, 1, 44, 0] ++ List.replicate 16 0 ++ [31, 255, 0, 0, 0]) ∧
    (-- clearFaults
      goesTo (exec .clearFaults (given ((part .run false).raise .trunkDown) [24, 1, 44]))
        (fun t => t.fault.summary == 0 && t.fault.captured.isNone) = true) ∧
    (-- writeNoticeConfig
      goesTo (exec .writeNoticeConfig (given (part .run false) [25, 1, 44, 9, 31, 255]))
        (fun t => t.fault.noticeNode == 9 && t.fault.noticeKinds == 8191) = true ∧
      answer .writeNoticeConfig 25 [9, 32, 0] = [25, 1, 44, 3]) ∧
    (-- clearCounters
      goesTo (exec .clearCounters (given (part .run false) [26, 1, 44, 6]))
        (fun t => t.cmd.commandsTaken == 0) = true ∧ answer .clearCounters 26 [7] = [26, 1, 44, 2]) ∧
    (-- writeAccess
      goesTo (exec .writeAccess (given (part .run false) [27, 1, 44, 6, 2]))
        (fun t => t.accessOf .logs == .full) = true ∧ answer .writeAccess 27 [7, 3] = [27, 1, 44, 2] ∧
      answer .writeAccess 27 [6, 3] = [27, 1, 44, 3]) := by decide +kernel

/-- A row whose code the head of the FIFO does not carry changes nothing (log 2). R153: after a freeing the waiting
response of a LoadKey is built. On an empty queue one microsecond passes, or the head of the FIFO is taken (log 1). -/
theorem test_commandUnit :
    (-- malformedCommand
      goesTo (exec .malformedCommand (given (part .run false) [5, 1]))
        (fun t => t.cmd.malformedCommands == 1 && t.cmd.commandsTaken == 1 && t.store.entries.isEmpty) = true) ∧
    (-- unknownCommand
      answer .unknownCommand 28 [] = [28, 1, 44, 11] ∧
      answer .unknownCommand 0 [] = [0, 1, 44, 11]) ∧
    (-- otherCode
      goesTo (exec .readPort (given (part .run false) [5, 1, 44, 5]))
      (fun t => t == given (part .run false) [5, 1, 44, 5]) = true) ∧
    (-- waitingResponseBuild
      response (exec .waitingResponseBuild { part .run false with
        cmd := { CommandUnit.blank with freed := 1, waiting := [
          { op := .loadKey 1, tag := 300, sender := .trunk, node := 9 }] } }) = [11, 1, 44, 0]) ∧
    (-- emptyQueue
      goesTo (step (part .run true)) (fun t => t.now == 1) = true ∧
      response (step (given (part .setup false) [5, 1, 44, 40])) = [5, 1, 44, 2]) := by decide +kernel

/-- R165: straps of 255 put node 254 in place of the self address. -/
theorem test_resets :
    (-- resets
      goesTo (exec .powerOn (part .run true)) (fun t => t.ctl.mode == .init) = true ∧
      goesTo (exec .resetPinAssert (part .run true)) (fun t => t.pins.resetAsserted && t.ctl.cause == .resetPin) = true ∧
      goesTo (exec .resetPinRelease { part .init true with pins := { Pins.atReset with resetAsserted := true } })
        (fun t => !t.pins.resetAsserted && t.ctl.mode == .init) = true) ∧
    (-- initEnd
      goesTo (exec (.initEnd 255) (part .init false)) (fun t => t.ctl.mode == .setup &&
      t.self == 254 && t.disposition 254 == .self && t.disposition 255 == .broadcast) = true) := by decide +kernel

/-- The manual's ReadLevel arrives as one Whole fragment and joins the FIFO; with one bit wrong it is a CRC error.
R126, R128: a First of 2 bytes and a Last of 1 make one frame of 3. R9, R49: the auction of a line Up sends the queued
frame as a Whole fragment; its completion counts it. R57: the line goes Down in the middle of a frame. -/
theorem test_trunkEvents :
    (-- fragmentReceived
      goesTo (exec (.fragmentReceived (fragmentBytes exampleHeader [5, 1, 44, 5])) (part .setup true))
        (fun t => t.cmd.fifo == [0] && t.payload 0 == [5, 1, 44, 5] && t.rx.framesReceived == 1) = true ∧
      goesTo (exec (.fragmentReceived ((fragmentBytes exampleHeader [5, 1, 44, 5]).set 12 4)) (part .setup true))
        (fun t => t.cmd.fifo.isEmpty && t.rx.crcErrors == 1 && t.rx.fragmentsReceived == 0) = true) ∧
    (-- reassembly
      goesTo (exec (.fragmentReceived (fragmentBytes
          { exampleHeader with position := some .first, total := 3, len := 2 } [5, 1])) (part .setup true))
        (fun t => goesTo (exec (.fragmentReceived (fragmentBytes
            { exampleHeader with position := some .last, index := 1, total := 3, len := 1 } [44])) t)
          (fun u => u.payload 0 == [5, 1, 44] && u.cmd.fifo == [0] && (t.rxCtx 5).code == 1 && u.rxCtx 5 == .idle)) =
        true) ∧
    (-- trunkLineUp
      goesTo (exec (.trunkLineUp []) (queued (part .run false) 5 [65, 66]))
      (fun t => (t.trunk.inFlight.map fun f => (f.level, f.position, f.index, f.len)) == some (5, .whole, 0, 2) &&
        (t.lvl 5).queue.isEmpty && (t.lvl 5).ctx.isSome && t.levelState 5 == .sending) = true) ∧
    (-- fragmentCompletion
      goesTo (exec (.trunkLineUp []) (queued (part .run false) 5 [65, 66]))
      (fun t => goesTo (exec (.fragmentCompletion []) t) (fun u => (u.lvl 5).framesSent == 1 &&
        u.trunk.fragmentsSent == 1 && u.trunk.payloadBytesSent == 2 && u.trunk.inFlight.isNone &&
        u.store.entries.isEmpty && u.store.freeCells.length == 1024)) = true) ∧
    (-- trunkLineDown
      goesTo (exec (.trunkLineUp []) (queued (part .run false) 5 [65, 66]))
      (fun t => goesTo (exec .trunkLineDown t) (fun u => u.trunk.fragmentsLost == 1 && u.trunk.lineDowns == 1 &&
        (u.lvl 5).framesAborted == 1 && (u.lvl 5).abortOwed.isSome && u.store.entries.isEmpty &&
        KindSet.has u.fault.summary .trunkDown)) = true) ∧
    (-- spacingDeadline
      goesTo (exec (.spacingDeadlinePasses 5 [])
      ((queued (part .run true) 5 [65]).modLvl 5 fun v => { v with deadline := some 0 }))
      (fun t => (t.lvl 5).deadline.isNone && t.sending 5) = true) := by decide +kernel

/-- R95, R98: a good frame for a node behind the trunk joins level 7, and one for an unassigned node is dropped. R112:
100 ms of silence clear the latch. R113: SilenceTime 255 is 2 550 000 µs. R55, R56, R107: a cell of the frame just stored
fails its check in the auction of the same step. -/
theorem test_receive :
    (-- receiveBegins
      goesTo (exec (.receiveLineActive 1) (withPort (part .run false) 1 .active))
      (fun t => (t.port 1).rx == .header && goesTo (exec (.headerReceived 1 shortHeader) t)
        (fun u => (u.port 1).rx == .storing 0 shortHeader && u.store.entries.length == 1)) = true) ∧
    (-- receiveLineSilent
      goesTo (exec (.receiveLineSilent 1 shortBody []) receiving)
        (fun t => (t.port 1).rxFrames == 1 && (t.port 1).drops == 1 && t.store.entries.isEmpty) = true ∧
      goesTo (exec (.receiveLineSilent 1 shortBody []) { receiving with
        nodeMap := receiving.nodeMap.set 30 .trunk, levels := (receiving.modLvl 7 fun v => v).levels })
        (fun t => (t.lvl 7).queue == [0] && t.payload 0 == [65, 66] && (t.entryAt 0).level == 7) = true) ∧
    (-- receivedCellFails
      goesTo (exec (.receiveLineSilent 1 shortBody [0])
        { receiving.modLvl 7 (fun v => { v with attrs := { v.attrs with enable := true } }) with
          trunk := { receiving.trunk with lineUp := true }, nodeMap := receiving.nodeMap.set 30 .trunk })
        (fun t => t.trunk.formingFailures == 1 && t.store.retired == [0] && t.store.entries.isEmpty &&
          KindSet.has t.fault.summary .cellCheck) = true) ∧
    (-- badFrameEnds
      goesTo (exec (.receiveLineSilent 1 [65, 66, 0, 0] []) receiving)
        (fun t => (t.port 1).rxErrors == 1 && t.store.entries.isEmpty) = true ∧
      goesTo (exec (.receiveLineSilent 1 (shortBody ++ [0]) []) receiving)
        (fun t => (t.port 1).rxErrors == 1) = true) ∧
    (-- jabber
      goesTo (exec (.excessPayloadByte 1) receiving)
        (fun t => t.portState 1 == .isolated && (t.port 1).jabberEvents == 1 && t.store.entries.isEmpty) = true ∧
      goesTo (exec (.jabberTimeout 1) { receiving with now := 2001 }) (fun t => (t.port 1).latch) = true ∧
      goesTo (exec (.jabberTimeout 1) { receiving with now := 2000 }) (fun t => !(t.port 1).latch) = true) ∧
    (-- jabberRecovery
      goesTo (exec (.jabberRecovery 1) { ((withPort (part .run false) 1 .active).modPort 1
        fun v => { v with latch := true, recoveryStart := some 0 }) with now := 100000 })
      (fun t => t.portState 1 == .active) = true) ∧
    (-- silenceTimeout
      goesTo (exec (.silenceTimeout 1) { ((withPort (part .run false) 1 .active).modPort 1
        fun v => { v with cfg := { v.cfg with silenceTime := 255 }, silenceStart := some 0 }) with now := 2550000 })
      (fun t => (t.port 1).silent && KindSet.has t.fault.summary .portSilent) = true) := by decide +kernel

/-- R118: the copy is classified on port 1, whose default drops it; the original is freed. R117: cell 0 of the frame
in the transmitter fails. R177, R181: a fault fills the capture record and gets a notice of 12 bytes. -/
theorem test_portLinesAndTransmitters :
    (-- portLine
      goesTo (exec (.portLineDown 1) receiving)
        (fun t => t.portState 1 == .down && (t.port 1).drops == 1 && (t.port 1).rx == .idle &&
          goesTo (exec (.portLineUp 1) t) (fun u => u.portState 1 == .active)) = true) ∧
    (-- transmissionCompletes
      goesTo (exec (.transmissionCompletes 1) (sendingPort .active [65, 66]))
      (fun t => (t.port 1).lastSent.take 8 == [1, 9, 0, 0, 0, 2, 65, 66] && (t.port 1).lastSent.length == 10 &&
        (t.port 1).txFrames == 1 && t.store.entries.isEmpty) = true) ∧
    (-- loopbackCompletion
      goesTo (exec (.loopbackCompletion 1 []) (sendingPort .loopback [65, 66]))
      (fun t => (t.port 1).txFrames == 1 && (t.port 1).drops == 1 && t.store.entries.isEmpty) = true) ∧
    (-- portCellCheckFailure
      goesTo (exec (.portCellCheckFailure 1 0) (sendingPort .active [65, 66]))
      (fun t => t.store.retired == [0] && (t.port 1).txAborted == 1 && t.store.freeCells.length == 1023 &&
        KindSet.has t.fault.summary .cellCheck) = true) ∧
    (-- notice
      (let t := ({ part .run false with
        fault := { FaultUnit.blank with noticeNode := 9 }, now := 258 } : State).raise .portJabber { port := some 3 }
      ((t.lvl 0).queue.map t.payload)) = [[7, 5, 0, 0, 1, 2, 0, 3, 0, 0, 0, 0]]) := by decide +kernel

/-- No row of the table has bits, so no word spells a command. -/
theorem test_noWords : decodeTableWord 8 0 = none ∧ State.reset.withFetchWord 8 0 = State.reset := ⟨rfl, rfl⟩

/-! ### Witnesses: helpers

`reach_X` is true when concrete states meet the hypotheses of Obligations.X, clause by clause; `witness_X` says that
it is. A group of them is decided at once. -/

/-- An attempt that reaches its action, and what its frame and its state satisfy. -/
def attemptHas (s : State) (k : Command) (p : CommandFrame → State → Bool) : Bool :=
  match s.nextCommand with
  | none => false
  | some (c, found) =>
    match found.allocReserve Config.attemptCells (found.responseEntry c.node) with
    | (none, _) => false
    | (some _, t) =>
      c.code.toNat == k.code && t.mayGive k c.args c.sender && k.takenIn t.ctl.mode && k.argsFit c.args && p c t

/-- What `attemptHas` shows is the premise of the statements about commands. -/
theorem attempts_of_attemptHas {s : State} {k : Command} {p : CommandFrame → State → Bool}
    (h : attemptHas s k p = true) : ∃ c found e t, s.Attempts k c found e t ∧ p c t = true := by
  unfold attemptHas at h
  split at h
  · cases h
  · next c found hn =>
    split at h
    · cases h
    · next e t ha =>
      simp only [Bool.and_eq_true, beq_iff_eq] at h
      exact ⟨c, found, e, t, ⟨hn, h.1.1.1.1, ha, h.1.1.1.2, h.1.1.2, h.1.2⟩, h.2⟩

/-- The argument bytes of a command, given from the trunk to a state. -/
def tried (s : State) (k : Command) (args : List Byte) (p : CommandFrame → State → Bool) : Bool :=
  attemptHas (given s ([byteOf k.code, 0, 1] ++ args)) k p

/-- A context of a frame entry. -/
def context (e : EntryNo) (n : Nat) (key : Option (Slot × Word)) : Context :=
  { entry := e, next := n, sent := 0, start := 0, key := key, suspensions := 0 }

/-- A fragment of a level in flight. -/
def flying (s : State) (l : Level) (pos : Position) : State :=
  s.startFragment { level := l, position := pos, index := 0, len := 1, bytes := [] }

/-- A context on a level. -/
def withContext (s : State) (l : Level) (c : Context) : State := s.modLvl l fun v => { v with ctx := some c }

/-- A collecting context on a level, with nodes, type and total as in the example header. -/
def collecting (s : State) (l : Level) (expected received total : Nat) (key : Option (Slot × Word)) : State :=
  s.setRxCtx l (.collecting {
    entry := 0, src := 9, dst := 1, ptype := .command, total := total, expected := expected, received := received,
    key := key })

/-- A store with the given numbers of free entries and cells, for what an allocation finds. -/
def withFree (s : State) (entries cells : Nat) : State :=
  { s with store := { s.store with freeEntries := List.range entries, freeCells := List.range cells } }

/-! ### Witnesses: steps, resets, levels -/

/-- A waiting response of a LoadKey from the trunk. -/
def waitingRecord : LongRecord := { op := .loadKey 1, tag := 300, sender := .trunk, node := 9 }

/-- A response that waits, with a freeing made since. -/
def waitingPart : State := { part .run true with cmd := { CommandUnit.blank with freed := 1, waiting := [waitingRecord] } }

def reach_StepRunsFrontCommand : Bool :=
  ({ part .run true with pending := [.powerOn, .refresh] } : State).pending == [.powerOn, .refresh]

def reach_EmptyQueueRunsOwnStepOrTicks : Bool :=
  let s := given (part .run true) [5, 0, 1, 5]
  s.pending.isEmpty && s.ownStep == some .readLevel && s.canTake && !s.retryDue && s.cmd.fifo == [0] &&
    (part .run true).pending.isEmpty && (part .run true).ownStep.isNone && (part .run true).ctl.mode != .init &&
    (part .init true).ctl.mode == .init && waitingPart.retryDue && waitingPart.ctl.mode != .init

def reach_EveryCommandGoesOn : Bool :=
  (Instr.portCellCheckFailure 3 1023).wellFormed && decide (Config.cellCount ≤ 1024)

def reach_EveryBlockTakesItsResetValues : Bool :=
  (State.blank .setup .powerOn 253 Pins.atReset []).self == 253 && decide ((254 : Node) ≠ 253 ∧ (254 : Node) ≠ 255) &&
    decide (2 ≤ (2 : Level).val)

def reach_ResetsStartInitAndInitEndsInSetup : Bool :=
  let held := { part .init true with pins := { Pins.atReset with resetAsserted := true } }
  !(part .run true).pins.resetAsserted && held.pins.resetAsserted &&
    ((given (part .setup true) [21, 0, 1]).nextCommand.any fun x => x.1.code.toNat == 21 && x.1.sender == .trunk) &&
    (part .init true).ctl.mode == .init && !(part .init true).pins.resetAsserted &&
    [1, 254].all (fun b => b != (0 : Byte) && b != 255)

def reach_InitTakesNothingFromOutside : Bool :=
  [Instr.refresh, .trunkLineUp [1023], .receiveLineSilent 3 [] []].all fun i => i.wellFormed && !ofResets i

/-- Level 31 with a frame queued and a change of its attributes. -/
def queued31 (m : Mode) (f : Attrs → Attrs) : State :=
  (queued (part m true) 31 [65]).modLvl 31 fun v => { v with attrs := f v.attrs }

/-- Level 31 waiting for its spacing deadline. -/
def spacing31 : State := (queued31 .run id).modLvl 31 fun v => { v with deadline := some 9 }

def reach_LevelStateIsTheFirstOfTheTable : Bool :=
  let cond := fun (s : State) => (s.sending 31, s.barred 31, s.eligible 31, s.keyless 31)
  let held := queued31 .run fun a => { a with enable := false }
  cond (flying (queued31 .fallback id) 31 .whole) == (true, true, true, false) &&
    cond (queued31 .fallback id) == (false, true, true, false) &&
    cond (queued31 .run id) == (false, false, true, false) &&
    cond spacing31 == (false, false, false, false) && (spacing31.lvl 31).deadline.isSome &&
    cond (queued31 .run fun a => { a with cipher := true }) == (false, false, false, true) &&
    cond held == (false, false, false, false) && !(held.lvl 31).attrs.enable && !(held.lvl 31).queue.isEmpty &&
    cond (part .run true) == (false, false, false, false) && !((part .run true).lvl 31).attrs.enable &&
    ((part .run true).lvl 0).attrs.enable && !(part .run true).eligible 0 &&
    (context 0 0 (some (1, 7))).key == some (1, 7)

def reach_WinnerIsTheLowestLevelWithWork : Bool :=
  (queued31 .run id).winner == some 31 && (part .run true).winner.isNone &&
    (queued (queued31 .run id) 2 [66]).winner == some 2

/-- Level 2 owing an Abort fragment. -/
def owing (s : State) : State := s.oweAbort 2 (frameFrom .trunk .data)

/-- Nothing of the level's next fragment fails its check, but its first cell does once cell 0 is corrupted. -/
def failsToForm (s : State) (l : Level) : Bool :=
  (s.lvl l).ctx.any fun c => (s.firstFailing (s.fragmentCells c)).isNone &&
    (s.corrupt [0]).firstFailing ((s.corrupt [0]).fragmentCells c) == some 0

def reach_AuctionSendsWhatTheWinnerHas : Bool :=
  let s := withContext (queued (part .run true) 2 [65]) 2 (context 0 0 none)
  let idle := fun (s : State) => s.trunk.inFlight.isNone && s.trunk.lineUp && s.store.corrupted.isEmpty
  (flying s 2 .whole).trunk.inFlight.isSome && !(part .run false).trunk.lineUp && (part .run true).winner.isNone &&
    idle (owing s) && (owing s).winner == some 2 && ((owing s).lvl 2).abortOwed.isSome &&
    idle s && s.winner == some 2 && (s.lvl 2).ctx.isSome && (s.lvl 2).abortOwed.isNone &&
    idle (queued31 .run id) && (queued31 .run id).winner == some 31 && ((queued31 .run id).lvl 31).ctx.isNone &&
    failsToForm s 2 && failsToForm ((queued31 .run id).startNewFrame 31) 31 && (context 0 0 none).key.isNone &&
    (context 0 1 (some (1, 7))).key == some (1, 7)

/-- Level 31 enciphered under slot 0, Ready, with its transmit sequence at a value. -/
def enciphered (v : Word) : State :=
  ((queued31 .run fun a => { a with cipher := true }).setSlot 0 (.ready 5)).modLvl 31 fun w =>
    { w with txSeq := w.txSeq.set 0 (.seq v) }

def reach_NewFrameTakesTheNextSequence : Bool :=
  ((queued31 .run id).lvl 31).queue == [0] && !((queued31 .run id).lvl 31).attrs.cipher &&
    ((enciphered 1).lvl 31).attrs.cipher && (enciphered 1).txSequence 0 31 == .seq 1 &&
    (enciphered (BitVec.allOnes 32)).txSequence 0 31 == .seq (BitVec.allOnes 32) &&
    ((enciphered 1).lvl 31).queue == [0] && decide (2 ≤ (31 : Level).val)

/-- A context on level 2, in the middle of its frame, with what else is asked of the level. -/
def middle (f : LevelEntry → LevelEntry) : State :=
  (withContext (queued (part .run true) 2 [65, 66]) 2 (context 0 1 none)).modLvl 2 f

def reach_AbandonClearsTheContext : Bool :=
  ((middle id).lvl 2).ctx.isSome && !((middle id).lvl 2).attrs.record && !((middle id).entryAt 0).record &&
    ((middle id).lvl 2).flushPending.isNone && decide ((0 : Level) ≠ 2) &&
    ((middle fun v => { v with attrs := { v.attrs with record := true } }).lvl 2).attrs.record

def reach_BoundaryDecidesByTheFirstStep : Bool :=
  let s0 := { middle id with ctl := { (middle id).ctl with mode := .setup } }
  let s1 := (middle id).modLvl 0 fun v => { v with queue := [0] }
  let s2 := middle fun v => { v with attrs := { v.attrs with yields := false } }
  let s3 := middle fun v => { v with attrs := { v.attrs with trainMax := 2 }, trainCount := 1 }
  let off := middle fun v => { v with attrs := { v.attrs with enable := false } }
  let other := queued (middle fun v => { v with queue := [] }) 3 [9]
  s0.ctl.mode == .setup && (s1.advance 2 5).hasWork 0 && s1.ctl.mode == .run &&
    !(s2.lvl 2).attrs.yields && (s2.lvl 2).attrs.enable && !(s2.advance 2 5).hasWork 0 &&
    (s3.lvl 2).inTrain && ((middle id).lvl 2).attrs.yields && !((middle id).lvl 2).inTrain &&
    ((middle id).advance 2 5).winner == some 2 && (off.advance 2 5).winner.isNone &&
    ((other.modLvl 2 fun v => { v with attrs := { v.attrs with enable := false } }).advance 2 5).winner == some 3 &&
    ((middle fun v => { v with flushPending := some { tag := 1, sender := .trunk } }).lvl 2).flushPending.isSome &&
    ((owing (middle id)).lvl 2).abortOwed.isSome && ((middle id).lvl 2).attrs.enable &&
    ((middle id).lvl 2).abortOwed.isNone && failsToForm (withContext (middle id) 2 (context 0 0 none)) 2 &&
    ((queued31 .run id).lvl 31).ctx.isNone && failsToForm ((queued31 .run id).startNewFrame 31) 31

def reach_FrameCompletionCountsAndReleases : Bool :=
  ((middle id).lvl 2).flushPending.isNone && !((middle id).lvl 2).attrs.record && !((middle id).entryAt 0).record &&
    ((middle fun v => { v with attrs := { v.attrs with record := true } }).lvl 2).attrs.record

def reach_TrainContinuesOrEnds : Bool :=
  let s := queued (part .run true) 2 [65]
  let t := s.modLvl 2 fun v => { v with attrs := { v.attrs with trainMax := 16 }, trainCount := 15 }
  !s.trainContinues 2 && t.trainContinues 2 && t.store.corrupted.isEmpty && decide (2 ≤ (2 : Level).val) &&
    (t.corrupt [0]).trainContinues 2 && failsToForm (t.startNewFrame 2) 2 &&
    !(t.modLvl 2 fun v => { v with trainCount := 16 }).trainContinues 2

def reach_FragmentCompletionCountsAndDecides : Bool :=
  [Position.whole, .first, .middle, .last].all (fun pos =>
    (flying (middle id) 2 pos).trunk.inFlight.isSome && ((flying (middle id) 2 pos).lvl 2).ctx.isSome) &&
    (flying (part .run true) 2 .whole).trunk.inFlight.isSome && ((flying (part .run true) 2 .whole).lvl 2).ctx.isNone &&
    ((flying (owing (part .run true)) 2 .abort).trunk.inFlight.map Fragment.position) == some .abort

def reach_DeadlineAndLineUpHoldAnAuction : Bool :=
  let s := (queued31 .run id).modLvl 31 fun v => { v with deadline := some 0 }
  (s.lvl 31).deadline == some s.now && (part .run false).ctl.mode != .init && !(part .run false).trunk.lineUp &&
    !(part .run false).auctionDue && goesTo (step (part .run false)) fun _ => true

/-- A notice waits on level 0 behind a fragment of level 2. -/
def noticeWaits : State :=
  (flying (middle id) 2 .middle).modLvl 0 fun v => { v with queue := [0] }

def reach_NoticeWaitsForOneFragmentAtMost : Bool :=
  (noticeWaits.trunk.inFlight.any fun f => f.level != 0) && noticeWaits.trunk.lineUp &&
    (noticeWaits.lvl 0).attrs == .builtIn 8 && noticeWaits.store.corrupted.isEmpty && noticeWaits.hasWork 0 &&
    goesTo (exec (.fragmentCompletion []) noticeWaits) fun _ => true

theorem witnesses_levels :
    reach_StepRunsFrontCommand = true ∧ reach_EmptyQueueRunsOwnStepOrTicks = true ∧ reach_EveryCommandGoesOn = true ∧
    reach_EveryBlockTakesItsResetValues = true ∧ reach_ResetsStartInitAndInitEndsInSetup = true ∧
    reach_InitTakesNothingFromOutside = true ∧ reach_LevelStateIsTheFirstOfTheTable = true ∧
    reach_WinnerIsTheLowestLevelWithWork = true ∧ reach_AuctionSendsWhatTheWinnerHas = true ∧
    reach_NewFrameTakesTheNextSequence = true ∧ reach_AbandonClearsTheContext = true ∧
    reach_BoundaryDecidesByTheFirstStep = true ∧ reach_FrameCompletionCountsAndReleases = true ∧
    reach_TrainContinuesOrEnds = true ∧ reach_FragmentCompletionCountsAndDecides = true ∧
    reach_DeadlineAndLineUpHoldAnAuction = true ∧ reach_NoticeWaitsForOneFragmentAtMost = true := by decide +kernel

/-! ### Witnesses: level commands, queues, the Frame Store, trunk egress -/

/-- Level 31 holding a context, with a fragment of it in flight when asked. -/
def context31 (m : Mode) (sends : Bool) : State :=
  let s := withContext (queued31 m fun a => { a with essential := true }) 31 (context 0 1 none)
  if sends then flying s 31 .middle else s

def reach_LevelCommandsComplete : Bool :=
  let s := part .run true
  tried s .readLevel [31] (fun c _ => c.arg 0 == 31) && tried s .readLevel [32] (fun c _ => c.arg 0 == 32) &&
    tried s .writeLevel [1, 0, 0, 0, 1, 0] (fun c _ => decide (c.arg 0 < 2)) &&
    tried s .writeLevel [32, 0, 0, 0, 1, 0] (fun c _ => decide (31 < c.arg 0)) &&
    tried s .writeLevel [2, 0, 0, 0, 0, 0] (fun c _ => c.arg 4 == 0) &&
    tried s .writeLevel [2, 0, 0, 0, 17, 0] (fun c _ => decide (16 < c.arg 4)) &&
    tried s .writeLevel [2, 32, 0, 0, 1, 0] (fun c _ => decide (31 < c.arg 1)) &&
    tried s .writeLevel [31, 31, 255, 255, 16, 255] (fun c _ => c.arg 4 == 16 && c.arg 1 == 31) &&
    tried s .writeLevel [2, 0, 0, 0, 1, 0] (fun c t => c.arg 4 == 1 && t.ctl.mode == .run) &&
    tried (context31 .fallback false) .writeLevel [31, 15, 0, 0, 1, 0]
      (fun c t => (t.lvl 31).attrs.essential && !c.attrs.essential && (t.lvl 31).ctx.isSome && !t.sending 31) &&
    tried s .flushLevel [1] (fun _ _ => true) && tried s .flushLevel [32] (fun _ _ => true) &&
    tried (s.modLvl 2 fun v => { v with flushPending := some { tag := 1, sender := .trunk } }) .flushLevel [2]
      (fun _ t => (t.lvl 2).flushPending.isSome) &&
    tried s .flushLevel [31] (fun _ t => (t.lvl 31).ctx.isNone && (t.lvl 31).flushPending.isNone) &&
    tried (context31 .run false) .flushLevel [31] (fun _ t => (t.lvl 31).ctx.isSome && !t.sending 31) &&
    tried (context31 .run true) .flushLevel [31] (fun _ t => (t.lvl 31).ctx.isSome && t.sending 31)

def reach_QueueAdmitsByFourTests : Bool :=
  let full := (part .run true).modLvl 2 fun v => { v with queue := List.range 16 }
  let notices := ((part .run true).modLvl 0 fun v => { v with queue := List.range 7 }).modLvl 0 fun v =>
    { v with ctx := some (context 7 0 none) }
  (part .setup true).queueRefuses 2 && (part .fallback true).queueRefuses 2 && full.queueRefuses 2 &&
    notices.queueRefuses 0 && ((part .run true).modLvl 2 fun v =>
      { v with flushPending := some { tag := 1, sender := .trunk } }).queueRefuses 2 &&
    !(part .run true).queueRefuses 2 && !(part .run true).queueRefuses 31 && !(part .setup true).queueRefuses 1 &&
    !(full.modLvl 2 fun v => { v with attrs := { v.attrs with queueLimit := 17 } }).queueRefuses 2

def reach_AllocationTakesAndReleaseGivesBack : Bool :=
  let can := fun (entries cells : Nat) => (withFree (part .run true) entries cells).store
  (can 13 25).trafficOk 1 && (can 13 32).trafficOk 8 && !(can 12 1000).trafficOk 1 && !(can 256 24).trafficOk 1 &&
    (can 1 3).reserveOk 3 && !(can 0 1000).reserveOk 1 && !(can 1 2).reserveOk 3 &&
    ((queued31 .run id).entry? 0).any (fun f => f.holders == 1) &&
    (((queued31 .run id).addHolder 0).entry? 0).any (fun f => f.holders == 2)

def reach_FailingCellLosesTheFrame : Bool :=
  let s := sendingPort .active [65, 66]
  let t := s.modPort 2 fun v => { v with queue := [0] }
  (s.port 1).tx.isSome && (s.entryAt 0).cells.contains 0 && (t.port 2).queue.contains 0 &&
    (t.port 3).queue.isEmpty && (t.port 3).tx.isNone && ((queued31 .run id).lvl 31).queue.contains 0 &&
    (((middle id).modLvl 2 fun v => { v with queue := [] }).lvl 2).ctx.any (fun c => c.entry == 0 && c.next == 1) &&
    (flying (withContext (part .run true) 2 (context 0 0 none)) 2 .whole).sending 2 &&
    ((withContext (part .run true) 2 (context 0 0 none)).lvl 2).ctx.any fun c => c.entry == 0 && c.next == 0

def reach_EventsThatStoreNothingLeaveEveryByte : Bool :=
  let s := sendingPort .active [65, 66]
  !s.auctionDue && [Instr.receiveLineActive 1, .jabberRecovery 1, .portLineDown 1, .portLineUp 1,
    .transmissionCompletes 1, .malformedCommand, .resetPinRelease].all fun i => goesTo (exec i s) fun _ => true

def reach_LineDownAbandonsEveryContext : Bool :=
  let s := flying (middle id) 2 .middle
  s.ctl.mode != .init && s.trunk.lineUp && s.trunk.inFlight.isSome && (s.lvl 2).ctx.isSome &&
    (middle id).trunk.inFlight.isNone && ((withContext s 0 (context 0 0 none)).lvl 0).ctx.isSome &&
    ((withContext s 1 (context 0 0 none)).lvl 1).ctx.isSome

/-- A record, and a log that holds a number of them. -/
def logOf (n : Nat) : State :=
  { part .run true with trunk := { (part .run true).trunk with
      log := List.replicate n { level := 2, label := 0, port := none, rule := none, dst := 1, fragments := 1,
                                suspensions := 0, start := 0, finish := 0, outcome := .sent } } }

def reach_RecordLogKeepsTheOldest : Bool :=
  decide ((logOf 31).trunk.log.length < 32) && decide (32 ≤ (logOf 32).trunk.log.length) &&
    tried (logOf 2) .readRecords [0] (fun c _ => c.arg 0 == 0) &&
    tried (logOf 2) .readRecords [9] (fun c _ => c.arg 0 == 9) &&
    tried (logOf 2) .readRecords [1] (fun c _ => c.arg 0 == 1) &&
    tried (logOf 9) .readRecords [8] (fun c _ => c.arg 0 == 8)

def reach_FragmentsCoverThePayload : Bool :=
  [1, 64, 65, 496].all (fun len => decide (1 ≤ len ∧ len ≤ 496)) && fragmentCount 1 64 == 1 &&
    fragmentCount 496 64 == 8 && decide (1 < fragmentCount 496 256)

def reach_HeadersAndRulesAreReadAsWritten : Bool :=
  let h : FragmentHeader := { exampleHeader with index := 7, total := 65535, len := 65535 }
  let r : Rule := { Rule.blank with lenMin := 65535, lenMax := 65535, hits := 3 }
  decide (h.index < 8 ∧ h.total < 65536 ∧ h.len < 65536) && decide (r.lenMin < 65536 ∧ r.lenMax < 65536) &&
    decide ((List.replicate 8 true).length ≤ 8 ∧ 7 < 8)

/-! ### Witnesses: the Cipher Unit, classification, the Node Map -/

/-- Slot 1 Ready, slot 0 Expanding. -/
def keyed : State := ((part .run true).setSlot 1 (.ready 5)).setSlot 0 (.expanding 6 0)

/-- Sixteen key bytes. -/
def keyBytes : List Byte := List.replicate 16 7

/-- Slot 1 active with level 31 enciphered; recorded by a level context; recorded by a reassembly context. -/
def slotUsers : List State :=
  [{ (part .run true).modLvl 31 fun v => { v with attrs := { v.attrs with cipher := true } } with
      cipher := { Cipher.blank with active := 1 } },
    withContext (part .run true) 2 (context 0 1 (some (1, 9))), collecting (part .run true) 2 1 1 9 (some (1, 9))]

def reach_KeyCommandsComplete : Bool :=
  [(Command.loadKey, keyBytes), (.eraseKey, [])].all (fun x =>
    tried (part .run true) x.1 (2 :: x.2) (fun c _ => c.arg 0 == 2) &&
      tried keyed x.1 (0 :: x.2) (fun _ t => (t.slot 0).code == 1) &&
      slotUsers.all (fun s => tried s x.1 (1 :: x.2) fun _ t => t.keyBusy 1 == some .inUse) &&
      tried (part .run true) x.1 (1 :: x.2) (fun _ t => (t.keyBusy 1).isNone)) &&
    tried keyed .selectSlot [2] (fun c _ => c.arg 0 == 2) && tried keyed .selectSlot [1] (fun _ t => t.slotReady 1) &&
    tried keyed .selectSlot [0] (fun _ t => !t.slotReady 0) && tried keyed .readKeyState [] fun _ _ => true

def reach_KeyCheckReturnsThreeBytes : Bool :=
  tried keyed .keyCheck [2] (fun c _ => c.arg 0 == 2) && tried keyed .keyCheck [1] (fun _ t => t.slotReady 1) &&
    tried keyed .keyCheck [0] fun _ t => !t.slotReady 0

def reach_ExpansionMakesTheSlotReady : Bool :=
  let flush : LongRecord := { op := .flushLevel 2, tag := 9, sender := .station 1, node := 9 }
  let s : State := { keyed with cmd := { keyed.cmd with longOps := [flush, waitingRecord] } }
  let found := fun op : LongOp => s.cmd.longOps.find? fun x => decide (x.op = op)
  keyed.slot 0 == .expanding 6 0 && keyed.cipher.active == 0 && decide ((1 : Slot) ≠ 0) &&
    ({ keyed with cipher := { keyed.cipher with active := 1 } } : State).cipher.active != 0 &&
    found (.flushLevel 2) == some flush && found (.loadKey 1) == some waitingRecord &&
    (s.cmd.longOps.all fun r => r.op != .loadKey 0) && (s.allocReserve 1 (s.responseEntry 9)).1.isSome &&
    ((withFree s 0 9).allocReserve 1 (s.responseEntry 9)).1.isNone && ((middle id).lvl 2).flushPending.isNone &&
    ((middle fun v => { v with flushPending := some { tag := 9, sender := .station 1 } }).lvl 2).flushPending.isSome

def reach_KeystreamRunsOverTheFrame : Bool :=
  counterBlock 1 31 (BitVec.allOnes 32) 255 254 65535 == counterBlock 1 31 (BitVec.allOnes 32) 255 254 65535 &&
    decide (65535 < 65536) && keyed.slot 1 == .ready 5 && ([65, 66] : List Byte)[1]? == some 66 && decide (15 < 16)

/-- A rule for port 1 and every node, with a class mask. -/
def openRule (m : Byte) (a : Action) : Rule :=
  { Rule.blank with valid := true, portMask := 2, clsMask := m, action := a, level := 7 }

/-- Port 1 Active with a frame of its own stored under number 0, and rules 0 and 63. -/
def classifying (r0 r63 : Rule) (a : Action) : State :=
  let s := (stored (withPort (part .run true) 1 .active) (frameFrom (.port 1) .data) [1]).2
  { s.modPort 1 fun v => { v with cfg := { v.cfg with defaultAction := a } } with
    rules := (s.rules.set 0 r0).set 63 r63 }

def reach_RuleMatchesByItsFields : Bool :=
  (openRule 0 .pass).clsMask == 0 && (openRule 255 .pass).fits 1 (frameFrom (.port 1) .data) == false &&
    (openRule 255 .pass).fits 1 { frameFrom (.port 1) .data with len := 496 } &&
    (openRule 255 .pass).clsMask == 255

def reach_FirstMatchingRuleDecides : Bool :=
  let hit := fun (s : State) => s.firstMatch 1 (s.entryAt 0)
  let one := classifying Rule.blank (openRule 0 .pass) .drop
  hit one == some 63 && (one.entry? 0).isSome && hit (classifying (openRule 255 .drop) Rule.blank .pass) == some 0 &&
    (hit (classifying Rule.blank Rule.blank .pass)).isNone && (hit (classifying Rule.blank Rule.blank .drop)).isNone

/-- Ports 1 and 2 Active, and a disposition for the destination of frame 0. -/
def deciding (m : Mode) (d : Disposition) : State :=
  let s := (stored (withPort (withPort (part m true) 1 .active) 2 .active) (frameFrom (.port 1) .data) [1]).2
  { s with nodeMap := s.nodeMap.set 1 d }

def reach_DestinationDecidesTheOffers : Bool :=
  let look := fun (m : Mode) (d : Disposition) =>
    ((deciding m d).disposition ((deciding m d).entryAt 0).dst == d &&
      (deciding m d).portOffersMade ((deciding m d).entryAt 0).level)
  look .run .unassigned && look .run .self && look .run .trunk && look .run (.port 2) && look .run .broadcast &&
    !look .fallback .broadcast && !look .fallback (.port 2) && (deciding .run (.port 2)).portState 2 == .active &&
    (deciding .run (.port 3)).portState 3 != .active && (deciding .run .broadcast).portState 1 == .active

/-- The 13 bytes of a rule at its limits. -/
def ruleBytes : List Byte := [0xF7, 10, 10, 20, 20, 50, 0xFF, 1, 240, 1, 240, 31, 255]

def reach_RuleCommandsComplete : Bool :=
  let s := part .run true
  let writes := fun (i : Byte) (bs : List Byte) => tried s .writeRule (i :: bs) fun _ _ => true
  let bad := fun (at_ : Nat) (b : Byte) => tried s .writeRule (0 :: ruleBytes.set at_ b)
    fun c _ => (ruleRefusal c).isSome
  writes 64 ruleBytes && tried s .writeRule (63 :: ruleBytes) (fun c _ => (ruleRefusal c).isNone && c.arg 0 == 63) &&
    bad 2 9 && bad 4 19 && bad 8 241 && bad 9 0 && bad 10 241 && bad 11 1 && bad 11 32 && bad 0 0xFF &&
    tried s .writeRule (0 :: (ruleBytes.set 7 0).set 8 0) (fun c _ => (ruleRefusal c).isSome) &&
    tried s .readRules [64, 1] (fun c _ => c.arg 0 == 64) && tried s .readRules [63, 0] (fun c _ => c.arg 1 == 0) &&
    tried s .readRules [63, 9] (fun c _ => c.arg 1 == 9) && tried s .readRules [63, 2] (fun c _ => c.arg 1 == 2) &&
    tried s .readRules [56, 8] fun c _ => c.arg 0 + c.arg 1 == 64

def reach_WriteNodeMapReplacesTheRange : Bool :=
  let s := part .run true
  let fixed := fun (c : CommandFrame) (t : State) => t.fixedNode (byteOf (c.arg 0))
  tried s .writeNodeMap [2, 0] (fun c _ => c.arg 1 == 0) &&
    tried s .writeNodeMap ([2, 65] ++ List.replicate 65 0) (fun c _ => c.arg 1 == 65) &&
    tried s .writeNodeMap [255, 2, 0, 0] (fun c _ => c.arg 0 + c.arg 1 == 257) &&
    tried s .writeNodeMap [2, 1, 6] (fun c _ => decide (5 < c.arg 2)) &&
    tried s .writeNodeMap [0, 1, 0] fixed && tried s .writeNodeMap [255, 1, 0] fixed &&
    tried s .writeNodeMap [1, 1, 0] fixed && tried s .writeNodeMap [254, 1, 5] (fun c t => !fixed c t) &&
    tried s .writeNodeMap ([2, 64] ++ List.replicate 64 5) fun c t => !fixed c t && c.arg 1 == 64

def reach_ReadNodeMapReportsTheRange : Bool :=
  let s := part .run true
  tried s .readNodeMap [2, 0] (fun c _ => c.arg 1 == 0) && tried s .readNodeMap [2, 65] (fun c _ => c.arg 1 == 65) &&
    tried s .readNodeMap [193, 64] (fun c _ => c.arg 0 + c.arg 1 == 257) &&
    tried s .readNodeMap [192, 64] (fun c _ => c.arg 0 + c.arg 1 == 256) &&
    tried s .readNodeMap [255, 1] fun c _ => c.arg 1 == 1

theorem witnesses_tables :
    reach_LevelCommandsComplete = true ∧ reach_QueueAdmitsByFourTests = true ∧
    reach_AllocationTakesAndReleaseGivesBack = true ∧ reach_FailingCellLosesTheFrame = true ∧
    reach_EventsThatStoreNothingLeaveEveryByte = true ∧ reach_LineDownAbandonsEveryContext = true ∧
    reach_RecordLogKeepsTheOldest = true ∧ reach_FragmentsCoverThePayload = true ∧
    reach_HeadersAndRulesAreReadAsWritten = true ∧ reach_KeyCommandsComplete = true ∧
    reach_KeyCheckReturnsThreeBytes = true ∧ reach_ExpansionMakesTheSlotReady = true ∧
    reach_KeystreamRunsOverTheFrame = true ∧ reach_RuleMatchesByItsFields = true ∧
    reach_FirstMatchingRuleDecides = true ∧ reach_DestinationDecidesTheOffers = true ∧
    reach_RuleCommandsComplete = true ∧ reach_WriteNodeMapReplacesTheRange = true ∧
    reach_ReadNodeMapReportsTheRange = true := by decide +kernel

/-! ### Witnesses: station ports, trunk ingress, the Command Unit, modes, logs and faults -/

/-- Port 1 in a configured mode in Run, its line Up, changed further. -/
def port1 (m : PortMode) (f : Port → Port) : State := (withPort (part .run true) 1 m).modPort 1 f

/-- Port 1 Active and transmitting, with a number of level 5 frames in its egress queue. -/
def busyPort (n : Nat) : State :=
  (List.range n).foldl (fun s _ =>
    let r := stored s (frameFrom .trunk .data) [1]
    r.2.joinEgress 1 r.1 true) (sendingPort .active [65])

def reach_PortStateIsTheFirstOfTheTable : Bool :=
  let listens := port1 .listen fun v => { v with cfg := { v.cfg with sourceCheck := false } }
  let queued := fun m => port1 m fun v => { v with queue := [0] }
  (withPort (part .setup true) 1 .active).portState 1 == .offline && (port1 .offline id).portState 1 == .offline &&
    (port1 .active fun v => { v with latch := true, lineUp := false }).portState 1 == .isolated &&
    (port1 .active fun v => { v with lineUp := false }).portState 1 == .down &&
    (port1 .listen id).portState 1 == .listen && (port1 .active id).portState 1 == .active &&
    (port1 .loopback fun v => { v with lineUp := false }).portState 1 == .loopback &&
    [PortMode.active, .loopback].all (fun m => ((queued m).portState 1).transmits &&
      ((queued m).port 1).queue == [0] && ((queued m).port 1).tx.isNone) &&
    listens.portState 1 == .listen && !(listens.port 1).cfg.sourceCheck && (listens.entryAt 0).ptype != .command

def reach_PortCommandsComplete : Bool :=
  let s := part .run true
  let latched := (withPort s 3 .active).modPort 3 fun v =>
    { v with latch := true, rxActive := true, cfg := { v.cfg with autoRecover := false } }
  let quiet := latched.modPort 3 fun v => { v with rxActive := false }
  tried s .readPort [4] (fun c _ => c.arg 0 == 4) && tried s .readPort [3] (fun c _ => c.arg 0 == 3) &&
    tried s .writePortConfig [4, 0, 2, 0] (fun c _ => c.arg 0 == 4) &&
    tried s .writePortConfig [3, 0, 1, 0] (fun c _ => c.arg 2 == 1) &&
    tried s .writePortConfig [3, 0, 32, 0] (fun c _ => c.arg 2 == 32) &&
    tried s .writePortConfig [3, 16, 2, 0] (fun c _ => c.arg 1 == 16) &&
    tried s .writePortConfig [3, 15, 31, 255] (fun c _ => c.arg 2 == 31 && c.arg 1 == 15) &&
    tried quiet .writePortConfig [3, 15, 2, 0] (fun c t => (t.port 3).latch && !(t.port 3).cfg.autoRecover &&
      !(t.port 3).rxActive && c.argBit 1 3) &&
    tried s .setPortMode [4, 0] (fun c _ => c.arg 0 == 4) && tried s .setPortMode [3, 4] (fun c _ => c.arg 1 == 4) &&
    tried latched .setPortMode [3, 2] (fun _ t => (t.port 3).latch && (t.port 3).rxActive) &&
    tried latched .setPortMode [3, 0] (fun _ t => (t.port 3).latch && (t.port 3).rxActive) &&
    tried s .setPortMode [3, 3] (fun _ t => !(t.port 3).latch) && ((busyPort 2).port 1).queue == [1, 2] &&
    ([1, 2].all fun e => ((busyPort 2).entryAt e).level == 5) && ((part .run true).port 3).queue.isEmpty

def reach_EgressQueueOrdersByLevel : Bool :=
  let full := busyPort 32
  let low := full.modEntry 0 fun f => { f with level := 4 }
  let sorted := (([2, 1, 0].map fun e => (low.entryAt e).level) == [5, 5, 4])
  !((part .run true).portState 1).transmits && (full.portState 1).transmits && (full.port 1).queue.length == 32 &&
    ((busyPort 31).port 1).queue.length == 31 && (full.port 1).queue.getLast? == some 32 &&
    decide ((low.entryAt 0).level < (low.entryAt 32).level) && decide ((full.entryAt 32).level ≤ (full.entryAt 0).level) &&
    sorted && ([0, 1, 2].map fun e => (low.entryAt e).level) == [4, 5, 5] &&
    (port1 .active fun v => { v with queue := [0] }).startTx 1 != port1 .active fun v => { v with queue := [0] }

def reach_ReceiveBeginsAndAsksForStorage : Bool :=
  let header := port1 .active fun v => { v with rx := .header, rxActive := true }
  let entry := fun (h : StationHeader) => stationEntry 1 h
  !((port1 .active id).port 1).rxActive && ((port1 .active id).portState 1).receives &&
    !((port1 .loopback id).portState 1).receives && ((port1 .active fun v => { v with latch := true }).port 1).lineUp &&
    (header.port 1).rx == .header && [0, 497].all (fun n => n == 0 || decide (496 < n)) &&
    (header.allocTraffic (entry { shortHeader with len := 496 })).1.isSome &&
    (header.allocTraffic (entry { shortHeader with len := 1 })).1.isSome &&
    ((withFree header 12 1000).allocTraffic (entry { shortHeader with len := 496 })).1.isNone

def reach_FrameEndIsCheckedAndHandled : Bool :=
  let line := fun (rx : Receive) => port1 .active fun v => { v with rx := rx, rxActive := true }
  let handled := fun (m : PortMode) (src : Bool) (d : Disposition) (t : PayloadType) =>
    let s := (stored (withPort (part .run true) 1 m) { frameFrom (.port 1) t with src := 40 } [1]).2
    { s.modPort 1 fun v => { v with cfg := { v.cfg with sourceCheck := src, commandsAllowed := src } } with
      nodeMap := s.nodeMap.set 40 d }
  [Receive.idle, .header, .unstored, .storing 0 shortHeader].all (fun rx =>
      ((line rx).port 1).rxActive && (line rx).ctl.mode == .run) &&
    receiving.ctl.mode == .run && (receiving.port 1).rxActive && (receiving.port 1).rx == .storing 0 shortHeader &&
    shortBody.length == 4 && num2 shortBody 2 == (crc16 ([30, 20, 0, 0] ++ bytes2 2 ++ shortBody.take 2)).toNat &&
    stationFrameGood shortHeader shortBody && !stationFrameGood shortHeader [65, 66, 0, 0] &&
    !stationFrameGood shortHeader (shortBody ++ [0]) && (List.replicate 498 (0 : Byte)).length ≤ 498 &&
    decide (498 < (List.replicate 499 (0 : Byte)).length) &&
    !(handled .active true .trunk .data).sourcePasses 1 ((handled .active true .trunk .data).entryAt 0) &&
    (handled .active true (.port 1) .command).sourcePasses 1 ((handled .active true (.port 1) .command).entryAt 0) &&
    ((handled .active true (.port 1) .command).entryAt 0).dst == (part .run true).self &&
    !((handled .active false (.port 1) .command).port 1).cfg.commandsAllowed &&
    (handled .active false .trunk .data).portState 1 == .active &&
    ((handled .active false .trunk .data).entryAt 0).ptype == .data &&
    !((handled .active false .trunk .data).classify 1 0).1 &&
    (((handled .active false .trunk .data).modPort 1 fun v =>
      { v with cfg := { v.cfg with defaultAction := .pass } }).classify 1 0).1 &&
    (handled .listen false .trunk .data).portState 1 == .listen

def reach_JabberIsolatesAndTimesPass : Bool :=
  let late := fun (s : State) (t : Nat) => { s with now := BitVec.ofNat 32 t }
  let latched := fun (a : Bool) => port1 .active fun v =>
    { v with latch := true, recoveryStart := some 0, cfg := { v.cfg with autoRecover := a } }
  let waits := fun (b : Bool) => port1 .listen fun v =>
    { v with silenceStart := some 0, silent := b, cfg := { v.cfg with silenceTime := 1 } }
  (receiving.port 1).rx == .storing 0 shortHeader && (late receiving 2001).jabberDue 1 &&
    receiving.portState 1 == .active && (late (latched true) 100000).recoveryDue 1 &&
    (late (latched false) 100000).recoveryDue 1 && (late (waits false) 10000).silenceDue 1 &&
    (late (waits true) 10000).silenceDue 1

def reach_PortLineAndTransmitEventsComplete : Bool :=
  let down := fun (m : PortMode) => port1 m fun v => { v with lineUp := false }
  let loop := sendingPort .loopback [65, 66]
  ((port1 .active id).port 1).lineUp && (port1 .listen id).portState 1 == .listen &&
    (down .active).portState 1 == .down && (down .listen).portState 1 == .down &&
    ((sendingPort .active [65]).port 1).tx == some { entry := 0, loop := false } &&
    (loop.port 1).tx == some { entry := 0, loop := true } &&
    (((withFree loop 12 1000).corrupt []).allocTraffic ((loop.entryAt 0).loopbackCopy 1)).1.isNone &&
    ((loop.corrupt [0]).allocTraffic ((loop.entryAt 0).loopbackCopy 1)).1.isSome &&
    (loop.corrupt [0]).firstFailing (loop.entryAt 0).cells == some 0 &&
    (loop.firstFailing (loop.entryAt 0).cells).isNone

def reach_FragmentsAreCheckedAndReassembled : Bool :=
  let good := fragmentBytes exampleHeader [5, 1, 44, 5]
  let long := fragmentBytes { exampleHeader with len := 5 } [5, 1, 44, 5]
  let other := fragmentBytes { exampleHeader with dst := 7 } [5, 1, 44, 5]
  let s := part .run true
  let secret : FragmentHeader := { exampleHeader with cipher := true, slot := 1, sequence := 9 }
  let key : Option (Slot × Word) := some (1, 9)
  let ready := s.setSlot 1 (.ready 5)
  let joined : Collect :=
    { entry := 0, src := 9, dst := 1, ptype := .command, total := 4, expected := 1, received := 1, key := key }
  s.trunk.lineUp && s.ctl.mode == .run && (part .setup true).ctl.mode == .setup && !fragmentCrcGood (good.set 3 0) &&
    fragmentCrcGood good && !fragmentMalformed good (FragmentHeader.parse good) && fragmentCrcGood long &&
    fragmentMalformed long (FragmentHeader.parse long) && fragmentCrcGood other &&
    (FragmentHeader.parse other).dst == 7 && (part .setup true).disposition 7 != .self &&
    (part .setup true).disposition 1 == .self && decide (16 ≤ good.length) &&
    s.rxCtx 5 == .idle && (s.setRxCtx 5 .discarding).rxCtx 5 == .discarding && !s.acceptsFragment secret &&
    ready.acceptsFragment secret && !(ready.recordAccepted 1 5 9).acceptsFragment secret &&
    (s.allocTraffic (trunkEntry secret)).1.isSome && ((withFree s 12 1000).allocTraffic (trunkEntry secret)).1.isNone &&
    (collecting s 5 1 1 4 key).rxCtx 5 == .collecting joined &&
    joined.belongs { secret with index := 1, len := 2 } false && joined.belongs { secret with index := 1, len := 3 } true &&
    !joined.belongs { secret with index := 2, len := 2 } false && !joined.belongs { secret with index := 1, len := 2 } true

def reach_CompleteFrameIsDispatched : Bool :=
  let s := fun (m : Mode) (d : Disposition) (t : PayloadType) =>
    let r := (stored (withPort (part m true) 1 .active) (frameFrom .trunk t) [1]).2
    { r with nodeMap := r.nodeMap.set 1 d }
  let found := fun (d : Disposition) (t : PayloadType) =>
    (s .run d t).disposition ((s .run d t).entryAt 0).dst == d && ((s .run d t).entryAt 0).ptype == t &&
      !(s .run d t).barred 5
  (s .fallback .self .command).barred 5 && found .self .command && found .self .data && found (.port 1) .data &&
    found .broadcast .data && (s .run .broadcast .data).portState 1 == .active &&
    (allPorts.all fun p => (part .run true).portState p != .active) && found .trunk .data && found .unassigned .data &&
    decide ((0 : Slot) ≠ 1)

def reach_CommandsAreTakenAndChecked : Bool :=
  let s := given (part .run true) [19, 0, 1, 0, 1, 1]
  let asks := fun (s : State) => s.nextCommand.any fun x => (x.2.allocReserve 3 (x.2.responseEntry 9)).1.isSome
  let seen := fun (s : State) (p : CommandFrame → State → Bool) => s.nextCommand.any fun x => p x.1 x.2
  s.cmd.inHand.isNone && s.cmd.fifo == [0] && s.canTake && (part .run true).cmd.fifo.isEmpty &&
    !({ s with cmd := { s.cmd with longOps := List.replicate 4 waitingRecord } } : State).canTake &&
    !({ s with cmd := { s.cmd with waiting := [waitingRecord] } } : State).canTake &&
    asks s && seen s (fun c t => c.code.toNat == 19 && !Command.writeSupervision.takenIn t.ctl.mode) &&
    seen (withFree s 0 9) (fun _ t => (t.allocReserve 3 (t.responseEntry 9)).1.isNone) &&
    seen (given (part .run true) [20, 0, 1, 0, 64]) (fun _ t => !Command.setTrunkConfig.takenIn t.ctl.mode) &&
    seen (given (part .run true) [5, 0, 1, 5] (.port 2)) (fun c t => !t.mayGive .readLevel c.args c.sender) &&
    seen (given (part .run true) [21, 0, 1] (.port 2)) (fun c t => !t.mayGive .resetPart c.args c.sender) &&
    seen (given (part .run true) [5, 0, 1]) fun c t =>
      !Command.readLevel.argsFit c.args && t.mayGive .readLevel c.args c.sender &&
        Region.logs.code.val == (6 : Byte).toNat && decide (6 < (7 : Byte).toNat ∧ 27 < 28)

def reach_FifoAndOtherStepsOfTheUnit : Bool :=
  let full : State := { part .run true with cmd := { CommandUnit.blank with fifo := List.range 4 } }
  let three : State := { part .run true with cmd := { CommandUnit.blank with fifo := List.range 3 } }
  let s := given (part .run true) [28, 0, 1]
  let held : State := { given (part .run true) [5, 0, 1, 5] with
    cmd := { CommandUnit.blank with inHand := some 0, freed := 1 } }
  decide (4 ≤ full.cmd.fifo.length) && decide (three.cmd.fifo.length < 4) &&
    ((given (part .run true) [5, 0]).takeNext.any fun x => (x.2.payload x.1).length == 2) &&
    (s.nextCommand.any fun x => x.1.code.toNat == 28 && (x.2.allocReserve 3 (x.2.responseEntry 9)).1.isSome &&
      ((withFree x.2 0 9).allocReserve 3 (x.2.responseEntry 9)).1.isNone) &&
    decide (0 < waitingPart.cmd.freed) && waitingPart.cmd.waiting == [waitingRecord] &&
    (waitingPart.allocReserve 1 (waitingPart.responseEntry 9)).1.isSome &&
    ((withFree waitingPart 0 9).allocReserve 1 (waitingPart.responseEntry 9)).1.isNone &&
    decide (0 < held.cmd.freed) && held.cmd.waiting.isEmpty && held.cmd.inHand == some 0 && (held.commandFrame 0).isSome

def reach_ModeCommandsComplete : Bool :=
  let timed := fun (now period : Nat) => { part .run true with
    ctl := { (part .run true).ctl with period := period, window := true, mark := some 0 }, now := BitVec.ofNat 32 now }
  let strapped : State := { part .setup true with ctl := { (part .setup true).ctl with straps := 255 } }
  let refreshed : State := { part .fallback true with ctl := { (part .fallback true).ctl with period := 1, refreshSeen := true } }
  let waits : State := { part .fallback true with ctl := { (part .fallback true).ctl with period := 1 } }
  let sets := fun (m : Mode) (a : Byte) => tried (part m true) .setMode [a] fun c t => t.ctl.mode == m && c.arg 0 == a.toNat
  sets .run 0 && sets .run 4 && [Mode.setup, .run, .fallback].all (fun m => sets m 1 && sets m 2 && sets m 3) &&
    tried (part .setup true) .setMode [2] (fun _ t => t.strapsUsable) &&
    ((stored strapped { frameFrom .trunk .command with dst := 254 } [17, 0, 1, 2]).2.offerFifo 0 |> fun s =>
      attemptHas s .setMode fun c t => !t.strapsUsable && c.arg 0 == 2) &&
    tried refreshed .setMode [2] (fun _ t => t.ctl.refreshSeen) &&
    tried waits .setMode [2] (fun _ t => !t.ctl.refreshSeen && t.ctl.period == 1) &&
    tried (part .setup true) .refresh [] (fun _ t => t.ctl.mode == .setup) &&
    tried (part .run true) .refresh [] (fun _ t => t.ctl.period == 0) &&
    tried (timed 499 1) .refresh [] (fun _ t => t.refreshEarly) &&
    tried (timed 500 1) .refresh [] (fun _ t => !t.refreshEarly && t.ctl.period == 1) &&
    tried (part .fallback true) .refresh [] (fun _ _ => true) &&
    tried (part .setup true) .writeSupervision [0, 1, 2] (fun c _ => c.arg 2 == 2) &&
    tried (part .fallback true) .writeSupervision [255, 255, 1] (fun c _ => c.arg2 0 == 65535) &&
    tried (part .setup true) .setTrunkConfig [0, 65] (fun c _ => c.arg2 0 == 65) &&
    [64, 128].all (fun b => tried (part .setup true) .setTrunkConfig [0, b] fun _ t => (t.lvl 31).ctx.isNone) &&
    tried (part .setup true) .setTrunkConfig [1, 0] (fun c _ => c.arg2 0 == 256) &&
    tried (withContext (part .setup true) 1 (context 0 0 none)) .setTrunkConfig [1, 0] (fun _ t => (t.lvl 1).ctx.isSome) &&
    tried (part .run true) .readStatus [] (fun _ _ => true) && (timed 1000 1).supervisionDue

def reach_ModeEntriesActOnEveryBlock : Bool :=
  let s := context31 .run false
  ((busyPort 2).portState 1).transmits && (receiving.portState 1).receives && !s.sending 31 &&
    (s.lvl 31).attrs.essential && !((queued31 .run id).lvl 31).attrs.essential && decide (2 ≤ (31 : Level).val) &&
    (part .fallback true).ctl.mode == .fallback && !((middle id).lvl 2).attrs.essential && !(middle id).sending 2 &&
    ((middle id).lvl 2).ctx.isSome && (flying (middle id) 2 .middle).sending 2 && ((queued31 .run id).lvl 31).ctx.isNone &&
    (receiving.port 1).rx == .storing 0 shortHeader && ((busyPort 2).port 1).rx == .idle &&
    ((busyPort 2).port 1).tx.isSome && (receiving.port 1).tx.isNone && receiving.portState 2 == .offline &&
    !((port1 .listen id).portState 1).transmits

def reach_LogCommandsComplete : Bool :=
  let s := part .run true
  tried s .readFaults [] (fun _ _ => true) && tried s .clearFaults [] (fun _ _ => true) &&
    tried s .writeNoticeConfig [255, 32, 0] (fun c _ => c.arg2 1 == 8192) &&
    tried s .writeNoticeConfig [0, 31, 255] (fun c _ => c.arg2 1 == 8191) &&
    tried s .clearCounters [7] (fun c _ => c.arg 0 == 7) && tried s .clearCounters [6] (fun c _ => c.arg 0 == 6) &&
    tried s .writeAccess [7, 0] (fun c _ => c.arg 0 == 7) && tried s .writeAccess [6, 3] (fun c _ => c.arg 1 == 3) &&
    tried s .writeAccess [6, 2] (fun c _ => c.arg 0 == 6 && c.arg 1 == 2) && s.fault.captured.isNone &&
    (s.raise .trunkDown).fault.captured.isSome

def reach_FaultIsTakenAndNoticed : Bool :=
  let s := { part .run true with fault := { FaultUnit.blank with noticeNode := 9 } }
  let noticed := s.raise .portJabber { port := some 1 }
  s.wantsNotice .trunkDown && (withFree s 0 9).wantsNotice .trunkDown && (withFree s 1 0).wantsNotice .trunkDown &&
    !noticed.wantsNotice .portJabber && noticed.wantsNotice .trunkDown && !(part .run true).wantsNotice .trunkDown &&
    s.fault.captured.isNone && noticed.fault.captured.isSome && (s.lvl 0).attrs == .builtIn 8 &&
    (s.lvl 0).flushPending.isNone && !s.store.freeEntries.isEmpty && !s.store.freeCells.isEmpty

theorem witnesses_units :
    reach_PortStateIsTheFirstOfTheTable = true ∧ reach_PortCommandsComplete = true ∧
    reach_EgressQueueOrdersByLevel = true ∧ reach_ReceiveBeginsAndAsksForStorage = true ∧
    reach_FrameEndIsCheckedAndHandled = true ∧ reach_JabberIsolatesAndTimesPass = true ∧
    reach_PortLineAndTransmitEventsComplete = true ∧ reach_FragmentsAreCheckedAndReassembled = true ∧
    reach_CompleteFrameIsDispatched = true ∧ reach_CommandsAreTakenAndChecked = true ∧
    reach_FifoAndOtherStepsOfTheUnit = true ∧ reach_ModeCommandsComplete = true ∧
    reach_ModeEntriesActOnEveryBlock = true ∧ reach_LogCommandsComplete = true ∧
    reach_FaultIsTakenAndNoticed = true := by decide +kernel

/-! ### Witnesses: the invariants -/

theorem conserved_part (m : Mode) (up : Bool) : (part m up).store.Conserved := by
  constructor <;> simp [part, State.reset, State.blank, Store.blank]

theorem conserved_stored {s : State} (f : FrameEntry) (bytes : List Byte) (h : s.store.Conserved) :
    (stored s f bytes).2.store.Conserved ∧ (s.store.mem.wf = true → (stored s f bytes).2.store.mem.wf = true) := by
  have ha : Moves (fun _ => True) s (s.allocTraffic { f with len := bytes.length }).2 := .allocTraffic s _
  have hm : Moves (fun _ => True) s (stored s f bytes).2 := by
    unfold stored
    split
    · next e t heq => rw [heq] at ha; exact ha.trans (.writePayload t e 0 bytes)
    · next t heq => rw [heq] at ha; exact ha
  exact ⟨hm.conserved h, hm.wf⟩

/-- A step that a test follows goes on. -/
theorem next_of_goesTo {r : Result} {p : State → Bool} (h : goesTo r p = true) : ∃ t, r = .next t ∧ p t = true := by
  cases r with
  | next t => exact ⟨t, rfl, h⟩
  | fault f => cases h
  | refused f => cases h

/-- The state that a command leads to. -/
def after (s : State) (i : Instr) : State :=
  match exec i s with
  | .next t => t
  | .fault _ => s
  | .refused _ => s

theorem counted_after {s : State} (h : s.store.Conserved ∧ s.AllHeld) (i : Instr) :
    (after s i).store.Conserved ∧ (after s i).AllHeld := by
  unfold after
  split
  · next t hx =>
    refine ⟨?_, h.2.of_exec hx⟩
    rcases exec_moves hx h.1 with hm | ⟨_, m, c, b, p, q, rfl⟩
    · exact hm.conserved h.1
    · constructor <;> simp [State.blank, Store.blank]
  · exact h
  · exact h

/-- A port made Active, with its line Up, that passes what it receives to level 7. -/
def opened (v : Port) : Port :=
  { v with
    cfg := { v.cfg with mode := .active, sourceCheck := false, defaultAction := .pass, defaultLevel := 7 }
    lineUp := true }

/-- A level made enabled. -/
def enabled (v : LevelEntry) : LevelEntry := { v with attrs := { v.attrs with enable := true } }

/-- Port 1 Active, level 7 enabled, and node 30 behind the trunk. -/
def routed (up : Bool) : State :=
  { ((part .run up).modPort 1 opened).modLvl 7 enabled with nodeMap := (part .run up).nodeMap.set 30 .trunk }

/-- A frame has come in on port 1: it waits on level 7 when the trunk line is Down, else it is sent. -/
def arrived (up : Bool) : State :=
  after (after (after (routed up) (.receiveLineActive 1)) (.headerReceived 1 shortHeader)) (.receiveLineSilent 1 shortBody [])

theorem counted_arrived (up : Bool) : (arrived up).store.Conserved ∧ (arrived up).AllHeld := by
  have h0 : (part .run up).AllHeld := State.allHeld_blank .setup .powerOn 1 Pins.atReset []
  have h1 : (((part .run up).modPort 1 opened).modLvl 7 enabled).AllHeld :=
    State.Holds.modLvl_same (State.Holds.modPort_same h0 1 opened rfl rfl rfl) 7 enabled rfl
  have h2 : (routed up).store.Conserved ∧ (routed up).AllHeld := ⟨conserved_part .run up, h1⟩
  exact counted_after (counted_after (counted_after h2 (.receiveLineActive 1)) (.headerReceived 1 shortHeader))
    (.receiveLineSilent 1 shortBody [])

theorem holdersCounted {s : State} (h : s.store.Conserved ∧ s.AllHeld) : s.store.Conserved ∧ s.HoldersCounted :=
  ⟨h.1, (State.allHeld_iff (h.1.entries.nodup_iff.mpr List.nodup_range)).mp h.2⟩

/-- The part in Run 1000 µs after its mark, with Period 1, and slot 0 at the end of its 40 µs. -/
def atDeadlines : State :=
  { part .run true with
    ctl := { (part .run true).ctl with period := 1, mark := some 0 }
    now := 1000
    cipher := { Cipher.blank with slots := Vector.replicate 2 (.expanding 6 960) } }

theorem witness_DeadlinesAreNeverPassedBy :
    atDeadlines.store.Conserved ∧ atDeadlines.ExpansionsInTime ∧ atDeadlines.SupervisionInTime ∧
      ∃ t, step atDeadlines = .next t := by
  have hs : ∀ k, atDeadlines.slot k = .expanding 6 960 := by decide
  refine ⟨conserved_part .run true, fun k key since h => ?_, fun _ _ m h => ?_, ?_⟩
  · rw [hs] at h
    cases h
    decide
  · cases h
    decide
  · have hp : atDeadlines.ownStep = some (.expansionCompletes 0) := by decide +kernel
    exact ⟨_, by simp only [step, show atDeadlines.pending = [] from rfl, hp]; rfl⟩

theorem witness_SettingsStayLawful : atDeadlines.Lawful := by
  have levels : ∀ l : Level, (atDeadlines.lvl l).attrs = .traffic ∨ (atDeadlines.lvl l).attrs = .builtIn 8 ∨
      (atDeadlines.lvl l).attrs = .builtIn 4 := by decide +kernel
  have rules : ∀ i : RuleNo, atDeadlines.rule i = .blank := by decide +kernel
  have ports : ∀ p : PortNo, (atDeadlines.port p).cfg = .blank ∧ (atDeadlines.port p).queue = [] := by decide +kernel
  refine ⟨rfl, rfl, fun l => ?_, .inr (.inl rfl), by decide, fun i => ?_, ⟨rfl, rfl, rfl, by decide +kernel⟩,
    fun p => ?_, by decide, by decide⟩
  · rcases levels l with h | h | h <;> rw [h] <;> exact ⟨by decide, by decide, by decide⟩
  · rw [rules i]
    exact ⟨by decide, by decide, by decide, by decide⟩
  · obtain ⟨h, hq⟩ := ports p
    exact ⟨by rw [h]; decide, by rw [h]; decide, by rw [hq]; decide⟩

theorem step_lineDown {s : State} {q : List Instr} (h : s.pending = .trunkLineDown :: q) : ∃ t, step s = .next t := by
  simp only [step, h, exec, execTrunkLineDown]
  split
  · exact ⟨_, rfl⟩
  · exact ⟨_, rfl⟩

/-- A frame is stored, its entries and cells are conserved, and the line goes Down. -/
theorem witness_EntriesAndCellsAreConserved :
    ∃ s t : State, s.store.Conserved ∧ s.store.mem.wf = true ∧ s.store.entries ≠ [] ∧ s.pending = [.trunkLineDown] ∧
      step s = .next t := by
  have h := conserved_stored (frameFrom .trunk .data) [65] (conserved_part .run true)
  have hn : (stored (part .run true) (frameFrom .trunk .data) [65]).2.store.entries ≠ [] := fun h =>
    absurd (congrArg List.length h) (by decide +kernel)
  generalize stored (part .run true) (frameFrom .trunk .data) [65] = x at h hn
  obtain ⟨t, ht⟩ := step_lineDown (s := { x.2 with pending := [.trunkLineDown] }) rfl
  exact ⟨{ x.2 with pending := [.trunkLineDown] }, t, h.1, h.2 rfl, hn, rfl, ht⟩

theorem witness_ContentsStayCanonical : ∃ s t : State, s.store.Conserved ∧ s.store.mem.wf = true ∧ step s = .next t :=
  let ⟨s, t, h, hw, _, _, hs⟩ := witness_EntriesAndCellsAreConserved
  ⟨s, t, h, hw, hs⟩

/-- A frame waits on level 7, held once and counted, and the line goes Down. -/
theorem witness_HoldersAreCounted :
    ∃ s t : State, s.store.Conserved ∧ s.HoldersCounted ∧ (s.lvl 7).queue = [0] ∧ 0 ∉ s.soleHeld ∧ step s = .next t := by
  have h := counted_arrived false
  have hq : ((arrived false).lvl 7).queue = [0] ∧ 0 ∉ (arrived false).soleHeld := by decide +kernel
  generalize arrived false = s at h hq
  obtain ⟨t, ht⟩ := step_lineDown (s := { s with pending := [.trunkLineDown] }) rfl
  obtain ⟨hc, hh⟩ := holdersCounted (s := { s with pending := [.trunkLineDown] }) h
  exact ⟨_, t, hc, hh, hq.1, hq.2, ht⟩

/-- A frame is on level 7's context and fails to form: its first fragment, or a later one. No flush waits. -/
theorem witness_FormingFails :
    ∃ s : State, s.store.Conserved ∧ s.HoldersCounted ∧ s.trunk.inFlight = none ∧
      (∃ c, (s.lvl 7).ctx = some c ∧ c.next = 0) ∧ (s.lvl 7).flushPending = none ∧
      ∃ t : State, t.store.Conserved ∧ t.HoldersCounted ∧ t.trunk.inFlight = none ∧
        ∃ c, (t.lvl 7).ctx = some c ∧ c.next = 1 := by
  have h := counted_arrived true
  have hc : ((arrived true).lvl 7).ctx = some (context 0 0 none) ∧ ((arrived true).lvl 7).flushPending = none := by
    decide +kernel
  generalize arrived true = s at h hc
  obtain ⟨u, hu⟩ : ∃ u, u = s.modLvl 7 fun v => { v with ctx := some (context 0 1 none) } := ⟨_, rfl⟩
  have hs : u.store.Conserved ∧ u.AllHeld := by
    subst hu
    exact ⟨h.1, h.2.modLvl_same 7 _ (by unfold LevelEntry.held; rw [hc.1]; rfl)⟩
  have hx : (u.lvl 7).ctx = some (context 0 1 none) := by rw [hu, State.lvl_modLvl_same]
  have h0 := holdersCounted (s := { s with trunk := { s.trunk with inFlight := none } }) h
  have h1 := holdersCounted (s := { u with trunk := { u.trunk with inFlight := none } }) hs
  exact ⟨_, h0.1, h0.2, rfl, ⟨_, hc.1, rfl⟩, hc.2, _, h1.1, h1.2, rfl, _, hx, rfl⟩

/-- The first entry in hand, and a freeing made since. -/
def handed (s : State) : State := { s with cmd := { CommandUnit.blank with inHand := some 0, freed := 1 } }

theorem handed_conserved {s : State} (h : s.store.Conserved) : (handed s).store.Conserved := h

/-- A ReadLevel in hand, whose turn a freeing has brought. -/
def retrying : State := handed (stored (part .run true) (frameFrom .trunk .command) [5, 0, 1, 5]).2

theorem retrying_conserved : retrying.store.Conserved :=
  handed_conserved (conserved_stored (frameFrom .trunk .command) [5, 0, 1, 5] (conserved_part .run true)).1

theorem retrying_retried : retrying.retried = some .readLevel ∧
    goesTo (exec .waitingResponseBuild retrying) (fun _ => true) = true := by decide +kernel

/-- A retry that comes to a ReadLevel runs no other command. -/
theorem retrying_runs {k : Command} (h : retrying.runs .waitingResponseBuild k) : k = .readLevel := by
  rcases h with h | ⟨_, h⟩
  · cases k <;> cases h
  · rw [retrying_retried.1] at h
    exact (Option.some.inj h).symm

/-- The line goes Down, and a retry comes to a ReadLevel: rows that no premise of the statement leaves out. -/
theorem witness_TransmitSequencesNeverGoBack :
    (∃ s t : State, s.store.Conserved ∧ exec .trunkLineDown s = .next t ∧ ¬ s.runs .trunkLineDown .eraseKey) ∧
    ∃ s t : State, s.store.Conserved ∧ exec .waitingResponseBuild s = .next t ∧
      ¬ s.runs .waitingResponseBuild .eraseKey := by
  obtain ⟨t, ht, _⟩ := next_of_goesTo retrying_retried.2
  refine ⟨⟨part .run true, _, conserved_part .run true, rfl, ?_⟩, retrying, t,
    retrying_conserved, ht, fun h => ?_⟩
  · rintro (h | ⟨h, _⟩) <;> cases h
  · cases retrying_runs h

/-- A retry that comes to a ReadLevel changes no setting. -/
theorem witness_SettingsChangeByTheirOwnCommandsAlone :
    ∃ s t : State, s.store.Conserved ∧ exec .waitingResponseBuild s = .next t ∧
      ∀ k : Command, k ≠ .readLevel → ¬ s.runs .waitingResponseBuild k := by
  obtain ⟨t, ht, _⟩ := next_of_goesTo retrying_retried.2
  exact ⟨retrying, t, retrying_conserved, ht, fun k hk h => hk (retrying_runs h)⟩

/-- Three bytes in a frame of 3 cells. -/
theorem witness_PayloadIsReadAsWritten :
    ∃ (s : State) (f : FrameEntry), s.store.Conserved ∧ s.store.mem.wf = true ∧ s.entry? 0 = some f ∧
      0 + ([65, 66, 67] : List Byte).length + 16 ≤ f.cells.length * 64 ∧ f.cells[0]? = some 0 ∧ f.cells[2]? = some 2 := by
  have h := conserved_stored (frameFrom .trunk .data) (List.replicate 176 1) (conserved_part .run true)
  exact ⟨_, { frameFrom .trunk .data with len := 176, cells := [0, 1, 2] }, h.1, h.2 rfl, by decide +kernel,
    by decide, rfl, rfl⟩

/-- A frame of 176 bytes in the 3 cells of a response; level 1 and a port that take it. -/
theorem witness_ResponseIsBuiltAndRouted :
    (∃ (t : State) (f : FrameEntry) (payload : List Byte), t.store.Conserved ∧ t.store.mem.wf = true ∧
      t.entry? 0 = some f ∧ f.cells.length = 3 ∧ payload.length = 176) ∧
    (((part .run true).lvl 1).attrs = .builtIn 4 ∧ ((part .run true).lvl 1).flushPending = none ∧
      ((part .run true).lvl 1).queue.length < 4) ∧
    (withPort (part .run true) 1 .active).portState 1 = .active ∧ (part .run true).portState 1 ≠ .active := by
  have h := conserved_stored (frameFrom .trunk .response) (List.replicate 176 1) (conserved_part .run true)
  exact ⟨⟨_, { frameFrom .trunk .response with len := 176, cells := [0, 1, 2] }, List.replicate 176 1, h.1, h.2 rfl,
    by decide +kernel, rfl, by decide⟩, ⟨rfl, rfl, by decide⟩, by decide, by decide⟩

/-! ### Witnesses, one by one -/

theorem witness_StepRunsFrontCommand : reach_StepRunsFrontCommand = true := witnesses_levels.1

theorem witness_EmptyQueueRunsOwnStepOrTicks : reach_EmptyQueueRunsOwnStepOrTicks = true := witnesses_levels.2.1

theorem witness_EveryCommandGoesOn : reach_EveryCommandGoesOn = true := witnesses_levels.2.2.1

theorem witness_EveryBlockTakesItsResetValues : reach_EveryBlockTakesItsResetValues = true := witnesses_levels.2.2.2.1

theorem witness_ResetsStartInitAndInitEndsInSetup : reach_ResetsStartInitAndInitEndsInSetup = true := witnesses_levels.2.2.2.2.1

theorem witness_InitTakesNothingFromOutside : reach_InitTakesNothingFromOutside = true := witnesses_levels.2.2.2.2.2.1

theorem witness_LevelStateIsTheFirstOfTheTable : reach_LevelStateIsTheFirstOfTheTable = true := witnesses_levels.2.2.2.2.2.2.1

theorem witness_WinnerIsTheLowestLevelWithWork : reach_WinnerIsTheLowestLevelWithWork = true := witnesses_levels.2.2.2.2.2.2.2.1

theorem witness_AuctionSendsWhatTheWinnerHas : reach_AuctionSendsWhatTheWinnerHas = true := witnesses_levels.2.2.2.2.2.2.2.2.1

theorem witness_NewFrameTakesTheNextSequence : reach_NewFrameTakesTheNextSequence = true := witnesses_levels.2.2.2.2.2.2.2.2.2.1

theorem witness_AbandonClearsTheContext : reach_AbandonClearsTheContext = true := witnesses_levels.2.2.2.2.2.2.2.2.2.2.1

theorem witness_BoundaryDecidesByTheFirstStep : reach_BoundaryDecidesByTheFirstStep = true := witnesses_levels.2.2.2.2.2.2.2.2.2.2.2.1

theorem witness_FrameCompletionCountsAndReleases : reach_FrameCompletionCountsAndReleases = true := witnesses_levels.2.2.2.2.2.2.2.2.2.2.2.2.1

theorem witness_TrainContinuesOrEnds : reach_TrainContinuesOrEnds = true := witnesses_levels.2.2.2.2.2.2.2.2.2.2.2.2.2.1

theorem witness_FragmentCompletionCountsAndDecides : reach_FragmentCompletionCountsAndDecides = true := witnesses_levels.2.2.2.2.2.2.2.2.2.2.2.2.2.2.1

theorem witness_DeadlineAndLineUpHoldAnAuction : reach_DeadlineAndLineUpHoldAnAuction = true := witnesses_levels.2.2.2.2.2.2.2.2.2.2.2.2.2.2.2.1

theorem witness_NoticeWaitsForOneFragmentAtMost : reach_NoticeWaitsForOneFragmentAtMost = true := witnesses_levels.2.2.2.2.2.2.2.2.2.2.2.2.2.2.2.2

theorem witness_LevelCommandsComplete : reach_LevelCommandsComplete = true := witnesses_tables.1

theorem witness_QueueAdmitsByFourTests : reach_QueueAdmitsByFourTests = true := witnesses_tables.2.1

theorem witness_AllocationTakesAndReleaseGivesBack : reach_AllocationTakesAndReleaseGivesBack = true := witnesses_tables.2.2.1

theorem witness_FailingCellLosesTheFrame : reach_FailingCellLosesTheFrame = true := witnesses_tables.2.2.2.1

theorem witness_EventsThatStoreNothingLeaveEveryByte : reach_EventsThatStoreNothingLeaveEveryByte = true := witnesses_tables.2.2.2.2.1

theorem witness_LineDownAbandonsEveryContext : reach_LineDownAbandonsEveryContext = true := witnesses_tables.2.2.2.2.2.1

theorem witness_RecordLogKeepsTheOldest : reach_RecordLogKeepsTheOldest = true := witnesses_tables.2.2.2.2.2.2.1

theorem witness_FragmentsCoverThePayload : reach_FragmentsCoverThePayload = true := witnesses_tables.2.2.2.2.2.2.2.1

theorem witness_HeadersAndRulesAreReadAsWritten : reach_HeadersAndRulesAreReadAsWritten = true := witnesses_tables.2.2.2.2.2.2.2.2.1

theorem witness_KeyCommandsComplete : reach_KeyCommandsComplete = true := witnesses_tables.2.2.2.2.2.2.2.2.2.1

theorem witness_KeyCheckReturnsThreeBytes : reach_KeyCheckReturnsThreeBytes = true := witnesses_tables.2.2.2.2.2.2.2.2.2.2.1

theorem witness_ExpansionMakesTheSlotReady : reach_ExpansionMakesTheSlotReady = true := witnesses_tables.2.2.2.2.2.2.2.2.2.2.2.1

theorem witness_KeystreamRunsOverTheFrame : reach_KeystreamRunsOverTheFrame = true := witnesses_tables.2.2.2.2.2.2.2.2.2.2.2.2.1

theorem witness_RuleMatchesByItsFields : reach_RuleMatchesByItsFields = true := witnesses_tables.2.2.2.2.2.2.2.2.2.2.2.2.2.1

theorem witness_FirstMatchingRuleDecides : reach_FirstMatchingRuleDecides = true := witnesses_tables.2.2.2.2.2.2.2.2.2.2.2.2.2.2.1

theorem witness_DestinationDecidesTheOffers : reach_DestinationDecidesTheOffers = true := witnesses_tables.2.2.2.2.2.2.2.2.2.2.2.2.2.2.2.1

theorem witness_RuleCommandsComplete : reach_RuleCommandsComplete = true := witnesses_tables.2.2.2.2.2.2.2.2.2.2.2.2.2.2.2.2.1

theorem witness_WriteNodeMapReplacesTheRange : reach_WriteNodeMapReplacesTheRange = true := witnesses_tables.2.2.2.2.2.2.2.2.2.2.2.2.2.2.2.2.2.1

theorem witness_ReadNodeMapReportsTheRange : reach_ReadNodeMapReportsTheRange = true := witnesses_tables.2.2.2.2.2.2.2.2.2.2.2.2.2.2.2.2.2.2

theorem witness_PortStateIsTheFirstOfTheTable : reach_PortStateIsTheFirstOfTheTable = true := witnesses_units.1

theorem witness_PortCommandsComplete : reach_PortCommandsComplete = true := witnesses_units.2.1

theorem witness_EgressQueueOrdersByLevel : reach_EgressQueueOrdersByLevel = true := witnesses_units.2.2.1

theorem witness_ReceiveBeginsAndAsksForStorage : reach_ReceiveBeginsAndAsksForStorage = true := witnesses_units.2.2.2.1

theorem witness_FrameEndIsCheckedAndHandled : reach_FrameEndIsCheckedAndHandled = true := witnesses_units.2.2.2.2.1

theorem witness_JabberIsolatesAndTimesPass : reach_JabberIsolatesAndTimesPass = true := witnesses_units.2.2.2.2.2.1

theorem witness_PortLineAndTransmitEventsComplete : reach_PortLineAndTransmitEventsComplete = true := witnesses_units.2.2.2.2.2.2.1

theorem witness_FragmentsAreCheckedAndReassembled : reach_FragmentsAreCheckedAndReassembled = true := witnesses_units.2.2.2.2.2.2.2.1

theorem witness_CompleteFrameIsDispatched : reach_CompleteFrameIsDispatched = true := witnesses_units.2.2.2.2.2.2.2.2.1

theorem witness_CommandsAreTakenAndChecked : reach_CommandsAreTakenAndChecked = true := witnesses_units.2.2.2.2.2.2.2.2.2.1

theorem witness_FifoAndOtherStepsOfTheUnit : reach_FifoAndOtherStepsOfTheUnit = true := witnesses_units.2.2.2.2.2.2.2.2.2.2.1

theorem witness_ModeCommandsComplete : reach_ModeCommandsComplete = true := witnesses_units.2.2.2.2.2.2.2.2.2.2.2.1

theorem witness_ModeEntriesActOnEveryBlock : reach_ModeEntriesActOnEveryBlock = true := witnesses_units.2.2.2.2.2.2.2.2.2.2.2.2.1

theorem witness_LogCommandsComplete : reach_LogCommandsComplete = true := witnesses_units.2.2.2.2.2.2.2.2.2.2.2.2.2.1

theorem witness_FaultIsTakenAndNoticed : reach_FaultIsTakenAndNoticed = true := witnesses_units.2.2.2.2.2.2.2.2.2.2.2.2.2.2

end Sys2Proof.Tests
end

/-! PROOFS. The state of a level (R6): what each condition of the table says of the level's entry, the table as one
chain of conditions, and the key of a context's next fragment. -/

namespace Sys2Proof.Machine

open Sys2Proof

variable (s : State) (l : Level)

/-! ### The conditions of the table -/

theorem State.sending_iff : s.sending l = true ↔ ∃ f, s.trunk.inFlight = some f ∧ f.level = l := by
  unfold State.sending
  cases s.trunk.inFlight <;> simp

theorem State.barred_iff :
    s.barred l = true ↔ s.ctl.mode = .fallback ∧ (s.lvl l).attrs.essential = false := by
  simp [State.barred]

theorem State.slotReady_iff (k : Slot) : s.slotReady k = true ↔ ∃ key, s.slot k = .ready key := by
  unfold State.slotReady
  cases s.slot k <;> simp

theorem State.noKey_iff :
    s.noKey l = true ↔
      (∀ key, s.slot s.cipher.active ≠ .ready key) ∨ s.txSequence s.cipher.active l = .exhausted := by
  have hslot : s.slotReady s.cipher.active = false ↔ ∀ key, s.slot s.cipher.active ≠ .ready key := by
    rw [← Bool.not_eq_true, s.slotReady_iff, not_exists]
  simp [State.noKey, State.txSequence, hslot]

/-- R6, order 5. -/
theorem State.keyless_iff :
    s.keyless l = true ↔ (s.lvl l).attrs.enable = true ∧ (s.lvl l).queue ≠ [] ∧ (s.lvl l).attrs.cipher = true ∧
      ((∀ key, s.slot s.cipher.active ≠ .ready key) ∨ s.txSequence s.cipher.active l = .exhausted) := by
  rw [← s.noKey_iff l]
  simp [State.keyless, and_assoc]

/-- R6, order 3, with conditions (a), (b) and (c) in this order. -/
theorem State.eligible_iff :
    s.eligible l = true ↔ (s.lvl l).abortOwed ≠ none ∨
      ((s.lvl l).ctx ≠ none ∧ (s.lvl l).attrs.enable = true) ∨
      ((s.lvl l).queue ≠ [] ∧ (s.lvl l).attrs.enable = true ∧ (s.lvl l).deadline = none ∧
        ¬ s.keyless l = true) := by
  simp [State.eligible, Option.isSome_iff_ne_none, or_assoc, and_assoc]

/-! ### The table -/

/-- R6: the table, in its order. -/
theorem State.levelState_table :
    s.levelState l =
      if s.sending l = true then .sending
      else if s.barred l = true then .barred
      else if s.eligible l = true then .eligible
      else if (s.lvl l).attrs.enable = true ∧ (s.lvl l).queue ≠ [] ∧ (s.lvl l).deadline ≠ none then .spacing
      else if s.keyless l = true then .keyless
      else if (s.lvl l).attrs.enable = false ∧ ((s.lvl l).queue ≠ [] ∨ (s.lvl l).ctx ≠ none) then .held
      else if (s.lvl l).attrs.enable = true then .ready
      else .off := by
  simp [State.levelState, Option.isSome_iff_ne_none, and_assoc]

/-! ### The key of a context's next fragment -/

theorem fragmentHeader_slot_of_key {c : Context} {k : Slot} {w : Word} (h : c.key = some (k, w))
    (f : FrameEntry) (n : Nat) : (fragmentHeader l c f n).slot = k := by
  simp [fragmentHeader, h]

theorem fragmentHeader_sequence_of_key {c : Context} {k : Slot} {w : Word} (h : c.key = some (k, w))
    (f : FrameEntry) (n : Nat) : (fragmentHeader l c f n).sequence = w := by
  simp [fragmentHeader, h]

/-- Forming reads the slot that the context records, and never which slot is active. -/
theorem State.nextFragment_active (c : Context) (j : Slot) :
    ({ s with cipher := { s.cipher with active := j } } : State).nextFragment l c = s.nextFragment l c := rfl

/-! ### R6 -/

/-- Settles O14: each condition of the statement is the model's (the lemmas above), and the row of the table is
reached by passing the rows over it. -/
theorem levelStateIsTheFirstOfTheTable : Obligations.LevelStateIsTheFirstOfTheTable := by
  unfold Obligations.LevelStateIsTheFirstOfTheTable
  intro s l v sending barred keyless eligible spacing held
  have hsending : sending ↔ s.sending l = true := (s.sending_iff l).symm
  have hbarred : barred ↔ s.barred l = true := (s.barred_iff l).symm
  have hkeyless : keyless ↔ s.keyless l = true := (s.keyless_iff l).symm
  have heligible : eligible ↔ s.eligible l = true := by
    rw [s.eligible_iff l, ← hkeyless]
  rw [hsending, hbarred, heligible, hkeyless, s.levelState_table l]
  refine ⟨?sending, ?barred, ?eligible, ?spacing, ?keyless, ?held, ?ready, ?off, ?fragment⟩
  case sending => exact fun h => if_pos h
  case barred => intro hs h; rw [if_neg hs, if_pos h]
  case eligible => intro hs hb h; rw [if_neg hs, if_neg hb, if_pos h]
  case spacing => intro hs hb he h; rw [if_neg hs, if_neg hb, if_neg he, if_pos h]
  case keyless => intro hs hb he hw h; rw [if_neg hs, if_neg hb, if_neg he, if_neg hw, if_pos h]
  case held => intro hs hb he hw hk h; rw [if_neg hs, if_neg hb, if_neg he, if_neg hw, if_neg hk, if_pos h]
  case ready =>
    intro hs hb he hw hk hh h
    rw [if_neg hs, if_neg hb, if_neg he, if_neg hw, if_neg hk, if_neg hh, if_pos h]
  case off =>
    intro hs hb he hw hk hh h
    rw [if_neg hs, if_neg hb, if_neg he, if_neg hw, if_neg hk, if_neg hh, if_neg (Bool.eq_false_iff.mp h)]
  case fragment =>
    intro c f n k w hkey
    exact ⟨fragmentHeader_slot_of_key l hkey f n, fragmentHeader_sequence_of_key l hkey f n,
      s.nextFragment_active l c⟩

end Sys2Proof.Machine

/-! PROOFS. KEY_CHECK (R74): what the command's action answers in each case, and what an attempt that answers leaves of
the keys and sequences. -/

namespace Sys2Proof.Machine

open Sys2Proof

/-! ### The action of KEY_CHECK -/

theorem exec_keyCheck (s : State) : exec .keyCheck s = s.runCommand .keyCheck actKeyCheck := rfl

/-- The first byte of a key command names the slot, when it is in range. -/
theorem CommandFrame.slot_eq {c : CommandFrame} {k : Slot} (h : k.val = c.arg 0) : c.slot = k := by
  refine Fin.ext ?_
  have hlt : c.arg 0 < 2 := h ▸ k.isLt
  calc c.slot.val = c.arg 0 % 2 := rfl
    _ = k.val := by rw [Nat.mod_eq_of_lt hlt, h]

theorem State.keyOf_of_ready {s : State} {k : Slot} {key : Block} (h : s.slot k = .ready key) : s.keyOf k = key := by
  unfold State.keyOf
  rw [h]

/-- The checks of SelectSlot and KeyCheck (R68, R73, R74): a slot above 1, and a slot that is not Ready. -/
theorem firstRefusal_slot (bad unready : Bool) :
    firstRefusal [(bad, .badIndex), (unready, .noKey)] =
      if bad = true then some .badIndex else if unready = true then some .noKey else none := by
  cases bad <;> cases unready <;> rfl

theorem actKeyCheck_of_badIndex {c : CommandFrame} (f s : State) (h : 1 < c.arg 0) :
    actKeyCheck c f s = .answer .badIndex [] s := by
  simp [actKeyCheck, firstRefusal_slot, h]

theorem actKeyCheck_of_ready {c : CommandFrame} {s : State} {k : Slot} {key : Block} (f : State)
    (hk : k.val = c.arg 0) (h : s.slot k = .ready key) :
    actKeyCheck c f s = .answer .ok (keyCheckValue key) s := by
  have hin : ¬ 1 < c.arg 0 := by omega
  have hready : s.slotReady k = true := (s.slotReady_iff k).mpr ⟨key, h⟩
  simp [actKeyCheck, firstRefusal_slot, hin, CommandFrame.slot_eq hk, hready, State.keyOf_of_ready h]

theorem actKeyCheck_of_not_ready {c : CommandFrame} {s : State} {k : Slot} (f : State)
    (hk : k.val = c.arg 0) (h : ∀ key, s.slot k ≠ .ready key) :
    actKeyCheck c f s = .answer .noKey [] s := by
  have hin : ¬ 1 < c.arg 0 := by omega
  have hready : s.slotReady k = false := by
    rw [← Bool.not_eq_true, s.slotReady_iff, not_exists]
    exact h
  simp [actKeyCheck, firstRefusal_slot, hin, CommandFrame.slot_eq hk, hready]

/-! ### Taking a command and its storage (R142) -/

theorem State.setCmd_leavesLevels (s : State) (u : CommandUnit) : LeavesLevels s { s with cmd := u } :=
  ⟨rfl, rfl, rfl, rfl, rfl, rfl, id⟩

/-- Taking a command changes the Command Unit alone. -/
theorem State.takeNext_leaves {s u : State} {e : EntryNo} (h : s.takeNext = some (e, u)) : LeavesLevels s u := by
  unfold State.takeNext at h
  split at h
  · split at h
    · cases h; exact s.setCmd_leavesLevels _
    · cases h
  · split at h
    · split at h
      · cases h
      · cases h; exact s.setCmd_leavesLevels _
    · cases h

/-- When an attempt reaches its action, no level and no key has changed. -/
theorem State.Attempts.leaves {s found t : State} {k : Command} {c : CommandFrame} {e : EntryNo}
    (h : s.Attempts k c found e t) : LeavesLevels s t := by
  obtain ⟨_, htake, -⟩ := State.nextCommand_eq_some h.turn
  have halloc := found.allocReserve_leaves Config.attemptCells (found.responseEntry c.node)
  rw [h.storage] at halloc
  exact (State.takeNext_leaves htake).trans halloc

/-! ### The Cipher Unit -/

theorem Cipher.eq_of_fields {v w : Cipher} (hslots : v.slots = w.slots) (hactive : v.active = w.active)
    (haccepted : v.lastAccepted = w.lastAccepted) (hrejects : v.rejects = w.rejects) : v = w := by
  cases v
  cases w
  simp_all only

/-- A chain of moves without rights over the Cipher Unit leaves it. -/
theorem Moves.keeps_cipher {W : Piece → Prop} {s t : State} (h : Moves W s t) (hslots : ¬ W .slots)
    (hactive : ¬ W .active) (haccepted : ¬ W .accepted) (hsequences : ¬ W .sequences) (hrejects : ¬ W .rejects) :
    t.cipher = s.cipher :=
  Cipher.eq_of_fields (h.keeps_slots hslots) (h.keeps_active hactive) (h.keeps_accepted haccepted hsequences)
    (h.keeps_rejects hrejects)

/-- Answering a command leaves the Cipher Unit, the auction at the end of the step included. -/
theorem State.answered_cipher (s : State) (c : CommandFrame) (e : EntryNo) (st : Status) (r : List Byte) :
    (s.answered c e st r).cipher = s.cipher := by
  have h : Moves (fun _ => False) s (s.answered c e st r) := (Moves.finish s c e st r).trans (.settle _)
  exact h.keeps_cipher id id id id id

/-! ### Transmit sequences (R67) -/

theorem State.txSequence_modLvl (s : State) (m : Level) (f : LevelEntry → LevelEntry)
    (hf : (f (s.lvl m)).txSeq = (s.lvl m).txSeq) (k : Slot) (l : Level) :
    (s.modLvl m f).txSequence k l = s.txSequence k l := by
  unfold State.txSequence
  rw [State.lvl_modLvl]
  split
  · next he => subst he; simp only [hf]
  · rfl

theorem LeavesLevels.txSequence {s t : State} (h : LeavesLevels s t) (k : Slot) (l : Level) :
    t.txSequence k l = s.txSequence k l := by
  unfold State.txSequence
  rw [h.lvl]

theorem State.txSequence_offerLevel (s : State) (m : Level) (e : EntryNo) (first : Bool) (k : Slot) (l : Level) :
    (s.offerLevel m e first).2.txSequence k l = s.txSequence k l := by
  unfold State.offerLevel
  split
  · exact s.txSequence_modLvl m .dropped rfl k l
  · rw [(State.triggerAuction_leaves _).txSequence, State.txSequence_modLvl _ m _ rfl,
      (s.accept_leaves e first).txSequence]

theorem State.txSequence_makeOffer (e : EntryNo) (acc : Bool × State) (o : Offer) (k : Slot) (l : Level) :
    (State.makeOffer e acc o).2.txSequence k l = acc.2.txSequence k l := by
  cases o with
  | level m => exact State.txSequence_offerLevel _ m e _ k l
  | port p => exact (State.offerPort_leaves _ p e _).txSequence k l

theorem State.txSequence_offers (e : EntryNo) (os : List Offer) (acc : Bool × State) (k : Slot) (l : Level) :
    (os.foldl (State.makeOffer e) acc).2.txSequence k l = acc.2.txSequence k l := by
  induction os generalizing acc with
  | nil => rfl
  | cons o os ih => exact (ih _).trans (State.txSequence_makeOffer e acc o k l)

/-- No offer of a frame uses a sequence. -/
theorem State.txSequence_offerAll (s : State) (e : EntryNo) (os : List Offer) (k : Slot) (l : Level) :
    (s.offerAll e os).txSequence k l = s.txSequence k l := by
  have h := State.txSequence_offers e os (false, s) k l
  unfold State.offerAll
  dsimp only
  split
  · exact h
  · exact ((State.release_leaves _ e).txSequence k l).trans h

theorem State.txSequence_routeResponse (s : State) (e : EntryNo) (o : Sender) (k : Slot) (l : Level) :
    (s.routeResponse e o).txSequence k l = s.txSequence k l := by
  cases o with
  | trunk => exact s.txSequence_offerAll e _ k l
  | station p =>
    unfold State.routeResponse
    dsimp only
    split
    · exact s.txSequence_offerAll e _ k l
    · exact ((s.release_leaves e).trans (State.setCmd_leavesLevels _ _)).txSequence k l

/-- Filling and routing a response and releasing the command frame use no sequence. -/
theorem State.txSequence_finish (s : State) (c : CommandFrame) (e : EntryNo) (st : Status) (r : List Byte) (k : Slot)
    (l : Level) : (s.finish c e st r).txSequence k l = s.txSequence k l := by
  unfold State.finish
  dsimp only
  rw [(State.release_leaves _ c.entry).txSequence, State.txSequence_routeResponse,
    (State.setCmd_leavesLevels _ _).txSequence, (s.fillResponse_leaves e _).txSequence]

/-! ### R74 -/

/-- Settles O36: the action's three answers, and what an attempt that answers leaves. -/
theorem keyCheckReturnsThreeBytes : Obligations.KeyCheckReturnsThreeBytes := by
  unfold Obligations.KeyCheckReturnsThreeBytes
  intro s found t c e h
  rw [exec_keyCheck]
  refine ⟨?badIndex, fun k hk => ⟨?ready, ?noKey⟩, ?unchanged⟩
  case badIndex => exact fun hbad => h.answers (actKeyCheck_of_badIndex found t hbad)
  case ready => exact fun key hready => h.answers (actKeyCheck_of_ready found hk hready)
  case noKey => exact fun hnone => h.answers (actKeyCheck_of_not_ready found hk hnone)
  case unchanged =>
    intro st r
    refine ⟨(t.answered_cipher c e st r).trans h.leaves.cipher, fun j l => ?_⟩
    exact (t.txSequence_finish c e st r j l).trans (h.leaves.txSequence j l)

end Sys2Proof.Machine

/-! PROOFS. The match of a rule (R86): the class tag under the mask, bit by bit, and the five fields. -/

namespace Sys2Proof.Machine

open Sys2Proof

/-- Two words are equal under a mask exactly when they agree in every bit that the mask selects. -/
theorem and_mask_eq_iff {w : Nat} (x y mask : BitVec w) :
    x &&& mask = y &&& mask ↔ ∀ b < w, mask.getLsbD b = true → x.getLsbD b = y.getLsbD b := by
  constructor
  · intro h b _ hsel
    have hbit := congrArg (BitVec.getLsbD · b) h
    simpa [hsel] using hbit
  · intro h
    refine BitVec.eq_of_getLsbD_eq fun b hb => ?_
    rw [BitVec.getLsbD_and, BitVec.getLsbD_and]
    cases hsel : mask.getLsbD b with
    | false => simp
    | true => simp [h b hb hsel]

variable (r : Rule) (p : PortNo) (f : FrameEntry)

/-- R86, with the class tag compared under the mask. -/
theorem Rule.fits_iff :
    r.fits p f = true ↔ r.valid = true ∧ r.portMask.getLsbD p.val = true ∧
      (r.srcLow ≤ f.src ∧ f.src ≤ r.srcHigh) ∧ (r.dstLow ≤ f.dst ∧ f.dst ≤ r.dstHigh) ∧
      f.classTag.getD 0 &&& r.clsMask = r.clsValue &&& r.clsMask ∧ (r.lenMin ≤ f.len ∧ f.len ≤ r.lenMax) := by
  simp [Rule.fits, and_assoc]

/-- A mask of 0 selects no bit, so the match does not read the tag. -/
theorem Rule.fits_classTag_of_clsMask_zero (h : r.clsMask = 0) (tag : Option Byte) :
    r.fits p { f with classTag := tag } = r.fits p f := by
  rw [Bool.eq_iff_iff, r.fits_iff, r.fits_iff]
  simp [h]

/-- A mask of 255 selects every bit, so the match fixes the tag. -/
theorem Rule.classTag_eq_of_clsMask_full (h : r.clsMask = 255) (hfits : r.fits p f = true) :
    f.classTag.getD 0 = r.clsValue := by
  obtain ⟨-, -, -, -, htag, -⟩ := (r.fits_iff p f).mp hfits
  have hones : r.clsMask = BitVec.allOnes 8 := h
  rwa [hones, BitVec.and_allOnes, BitVec.and_allOnes] at htag

/-- Settles O39: the fields of the match, with the tag under the mask read bit by bit, and the two extreme masks. -/
theorem ruleMatchesByItsFields : Obligations.RuleMatchesByItsFields := by
  unfold Obligations.RuleMatchesByItsFields
  intro r p f tag
  refine ⟨?fields, ?maskZero, ?maskFull⟩
  case fields => rw [r.fits_iff p f, and_mask_eq_iff]
  case maskZero => exact fun h tag' => (r.fits_classTag_of_clsMask_zero p f h tag').symm
  case maskFull => exact r.classTag_eq_of_clsMask_full p f

end Sys2Proof.Machine

/-! PROOFS. READ_NODE_MAP (R92): what the command's action answers in each case, and that neither the attempt nor its
answer writes the Node Map. -/

namespace Sys2Proof.Machine

open Sys2Proof

/-! ### The action of READ_NODE_MAP -/

theorem exec_readNodeMap (s : State) : exec .readNodeMap s = s.runCommand .readNodeMap actReadNodeMap := rfl

/-- The codes of the dispositions of `count` nodes, from node `first` upward. -/
def State.nodeCodes (s : State) (first count : Nat) : List Byte :=
  (List.range count).map fun i => byteOf (s.disposition (BitVec.ofNat 8 (first + i))).code

/-- The report reads nothing but the Node Map. -/
theorem State.nodeCodes_congr {s t : State} (h : t.nodeMap = s.nodeMap) : t.nodeCodes = s.nodeCodes := by
  unfold State.nodeCodes State.disposition
  rw [h]

/-- The checks of a range (R85, R91, R92): its count, and then its end. -/
theorem firstRefusal_range (badCount pastEnd : Bool) :
    firstRefusal [(badCount, .badValue), (pastEnd, .badIndex)] =
      if badCount = true then some .badValue else if pastEnd = true then some .badIndex else none := by
  cases badCount <;> cases pastEnd <;> rfl

variable {c : CommandFrame} (f s : State)

theorem actReadNodeMap_of_badCount (h : c.arg 1 = 0 ∨ 64 < c.arg 1) :
    actReadNodeMap c f s = .answer .badValue [] s := by
  simp [actReadNodeMap, firstRefusal_range, h]

theorem actReadNodeMap_of_pastEnd (hlow : 1 ≤ c.arg 1) (hhigh : c.arg 1 ≤ 64) (h : 256 < c.arg 0 + c.arg 1) :
    actReadNodeMap c f s = .answer .badIndex [] s := by
  have hcount : ¬ (c.arg 1 = 0 ∨ 64 < c.arg 1) := by omega
  simp [actReadNodeMap, firstRefusal_range, hcount, h]

theorem actReadNodeMap_of_range (hlow : 1 ≤ c.arg 1) (hhigh : c.arg 1 ≤ 64) (h : c.arg 0 + c.arg 1 ≤ 256) :
    actReadNodeMap c f s = .answer .ok (s.nodeCodes (c.arg 0) (c.arg 1)) s := by
  have hcount : ¬ (c.arg 1 = 0 ∨ 64 < c.arg 1) := by omega
  have hend : ¬ 256 < c.arg 0 + c.arg 1 := by omega
  simp [actReadNodeMap, firstRefusal_range, hcount, hend, State.nodeCodes]

/-! ### The Node Map through an attempt -/

/-- Until it reaches its action, an attempt is work of the Command Unit and the Frame Store, with no further right. -/
theorem State.Attempts.moves {W : Piece → Prop} {s found t : State} {k : Command} {e : EntryNo}
    (h : s.Attempts k c found e t) : Moves W s t := by
  have halloc := Moves.allocReserve (W := W) found Config.attemptCells (found.responseEntry c.node)
  rw [h.storage] at halloc
  exact (Moves.nextCommand h.turn).trans halloc

/-- Answering a command, the auction at the end of the step included, takes no further right. -/
theorem State.answered_moves {W : Piece → Prop} (s : State) (c : CommandFrame) (e : EntryNo) (st : Status)
    (r : List Byte) : Moves W s (s.answered c e st r) :=
  (Moves.finish s c e st r).trans (.settle _)

theorem State.Attempts.nodeMap {s found t : State} {k : Command} {e : EntryNo} (h : s.Attempts k c found e t) :
    t.nodeMap = s.nodeMap :=
  (h.moves (W := fun _ => False)).keeps_nodeMap id

theorem State.answered_nodeMap (s : State) (c : CommandFrame) (e : EntryNo) (st : Status) (r : List Byte) :
    (s.answered c e st r).nodeMap = s.nodeMap :=
  (s.answered_moves (W := fun _ => False) c e st r).keeps_nodeMap id

/-! ### R92 -/

/-- Settles O44: the action's three answers, and the map kept from the step's start to its end. -/
theorem readNodeMapReportsTheRange : Obligations.ReadNodeMapReportsTheRange := by
  unfold Obligations.ReadNodeMapReportsTheRange
  intro s found t c e h
  rw [exec_readNodeMap]
  refine ⟨rfl, h.nodeMap, ?badCount, ?pastEnd, ?report, ?unchanged⟩
  case badCount => exact fun hcount => h.answers (actReadNodeMap_of_badCount found t hcount)
  case pastEnd => exact fun hlow hhigh hend => h.answers (actReadNodeMap_of_pastEnd found t hlow hhigh hend)
  case report =>
    intro hlow hhigh hrange
    have hact := actReadNodeMap_of_range found t hlow hhigh hrange
    rw [State.nodeCodes_congr h.nodeMap] at hact
    exact h.answers hact
  case unchanged => exact fun st r => (t.answered_nodeMap c e st r).trans h.nodeMap

end Sys2Proof.Machine

/-! PROOFS. The effective state of a port (R104): the table as one chain of conditions, the states in its three columns,
and what a port in such a state does with a line that goes active, an offer, its egress queue and a good frame. -/

namespace Sys2Proof.Machine

open Sys2Proof

/-! ### The table -/

/-- The last three entries of R104's table: the state of a port to which none of the entries before them applies. -/
def PortMode.effective : PortMode → PortState
  | .offline => .offline
  | .listen => .listen
  | .active => .active
  | .loopback => .loopback

/-- R104: the table, in its order. -/
theorem Port.stateIn_table (m : Mode) (v : Port) :
    v.stateIn m =
      if m = .init ∨ m = .setup ∨ v.cfg.mode = .offline then .offline
      else if v.latch = true then .isolated
      else if v.lineUp = false ∧ v.cfg.mode ≠ .loopback then .down
      else v.cfg.mode.effective := by
  cases hmode : v.cfg.mode <;> simp [Port.stateIn, PortMode.effective, hmode]

/-- Of the modes of the part, only Init and Setup enter the table. -/
theorem Port.stateIn_congr {m n : Mode} (v : Port) (hm : m ≠ .init ∧ m ≠ .setup) (hn : n ≠ .init ∧ n ≠ .setup) :
    v.stateIn m = v.stateIn n := by
  simp [v.stateIn_table, hm, hn]

/-! ### The columns of the table -/

theorem PortState.receives_iff (x : PortState) : x.receives = true ↔ x = .listen ∨ x = .active := by
  simp [PortState.receives, or_comm]

theorem PortState.transmits_iff (x : PortState) : x.transmits = true ↔ x = .active ∨ x = .loopback := by
  simp [PortState.transmits]

variable (s : State) (p : PortNo)

/-! ### Receive (R107) -/

theorem Port.watchLine_rx (old new : Port) (n : Word) : (Port.watchLine old new n).rx = new.rx := by
  unfold Port.watchLine
  split <;> rfl

theorem State.lineActive_rx :
    ((s.lineActive p).port p).rx = if (s.portState p).receives = true then .header else (s.port p).rx := by
  unfold State.lineActive
  rw [State.port_modPort_same, Port.watchLine_rx]

/-! ### Transmit (R114, R116) -/

theorem State.startTx_of_not_transmits (h : ¬ (s.portState p).transmits = true) : s.startTx p = s := by
  simp [State.startTx, h]

/-- R116: the transmission begun is a Loopback one exactly in the state Loopback (R105). -/
theorem State.startTx_of_head {e : EntryNo} {rest : List EntryNo} (h : (s.portState p).transmits = true)
    (htx : (s.port p).tx = none) (hqueue : (s.port p).queue = e :: rest) :
    s.startTx p = s.modPort p fun v =>
      { v with queue := rest, tx := some { entry := e, loop := decide (s.portState p = .loopback) } } := by
  simp [State.startTx, h, htx, hqueue]

theorem State.offerPort_of_not_transmits (h : ¬ (s.portState p).transmits = true) (e : EntryNo) (first : Bool) :
    s.offerPort p e first = (false, s.modPort p .dropped) := by
  simp [State.offerPort, h]

theorem State.offerPort_of_room (h : (s.portState p).transmits = true) (e : EntryNo) (first : Bool)
    (hroom : (s.port p).queue.length < Config.egressSize) :
    s.offerPort p e first = (true, s.joinEgress p e first) := by
  simp [State.offerPort, h, hroom]

/-! ### A good frame (R93, R109) -/

theorem State.sourcePasses_iff (f : FrameEntry) :
    s.sourcePasses p f = true ↔ ¬ ((s.port p).cfg.sourceCheck = true ∧ s.disposition f.src ≠ .port p) := by
  cases h : (s.port p).cfg.sourceCheck <;> simp [State.sourcePasses, h]

/-- R109: a port that is not Active classifies a frame that is no command, and decides no destination for it. -/
theorem State.handleGood_of_not_active (e : EntryNo) (hstate : s.portState p ≠ .active)
    (hsource : s.sourcePasses p (s.entryAt e) = true)
    (hcommand : ¬ ((s.entryAt e).dst = s.self ∧ (s.entryAt e).ptype = .command)) :
    s.handleGood p e = (s.classify p e).2.release e := by
  simp [State.handleGood, hsource, hcommand, hstate]

/-! ### R104 -/

/-- Settles O45: the row of the table is reached by passing the rows over it, and each side of the port tests the
column of the state that it is in. -/
theorem portStateIsTheFirstOfTheTable : Obligations.PortStateIsTheFirstOfTheTable := by
  unfold Obligations.PortStateIsTheFirstOfTheTable
  intro s p v offline down
  have htable : s.portState p = if offline then .offline else if v.latch = true then .isolated
      else if down then .down else v.cfg.mode.effective := Port.stateIn_table s.ctl.mode v
  have hmode (ho : ¬ offline) (hl : v.latch = false) (hd : ¬ down) : s.portState p = v.cfg.mode.effective := by
    rw [htable, if_neg ho, if_neg (Bool.eq_false_iff.mp hl), if_neg hd]
  refine ⟨?offline, ?isolated, ?down, ?listen, ?active, ?loopback, ?columns, ?runFallback, ?noTransmit, ?transmit,
    ?listens, ?receive, ?noReceive⟩
  case offline => intro h; rw [htable, if_pos h]
  case isolated => intro ho h; rw [htable, if_neg ho, if_pos h]
  case down => intro ho hl h; rw [htable, if_neg ho, if_neg (Bool.eq_false_iff.mp hl), if_pos h]
  case listen | active | loopback =>
    intro ho hl hd h
    rw [hmode ho hl hd, h]
    rfl
  case columns => exact fun x => ⟨x.receives_iff, x.transmits_iff⟩
  case runFallback => exact v.stateIn_congr (by decide) (by decide)
  case noTransmit =>
    intro hactive hloopback
    have h : ¬ (s.portState p).transmits = true := by
      rw [PortState.transmits_iff, not_or]
      exact ⟨hactive, hloopback⟩
    exact ⟨s.startTx_of_not_transmits p h, fun e first => by rw [s.offerPort_of_not_transmits p h]⟩
  case transmit =>
    intro hstate
    have h : (s.portState p).transmits = true := (PortState.transmits_iff _).mpr hstate
    refine ⟨fun e first hroom => ?_, fun e rest htx hqueue => ?_⟩
    · rw [s.offerPort_of_room p h e first hroom]
    · rw [s.startTx_of_head p h htx hqueue, State.port_modPort_same]
  case listens =>
    intro hlisten e hsource hcommand
    have hstate : s.portState p ≠ .active := by
      rw [hlisten]
      decide
    exact s.handleGood_of_not_active p e hstate ((s.sourcePasses_iff p _).mpr hsource) hcommand
  case receive =>
    intro hstate
    rw [s.lineActive_rx p, if_pos ((PortState.receives_iff _).mpr hstate.symm)]
  case noReceive =>
    intro hactive hlisten
    have h : ¬ (s.portState p).receives = true := by
      rw [PortState.receives_iff, not_or]
      exact ⟨hlisten, hactive⟩
    rw [s.lineActive_rx p, if_neg h]

end Sys2Proof.Machine

/-! PROOFS. Reset values: what every block of the blank state holds (R162 to R165), and its invariants. -/

namespace Sys2Proof.Machine

open Sys2Proof

section Blank

variable (m : Mode) (c : ResetCause) (b : Byte) (pins : Pins) (q : List Instr)

/-! ### The tables of the blank state -/

theorem State.blank_lvl_zero : (State.blank m c b pins q).lvl 0 = .blank (.builtIn 8) := rfl

theorem State.blank_lvl_one : (State.blank m c b pins q).lvl 1 = .blank (.builtIn 4) := rfl

theorem State.blank_lvl_traffic {l : Level} (h : 2 ≤ l.val) :
    (State.blank m c b pins q).lvl l = .blank .traffic := by
  have h0 : (0 : Nat) ≠ l.val := by omega
  have h1 : (1 : Nat) ≠ l.val := by omega
  change levelsAtReset[l.val] = _
  unfold levelsAtReset
  rw [Vector.getElem_set_ne _ _ h1, Vector.getElem_set_ne _ _ h0, Vector.getElem_replicate]

/-- Every level is blank but for its attributes. -/
theorem State.blank_lvl (l : Level) : ∃ a, a.Lawful ∧ (State.blank m c b pins q).lvl l = .blank a := by
  by_cases h : 2 ≤ l.val
  · exact ⟨_, ⟨by decide, by decide, by decide⟩, State.blank_lvl_traffic m c b pins q h⟩
  · have hl : l = 0 ∨ l = 1 := by
      rw [Fin.ext_iff, Fin.ext_iff]
      exact Nat.le_one_iff_eq_zero_or_eq_one.mp (by omega)
    rcases hl with rfl | rfl
    · exact ⟨_, ⟨by decide, by decide, by decide⟩, State.blank_lvl_zero m c b pins q⟩
    · exact ⟨_, ⟨by decide, by decide, by decide⟩, State.blank_lvl_one m c b pins q⟩

theorem State.blank_txSequence (k : Slot) (l : Level) : (State.blank m c b pins q).txSequence k l = .seq 1 := by
  obtain ⟨a, -, ha⟩ := State.blank_lvl m c b pins q l
  unfold State.txSequence
  rw [ha]
  exact Vector.getElem_replicate k.isLt

theorem State.blank_slot (k : Slot) : (State.blank m c b pins q).slot k = .empty :=
  Vector.getElem_replicate k.isLt

theorem State.blank_lastAccepted (k : Slot) (l : Level) : (State.blank m c b pins q).lastAccepted k l = 0 := by
  change ((Vector.replicate 2 (Vector.replicate 32 (0 : Word)))[k.val])[l.val] = 0
  simp only [Vector.getElem_replicate]

theorem State.blank_rule (i : RuleNo) : (State.blank m c b pins q).rule i = .blank :=
  Vector.getElem_replicate i.isLt

theorem State.blank_rxCtx (l : Level) : (State.blank m c b pins q).rxCtx l = .idle :=
  Vector.getElem_replicate l.isLt

theorem State.blank_port (p : PortNo) :
    (State.blank m c b pins q).port p = .blank pins.portUp[p.val] pins.rxActive[p.val] := by
  match p with
  | 0 => rfl
  | 1 => rfl
  | 2 => rfl
  | 3 => rfl

theorem State.blank_accessOf (r : Region) : (State.blank m c b pins q).accessOf r = .none :=
  Vector.getElem_replicate r.code.isLt

/-! ### The Node Map of the blank state (R90) -/

theorem State.blank_self : (State.blank m c b pins q).self = selfAddress b := rfl

theorem selfAddress_ne : selfAddress b ≠ 0 ∧ selfAddress b ≠ 255 := by
  unfold selfAddress
  split
  · exact ⟨by decide, by decide⟩
  · next h => exact ⟨fun he => h (.inl he), fun he => h (.inr he)⟩

theorem State.blank_disposition (n : Node) :
    (State.blank m c b pins q).disposition n =
      if n = selfAddress b then .self else if n = 255 then .broadcast else .unassigned := by
  change (nodeMapAtReset b)[n.toNat] = _
  unfold nodeMapAtReset
  rw [Vector.getElem_set, Vector.getElem_set, Vector.getElem_replicate]
  have hs : (selfAddress b).toNat = n.toNat ↔ n = selfAddress b :=
    ⟨fun h => (BitVec.eq_of_toNat_eq h).symm, fun h => h ▸ rfl⟩
  have hb : 255 = n.toNat ↔ n = 255 :=
    ⟨fun h => BitVec.eq_of_toNat_eq h.symm, fun h => h ▸ rfl⟩
  simp only [hs, hb]

theorem State.blank_nodesFixed : (State.blank m c b pins q).NodesFixed := by
  obtain ⟨h0, h255⟩ := selfAddress_ne b
  refine ⟨?zero, ?broadcast, ?self, ?others⟩
  case zero => rw [State.blank_disposition, if_neg h0.symm, if_neg (by decide)]
  case broadcast => rw [State.blank_disposition, if_neg h255.symm, if_pos rfl]
  case self => rw [State.blank_disposition, State.blank_self, if_pos rfl]
  case others =>
    intro n hb hs
    rw [State.blank_self] at hs
    rw [State.blank_disposition, if_neg hs, if_neg hb]
    rfl

/-! ### The invariants of the blank state -/

theorem State.blank_conserved : (State.blank m c b pins q).store.Conserved := by
  refine ⟨?entries, ?cells⟩
  case entries => simp [State.blank, Store.blank]
  case cells => simp [State.blank, Store.blank]

theorem State.blank_lawful : (State.blank m c b pins q).Lawful where
  notices := by rw [State.blank_lvl_zero]; rfl
  responses := by rw [State.blank_lvl_one]; rfl
  levels l := by
    obtain ⟨a, ha, hl⟩ := State.blank_lvl m c b pins q l
    rw [hl]
    exact ha
  fragSize := .inr (.inl rfl)
  log := Nat.zero_le _
  rules i := by
    rw [State.blank_rule]
    exact ⟨by decide, by decide, by decide, by decide⟩
  nodes := State.blank_nodesFixed m c b pins q
  ports p := by
    rw [State.blank_port]
    exact ⟨Nat.le_of_ble_eq_true rfl, Nat.zero_le _, Nat.zero_le _⟩
  fifo := Nat.zero_le _
  period := Nat.zero_le _

end Blank

/-- The notice kinds after reset are all thirteen (R176). -/
theorem KindSet.has_all (k : FaultKind) : KindSet.has 0x1FFF k = true := by
  cases k <;> decide

/-- Settles O11: each block is read from the blank state, table by table. -/
theorem everyBlockTakesItsResetValues : Obligations.EveryBlockTakesItsResetValues := by
  unfold Obligations.EveryBlockTakesItsResetValues
  refine ⟨fun m c b pins q => ?_, rfl⟩
  refine ⟨⟨rfl, rfl, rfl, rfl, rfl, rfl, rfl, rfl, rfl, rfl⟩, ⟨rfl, ?entries, ?cells, rfl, rfl, rfl, rfl⟩, ?levels,
    ?attrs, ⟨rfl, rfl, rfl, rfl, rfl, rfl, rfl, rfl, rfl, rfl, rfl⟩,
    ⟨rfl, rfl, State.blank_slot m c b pins q, State.blank_lastAccepted m c b pins q⟩, State.blank_rule m c b pins q,
    ?nodes, ?ports, ⟨State.blank_rxCtx m c b pins q, rfl, rfl, rfl, rfl, rfl, rfl, rfl, rfl, rfl, rfl⟩,
    ⟨rfl, rfl, rfl, rfl, State.blank_accessOf m c b pins q, rfl, rfl, rfl, rfl, rfl⟩, ⟨rfl, rfl, rfl, ?kinds⟩⟩
  case entries | cells => simp [State.blank, Store.blank, Config.entryCount, Config.cellCount]
  case levels =>
    intro l
    obtain ⟨a, -, hl⟩ := State.blank_lvl m c b pins q l
    have hseq := fun k => State.blank_txSequence m c b pins q k l
    rw [hl]
    exact ⟨rfl, rfl, rfl, rfl, rfl, rfl, rfl, rfl, rfl, hseq⟩
  case attrs =>
    intro l hl
    rw [State.blank_lvl_traffic m c b pins q hl]
    rfl
  case nodes =>
    have h := State.blank_nodesFixed m c b pins q
    refine ⟨h.broadcast, h.self, fun n hb hs => ?_⟩
    rw [State.blank_disposition, if_neg (State.blank_self m c b pins q ▸ hs), if_neg hb]
  case ports =>
    intro p
    rw [State.blank_port]
    exact ⟨rfl, rfl, rfl, rfl, rfl, rfl, rfl, rfl, rfl, rfl, rfl, rfl, rfl⟩
  case kinds => exact KindSet.has_all

/-- Settles O9: the invariants of the blank state, which the state after reset is. -/
theorem resetStateIsInOrder : Obligations.ResetStateIsInOrder := by
  have hc : State.reset.store.Conserved := State.blank_conserved _ _ _ _ _
  refine ⟨hc, (State.allHeld_iff ?_).mp (State.allHeld_blank _ _ _ _ _), rfl, State.blank_lawful _ _ _ _ _, ?expansions,
    ?supervision, rfl⟩
  · exact hc.entries.nodup_iff.mpr List.nodup_range
  case expansions =>
    intro k key since h
    have hempty : State.reset.slot k = .empty := State.blank_slot _ _ _ _ _ k
    rw [hempty] at h
    cases h
  case supervision =>
    intro h
    cases h

end Sys2Proof.Machine

/-! PROOFS. A step is a run of a command or a tick; what every step keeps, and what a row that is no reset may change. -/

namespace Sys2Proof.Machine

open Sys2Proof

/-! ### Steps -/

/-- What a step does, said once: it runs a command, with some queue behind it, or time passes. -/
theorem step_cases {s t : State} (h : step s = .next t) :
    (∃ c q, exec c { s with pending := q } = .next t) ∨ (s.ownStep = none ∧ t = s.tick) := by
  unfold step at h
  split at h
  · next c rest _ => exact .inl ⟨c, rest, h⟩
  · split at h
    · next c _ => exact .inl ⟨c, s.pending, h⟩
    · next hnone =>
      cases h
      exact .inr ⟨hnone, rfl⟩

theorem State.tick_cases (s : State) : s.tick = s ∨ (s.ctl.mode ≠ .init ∧ s.tick = { s with now := s.now + 1 }) := by
  unfold State.tick
  split
  · exact .inl rfl
  · next h => exact .inr ⟨h, rfl⟩

/-- A property that does not read the queue or the Time Base is kept by every step when every command keeps it. -/
theorem step_keeps {P : State → Prop} (hqueue : ∀ s q, P s → P { s with pending := q })
    (htime : ∀ s n, P s → P { s with now := n }) (hexec : ∀ c s t, P s → exec c s = .next t → P t) {s t : State}
    (hs : P s) (h : step s = .next t) : P t := by
  rcases step_cases h with ⟨c, q, hc⟩ | ⟨-, rfl⟩
  · exact hexec c _ t (hqueue s q hs) hc
  · rcases s.tick_cases with ht | ⟨-, ht⟩
    · rw [ht]; exact hs
    · rw [ht]; exact htime s _ hs

/-- Settles O1. -/
theorem stepRunsFrontCommand : Obligations.StepRunsFrontCommand := by
  unfold Obligations.StepRunsFrontCommand
  intro c rest s h
  unfold step
  rw [h]

theorem State.ownStep_of_retryDue {s : State} (hm : s.ctl.mode ≠ .init) (h : s.retryDue = true) :
    s.ownStep = some .waitingResponseBuild := by
  simp [State.ownStep, hm, h]

theorem State.canTake_mode {s : State} (h : s.canTake = true) : s.ctl.mode ≠ .init := by
  simp only [State.canTake, Bool.and_eq_true, bne_iff_ne] at h
  exact h.2

theorem State.ownStep_of_canTake {s : State} {e : EntryNo} {rest : List EntryNo} (hr : s.retryDue = false)
    (h : s.canTake = true) (hfifo : s.cmd.fifo = e :: rest) : s.ownStep = some (s.instrOfFrame e) := by
  simp [State.ownStep, State.canTake_mode h, hr, h, hfifo]

theorem State.ownStep_in_init {s : State} (h : s.ctl.mode = .init) : s.ownStep = none := by
  simp [State.ownStep, h]

theorem step_of_ownStep {s : State} {c : Instr} (h : s.pending = []) (hc : s.ownStep = some c) :
    step s = exec c s := by
  unfold step
  rw [h, hc]

theorem step_of_no_ownStep {s : State} (h : s.pending = []) (hc : s.ownStep = none) : step s = .next s.tick := by
  unfold step
  rw [h, hc]

/-- Settles O2. -/
theorem emptyQueueRunsOwnStepOrTicks : Obligations.EmptyQueueRunsOwnStepOrTicks := by
  unfold Obligations.EmptyQueueRunsOwnStepOrTicks
  intro s hempty
  refine ⟨?own, ?tick, ?init, fun hm hr => State.ownStep_of_retryDue hm hr,
    fun hr ht e rest hfifo => State.ownStep_of_canTake hr ht hfifo⟩
  case own => exact fun c h => step_of_ownStep hempty h
  case tick => intro h hm; rw [step_of_no_ownStep hempty h, State.tick, if_neg hm]
  case init => intro hm; rw [step_of_no_ownStep hempty (State.ownStep_in_init hm), State.tick, if_pos hm]

/-! ### Invariants -/

theorem exec_conserved {c : Instr} {s t : State} (hs : s.store.Conserved) (h : exec c s = .next t) :
    t.store.Conserved := by
  rcases exec_moves h hs with hm | ⟨-, m, r, b, p, q, rfl⟩
  · exact hm.conserved hs
  · exact State.blank_conserved m r b p q

theorem Store.Conserved.entries_nodup {st : Store} (h : st.Conserved) :
    (st.freeEntries ++ st.entries.map Prod.fst).Nodup :=
  h.entries.nodup_iff.mpr List.nodup_range

theorem exec_holdersCounted {c : Instr} {s t : State} (hs : s.store.Conserved) (hh : s.HoldersCounted)
    (h : exec c s = .next t) : t.HoldersCounted := by
  have hall : s.AllHeld := (State.allHeld_iff hs.entries_nodup).mpr hh
  exact (State.allHeld_iff (exec_conserved hs h).entries_nodup).mp (hall.of_exec h)

theorem exec_canonical {c : Instr} {s t : State} (hs : s.store.Conserved) (hw : s.store.mem.wf = true)
    (h : exec c s = .next t) : t.store.mem.wf = true := by
  rcases exec_moves h hs with hm | ⟨-, m, r, b, p, q, rfl⟩
  · exact hm.wf hw
  · rfl

theorem exec_lawful {c : Instr} {s t : State} (hs : s.store.Conserved) (hl : s.Lawful) (h : exec c s = .next t) :
    t.Lawful := by
  rcases exec_moves h hs with hm | ⟨-, m, r, b, p, q, rfl⟩
  · exact hm.lawful hl
  · exact State.blank_lawful m r b p q

theorem State.HoldersCounted.of_tables {s t : State} (h : s.HoldersCounted) (h1 : t.store = s.store)
    (h2 : t.levels = s.levels) (h3 : t.ports = s.ports) (h4 : t.rx = s.rx) (h5 : t.cmd = s.cmd) :
    t.HoldersCounted := by
  cases s; cases t
  simp only at h1 h2 h3 h4 h5
  subst h1 h2 h3 h4 h5
  exact ⟨h.counted, h.inUse, h.oneLevel, h.onePlace, h.alone, h.receiving⟩

theorem State.Lawful.of_settings {s t : State} (h : s.Lawful) (h0 : t.levels = s.levels) (h1 : t.trunk = s.trunk)
    (h2 : t.rules = s.rules) (h3 : t.nodeMap = s.nodeMap) (h4 : t.ports = s.ports) (h5 : t.cmd = s.cmd)
    (h6 : t.ctl = s.ctl) : t.Lawful := by
  have hl : LevelsLawful t := by
    have hlvl : t.lvl = s.lvl := by funext l; unfold State.lvl; rw [h0]
    exact ⟨hlvl ▸ h.notices, hlvl ▸ h.responses, hlvl ▸ h.levels⟩
  exact h.of_levels hl h1 h2 h3 h4 h5 h6

/-- Settles O5: every command conserves entries and cells (`exec_moves`) and keeps the count of holders
(`State.AllHeld.of_exec`); neither reads the queue or the Time Base. -/
theorem entriesAndCellsAreConserved : Obligations.EntriesAndCellsAreConserved := by
  unfold Obligations.EntriesAndCellsAreConserved
  refine ⟨fun s t hs h => ?conserved, fun s t hs hh h => ?holders⟩
  case conserved =>
    exact step_keeps (P := fun s => s.store.Conserved) (fun _ _ h => h) (fun _ _ h => h)
      (fun _ _ _ hs h => exec_conserved hs h) hs h
  case holders =>
    have := step_keeps (P := fun s => s.store.Conserved ∧ s.HoldersCounted)
      (fun _ _ h => ⟨h.1, h.2.of_tables rfl rfl rfl rfl rfl⟩) (fun _ _ h => ⟨h.1, h.2.of_tables rfl rfl rfl rfl rfl⟩)
      (fun _ _ _ hs h => ⟨exec_conserved hs.1 h, exec_holdersCounted hs.1 hs.2 h⟩) ⟨hs, hh⟩ h
    exact this.2

/-- Settles O6: every write of a byte keeps the form (`Memory.wf_write`), and no other move writes one. -/
theorem contentsStayCanonical : Obligations.ContentsStayCanonical := by
  unfold Obligations.ContentsStayCanonical
  intro s t hs hw h
  have := step_keeps (P := fun s => s.store.Conserved ∧ s.store.mem.wf = true) (fun _ _ h => h) (fun _ _ h => h)
    (fun _ _ _ hs h => ⟨exec_conserved hs.1 h, exec_canonical hs.1 hs.2 h⟩) ⟨hs, hw⟩ h
  exact this.2

/-- Settles O7: each move keeps the settings lawful (`Moves.lawful`), and a reset takes the blank ones. -/
theorem settingsStayLawful : Obligations.SettingsStayLawful := by
  unfold Obligations.SettingsStayLawful
  intro s t hs hl h
  have := step_keeps (P := fun s => s.store.Conserved ∧ s.Lawful)
    (fun _ _ h => ⟨h.1, h.2.of_settings rfl rfl rfl rfl rfl rfl rfl⟩)
    (fun _ _ h => ⟨h.1, h.2.of_settings rfl rfl rfl rfl rfl rfl rfl⟩)
    (fun _ _ _ hs h => ⟨exec_conserved hs.1 h, exec_lawful hs.1 hs.2 h⟩) ⟨hs, hl⟩ h
  exact this.2

/-! ### The rights of a row -/

/-- The pieces that the rows of events on pins, links and transmitters may change. -/
def Piece.ofEvents : Piece → Bool
  | .pins | .levelCounters | .portLine | .receiver | .accepted | .rejects | .hits | .trunkLine => true
  | _ => false

/-- The rows that stand for no command: events, and the other steps of the Command Unit. -/
def ofEventRow : Instr → Bool
  | .powerOn | .resetPinAssert | .resetPinRelease | .initEnd _ | .malformedCommand | .waitingResponseBuild
  | .fragmentCompletion _ | .spacingDeadlinePasses _ _ | .expansionCompletes _ | .trunkLineDown | .trunkLineUp _
  | .fragmentReceived _ | .supervisionExpiry | .receiveLineActive _ | .headerReceived _ _ | .excessPayloadByte _
  | .receiveLineSilent _ _ _ | .jabberTimeout _ | .jabberRecovery _ | .silenceTimeout _ | .portLineDown _
  | .portLineUp _ | .transmissionCompletes _ | .loopbackCompletion _ _ | .portCellCheckFailure _ _
  | .unknownCommand => true
  | _ => false

/-- Every other row is a command's own. -/
theorem command_of_not_event {i : Instr} (h : ofEventRow i = false) : ∃ k : Command, i = k.instr := by
  cases i with
  | readRules => exact ⟨.readRules, rfl⟩
  | writeRule => exact ⟨.writeRule, rfl⟩
  | readNodeMap => exact ⟨.readNodeMap, rfl⟩
  | writeNodeMap => exact ⟨.writeNodeMap, rfl⟩
  | readLevel => exact ⟨.readLevel, rfl⟩
  | writeLevel => exact ⟨.writeLevel, rfl⟩
  | flushLevel => exact ⟨.flushLevel, rfl⟩
  | readPort => exact ⟨.readPort, rfl⟩
  | writePortConfig => exact ⟨.writePortConfig, rfl⟩
  | setPortMode => exact ⟨.setPortMode, rfl⟩
  | loadKey => exact ⟨.loadKey, rfl⟩
  | eraseKey => exact ⟨.eraseKey, rfl⟩
  | selectSlot => exact ⟨.selectSlot, rfl⟩
  | keyCheck => exact ⟨.keyCheck, rfl⟩
  | readKeyState => exact ⟨.readKeyState, rfl⟩
  | readStatus => exact ⟨.readStatus, rfl⟩
  | setMode => exact ⟨.setMode, rfl⟩
  | refresh => exact ⟨.refresh, rfl⟩
  | writeSupervision => exact ⟨.writeSupervision, rfl⟩
  | setTrunkConfig => exact ⟨.setTrunkConfig, rfl⟩
  | resetPart => exact ⟨.resetPart, rfl⟩
  | readRecords => exact ⟨.readRecords, rfl⟩
  | readFaults => exact ⟨.readFaults, rfl⟩
  | clearFaults => exact ⟨.clearFaults, rfl⟩
  | writeNoticeConfig => exact ⟨.writeNoticeConfig, rfl⟩
  | clearCounters => exact ⟨.clearCounters, rfl⟩
  | writeAccess => exact ⟨.writeAccess, rfl⟩
  | _ => cases h

theorem rowPieces_instr (k : Command) : rowPieces k.instr = k.pieces := by
  cases k <;> rfl

/-- A row's right is its command's, an event's, the end of an expansion's, or the supervision's. -/
theorem rowPieces_cases {i : Instr} {p : Piece} (h : p ∈ rowPieces i) (hi : i ≠ .waitingResponseBuild) :
    (∃ k : Command, i = k.instr ∧ p ∈ k.pieces) ∨ p.ofEvents = true ∨
      ((∃ k, i = .expansionCompletes k) ∧ (p = .slots ∨ p = .sequences)) ∨ (i = .supervisionExpiry ∧ p = .mode) := by
  cases hk : ofEventRow i with
  | false =>
    obtain ⟨k, rfl⟩ := command_of_not_event hk
    exact .inl ⟨k, rfl, rowPieces_instr k ▸ h⟩
  | true =>
    refine .inr ?_
    cases i with
    | waitingResponseBuild => exact absurd rfl hi
    | expansionCompletes k => exact .inr (.inl ⟨⟨k, rfl⟩, by simpa [rowPieces] using h⟩)
    | supervisionExpiry => exact .inr (.inr ⟨rfl, by simpa [rowPieces] using h⟩)
    | powerOn | resetPinAssert | resetPinRelease | initEnd | malformedCommand | unknownCommand | fragmentCompletion
    | spacingDeadlinePasses | trunkLineDown | trunkLineUp | fragmentReceived | receiveLineActive | headerReceived
    | excessPayloadByte | receiveLineSilent | jabberTimeout | jabberRecovery | silenceTimeout | portLineDown
    | portLineUp | transmissionCompletes | loopbackCompletion | portCellCheckFailure =>
      exact .inl (List.all_eq_true.mp rfl p h)
    | _ => cases hk

/-- Beside what events may change, `W` holds no more than the pieces of the commands that the row runs, and those of
the two events that end a time. -/
def Rights (s : State) (i : Instr) (W : Piece → Prop) : Prop :=
  ∀ p, p.ofEvents = false → W p → (∃ k, s.runs i k ∧ p ∈ k.pieces) ∨
    ((∃ k, i = .expansionCompletes k) ∧ (p = .slots ∨ p = .sequences)) ∨ (i = .supervisionExpiry ∧ p = .mode)

/-- What a row that is no reset may change, beside what events may: the pieces of the commands it runs, and those of
the two events that end a time. -/
theorem exec_rights {i : Instr} {s t : State} (h : exec i s = .next t) (hs : s.store.Conserved)
    (hr : mayReset i = false) :
    ∃ W : Piece → Prop, Moves W s t ∧ Rights s i W := by
  obtain ⟨W, hW, hrights⟩ := exec_moves_run h hs hr
  refine ⟨W, hW, fun p hevent hp => ?_⟩
  rcases hrights p hp with ⟨hrow, hi⟩ | hrun
  · rcases rowPieces_cases hrow hi with ⟨k, rfl, hk⟩ | he | hslots | hmode
    · exact .inl ⟨k, .inl rfl, hk⟩
    · rw [hevent] at he
      cases he
    · exact .inr (.inl hslots)
    · exact .inr (.inr hmode)
  · exact .inl hrun

theorem mayReset_eq_false {i : Instr} (h1 : i ≠ .powerOn) (h2 : i ≠ .resetPinAssert) (h3 : ∀ b, i ≠ .initEnd b)
    (h4 : i ≠ .resetPart) : mayReset i = false := by
  cases i with
  | powerOn => exact absurd rfl h1
  | resetPinAssert => exact absurd rfl h2
  | initEnd b => exact absurd rfl (h3 b)
  | resetPart => exact absurd rfl h4
  | _ => rfl

/-- The commands with the right over a piece that no event has. -/
def Piece.owners : Piece → List Command
  | .mode => [.setMode, .refresh]
  | .supervision => [.writeSupervision]
  | .attrs => [.writeLevel]
  | .portConfig => [.writePortConfig, .setPortMode]
  | .slots => [.loadKey, .eraseKey]
  | .active => [.selectSlot]
  | .sequences => [.eraseKey]
  | .rules => [.writeRule]
  | .nodeMap => [.writeNodeMap]
  | .fragSize => [.setTrunkConfig]
  | .access => [.writeAccess]
  | .notices => [.writeNoticeConfig]
  | .faultClear => [.clearFaults]
  | .logRead => [.readRecords]
  | _ => []

theorem Command.owns_pieces (k : Command) : (k.pieces.all fun p => p.ofEvents || p.owners.contains k) = true := by
  cases k <;> rfl

theorem Piece.mem_owners {k : Command} {p : Piece} (h : p ∈ k.pieces) (he : p.ofEvents = false) : k ∈ p.owners := by
  simpa [he] using List.all_eq_true.mp k.owns_pieces p h

/-- A piece is kept when none of its owners is run and no event that ends a time has it. -/
theorem no_right {i : Instr} {s : State} {W : Piece → Prop} {p : Piece}
    (h : Rights s i W) (he : p.ofEvents = false) (howners : ∀ k ∈ p.owners, ¬ s.runs i k)
    (hexp : p = .slots ∨ p = .sequences → ∀ k, i ≠ .expansionCompletes k)
    (hmode : p = .mode → i ≠ .supervisionExpiry) : ¬ W p := by
  intro hp
  rcases h p he hp with ⟨k, hk, hpk⟩ | ⟨⟨k, hk⟩, hpk⟩ | ⟨hi, hpm⟩
  · exact howners k (Piece.mem_owners hpk he) hk
  · exact hexp hpk k hk
  · exact hmode hpm hi

/-- Settles O8: no row but those left out has the right to start the sequences afresh. -/
theorem transmitSequencesNeverGoBack : Obligations.TransmitSequencesNeverGoBack := by
  unfold Obligations.TransmitSequencesNeverGoBack
  intro i s t hs h hrun hexp h1 h2 h3 h4 k l
  obtain ⟨W, hW, hrights⟩ := exec_rights h hs (mayReset_eq_false h1 h2 h3 h4)
  have hown : ∀ c ∈ Piece.sequences.owners, ¬ s.runs i c := by simpa [Piece.owners] using hrun
  exact hW.txSequence (no_right hrights rfl hown (fun _ => hexp) nofun) k l

/-- A piece with the one owner `k`, which no event ends a time for. -/
theorem no_right_of_one {i : Instr} {s : State} {W : Piece → Prop} {p : Piece} {k : Command}
    (h : Rights s i W) (he : p.ofEvents = false) (hp : p.owners = [k]) (hk : ¬ s.runs i k) (hslots : p ≠ .slots ∧ p ≠ .sequences)
    (hmode : p ≠ .mode) : ¬ W p := by
  refine no_right h he (fun c hc => ?_) (fun hs => ?_) fun hm => absurd hm hmode
  · rw [hp, List.mem_singleton] at hc
    exact hc ▸ hk
  · exact absurd hs (not_or.mpr hslots)

/-- Settles O10: each setting is a piece of its own, and only its owners have the right to change it. -/
theorem settingsChangeByTheirOwnCommandsAlone : Obligations.SettingsChangeByTheirOwnCommandsAlone := by
  unfold Obligations.SettingsChangeByTheirOwnCommandsAlone
  intro i s t hs h h1 h2 h3 h4
  obtain ⟨W, hW, hrights⟩ := exec_rights h hs (mayReset_eq_false h1 h2 h3 h4)
  have hno {p : Piece} {k : Command} := @no_right_of_one i s W p k hrights
  have htime : ¬ W .time := no_right hrights rfl (fun k hk => nomatch hk) nofun nofun
  refine ⟨?mode, ?supervision, ⟨hW.cause, hW.straps, hW.keeps_now htime, hW.pending⟩, ?attrs, ?portConfig, ?rules,
    ?nodeMap, ?fragSize, ?slots, ?active, ?access, ?notices⟩
  case mode =>
    intro hset hrefresh hexpiry
    have hown : ∀ c ∈ Piece.mode.owners, ¬ s.runs i c := by simpa [Piece.owners] using ⟨hset, hrefresh⟩
    have hn : ¬ W .mode := no_right hrights rfl hown nofun fun _ => hexpiry
    exact ⟨hW.keeps_mode hn, hW.keeps_mark hn⟩
  case supervision =>
    intro hk
    have hn : ¬ W .supervision := hno rfl rfl hk ⟨nofun, nofun⟩ nofun
    exact ⟨hW.keeps_period hn, hW.keeps_window hn⟩
  case attrs => exact fun hk => hW.keeps_attrs (hno rfl rfl hk ⟨nofun, nofun⟩ nofun)
  case portConfig =>
    intro hconfig hset
    have hown : ∀ c ∈ Piece.portConfig.owners, ¬ s.runs i c := by simpa [Piece.owners] using ⟨hconfig, hset⟩
    exact hW.keeps_portConfig (no_right hrights rfl hown nofun nofun)
  case rules => exact fun hk => hW.keeps_rule (hno rfl rfl hk ⟨nofun, nofun⟩ nofun)
  case nodeMap => exact fun hk => hW.keeps_nodeMap (hno rfl rfl hk ⟨nofun, nofun⟩ nofun)
  case fragSize => exact fun hk => hW.keeps_fragSize (hno rfl rfl hk ⟨nofun, nofun⟩ nofun)
  case slots =>
    intro hload herase hexp
    have hown : ∀ c ∈ Piece.slots.owners, ¬ s.runs i c := by simpa [Piece.owners] using ⟨hload, herase⟩
    exact hW.keeps_slots (no_right hrights rfl hown (fun _ => hexp) nofun)
  case active => exact fun hk => hW.keeps_active (hno rfl rfl hk ⟨nofun, nofun⟩ nofun)
  case access => exact fun hk => hW.keeps_access (hno rfl rfl hk ⟨nofun, nofun⟩ nofun)
  case notices =>
    intro hk
    have hn : ¬ W .notices := hno rfl rfl hk ⟨nofun, nofun⟩ nofun
    exact ⟨hW.keeps_noticeNode hn, hW.keeps_noticeKinds hn⟩

end Sys2Proof.Machine

/-! PROOFS. Every command goes on; the resets; Init takes nothing from outside. -/

namespace Sys2Proof.Machine

open Sys2Proof

/-! ### Every row answers a next state -/

theorem exec_instr (k : Command) (s : State) (hk : k ≠ .resetPart) : exec k.instr s = s.runCommand k k.act := by
  cases k with
  | resetPart => exact absurd rfl hk
  | _ => rfl

theorem State.runCommand_goes_on (s : State) (k : Command) (act : CommandAct) : ∃ t, s.runCommand k act = .next t := by
  unfold State.runCommand
  split
  · exact ⟨_, rfl⟩
  · split <;> exact ⟨_, rfl⟩

theorem execResetPart_goes_on (s : State) : ∃ t, execResetPart s = .next t := by
  unfold execResetPart
  split
  · exact ⟨_, rfl⟩
  · split
    · split <;> exact ⟨_, rfl⟩
    · exact ⟨_, rfl⟩

theorem exec_instr_goes_on (k : Command) (s : State) : ∃ t, exec k.instr s = .next t := by
  by_cases hk : k = .resetPart
  · subst hk
    exact execResetPart_goes_on s
  · rw [exec_instr k s hk]
    exact s.runCommand_goes_on k k.act

theorem goes_on_ite {c : Prop} [Decidable c] {x y : Result} (hx : ∃ t, x = .next t) (hy : ∃ t, y = .next t) :
    ∃ t, (if c then x else y) = .next t := by
  split
  · exact hx
  · exact hy

theorem State.done_goes_on (s : State) : ∃ t, s.done = .next t := ⟨_, rfl⟩

theorem next_goes_on (s : State) : ∃ t, (Host.Outcome.next s : Result) = .next t := ⟨s, rfl⟩

theorem exec_portCellCheckFailure_of_no_cell (p : PortNo) {cell : CellNo} (s : State) (h : Config.cellCount ≤ cell) :
    exec (.portCellCheckFailure p cell) s = .fault .noSuchCell := by
  simp [exec, execPortCellCheckFailure, h]

theorem exec_portCellCheckFailure_goes_on (p : PortNo) {cell : CellNo} (s : State) (h : cell < Config.cellCount) :
    ∃ t, exec (.portCellCheckFailure p cell) s = .next t := by
  simp only [exec, execPortCellCheckFailure, if_neg (Nat.not_le.mpr h)]
  split
  · exact next_goes_on _
  · exact goes_on_ite (State.done_goes_on _) (next_goes_on _)

/-- Settles O3: each row ends in a next state on every branch but the one of a cell that does not exist. -/
theorem everyCommandGoesOn : Obligations.EveryCommandGoesOn := by
  unfold Obligations.EveryCommandGoesOn
  refine ⟨fun c s hwf => ?_, fun p cell s h => exec_portCellCheckFailure_of_no_cell p s h⟩
  cases hk : ofEventRow c with
  | false =>
    obtain ⟨k, rfl⟩ := command_of_not_event hk
    exact exec_instr_goes_on k s
  | true =>
    cases c with
    | powerOn | resetPinRelease => exact next_goes_on _
    | resetPinAssert | initEnd => exact goes_on_ite (next_goes_on _) (next_goes_on _)
    | malformedCommand =>
      simp only [exec, execMalformedCommand]
      split
      · exact next_goes_on _
      · split
        · exact next_goes_on _
        · exact State.done_goes_on _
    | unknownCommand =>
      simp only [exec, execUnknownCommand]
      split
      · exact next_goes_on _
      · exact goes_on_ite (State.done_goes_on _) (next_goes_on _)
    | waitingResponseBuild | spacingDeadlinePasses | supervisionExpiry | jabberTimeout | jabberRecovery
    | silenceTimeout => exact goes_on_ite (State.done_goes_on _) (next_goes_on _)
    | trunkLineDown | trunkLineUp | fragmentReceived | receiveLineActive | receiveLineSilent | portLineDown
    | portLineUp => exact goes_on_ite (next_goes_on _) (State.done_goes_on _)
    | fragmentCompletion =>
      simp only [exec, execFragmentCompletion]
      split
      · exact next_goes_on _
      · exact State.done_goes_on _
    | expansionCompletes =>
      simp only [exec, execExpansionCompletes]
      split
      · exact State.done_goes_on _
      · exact next_goes_on _
      · exact next_goes_on _
    | headerReceived =>
      simp only [exec, execHeaderReceived]
      split
      · exact State.done_goes_on _
      all_goals exact next_goes_on _
    | excessPayloadByte =>
      simp only [exec, execExcessPayloadByte]
      split
      · exact State.done_goes_on _
      · exact State.done_goes_on _
      all_goals exact next_goes_on _
    | transmissionCompletes =>
      simp only [exec, execTransmissionCompletes]
      split
      · exact State.done_goes_on _
      all_goals exact next_goes_on _
    | loopbackCompletion =>
      simp only [exec, execLoopbackCompletion]
      split
      · exact State.done_goes_on _
      all_goals exact next_goes_on _
    | portCellCheckFailure p cell => exact exec_portCellCheckFailure_goes_on p s (of_decide_eq_true hwf)
    | _ => cases hk

/-! ### Resets (R157, R162 to R165) -/

theorem exec_resetPart_of_trunk {s found : State} {c : CommandFrame} (h : s.nextCommand = some (c, found))
    (hcode : c.code.toNat = 21) (hsender : c.sender = .trunk) :
    exec .resetPart s = .next (State.blank .init .resetCommand s.ctl.straps s.pins s.pending) := by
  have hm : Moves (fun _ => False) s found := .nextCommand h
  simp only [exec, execResetPart, h, Command.code, hcode, if_true, hsender, State.enterInit]
  rw [hm.straps, hm.keeps_pins id, hm.pending]

/-- Settles O12: the rows of the resets and of the end of Init, case by case. -/
theorem resetsStartInitAndInitEndsInSetup : Obligations.ResetsStartInitAndInitEndsInSetup := by
  unfold Obligations.ResetsStartInitAndInitEndsInSetup
  refine ⟨fun s => ⟨rfl, ?assert, ?asserted, rfl, fun c found => exec_resetPart_of_trunk⟩, ?ends, ?held, ?straps⟩
  case assert =>
    intro h
    simp [exec, execResetPinAssert, h, State.setResetPin, State.enterInit]
  case asserted =>
    intro h
    simp [exec, execResetPinAssert, h]
  case ends =>
    intro b s hm hp
    simp [exec, execInitEnd, hm, hp]
  case held =>
    intro b s hp
    simp [exec, execInitEnd, hp]
  case straps =>
    intro s
    refine ⟨fun h0 h255 => ⟨?_, ?_⟩, fun h => ⟨?_, ?_⟩⟩
    · exact if_neg (not_or.mpr ⟨h0, h255⟩)
    · exact Bool.and_eq_true_iff.mpr ⟨bne_iff_ne.mpr h0, bne_iff_ne.mpr h255⟩
    · simp only [State.self, selfAddress, if_pos h]
      rfl
    · rcases h with h | h <;> simp [State.strapsUsable, h]

/-! ### Init (R163) -/

section Init

variable (cause : ResetCause) (b : Byte) (entry pins : Pins) (cells : List CellNo) (q : List Instr)

/-- In Init the FIFO is empty and no command is in hand, so no command comes to its turn. -/
theorem exec_instr_in_init (k : Command) :
    exec k.instr (State.inInit cause b entry pins cells q) = .next (State.inInit cause b entry pins cells q) := by
  cases k <;> rfl

theorem State.inInit_port (p : PortNo) :
    (State.inInit cause b entry pins cells q).port p = .blank entry.portUp[p.val] entry.rxActive[p.val] :=
  State.blank_port .init cause b entry q p

theorem State.inInit_portState (p : PortNo) : (State.inInit cause b entry pins cells q).portState p = .offline := by
  simp [State.portState, Port.stateIn, State.inInit, State.blank]

theorem State.inInit_slot (k : Slot) : (State.inInit cause b entry pins cells q).slot k = .empty :=
  State.blank_slot .init cause b entry q k

theorem State.inInit_spacingDue (l : Level) : (State.inInit cause b entry pins cells q).spacingDue l = false := by
  obtain ⟨a, -, hl⟩ := State.blank_lvl .init cause b entry q l
  have hl' : (State.inInit cause b entry pins cells q).lvl l = .blank a := hl
  simp [State.spacingDue, hl', LevelEntry.blank]

theorem State.inInit_corrupt (lost : List CellNo) :
    (State.inInit cause b entry pins cells q).corrupt lost = State.inInit cause b entry pins (lost ++ cells) q := by
  simp only [State.corrupt, State.inInit]

theorem exec_event_in_init {i : Instr} (hrow : ofEventRow i = true) (hwf : i.wellFormed = true)
    (hr : ofResets i = false) :
    ∃ pins' cells', exec i (State.inInit cause b entry pins cells q) =
      .next (State.inInit cause b entry pins' cells' q) := by
  cases i with
  | malformedCommand | unknownCommand | waitingResponseBuild | supervisionExpiry | fragmentReceived =>
    exact ⟨pins, cells, rfl⟩
  | fragmentCompletion lost =>
    refine ⟨pins, lost ++ cells, ?_⟩
    simp only [exec, execFragmentCompletion, State.inInit_corrupt]
    rfl
  | spacingDeadlinePasses l lost =>
    refine ⟨pins, lost ++ cells, ?_⟩
    simp only [exec, execSpacingDeadlinePasses, State.inInit_corrupt, State.inInit_spacingDue, Bool.false_eq_true,
      if_false]
  | expansionCompletes k =>
    refine ⟨pins, cells, ?_⟩
    simp only [exec, execExpansionCompletes, State.inInit_slot]
  | trunkLineDown => exact ⟨{ pins with trunkUp := false }, cells, rfl⟩
  | trunkLineUp lost =>
    refine ⟨{ pins with trunkUp := true }, lost ++ cells, ?_⟩
    simp only [exec, execTrunkLineUp, State.inInit_corrupt]
    rfl
  | receiveLineActive p => exact ⟨{ pins with rxActive := pins.rxActive.set p.val true }, cells, rfl⟩
  | receiveLineSilent p bytes lost =>
    refine ⟨{ pins with rxActive := pins.rxActive.set p.val false }, lost ++ cells, ?_⟩
    simp only [exec, execReceiveLineSilent, State.inInit_corrupt]
    rfl
  | portLineDown p => exact ⟨{ pins with portUp := pins.portUp.set p.val false }, cells, rfl⟩
  | portLineUp p => exact ⟨{ pins with portUp := pins.portUp.set p.val true }, cells, rfl⟩
  | headerReceived p h =>
    refine ⟨pins, cells, ?_⟩
    simp only [exec, execHeaderReceived, State.inInit_port, Port.blank]
  | excessPayloadByte p =>
    refine ⟨pins, cells, ?_⟩
    simp only [exec, execExcessPayloadByte, State.inInit_port, Port.blank]
  | jabberTimeout p =>
    refine ⟨pins, cells, ?_⟩
    simp [exec, execJabberTimeout, State.jabberDue, State.inInit_portState, PortState.receives]
  | jabberRecovery p =>
    refine ⟨pins, cells, ?_⟩
    simp [exec, execJabberRecovery, State.recoveryDue, State.inInit_port, Port.blank]
  | silenceTimeout p =>
    refine ⟨pins, cells, ?_⟩
    simp [exec, execSilenceTimeout, State.silenceDue, State.inInit_portState, PortState.receives]
  | transmissionCompletes p =>
    refine ⟨pins, cells, ?_⟩
    simp only [exec, execTransmissionCompletes, State.inInit_port, Port.blank]
  | loopbackCompletion p lost =>
    refine ⟨pins, lost ++ cells, ?_⟩
    simp only [exec, execLoopbackCompletion, State.inInit_corrupt, State.inInit_port, Port.blank]
  | portCellCheckFailure p cell =>
    refine ⟨pins, cells, ?_⟩
    have hcell : ¬ Config.cellCount ≤ cell := Nat.not_le.mpr (of_decide_eq_true hwf)
    simp only [exec, execPortCellCheckFailure, if_neg hcell, State.inInit_port, Port.blank]
  | powerOn | resetPinAssert | resetPinRelease | initEnd => cases hr
  | _ => cases hrow

end Init

/-- Settles O13: no command's turn comes in Init, every port is Offline, and no event of the blocks is under way. -/
theorem initTakesNothingFromOutside : Obligations.InitTakesNothingFromOutside := by
  unfold Obligations.InitTakesNothingFromOutside
  intro i cause b entry pins cells q hwf hr
  cases hrow : ofEventRow i with
  | false =>
    obtain ⟨k, rfl⟩ := command_of_not_event hrow
    exact ⟨pins, cells, exec_instr_in_init cause b entry pins cells q k⟩
  | true => exact exec_event_in_init cause b entry pins cells q hrow hwf hr

end Sys2Proof.Machine

/-! PROOFS. Times that must not pass by (R70, R171): what a command does to the key slots and to the supervision mark,
and that the part's own steps leave time no room to pass a deadline. -/

namespace Sys2Proof.Machine

open Sys2Proof

/-! ### Relations between the ends of a step -/

/-- A relation that any work keeps and that every command's action keeps. -/
structure KeptByCommands (R : State → State → Prop) : Prop where
  trans : ∀ s t u, R s t → R t u → R s u
  work : ∀ s t, Moves (fun _ => False) s t → R s t
  act : ∀ (k : Command) (c : CommandFrame) (f s : State), k.takenIn s.ctl.mode = true → k.argsFit c.args = true →
    R s (k.act c f s).state

theorem State.takenIn_of_precheck {s : State} {k : Command} {c : CommandFrame} (h : s.precheck k c = none) :
    k.takenIn s.ctl.mode = true := by
  unfold State.precheck at h
  by_contra hno
  simp only [Bool.not_eq_true] at hno
  simp only [hno, Bool.not_false, if_true] at h
  split at h <;> cases h

section Kept

variable {R : State → State → Prop} (hR : KeptByCommands R)

include hR

theorem KeptByCommands.attempt (k : Command) (s : State) (c : CommandFrame) : R s (s.attempt k c k.act) := by
  have halloc := hR.work s _ (.allocReserve s Config.attemptCells (s.responseEntry c.node))
  unfold State.attempt
  split
  · next t heq => rw [heq] at halloc; exact halloc
  · next e t heq =>
    rw [heq] at halloc
    refine hR.trans _ _ _ halloc ?_
    split
    · next st u hp => exact hR.work _ _ ((Moves.precheck hp).trans (.finish u c e st []))
    · next hp =>
      have hact := hR.act k c s t (State.takenIn_of_precheck hp) (State.argsFit_of_precheck hp)
      split
      · next st r u hr => rw [hr] at hact; exact hR.trans _ _ _ hact (hR.work _ _ (.finish u c e st r))
      · next op u hr => rw [hr] at hact; exact hR.trans _ _ _ hact (hR.work _ _ (.recordLongOp u c e op))

theorem KeptByCommands.done {s t u : State} (h : R s t) (hd : t.done = .next u) : R s u := by
  rw [State.done_eq hd]
  exact hR.trans _ _ _ h (hR.work _ _ (.settle t))

theorem KeptByCommands.unchanged {s t : State} (h : (Host.Outcome.next s : Result) = .next t) : R s t :=
  hR.work _ _ (.quiet h)

theorem KeptByCommands.runCommand (k : Command) {s t : State} (h : s.runCommand k k.act = .next t) : R s t := by
  unfold State.runCommand at h
  split at h
  · exact hR.unchanged h
  · next c u hn =>
    split at h
    · exact hR.done (hR.trans _ _ _ (hR.work _ _ (.nextCommand hn)) (hR.attempt k u c)) h
    · exact hR.unchanged h

theorem KeptByCommands.attemptAny (s : State) (c : CommandFrame) : R s (s.attemptAny c) := by
  unfold State.attemptAny
  split
  · next k _ => exact hR.attempt k s c
  · exact hR.work _ _ (.attemptUnknown s c)

theorem KeptByCommands.runWaiting (s : State) : R s s.runWaiting := by
  have hcount : Moves (fun _ => False) s { s with cmd := { s.cmd with freed := s.cmd.freed - 1 } } :=
    .cmd s _ ⟨rfl, le_max_left _ _⟩
  have hbuild := hcount.trans (.buildWaiting s.cmd.waiting _)
  unfold State.runWaiting
  split
  · next t heq => rw [heq] at hbuild; exact hR.work _ _ hbuild
  · next t heq =>
    rw [heq] at hbuild
    split
    · exact hR.work _ _ hbuild
    · next c _ => exact hR.trans _ _ _ (hR.work _ _ hbuild) (hR.attemptAny t c)

/-- The relation holds across every row that runs commands, but for a reset. -/
theorem KeptByCommands.row {i : Instr} {s t : State} (hi : ofEventRow i = false ∨ i = .waitingResponseBuild)
    (h : exec i s = .next t) : R s t ∨ ∃ m c b p q, t = State.blank m c b p q := by
  rcases hi with hi | rfl
  · obtain ⟨k, rfl⟩ := command_of_not_event hi
    by_cases hk : k = .resetPart
    · subst hk
      simp only [Command.instr, exec, execResetPart] at h
      split at h
      · exact .inl (hR.unchanged h)
      · next c u hn =>
        split at h
        · split at h
          · cases h
            exact .inr ⟨_, _, _, _, _, rfl⟩
          · exact .inl (hR.done (hR.trans _ _ _ (hR.work _ _ (.nextCommand hn)) (hR.attempt .resetPart u c)) h)
        · exact .inl (hR.unchanged h)
    · rw [exec_instr k s hk] at h
      exact .inl (hR.runCommand k h)
  · simp only [exec, execWaitingResponseBuild] at h
    split at h
    · exact .inl (hR.done (hR.runWaiting s) h)
    · exact .inl (hR.unchanged h)

end Kept

/-! ### Expansions (R70) -/

/-- Every expansion that runs in `t` ran in `s` with the same start, or starts now. -/
def ExpansionsFrom (s t : State) : Prop :=
  t.now = s.now ∧ ∀ k key since, t.slot k = .expanding key since → s.slot k = .expanding key since ∨ since = s.now

theorem ExpansionsFrom.trans {s t u : State} (h : ExpansionsFrom s t) (h' : ExpansionsFrom t u) :
    ExpansionsFrom s u := by
  refine ⟨h'.1.trans h.1, fun k key since hu => ?_⟩
  rcases h'.2 k key since hu with ht | hnow
  · exact h.2 k key since ht
  · exact .inr (hnow.trans h.1)

theorem Moves.expansionsFrom {W : Piece → Prop} {s t : State} (h : Moves W s t) (htime : ¬ W .time)
    (hslots : ¬ W .slots) : ExpansionsFrom s t := by
  refine ⟨h.keeps_now htime, fun k key since ht => .inl ?_⟩
  unfold State.slot at ht ⊢
  rw [← h.keeps_slots hslots]
  exact ht

theorem State.setSlot_expansionsFrom (s : State) (k : Slot) (v : KeySlot)
    (hv : ∀ key since, v = .expanding key since → since = s.now) : ExpansionsFrom s (s.setSlot k v) := by
  refine ⟨rfl, fun j key since ht => ?_⟩
  by_cases hj : j = k
  · subst hj
    rw [State.slot_setSlot_same] at ht
    exact .inr (hv key since ht)
  · rw [State.slot_setSlot_ne s hj] at ht
    exact .inl ht

theorem State.resetSequences_expansionsFrom (s : State) (k : Slot) : ExpansionsFrom s (s.resetSequences k) :=
  ⟨rfl, fun _ _ _ ht => .inl ht⟩

theorem Command.no_time (k : Command) : Piece.time ∉ k.pieces := fun h => by
  simpa [Piece.owners] using Piece.mem_owners h rfl

theorem expansionsFrom_kept : KeptByCommands ExpansionsFrom where
  trans _ _ _ := ExpansionsFrom.trans
  work _ _ h := h.expansionsFrom id id
  act k c f s hm ha := by
    have hmoves : Moves (fun p => p ∈ k.pieces) s (k.act c f s).state := .act k (fun _ h => h) c f s ha
    by_cases hk : Piece.slots ∈ k.pieces
    · have hown : k = .loadKey ∨ k = .eraseKey := by simpa [Piece.owners] using Piece.mem_owners hk rfl
      rcases hown with rfl | rfl
      · simp only [Command.act, actLoadKey]
        split
        · exact (Moves.refl (W := fun _ => False) s).expansionsFrom id id
        · exact s.setSlot_expansionsFrom c.slot _ fun _ _ h => by cases h; rfl
      · simp only [Command.act, actEraseKey]
        split
        · exact (Moves.refl (W := fun _ => False) s).expansionsFrom id id
        · exact (s.setSlot_expansionsFrom c.slot .empty nofun).trans (State.resetSequences_expansionsFrom _ _)
    · exact hmoves.expansionsFrom k.no_time hk

theorem State.expansionEnds_expansionsFrom (s : State) (k : Slot) (key : Block) :
    ExpansionsFrom s (s.expansionEnds k key) := by
  have hready := (s.setSlot_expansionsFrom k (.ready key) nofun).trans (State.resetSequences_expansionsFrom _ k)
  have hend (u : State) : ExpansionsFrom u (u.endLongOp (.loadKey k)) :=
    (Moves.endLongOp (W := fun _ => False) u _).expansionsFrom id id
  unfold State.expansionEnds
  split
  · exact (hready.trans (hend _)).trans ⟨rfl, fun _ _ _ h => .inl h⟩
  · exact hready.trans (hend _)

/-- Every expansion after a command ran before it, or starts with it, unless the command is a reset. -/
theorem exec_expansionsFrom {i : Instr} {s t : State} (hs : s.store.Conserved) (h : exec i s = .next t) :
    ExpansionsFrom s t ∨ ∃ m c b p q, t = State.blank m c b p q := by
  by_cases hi : ofEventRow i = false ∨ i = .waitingResponseBuild
  · exact expansionsFrom_kept.row hi h
  · rw [not_or, Bool.not_eq_false] at hi
    obtain ⟨hrow, hne⟩ := hi
    by_cases hexp : ∃ k, i = .expansionCompletes k
    · obtain ⟨k, rfl⟩ := hexp
      simp only [exec, execExpansionCompletes] at h
      split at h
      · exact .inl (expansionsFrom_kept.done (s.expansionEnds_expansionsFrom k _) h)
      all_goals exact .inl (expansionsFrom_kept.unchanged h)
    · rcases exec_moves h hs with hm | ⟨-, hblank⟩
      · have hno {p : Piece} (hp : p.ofEvents = false) (hmode : p ≠ .mode) : ¬ mayChange i p := by
          intro hc
          rcases rowPieces_cases hc hne with ⟨k, rfl, -⟩ | he | ⟨hk, -⟩ | ⟨-, he⟩
          · cases k <;> cases hrow
          · rw [hp] at he; cases he
          · exact hexp hk
          · exact hmode he
        exact .inl (hm.expansionsFrom (hno rfl nofun) (hno rfl nofun))
      · exact .inr hblank

/-! ### Time (R164) -/

theorem elapsed_self (n : Word) : elapsed n n = 0 := by simp [elapsed]

/-- One more microsecond has passed, when the count does not wrap. -/
theorem elapsed_tick {start n : Word} (h : elapsed start n < 2 ^ 32 - 1) :
    elapsed start (n + 1) = elapsed start n + 1 := by
  unfold elapsed at h ⊢
  have hsub : n + 1 - start = (n - start) + 1 := by
    rw [BitVec.sub_eq_add_neg, BitVec.sub_eq_add_neg, BitVec.add_assoc, BitVec.add_comm 1, ← BitVec.add_assoc]
  rw [hsub, BitVec.toNat_add]
  exact Nat.mod_eq_of_lt (by show (n - start).toNat + 1 < 2 ^ 32; omega)

theorem elapsed_tick_le {start n : Word} {bound : Nat} (h : elapsed start n < bound) (hb : bound < 2 ^ 32) :
    elapsed start (n + 1) ≤ bound := by
  rw [elapsed_tick (by omega)]
  exact h

/-- When nothing is due of the part's own, no time has come. -/
theorem State.dueTimes_of_no_ownStep {s : State} (h : s.ownStep = none) (hm : s.ctl.mode ≠ .init) :
    s.dueTimes = [] := by
  unfold State.ownStep at h
  rw [if_neg hm] at h
  split at h
  · cases h
  · split at h
    · next ht =>
      obtain ⟨e, rest, hfifo⟩ : ∃ e rest, s.cmd.fifo = e :: rest := by
        cases hf : s.cmd.fifo with
        | nil => simp [State.canTake, hf] at ht
        | cons e rest => exact ⟨e, rest, rfl⟩
      rw [hfifo] at h
      cases h
    · exact List.head?_eq_none_iff.mp h

theorem State.not_expansionDue {s : State} (h : s.dueTimes = []) (k : Slot) : s.expansionDue k = false := by
  simp only [State.dueTimes, List.append_eq_nil_iff, List.map_eq_nil_iff, List.filter_eq_nil_iff] at h
  have hslots := h.1.1.1.1.1
  rw [Bool.eq_false_iff]
  refine hslots k ?_
  match k with
  | 0 => simp
  | 1 => simp

theorem State.not_supervisionDue {s : State} (h : s.dueTimes = []) : s.supervisionDue = false := by
  simp only [State.dueTimes, List.append_eq_nil_iff] at h
  have hsup := h.1.1.1.1.2
  split at hsup
  · cases hsup
  · next hno => exact Bool.eq_false_iff.mpr hno

theorem State.ExpansionsInTime.tick {s : State} (hs : s.ExpansionsInTime) (h : s.ownStep = none) :
    s.tick.ExpansionsInTime := by
  rcases s.tick_cases with ht | ⟨hm, ht⟩
  · rw [ht]; exact hs
  · rw [ht]
    intro k key since hk
    have hslot : s.slot k = .expanding key since := hk
    have hdue := State.not_expansionDue (State.dueTimes_of_no_ownStep h hm) k
    simp only [State.expansionDue, hslot, decide_eq_false_iff_not, not_le] at hdue
    exact elapsed_tick_le hdue (by decide)

theorem ExpansionsFrom.inTime {s t : State} (h : ExpansionsFrom s t) (hs : s.ExpansionsInTime) :
    t.ExpansionsInTime := by
  intro k key since ht
  rw [h.1]
  rcases h.2 k key since ht with hk | rfl
  · exact hs k key since hk
  · rw [elapsed_self]
    exact Nat.zero_le _

/-! ### The supervision mark (R171) -/

theorem Moves.keeps_ctl {W : Piece → Prop} {s t : State} (h : Moves W s t) (h0 : ¬ W .mode)
    (h1 : ¬ W .supervision) : t.ctl = s.ctl := by
  have h2 := h.cause
  have h3 := h.straps
  have h4 := h.keeps_mode h0
  have h5 := h.keeps_mark h0
  have h6 := h.keeps_refreshSeen h0
  have h7 := h.keeps_period h1
  have h8 := h.keeps_window h1
  cases hs : s.ctl
  cases ht : t.ctl
  rw [hs, ht] at h2 h3 h4 h5 h6 h7 h8
  simp_all only

/-- Every right but those over the modes. -/
def modesStay (p : Piece) : Prop := p ≠ .mode ∧ p ≠ .supervision

theorem Moves.ctl_of_modesStay {s t : State} (h : Moves modesStay s t) : t.ctl = s.ctl :=
  h.keeps_ctl (fun h => h.1 rfl) fun h => h.2 rfl

theorem State.enterSetup_ctl (s : State) : s.enterSetup.ctl = { s.ctl with mode := .setup, mark := none } := by
  have h : Moves modesStay { s with ctl := { s.ctl with mode := .setup, mark := none } } s.enterSetup :=
    .chain (.trigger _) (.chain (.endReassembly ⟨nofun, nofun⟩ _)
      (.chain (.foldl State.bar (fun u l => .bar u l) _ _) (.portsReact ⟨nofun, nofun⟩ _ s)))
  exact h.ctl_of_modesStay

theorem State.enterRun_ctl (s : State) : s.enterRun.ctl =
    { s.ctl with mode := .run, mark := if 0 < s.ctl.period then some s.now else none } := by
  have h : Moves modesStay { s with ctl := { s.ctl with
      mode := .run, mark := if 0 < s.ctl.period then some s.now else none } } s.enterRun :=
    .chain (.trigger _) (.portsReact ⟨nofun, nofun⟩ _ s)
  exact h.ctl_of_modesStay

theorem State.enterFallback_ctl (s : State) :
    s.enterFallback.ctl = { s.ctl with mode := .fallback, mark := none, refreshSeen := false } := by
  have h : Moves modesStay { s with ctl := { s.ctl with mode := .fallback, mark := none, refreshSeen := false } }
      s.enterFallback :=
    .chain (.trigger _) (.foldl State.barUnlessEssential (fun u l => .barUnlessEssential u l) _ _)
  exact h.ctl_of_modesStay

/-- The mark that supervises `t` supervised `s`, with the same period, or is set now. -/
def MarkFrom (s t : State) : Prop :=
  t.now = s.now ∧ (t.ctl.mode = .run → 0 < t.ctl.period → ∀ m, t.ctl.mark = some m →
    m = s.now ∨ (s.ctl.mode = .run ∧ s.ctl.mark = some m ∧ s.ctl.period = t.ctl.period))

theorem MarkFrom.trans {s t u : State} (h : MarkFrom s t) (h' : MarkFrom t u) : MarkFrom s u := by
  refine ⟨h'.1.trans h.1, fun hm hp m hmark => ?_⟩
  rcases h'.2 hm hp m hmark with hnow | ⟨htm, htmark, htp⟩
  · exact .inl (hnow.trans h.1)
  · rw [← htp] at hp ⊢
    exact h.2 htm hp m htmark

theorem Moves.markFrom {W : Piece → Prop} {s t : State} (h : Moves W s t) (htime : ¬ W .time) (hmode : ¬ W .mode)
    (hsup : ¬ W .supervision) : MarkFrom s t := by
  have hctl := h.keeps_ctl hmode hsup
  exact ⟨h.keeps_now htime, fun hm _ m hmark => .inr ⟨hctl ▸ hm, hctl ▸ hmark, by rw [hctl]⟩⟩

theorem MarkFrom.refl (s : State) : MarkFrom s s := (Moves.refl (W := fun _ => False) s).markFrom id id id

theorem MarkFrom.of_mode {s t : State} (hnow : t.now = s.now) (h : t.ctl.mode ≠ .run) : MarkFrom s t :=
  ⟨hnow, fun hm => absurd hm h⟩

theorem State.enterSetup_now (s : State) : s.enterSetup.now = s.now :=
  (Moves.enterSetup (W := fun p => p ≠ .time) nofun nofun nofun s).keeps_now fun h => h rfl

theorem State.enterRun_now (s : State) : s.enterRun.now = s.now :=
  (Moves.enterRun (W := fun p => p ≠ .time) nofun nofun s).keeps_now fun h => h rfl

theorem State.enterFallback_now (s : State) : s.enterFallback.now = s.now :=
  (Moves.enterFallback (W := fun p => p ≠ .time) nofun s).keeps_now fun h => h rfl

theorem State.enterSetup_markFrom (s : State) : MarkFrom s s.enterSetup :=
  .of_mode s.enterSetup_now (by rw [s.enterSetup_ctl]; nofun)

theorem State.enterFallback_markFrom (s : State) : MarkFrom s s.enterFallback :=
  .of_mode s.enterFallback_now (by rw [s.enterFallback_ctl]; nofun)

theorem State.enterRun_markFrom (s : State) : MarkFrom s s.enterRun := by
  refine ⟨s.enterRun_now, fun _ _ m hmark => .inl ?_⟩
  rw [s.enterRun_ctl] at hmark
  dsimp only at hmark
  split at hmark
  · cases hmark; rfl
  · cases hmark

theorem State.raise_markFrom (s : State) (k : FaultKind) (f : FaultFields) : MarkFrom s (s.raise k f) :=
  (Moves.raise (W := fun _ => False) s k f).markFrom id id id

theorem actSetMode_markFrom (c : CommandFrame) (f s : State) : MarkFrom s (actSetMode c f s).state := by
  unfold actSetMode
  split
  · exact s.enterSetup_markFrom
  · exact s.enterSetup_markFrom
  · split
    · exact s.enterRun_markFrom
    · exact .refl s
  · split
    · exact s.enterRun_markFrom
    · exact .refl s
  · exact .refl s
  · exact s.enterFallback_markFrom
  all_goals exact .refl s

theorem actRefresh_markFrom (c : CommandFrame) (f s : State) : MarkFrom s (actRefresh c f s).state := by
  unfold actRefresh
  split
  · exact .refl s
  · exact .refl s
  · split
    · exact .refl s
    · split
      · dsimp only [Reply.state]
        exact s.enterFallback_markFrom.trans (s.enterFallback.raise_markFrom .supervisionEarly {})
      · refine ⟨rfl, fun _ _ m hmark => .inl ?_⟩
        cases hmark
        rfl
  · next hm => exact .of_mode rfl fun h => nomatch hm.symm.trans h

theorem actWriteSupervision_markFrom (c : CommandFrame) (f s : State) (hm : s.ctl.mode ≠ .run) :
    MarkFrom s (actWriteSupervision c f s).state := by
  unfold actWriteSupervision
  split
  · exact .refl s
  · exact .of_mode rfl hm

theorem markFrom_kept : KeptByCommands MarkFrom where
  trans _ _ _ := MarkFrom.trans
  work _ _ h := h.markFrom id id id
  act k c f s hm ha := by
    have hmoves : Moves (fun p => p ∈ k.pieces) s (k.act c f s).state := .act k (fun _ h => h) c f s ha
    by_cases hmode : Piece.mode ∈ k.pieces
    · have hown : k = .setMode ∨ k = .refresh := by simpa [Piece.owners] using Piece.mem_owners hmode rfl
      rcases hown with rfl | rfl
      · exact actSetMode_markFrom c f s
      · exact actRefresh_markFrom c f s
    · by_cases hsup : Piece.supervision ∈ k.pieces
      · obtain rfl : k = .writeSupervision := by simpa [Piece.owners] using Piece.mem_owners hsup rfl
        refine actWriteSupervision_markFrom c f s fun hrun => ?_
        rw [hrun] at hm
        cases hm
      · exact hmoves.markFrom k.no_time hmode hsup

/-- The mark after a command stood before it, or is set with it, unless the command is a reset. -/
theorem exec_markFrom {i : Instr} {s t : State} (hs : s.store.Conserved) (h : exec i s = .next t) :
    MarkFrom s t ∨ ∃ m c b p q, t = State.blank m c b p q := by
  by_cases hi : ofEventRow i = false ∨ i = .waitingResponseBuild
  · exact markFrom_kept.row hi h
  · rw [not_or, Bool.not_eq_false] at hi
    obtain ⟨hrow, hne⟩ := hi
    by_cases hexp : i = .supervisionExpiry
    · subst hexp
      simp only [exec, execSupervisionExpiry] at h
      split at h
      · exact .inl (markFrom_kept.done (s.enterFallback_markFrom.trans (State.raise_markFrom _ _ _)) h)
      · exact .inl (markFrom_kept.unchanged h)
    · rcases exec_moves h hs with hm | ⟨-, hblank⟩
      · have hno {p : Piece} (hp : p.ofEvents = false) (hslots : ¬ (p = .slots ∨ p = .sequences)) :
            ¬ mayChange i p := by
          intro hc
          rcases rowPieces_cases hc hne with ⟨k, rfl, -⟩ | he | ⟨-, he⟩ | ⟨he, -⟩
          · cases k <;> cases hrow
          · rw [hp] at he; cases he
          · exact hslots he
          · exact hexp he
        exact .inl (hm.markFrom (hno rfl nofun) (hno rfl nofun) (hno rfl nofun))
      · exact .inr hblank

theorem MarkFrom.inTime {s t : State} (h : MarkFrom s t) (hs : s.SupervisionInTime) : t.SupervisionInTime := by
  intro hm hp m hmark
  rw [h.1]
  rcases h.2 hm hp m hmark with rfl | ⟨hsm, hsmark, hsp⟩
  · rw [elapsed_self]
    exact Nat.zero_le _
  · rw [← hsp] at hp ⊢
    exact hs hsm hp m hsmark

theorem State.SupervisionInTime.tick {s : State} (hs : s.SupervisionInTime) (hl : s.Lawful)
    (h : s.ownStep = none) : s.tick.SupervisionInTime := by
  rcases s.tick_cases with ht | ⟨hm, ht⟩
  · rw [ht]; exact hs
  · rw [ht]
    intro hrun hp m hmark
    have hrun' : s.ctl.mode = .run := hrun
    have hp' : 0 < s.ctl.period := hp
    have hmark' : s.ctl.mark = some m := hmark
    have hdue := State.not_supervisionDue (State.dueTimes_of_no_ownStep h hm)
    simp only [State.supervisionDue, hrun', hp', State.sinceMark, hmark', decide_true, Bool.true_and, Option.map_some,
      Option.any_some, decide_eq_false_iff_not, not_le] at hdue
    have hperiod := hl.period
    exact elapsed_tick_le hdue (by show s.ctl.period * 1000 < 2 ^ 32; omega)

/-- Settles O4: a command starts expansions and supervision afresh or leaves them; time passes only when no time that
has come is left (`State.dueTimes_of_no_ownStep`). -/
theorem deadlinesAreNeverPassedBy : Obligations.DeadlinesAreNeverPassedBy := by
  unfold Obligations.DeadlinesAreNeverPassedBy
  refine ⟨fun s t hs htime h => ?expansions, fun s t hs hl htime h => ?supervision⟩
  case expansions =>
    rcases step_cases h with ⟨c, q, hc⟩ | ⟨hown, rfl⟩
    · rcases exec_expansionsFrom (s := { s with pending := q }) hs hc with hfrom | ⟨m, r, b, p, q', rfl⟩
      · exact hfrom.inTime htime
      · intro k key since hk
        rw [State.blank_slot] at hk
        cases hk
    · exact htime.tick hown
  case supervision =>
    rcases step_cases h with ⟨c, q, hc⟩ | ⟨hown, rfl⟩
    · rcases exec_markFrom (s := { s with pending := q }) hs hc with hfrom | ⟨m, r, b, p, q', rfl⟩
      · exact hfrom.inTime htime
      · intro _ _ m' hmark
        cases hmark
    · exact htime.tick hl hown

end Sys2Proof.Machine

/-! PROOFS. The Frame Store: what an allocation takes and a release gives back (R29 to R33), and that payload bytes are
read as they were written (R27, R34). -/

namespace Sys2Proof.Machine

open Sys2Proof

/-! ### Allocations (R31 to R33) -/

theorem Store.take_of_cons {st : Store} {e : EntryNo} {rest : List EntryNo} (h : st.freeEntries = e :: rest)
    (cells : Nat) (f : FrameEntry) :
    st.take cells f = some (e, { st with
      freeEntries := rest
      freeCells := st.freeCells.drop cells
      entries := putEntry st.entries e { f with cells := st.freeCells.take cells, holders := 1 } }) := by
  unfold Store.take
  rw [h]

theorem State.entry?_putEntry {t : State} {e : EntryNo} {f : FrameEntry} {entries : List (EntryNo × FrameEntry)}
    (h : t.store.entries = putEntry entries e f) : t.entry? e = some f := by
  unfold State.entry?
  rw [h]
  exact lookup_putEntry_same _ e f

/-- What a successful allocation of some cells for `f` gives. -/
structure Allocated (s : State) (n : Nat) (f : FrameEntry) (e : EntryNo) (t : State) : Prop where
  free : ∃ rest, s.store.freeEntries = e :: rest
  entries : t.store.freeEntries.length + 1 = s.store.freeEntries.length
  cells : t.store.freeCells.length + n = s.store.freeCells.length
  same : t = { s with store := t.store }
  mem : t.store.mem = s.store.mem
  entry : t.entry? e = some { f with cells := s.store.freeCells.take n, holders := 1 }

/-- R31: the entry and the cells taken, and nothing else. -/
theorem State.allocated_of_take (s : State) {cells : Nat} {f : FrameEntry} {e : EntryNo} {rest : List EntryNo}
    (h : s.store.freeEntries = e :: rest) (hcells : cells ≤ s.store.freeCells.length) :
    Allocated s cells f e { s with store := { s.store with
      freeEntries := rest
      freeCells := s.store.freeCells.drop cells
      entries := putEntry s.store.entries e { f with cells := s.store.freeCells.take cells, holders := 1 } } } where
  free := ⟨rest, h⟩
  entries := by rw [h]; rfl
  cells := by
    change (s.store.freeCells.drop cells).length + cells = _
    rw [List.length_drop]
    omega
  same := rfl
  mem := rfl
  entry := State.entry?_putEntry rfl

theorem State.allocReserve_of_ok {s : State} {n : Nat} (f : FrameEntry) (h1 : 1 ≤ s.store.freeEntries.length)
    (h2 : n ≤ s.store.freeCells.length) : ∃ e t, s.allocReserve n f = (some e, t) ∧ Allocated s n f e t := by
  obtain ⟨e, rest, hfree⟩ := List.exists_cons_of_length_pos h1
  refine ⟨e, _, ?_, s.allocated_of_take hfree h2⟩
  have hok : s.store.reserveOk n = true := by simp [Store.reserveOk, h1, h2]
  simp only [State.allocReserve, hok, if_true, Store.take_of_cons hfree]

theorem State.allocReserve_of_short {s : State} {n : Nat} (f : FrameEntry)
    (h : s.store.freeEntries.length = 0 ∨ s.store.freeCells.length < n) :
    s.allocReserve n f = (none, s.refuseAlloc) := by
  have hok : s.store.reserveOk n = false := by
    simp only [Store.reserveOk, Bool.and_eq_false_iff, decide_eq_false_iff_not]
    omega
  simp [State.allocReserve, hok]

theorem State.allocTraffic_of_ok {s : State} (f : FrameEntry) (h1 : 12 < s.store.freeEntries.length)
    (h2 : cellsFor f.len + 24 ≤ s.store.freeCells.length) :
    ∃ e t, s.allocTraffic f = (some e, t) ∧ Allocated s (cellsFor f.len) f e t := by
  obtain ⟨e, rest, hfree⟩ := List.exists_cons_of_length_pos (Nat.zero_lt_of_lt h1)
  refine ⟨e, _, ?_, s.allocated_of_take hfree (by omega)⟩
  have hok : s.store.trafficOk (cellsFor f.len) = true := by
    simp [Store.trafficOk, Config.reservedEntries, Config.reservedCells, h1, h2]
  simp only [State.allocTraffic, hok, if_true, Store.take_of_cons hfree]

theorem State.allocTraffic_of_short {s : State} (f : FrameEntry)
    (h : s.store.freeEntries.length ≤ 12 ∨ s.store.freeCells.length < cellsFor f.len + 24) :
    s.allocTraffic f = (none, s.refuseAlloc) := by
  have hok : s.store.trafficOk (cellsFor f.len) = false := by
    have h' : ¬ 12 < s.store.freeEntries.length ∨ ¬ cellsFor f.len + 24 ≤ s.store.freeCells.length := by omega
    exact Bool.and_eq_false_iff.mpr (h'.imp decide_eq_false decide_eq_false)
  simp [State.allocTraffic, hok]

/-! ### Releases (R29, R30) -/

theorem State.release_of_last {s : State} {e : EntryNo} {f : FrameEntry} (h : s.entry? e = some f)
    (hlast : f.holders ≤ 1) : s.release e = { s with store := s.store.free e f, cmd := s.cmd.noteFreed } := by
  simp [State.release, h, hlast]

theorem State.release_of_more {s : State} {e : EntryNo} {f : FrameEntry} (h : s.entry? e = some f)
    (hmore : 1 < f.holders) : s.release e = s.modEntry e fun f => { f with holders := f.holders - 1 } := by
  simp [State.release, h, Nat.not_le.mpr hmore]

theorem State.release_retired (s : State) (e : EntryNo) : (s.release e).store.retired = s.store.retired := by
  unfold State.release
  split
  · rfl
  · split <;> rfl

theorem State.release_mem (s : State) (e : EntryNo) : (s.release e).store.mem = s.store.mem := by
  unfold State.release
  split
  · rfl
  · split <;> rfl

theorem State.entry?_modEntry_same (s : State) (e : EntryNo) (g : FrameEntry → FrameEntry) :
    (s.modEntry e g).entry? e = (s.entry? e).map g :=
  lookup_changeEntry_same s.store.entries e g

/-- Settles O27. -/
theorem allocationTakesAndReleaseGivesBack : Obligations.AllocationTakesAndReleaseGivesBack := by
  unfold Obligations.AllocationTakesAndReleaseGivesBack
  have hspec {s t : State} {cells : Nat} {f : FrameEntry} {e : EntryNo} (h : Allocated s cells f e t) :
      e ∈ s.store.freeEntries ∧ t.store.freeEntries.length + 1 = s.store.freeEntries.length ∧
        t.store.freeCells.length + cells = s.store.freeCells.length ∧ t = { s with store := t.store } ∧
        t.store.mem = s.store.mem ∧ ∃ g, t.entry? e = some g ∧ g = { f with cells := g.cells, holders := 1 } ∧
          g.cells.length = cells ∧ ∀ x ∈ g.cells, x ∈ s.store.freeCells := by
    obtain ⟨rest, hfree⟩ := h.free
    refine ⟨hfree ▸ List.mem_cons_self, h.entries, h.cells, h.same, h.mem, _, h.entry, rfl, ?_,
      fun x hx => List.mem_of_mem_take hx⟩
    exact List.length_take_of_le (h.cells ▸ Nat.le_add_left _ _)
  refine ⟨fun s f n => ⟨?traffic, s.allocTraffic_of_short f, ?reserve, s.allocReserve_of_short f⟩,
    fun s e f hf => ⟨fun hlast => ?last, fun hmore => ?more, fun d hd => s.entry?_release_ne hd, s.release_retired e,
      s.release_mem e⟩⟩
  case traffic =>
    intro h1 h2
    obtain ⟨e, t, heq, h⟩ := s.allocTraffic_of_ok f h1 h2
    exact ⟨e, t, heq, hspec h⟩
  case reserve =>
    intro h1 h2
    obtain ⟨e, t, heq, h⟩ := s.allocReserve_of_ok f h1 h2
    exact ⟨e, t, heq, hspec h⟩
  case last =>
    rw [State.release_of_last hf hlast]
    exact ⟨lookup_dropEntry_same _ e, List.perm_append_singleton e _, List.perm_append_comm⟩
  case more =>
    rw [State.release_of_more hf hmore, State.entry?_modEntry_same, hf]
    exact ⟨rfl, rfl, rfl⟩

/-! ### Where payload bytes lie (R27) -/

theorem FrameEntry.address?_eq_some {f : FrameEntry} {j a : Nat} :
    f.address? j = some a ↔ ∃ c : Nat, f.cells[(j + 16) / 64]? = some c ∧ c * 64 + (j + 16) % 64 = a := by
  simp [FrameEntry.address?, Config.headerSize, Config.cellSize]

/-- Two payload bytes of a frame lie at two addresses, when its cells differ. -/
theorem FrameEntry.address?_injective {f : FrameEntry} (hn : f.cells.Nodup) {i j a : Nat}
    (hi : f.address? i = some a) (hj : f.address? j = some a) : i = j := by
  obtain ⟨c, hc, hca⟩ := FrameEntry.address?_eq_some.mp hi
  obtain ⟨d, hd, hda⟩ := FrameEntry.address?_eq_some.mp hj
  have hcell : c = d := by omega
  subst hcell
  have hlt : (i + 16) / 64 < f.cells.length := (List.getElem?_eq_some_iff.mp hc).1
  have hplace : (i + 16) / 64 = (j + 16) / 64 := (List.getElem?_inj hlt hn).mp (hc.trans hd.symm)
  omega

theorem FrameEntry.address?_of_lt {f : FrameEntry} {j : Nat} (h : j + 16 < f.cells.length * 64) :
    ∃ a, f.address? j = some a := by
  have hlt : (j + 16) / 64 < f.cells.length := by omega
  exact ⟨_, FrameEntry.address?_eq_some.mpr ⟨_, List.getElem?_eq_getElem hlt, rfl⟩⟩

/-! ### Writing and reading bytes -/

theorem FrameEntry.read_writeBytes_other (f : FrameEntry) {m : Memory} (hm : m.wf = true) {a : Nat} (j : Nat)
    (bs : List Byte) (h : ∀ i, i < bs.length → f.address? (j + i) ≠ some a) :
    (f.writeBytes m j bs).read a = m.read a := by
  induction bs generalizing m j with
  | nil => rfl
  | cons b bs ih =>
    have hrest : ∀ i, i < bs.length → f.address? (j + 1 + i) ≠ some a := fun i hi => by
      rw [Nat.add_assoc, Nat.add_comm 1]
      exact h (i + 1) (Nat.succ_lt_succ hi)
    unfold FrameEntry.writeBytes
    split
    · next x hx =>
      have hne : a ≠ x := by
        rintro rfl
        exact h 0 (Nat.succ_pos _) hx
      rw [ih (Memory.wf_write hm x b) (j + 1) hrest, Memory.read_write hm, if_neg hne]
    · exact ih hm (j + 1) hrest

theorem FrameEntry.read_writeBytes_at {f : FrameEntry} (hn : f.cells.Nodup) {m : Memory} (hm : m.wf = true)
    {a i j : Nat} {b : Byte} {bs : List Byte} (hb : bs[i]? = some b) (ha : f.address? (j + i) = some a) :
    (f.writeBytes m j bs).read a = b := by
  induction bs generalizing m i j with
  | nil => cases hb
  | cons x xs ih =>
    cases i with
    | zero =>
      obtain rfl : x = b := by simpa using hb
      have hj : f.address? j = some a := ha
      have hrest : ∀ k, k < xs.length → f.address? (j + 1 + k) ≠ some a := fun k _ hk => by
        have := f.address?_injective hn hj hk
        omega
      unfold FrameEntry.writeBytes
      rw [hj]
      dsimp only
      rw [f.read_writeBytes_other (Memory.wf_write hm a x) (j + 1) xs hrest, Memory.read_write hm, if_pos rfl]
    | succ i =>
      have hx : xs[i]? = some b := by simpa using hb
      have hax : f.address? (j + 1 + i) = some a := by rwa [Nat.add_assoc, Nat.add_comm 1]
      unfold FrameEntry.writeBytes
      split
      · next y _ => exact ih (Memory.wf_write hm y x) hx hax
      · exact ih hm hx hax

theorem Store.Conserved.cells_nodup {st : Store} (h : st.Conserved) {e : EntryNo} {f : FrameEntry}
    (hf : st.entries.lookup e = some f) : f.cells.Nodup := by
  have hall : (st.freeCells ++ st.retired ++ st.entries.flatMap fun x => x.2.cells).Nodup :=
    h.cells.nodup_iff.mpr List.nodup_range
  exact (List.nodup_flatMap.mp (List.nodup_append.mp hall).2.1).1 (e, f) (lookup_mem hf)

theorem State.entryAt_of_entry {s : State} {e : EntryNo} {f : FrameEntry} (h : s.entry? e = some f) :
    s.entryAt e = f := by
  unfold State.entryAt
  rw [h]
  rfl

theorem State.writePayload_mem {s : State} {e : EntryNo} {f : FrameEntry} (h : s.entry? e = some f) (offset : Nat)
    (bytes : List Byte) : (s.writePayload e offset bytes).store.mem = f.writeBytes s.store.mem offset bytes := by
  unfold State.writePayload
  rw [State.entryAt_of_entry h]

/-- Bytes written into a frame's cells are read back. -/
theorem State.payloadByte_writePayload {s : State} {e : EntryNo} {f : FrameEntry} (hm : s.store.mem.wf = true)
    (hf : s.entry? e = some f) (hn : f.cells.Nodup) {offset i : Nat} {bytes : List Byte} {b : Byte}
    (hfit : offset + bytes.length + 16 ≤ f.cells.length * 64) (hb : bytes[i]? = some b) :
    (s.writePayload e offset bytes).payloadByte f (offset + i) = b := by
  have hi : i < bytes.length := (List.getElem?_eq_some_iff.mp hb).1
  obtain ⟨a, ha⟩ := f.address?_of_lt (j := offset + i) (by omega)
  unfold State.payloadByte
  rw [ha, State.writePayload_mem hf]
  exact FrameEntry.read_writeBytes_at hn hm hb ha

/-- A payload written whole is read back whole. -/
theorem State.payload_writePayload {s : State} {e : EntryNo} {f : FrameEntry} {bytes : List Byte}
    (hm : s.store.mem.wf = true) (hf : s.entry? e = some f) (hn : f.cells.Nodup) (hlen : f.len = bytes.length)
    (hfit : bytes.length + 16 ≤ f.cells.length * 64) : (s.writePayload e 0 bytes).payload e = bytes := by
  have hentry : (s.writePayload e 0 bytes).entryAt e = f := State.entryAt_of_entry hf
  unfold State.payload State.payloadFrom
  rw [hentry, hlen]
  refine List.ext_getElem (by simp) fun i h1 h2 => ?_
  rw [List.getElem_map, List.getElem_range]
  exact State.payloadByte_writePayload hm hf hn (by omega) (List.getElem?_eq_getElem h2)

theorem FrameEntry.mem_cellsHolding {f : FrameEntry} {offset len : Nat} (hlen : 1 ≤ len) (cell : CellNo) :
    cell ∈ f.cellsHolding offset len ↔ ∃ i, i < len ∧ f.cells[(offset + i + 16) / 64]? = some cell := by
  simp only [FrameEntry.cellsHolding, Config.headerSize, Config.cellSize, List.mem_iff_getElem?, List.getElem?_take,
    List.getElem?_drop]
  constructor
  · rintro ⟨k, hk⟩
    split at hk
    · next hlt =>
      by_cases hfirst : k = 0
      · exact ⟨0, hlen, by subst hfirst; exact hk⟩
      · refine ⟨((offset + 16) / 64 + k) * 64 - 16 - offset, by omega, ?_⟩
        rw [← hk]
        congr 1
        omega
    · cases hk
  · rintro ⟨i, hi, hcell⟩
    refine ⟨(offset + i + 16) / 64 - (offset + 16) / 64, ?_⟩
    rw [if_pos (by omega), ← hcell]
    congr 1
    omega

/-- Settles O28: the addresses of a frame's bytes differ, so that a byte written is the last write to its address. -/
theorem payloadIsReadAsWritten : Obligations.PayloadIsReadAsWritten := by
  unfold Obligations.PayloadIsReadAsWritten
  intro s e f offset bytes hs hm hf hfit
  have hn : f.cells.Nodup := hs.cells_nodup hf
  refine ⟨?first, ?later, fun i b hb => State.payloadByte_writePayload hm hf hn hfit hb, ?other, rfl,
    fun len hlen cell => FrameEntry.mem_cellsHolding hlen cell⟩
  case first =>
    intro j (c : Nat) hc hj
    refine FrameEntry.address?_eq_some.mpr ⟨c, ?_, show c * 64 + (j + 16) % 64 = c * 64 + 16 + j by omega⟩
    rwa [show (j + 16) / 64 = 0 by omega]
  case later =>
    intro j k (c : Nat) hk hc hj
    refine FrameEntry.address?_eq_some.mpr
      ⟨c, ?_, show c * 64 + (48 + 64 * (k - 1) + j + 16) % 64 = c * 64 + j by omega⟩
    rwa [show (48 + 64 * (k - 1) + j + 16) / 64 = k by omega]
  case other =>
    intro a ha
    rw [State.writePayload_mem hf]
    exact f.read_writeBytes_other hm offset bytes ha

/-! ### Offers to the built-in levels (R40) -/

/-- A level of the built-in attributes refuses only while a flush waits on it, or when its queue is full. -/
theorem State.offerLevel_of_builtIn {s : State} {l : Level} {limit : Nat} (hl : isTraffic l = false)
    (ha : (s.lvl l).attrs = .builtIn limit) (hflush : (s.lvl l).flushPending = none)
    (hroom : s.queuedFrames l < limit) (e : EntryNo) :
    s.offerLevel l e true = (true, (s.modLvl l fun v => { v with queue := v.queue ++ [e] }).triggerAuction) := by
  have hbarred : s.barred l = false := by simp [State.barred, ha, Attrs.builtIn]
  have hadmit : s.queueRefuses l = false := by
    simp only [State.queueRefuses, hl, hbarred, hflush, ha, Attrs.builtIn, Bool.false_and, Option.isSome_none,
      Bool.or_self, Bool.false_or, Bool.and_eq_false_iff, decide_eq_false_iff_not]
    omega
  simp [State.offerLevel, hadmit, State.accept]

theorem State.offerAll_of_accepted {s t : State} {e : EntryNo} {l : Level}
    (h : s.offerLevel l e true = (true, t)) : s.offerAll e [.level l] = t := by
  simp [State.offerAll, State.makeOffer, h]

/-! ### Responses (R142, R148 to R150) -/

theorem State.entry?_trim (s : State) (e : EntryNo) (g : FrameEntry) (n : Nat) {f : FrameEntry}
    (h : s.entry? e = some f) :
    ({ s with store := s.store.trim e g n } : State).entry? e = some { f with cells := f.cells.take n } := by
  have h' : s.store.entries.lookup e = some f := h
  unfold State.entry? Store.trim
  rw [lookup_changeEntry_same, h']
  rfl

/-- R142: a filled response keeps the cells its payload needs, and the payload is read back. -/
theorem State.fillResponse_spec {s : State} {e : EntryNo} {f : FrameEntry} {payload : List Byte}
    (hs : s.store.Conserved) (hm : s.store.mem.wf = true) (hf : s.entry? e = some f) (hcells : f.cells.length = 3)
    (hlen : payload.length ≤ 176) :
    (s.fillResponse e payload).payload e = payload ∧
      (s.fillResponse e payload).entry? e =
        some { f with len := payload.length, cells := f.cells.take (cellsFor payload.length) } ∧
      (s.fillResponse e payload).store.freeCells = s.store.freeCells ++ f.cells.drop (cellsFor payload.length) := by
  have hmod : (s.modEntry e fun f => { f with len := payload.length }).entry? e =
      some { f with len := payload.length } := by
    rw [State.entry?_modEntry_same, hf]
    rfl
  have hentry := State.entry?_trim _ e { f with len := payload.length } (cellsFor payload.length) hmod
  unfold State.fillResponse
  dsimp only
  rw [State.entryAt_of_entry hmod]
  refine ⟨State.payload_writePayload hm hentry ((hs.cells_nodup hf).sublist (List.take_sublist _ _)) rfl ?_, hentry, rfl⟩
  dsimp only
  rw [List.length_take, hcells]
  simp only [cellsFor, Config.headerSize, Config.cellSize]
  omega

theorem State.release_responsesUnsent (s : State) (e : EntryNo) :
    (s.release e).cmd.responsesUnsent = s.cmd.responsesUnsent := by
  unfold State.release
  split
  · rfl
  · split
    · unfold CommandUnit.noteFreed
      dsimp only
      split <;> rfl
    · rfl

theorem State.routeResponse_of_active {s : State} {p : PortNo} (h : s.portState p = .active) (e : EntryNo) :
    s.routeResponse e (.station p) = s.offerAll e [.port p] := by
  simp [State.routeResponse, h]

theorem State.routeResponse_of_not_active {s : State} {p : PortNo} (h : s.portState p ≠ .active) (e : EntryNo) :
    s.routeResponse e (.station p) = { s.release e with cmd := { (s.release e).cmd with
      responsesUnsent := bump s.cmd.responsesUnsent } } := by
  simp [State.routeResponse, h, State.release_responsesUnsent]

/-- Settles O56. -/
theorem responseIsBuiltAndRouted : Obligations.ResponseIsBuiltAndRouted := by
  unfold Obligations.ResponseIsBuiltAndRouted
  refine ⟨fun t c e st results => rfl, fun t e f payload hs hm hf hcells hlen => ?filled,
    fun s e p => ⟨fun ha hflush hroom => ?trunk, fun h => State.routeResponse_of_active h e,
      fun h => State.routeResponse_of_not_active h e⟩⟩
  case filled =>
    obtain ⟨hpayload, hentry, hfree⟩ := State.fillResponse_spec hs hm hf hcells hlen
    exact ⟨hpayload, hentry, hfree ▸ List.perm_append_comm⟩
  case trunk =>
    have hqueued : s.queuedFrames 1 = (s.lvl 1).queue.length := rfl
    exact State.offerAll_of_accepted (State.offerLevel_of_builtIn rfl ha hflush (hqueued ▸ hroom) e)

end Sys2Proof.Machine

/-! PROOFS. The Fault Unit (R175 to R181): the kinds in a set, what a fault leaves in the Fault Unit, the notice it gets,
and that a kind once in the summary stays there until it is cleared. -/

namespace Sys2Proof.Machine

open Sys2Proof

/-! ### Kind sets (R187) -/

/-- The fault kinds in the order of their codes. -/
def FaultKind.ofCode (n : Nat) : FaultKind :=
  [FaultKind.cellCheck, .poolExhausted, .commandOverrun, .accessDenied, .supervisionExpired, .supervisionEarly,
    .supervisionChange, .portJabber, .portSilent, .trunkDown, .reassemblyGap, .cipherReject,
    .sequenceExhausted].getD n .cellCheck

theorem FaultKind.ofCode_code (k : FaultKind) : FaultKind.ofCode k.code = k := by
  cases k <;> rfl

theorem FaultKind.code_inj {j k : FaultKind} : j.code = k.code ↔ j = k :=
  ⟨fun h => by rw [← j.ofCode_code, h, k.ofCode_code], fun h => h ▸ rfl⟩

theorem FaultKind.code_lt (k : FaultKind) : k.code < 16 := by
  cases k <;> decide

/-- The set with the one member `n` below 16. -/
theorem getLsbD_one_shiftLeft (n i : Nat) (hi : i < 16) : (1#16 <<< n).getLsbD i = decide (i = n) := by
  rw [BitVec.getLsbD_shiftLeft, BitVec.getLsbD_one]
  have hiff : (i < 16 ∧ ¬ i < n ∧ i - n = 0) ↔ i = n := by omega
  simp only [hi, decide_true, Bool.true_and, ← decide_not, ← Bool.decide_and, decide_eq_decide]
  omega

theorem KindSet.has_add (ks : KindSet) (j k : FaultKind) :
    KindSet.has (ks.add k) j = true ↔ (KindSet.has ks j = true ∨ j = k) := by
  unfold KindSet.has KindSet.add KindSet.single
  rw [BitVec.getLsbD_or, getLsbD_one_shiftLeft _ _ j.code_lt, Bool.or_eq_true, decide_eq_true_iff, FaultKind.code_inj]

/-! ### The Fault Unit is left by the Frame Store and by offers -/

theorem State.release_fault (s : State) (e : EntryNo) : (s.release e).fault = s.fault := by
  unfold State.release
  split
  · rfl
  · split <;> rfl

theorem State.allocReserve_fault (s : State) (n : Nat) (f : FrameEntry) : (s.allocReserve n f).2.fault = s.fault := by
  unfold State.allocReserve
  split
  · split <;> rfl
  · rfl

theorem State.accept_fault (s : State) (e : EntryNo) (first : Bool) : (s.accept e first).fault = s.fault := by
  cases first <;> rfl

theorem State.offerLevel_fault (s : State) (l : Level) (e : EntryNo) (first : Bool) :
    (s.offerLevel l e first).2.fault = s.fault := by
  unfold State.offerLevel
  split
  · rfl
  · exact s.accept_fault e first

theorem State.offerAll_level_fault (s : State) (l : Level) (e : EntryNo) : (s.offerAll e [.level l]).fault = s.fault := by
  unfold State.offerAll
  dsimp only [List.foldl, State.makeOffer]
  split
  · exact s.offerLevel_fault l e true
  · rw [State.release_fault]
    exact s.offerLevel_fault l e true

theorem State.buildNotice_fault (s : State) (r : FaultReport) (filled : Bool) :
    (s.buildNotice r filled).fault = s.fault := by
  have halloc := s.allocReserve_fault 1 s.noticeEntry
  unfold State.buildNotice
  split
  · next t heq => rwa [heq] at halloc
  · next e t heq =>
    rw [heq] at halloc
    rw [State.offerAll_level_fault]
    exact halloc

/-! ### Taking a fault (R177) -/

/-- R177: the report that the Fault Unit makes of a fault. -/
def State.reportOf (s : State) (k : FaultKind) (fields : FaultFields) : FaultReport :=
  { kind := k, time := s.now, fields := fields }

theorem State.raise_eq (s : State) (k : FaultKind) (fields : FaultFields) :
    s.raise k fields =
      if ({ s with fault := s.fault.record (s.reportOf k fields) } : State).wantsNotice k then
        ({ s with fault := s.fault.record (s.reportOf k fields) } : State).buildNotice (s.reportOf k fields)
          s.fault.captured.isNone
      else { s with fault := s.fault.record (s.reportOf k fields) } := rfl

theorem State.raise_fault (s : State) (k : FaultKind) (fields : FaultFields) :
    (s.raise k fields).fault = s.fault.record (s.reportOf k fields) := by
  rw [State.raise_eq]
  split
  · rw [State.buildNotice_fault]
  · rfl

theorem State.raise_has (s : State) (k j : FaultKind) (fields : FaultFields) :
    KindSet.has (s.raise k fields).fault.summary j = true ↔ (KindSet.has s.fault.summary j = true ∨ j = k) := by
  rw [State.raise_fault]
  exact KindSet.has_add _ j k

theorem State.raise_has_self (s : State) (k : FaultKind) (fields : FaultFields) :
    KindSet.has (s.raise k fields).fault.summary k = true :=
  (s.raise_has k k fields).mpr (.inr rfl)

/-! ### The notice of a fault (R180, R181) -/

/-- R180: the four conditions under which a fault gets a notice. -/
theorem State.wantsNotice_iff (s : State) (k : FaultKind) :
    s.wantsNotice k = true ↔ s.fault.noticeNode ≠ 0 ∧ KindSet.has s.fault.noticeKinds k = true ∧
      s.heldNotices.length < Config.maxNotices ∧ ∀ e ∈ s.heldNotices, s.noticeKind e ≠ k.code := by
  simp [State.wantsNotice, and_assoc]

theorem State.wantsNotice_record (s : State) (r : FaultReport) (k : FaultKind) :
    ({ s with fault := s.fault.record r } : State).wantsNotice k = s.wantsNotice k := rfl

theorem State.raise_of_no_notice {s : State} {k : FaultKind} (h : ¬ s.wantsNotice k = true) (fields : FaultFields) :
    s.raise k fields = { s with fault := (s.raise k fields).fault } := by
  rw [State.raise_fault, State.raise_eq, if_neg (by rwa [State.wantsNotice_record])]

theorem State.raise_of_notice {s : State} {k : FaultKind} (h : s.wantsNotice k = true) (fields : FaultFields) :
    s.raise k fields = ({ s with fault := s.fault.record (s.reportOf k fields) } : State).buildNotice
      (s.reportOf k fields) s.fault.captured.isNone := by
  rw [State.raise_eq, if_pos (by rwa [State.wantsNotice_record])]

theorem State.buildNotice_of_short {s : State} (r : FaultReport) (filled : Bool)
    (h : s.store.freeEntries.length = 0 ∨ s.store.freeCells.length < 1) : s.buildNotice r filled = s.refuseAlloc := by
  rw [State.buildNotice, State.allocReserve_of_short _ h]

theorem State.raise_of_no_storage {s : State} {k : FaultKind} (h : s.wantsNotice k = true) (fields : FaultFields)
    (hshort : s.store.freeEntries = [] ∨ s.store.freeCells = []) : s.raise k fields = { s with
      fault := (s.raise k fields).fault
      store := { s.store with allocRefusals := bump s.store.allocRefusals } } := by
  have hlen : s.store.freeEntries.length = 0 ∨ s.store.freeCells.length < 1 :=
    hshort.imp (fun h => by rw [h]; rfl) fun h => by rw [h]; exact Nat.zero_lt_one
  rw [State.raise_fault, State.raise_of_notice h]
  exact State.buildNotice_of_short _ _ hlen

theorem State.heldNotices_length (s : State) : s.heldNotices.length = s.queuedFrames 0 := by
  unfold State.heldNotices State.queuedFrames
  cases (s.lvl 0).ctx <;> simp

/-- R189: a notice has 12 bytes. -/
theorem FaultReport.notice_length (r : FaultReport) (filled : Bool) : (r.notice filled).length = 12 := rfl

/-- R181: a notice that finds storage joins level 0 with its 12 bytes. -/
theorem State.buildNotice_spec {s : State} (r : FaultReport) (filled : Bool) (hentries : s.store.freeEntries ≠ [])
    (hcells : s.store.freeCells ≠ []) (hs : s.store.Conserved) (hm : s.store.mem.wf = true)
    (ha : (s.lvl 0).attrs = .builtIn 8) (hflush : (s.lvl 0).flushPending = none) (hroom : s.heldNotices.length < 8) :
    ∃ e g, (s.buildNotice r filled).lvl 0 = { s.lvl 0 with queue := (s.lvl 0).queue ++ [e] } ∧
      (s.buildNotice r filled).auctionDue = true ∧ (s.buildNotice r filled).entry? e = some g ∧
      g = { s.noticeEntry with cells := g.cells } ∧ g.cells.length = 1 ∧
      (s.buildNotice r filled).payload e = r.notice filled := by
  have hlen : 1 ≤ s.store.freeCells.length := List.length_pos_iff.mpr hcells
  obtain ⟨e, t, heq, halloc⟩ := s.allocReserve_of_ok s.noticeEntry (List.length_pos_iff.mpr hentries) hlen
  have hcons : t.store.Conserved := by
    have := (Moves.allocReserve (W := fun _ => False) s 1 s.noticeEntry).conserved hs
    rwa [heq] at this
  have hlvl : t.lvl 0 = s.lvl 0 := by rw [halloc.same]; rfl
  have hcell : (s.store.freeCells.take 1).length = 1 := List.length_take_of_le hlen
  have hfit : (r.notice filled).length + 16 ≤ (s.store.freeCells.take 1).length * 64 := by
    rw [hcell, FaultReport.notice_length]
    decide
  have hread := State.payload_writePayload (bytes := r.notice filled) (halloc.mem ▸ hm) halloc.entry
    (hcons.cells_nodup halloc.entry) rfl hfit
  have hoffer := State.offerAll_of_accepted (State.offerLevel_of_builtIn (s := t.writePayload e 0 (r.notice filled))
    (l := 0) (limit := 8) rfl (hlvl ▸ ha) (hlvl ▸ hflush)
    (by
      have hsame : (t.writePayload e 0 (r.notice filled)).queuedFrames 0 = s.queuedFrames 0 := by
        unfold State.queuedFrames
        rw [← hlvl]
        rfl
      rwa [hsame, ← State.heldNotices_length]) e)
  have hbuild : s.buildNotice r filled = ((t.writePayload e 0 (r.notice filled)).modLvl 0 fun v =>
      { v with queue := v.queue ++ [e] }).triggerAuction := by
    rw [State.buildNotice, heq]
    exact hoffer
  rw [hbuild]
  refine ⟨e, _, ?_, rfl, halloc.entry, rfl, hcell, hread⟩
  rw [(State.triggerAuction_leaves _).lvl, State.lvl_modLvl_same, (State.writePayload_leaves _ _ _ _).lvl, hlvl]

/-- Settles O60. -/
theorem faultIsTakenAndNoticed : Obligations.FaultIsTakenAndNoticed := by
  unfold Obligations.FaultIsTakenAndNoticed
  intro s k fields u r noticed
  have hnoticed : noticed ↔ s.wantsNotice k = true := (s.wantsNotice_iff k).symm
  have hfault : u.fault = s.fault.record r := s.raise_fault k fields
  rw [hnoticed]
  refine ⟨fun j => s.raise_has k j fields, ?fills, ?keeps, ?config, fun h => State.raise_of_no_notice h fields,
    fun h => State.raise_of_no_storage h fields, ?built⟩
  case fills => intro h; rw [hfault, FaultUnit.record, h]; rfl
  case keeps => intro r' h; rw [hfault, FaultUnit.record, h]; rfl
  case config => rw [hfault]; exact ⟨rfl, rfl⟩
  case built =>
    intro h hentries hcells hs hm ha hflush
    have hroom := ((s.wantsNotice_iff k).mp h).2.2.1
    have hu : u = _ := State.raise_of_notice h fields
    rw [hu]
    exact State.buildNotice_spec (s := { s with fault := _ }) r s.fault.captured.isNone hentries hcells hs hm ha hflush
      hroom

end Sys2Proof.Machine

/-! PROOFS. The auction (R7 to R10, R47 to R56): the winner, what a level sends, the bytes of a fragment, what a new
frame takes, and what abandoning a context leaves. -/

namespace Sys2Proof.Machine

open Sys2Proof

/-! ### The winner (R7, R9) -/

/-- The first member with a property of a rising list of all numbers is the least one that has it. -/
theorem find?_eq_some_iff_least {n : Nat} {xs : List (Fin n)} (hsorted : xs.Pairwise (· < ·)) (hall : ∀ x, x ∈ xs)
    (p : Fin n → Bool) (b : Fin n) : xs.find? p = some b ↔ p b = true ∧ ∀ a, a < b → p a = false := by
  rw [List.find?_eq_some_iff_append]
  refine and_congr_right fun _ => ⟨?_, fun h => ?_⟩
  · rintro ⟨as, bs, rfl, has⟩ a hab
    rw [List.pairwise_append, List.pairwise_cons] at hsorted
    obtain ⟨-, ⟨hbs, -⟩, -⟩ := hsorted
    rcases List.mem_append.mp (hall a) with ha | ha
    · simpa using has a ha
    · rcases List.mem_cons.mp ha with rfl | ha
      · exact absurd hab (lt_irrefl _)
      · exact absurd (hbs a ha) (lt_asymm hab)
  · obtain ⟨as, bs, rfl⟩ := List.append_of_mem (hall b)
    refine ⟨as, bs, rfl, fun a ha => ?_⟩
    rw [h a ((List.pairwise_append.mp hsorted).2.2 a ha b List.mem_cons_self)]
    rfl

theorem allLevels_sorted : allLevels.Pairwise (· < ·) := by decide

theorem State.winner_eq_some {s : State} {l : Level} :
    s.winner = some l ↔ s.hasWork l = true ∧ ∀ m, m < l → s.hasWork m = false :=
  find?_eq_some_iff_least allLevels_sorted mem_allLevels _ l

theorem State.winner_eq_none {s : State} : s.winner = none ↔ ∀ l, s.hasWork l = false := by
  simp [State.winner, List.find?_eq_none, mem_allLevels]

theorem State.hasWork_iff {s : State} {l : Level} :
    s.hasWork l = true ↔ (s.lvl l).abortOwed ≠ none ∨ (s.barred l = false ∧ s.eligible l = true) := by
  simp [State.hasWork, Option.isSome_iff_ne_none]

/-- Settles O15. -/
theorem winnerIsTheLowestLevelWithWork : Obligations.WinnerIsTheLowestLevelWithWork := by
  unfold Obligations.WinnerIsTheLowestLevelWithWork
  exact fun s => ⟨fun _ => State.hasWork_iff, fun _ => State.winner_eq_some, State.winner_eq_none⟩

/-- What the work of a level without an owed Abort is. -/
theorem State.work_of_hasWork {s : State} {l : Level} (h : s.hasWork l = true) (ha : (s.lvl l).abortOwed = none) :
    ((s.lvl l).ctx ≠ none ∧ (s.lvl l).attrs.enable = true) ∨
      ((s.lvl l).queue ≠ [] ∧ (s.lvl l).attrs.enable = true ∧ (s.lvl l).deadline = none ∧ ¬ s.keyless l = true) := by
  rcases State.hasWork_iff.mp h with habort | ⟨-, helig⟩
  · exact absurd ha habort
  · rcases (s.eligible_iff l).mp helig with habort | hwork
    · exact absurd ha habort
    · exact hwork

/-! ### Forming (R49, R55) -/

section Sends

variable {s : State} {l : Level}

theorem State.formFragment_of_sound {c : Context} (hc : (s.lvl l).ctx = some c)
    (h : s.firstFailing (s.fragmentCells c) = none) :
    s.formFragment l = (false, s.startFragment (s.nextFragment l c)) := by
  simp [State.formFragment, hc, h]

theorem State.formFragment_of_failing {c : Context} {cell : CellNo} (hc : (s.lvl l).ctx = some c)
    (h : s.firstFailing (s.fragmentCells c) = some cell) :
    s.formFragment l = (true, s.formingFails l c.entry cell) := by
  simp [State.formFragment, hc, h]

theorem State.sendLevel_of_abort {a : AbortAddress} (h : (s.lvl l).abortOwed = some a) :
    s.sendLevel l = (false, s.sendAbort l a) := by
  simp [State.sendLevel, h]

theorem State.sendLevel_of_context {c : Context} (h : (s.lvl l).abortOwed = none) (hc : (s.lvl l).ctx = some c)
    (he : (s.lvl l).attrs.enable = true) : s.sendLevel l = s.formFragment l := by
  simp [State.sendLevel, h, hc, he]

theorem State.sendLevel_of_new (h : (s.lvl l).abortOwed = none) (hc : (s.lvl l).ctx = none) :
    s.sendLevel l = (s.startNewFrame l).formFragment l := by
  simp [State.sendLevel, h, hc]

/-! ### The auction (R8, R9) -/

theorem State.auction_of_none (h : s.trunk.inFlight ≠ none ∨ s.trunk.lineUp = false ∨ s.winner = none) :
    s.auction = s := by
  unfold State.auction
  rw [State.auctionRounds]
  rcases h with h | h | h
  · simp [Option.isSome_iff_ne_none.mpr h]
  · simp [h]
  · simp [h]

theorem State.auction_of_sent {t : State} (h0 : s.trunk.inFlight = none) (h1 : s.trunk.lineUp = true)
    (hw : s.winner = some l) (hf : s.sendLevel l = (false, t)) : s.auction = t := by
  unfold State.auction
  rw [State.auctionRounds]
  simp [h0, h1, hw, hf]

end Sends

/-! ### A new frame (R10, R78) -/

/-- R4: the context of a frame that starts. -/
def State.freshContext (s : State) (e : EntryNo) (key : Option (Slot × Word)) : Context :=
  { entry := e, next := 0, sent := 0, start := s.now, key := key, suspensions := 0 }

theorem State.freshContext_entry (s : State) (e : EntryNo) (key : Option (Slot × Word)) :
    (s.freshContext e key).entry = e := rfl

section NewFrame

variable {s : State} {l : Level} {e : EntryNo} {rest : List EntryNo}

theorem State.startNewFrame_of_plain (hq : (s.lvl l).queue = e :: rest) (hc : (s.lvl l).attrs.cipher = false) :
    s.startNewFrame l = s.modLvl l fun v => { v with queue := rest, ctx := some (s.freshContext e none) } := by
  simp [State.startNewFrame, hq, hc, State.freshContext]

/-- R78: the level with its head started under a key, and its sequence stepped on. -/
def State.startKeyed (s : State) (l : Level) (e : EntryNo) (rest : List EntryNo) (v : Word) : State :=
  s.modLvl l fun w =>
    { w with
      queue := rest
      ctx := some (s.freshContext e (some (s.cipher.active, v)))
      txSeq := w.txSeq.set s.cipher.active.val (TxSequence.next v) s.cipher.active.isLt }

theorem State.startNewFrame_of_keyed {v : Word} (hq : (s.lvl l).queue = e :: rest)
    (hc : (s.lvl l).attrs.cipher = true) (hseq : s.txSequence s.cipher.active l = .seq v) :
    s.startNewFrame l = if v = BitVec.allOnes 32
      then (s.startKeyed l e rest v).raise .sequenceExhausted { level := some l } else s.startKeyed l e rest v := by
  have hseq' : (s.lvl l).txSeq[s.cipher.active.val] = .seq v := hseq
  simp only [State.startNewFrame, hq, hc, if_true, hseq', State.startKeyed, State.freshContext]

theorem State.startKeyed_lvl (v : Word) : (s.startKeyed l e rest v).lvl l =
    { s.lvl l with
      queue := rest
      ctx := some (s.freshContext e (some (s.cipher.active, v)))
      txSeq := (s.lvl l).txSeq.set s.cipher.active.val (TxSequence.next v) s.cipher.active.isLt } := by
  unfold State.startKeyed
  rw [State.lvl_modLvl_same]

theorem State.startKeyed_txSequence (v : Word) :
    (s.startKeyed l e rest v).txSequence s.cipher.active l = TxSequence.next v := by
  unfold State.txSequence
  rw [State.startKeyed_lvl]
  exact Vector.getElem_set_self _

/-- R10: the head of the queue is started, when its level has a sequence for it. -/
theorem State.startNewFrame_ctx (hq : (s.lvl l).queue = e :: rest)
    (hkey : (s.lvl l).attrs.cipher = true → s.txSequence s.cipher.active l ≠ .exhausted) :
    ∃ key, ((s.startNewFrame l).lvl l).ctx = some (s.freshContext e key) := by
  cases hc : (s.lvl l).attrs.cipher with
  | false =>
    rw [State.startNewFrame_of_plain hq hc, State.lvl_modLvl_same]
    exact ⟨_, rfl⟩
  | true =>
    cases hseq : s.txSequence s.cipher.active l with
    | exhausted => exact absurd hseq (hkey hc)
    | seq v =>
      refine ⟨some (s.cipher.active, v), ?_⟩
      rw [State.startNewFrame_of_keyed hq hc hseq]
      split
      · have hraise := State.raise_keepsWork (s.startKeyed l e rest v) .sequenceExhausted { level := some l } l
        rw [hraise, State.startKeyed_lvl]
      · rw [State.startKeyed_lvl]

theorem State.sequence_of_not_keyless (hk : ¬ s.keyless l = true) (he : (s.lvl l).attrs.enable = true)
    (hq : (s.lvl l).queue ≠ []) (hc : (s.lvl l).attrs.cipher = true) :
    s.txSequence s.cipher.active l ≠ .exhausted :=
  fun hex => hk ((s.keyless_iff l).mpr ⟨he, hq, hc, .inr hex⟩)

/-- Settles O17: the plain and the enciphered start; the fault of the last sequence leaves every level but level 0. -/
theorem newFrameTakesTheNextSequence : Obligations.NewFrameTakesTheNextSequence := by
  unfold Obligations.NewFrameTakesTheNextSequence
  intro s l e rest hl hq
  refine ⟨fun hc => State.startNewFrame_of_plain hq hc, fun v hc hseq => ?_⟩
  have hl0 : l ≠ 0 := fun h => by subst h; cases hl
  have hstart := State.startNewFrame_of_keyed hq hc hseq
  have hlvl : (s.startNewFrame l).lvl l = (s.startKeyed l e rest v).lvl l := by
    rw [hstart]
    split
    · exact (State.raise_leaves _ _ _).lvl l hl0
    · rfl
  have hsequence : (s.startNewFrame l).txSequence s.cipher.active l = TxSequence.next v := by
    rw [← State.startKeyed_txSequence (s := s) (l := l) (e := e) (rest := rest) v]
    unfold State.txSequence
    rw [hlvl]
  refine ⟨?_, ?_, fun hv => ⟨?_, ?_⟩, fun hv => ⟨?_, ?_⟩⟩
  · rw [hlvl, State.startKeyed_lvl]
  · rw [hlvl, State.startKeyed_lvl]
    rfl
  · rw [hsequence, TxSequence.next, if_neg hv]
  · rw [hstart, if_neg hv]
    rfl
  · rw [hsequence, TxSequence.next, if_pos hv]
  · rw [hstart, if_pos hv]
    exact State.raise_has_self _ _ _

end NewFrame

/-! ### Fragments and their bytes (R48, R51, R185) -/

theorem State.firstFailing_eq (s : State) (cells : List CellNo) :
    s.firstFailing cells = cells.find? fun x => decide (x ∈ s.store.corrupted) := by
  unfold State.firstFailing
  congr 1
  funext x
  rw [Bool.eq_iff_iff]
  simp

/-- R51: the twelve header bytes of an Abort fragment. -/
def abortHeader (l : Level) (a : AbortAddress) : List Byte :=
  [a.dst, a.src, byteOf (l.val * 8 + 4), byteOf (a.ptype.code * 16), 0, 0, 0, 0, 0, 0, 0, 0]

theorem State.sendAbort_eq (s : State) (l : Level) (a : AbortAddress) :
    s.sendAbort l a = s.startFragment
      { level := l, position := .abort, index := 0, len := 0, bytes := abortHeader l a ++ bytes4 (crc32 (abortHeader l a)) } := by
  have hflags : byteOf (0 + 0 * 64 + a.ptype.code * 16 + 0) = byteOf (a.ptype.code * 16) := by simp
  unfold State.sendAbort fragmentBytes FragmentHeader.bytes
  dsimp only [Fin.val_zero, Option.map, Option.getD, Position.code]
  rw [if_neg Bool.false_ne_true, hflags]
  rfl

/-- R48: the bytes of a fragment before its CRC-32. `flags` is its cipher flag and slot. -/
def fragmentBody (l : Level) (c : Context) (f : FrameEntry) (size flags : Nat) (sequence : Word) (payload : List Byte) :
    List Byte :=
  [f.dst, f.src, byteOf (l.val * 8 + (fragmentPosition f.len size c.next).code),
    byteOf (flags + f.ptype.code * 16 + c.next)] ++ bytes4 sequence ++ bytes2 f.len ++
    bytes2 (fragmentLength f.len size c.next) ++ payload

theorem fragmentHeader_bytes_plain {c : Context} (h : c.key = none) (l : Level) (f : FrameEntry) (size : Nat)
    (payload : List Byte) : (fragmentHeader l c f size).bytes ++ payload = fragmentBody l c f size 0 0 payload := by
  simp only [fragmentHeader, FragmentHeader.bytes, fragmentBody, h, Option.isSome_none, Option.map_none,
    Option.map_some, Option.getD_none, Option.getD_some, Bool.false_eq_true, if_false, Fin.val_zero, Nat.zero_mul,
    Nat.zero_add]

theorem fragmentHeader_bytes_keyed {c : Context} {k : Slot} {v : Word} (h : c.key = some (k, v)) (l : Level)
    (f : FrameEntry) (size : Nat) (payload : List Byte) :
    (fragmentHeader l c f size).bytes ++ payload = fragmentBody l c f size (128 + k.val * 64) v payload := by
  simp only [fragmentHeader, FragmentHeader.bytes, fragmentBody, h, Option.isSome_some, Option.map_some,
    Option.getD_some, if_true]

/-- R48: a fragment with the bytes before its CRC-32 given. -/
def State.fragmentOf (s : State) (l : Level) (c : Context) (body : List Byte) : Fragment :=
  { level := l
    position := fragmentPosition (s.entryAt c.entry).len s.trunk.fragSize c.next
    index := c.next
    len := fragmentLength (s.entryAt c.entry).len s.trunk.fragSize c.next
    bytes := body ++ bytes4 (crc32 body) }

theorem State.nextFragment_eq (s : State) (l : Level) (c : Context) :
    s.nextFragment l c = s.fragmentOf l c ((fragmentHeader l c (s.entryAt c.entry) s.trunk.fragSize).bytes ++
      s.fragmentAsSent l c (s.entryAt c.entry)) := rfl

theorem State.fragmentAsSent_plain (s : State) (l : Level) {c : Context} (h : c.key = none) (f : FrameEntry) :
    s.fragmentAsSent l c f =
      s.payloadFrom f (c.next * s.trunk.fragSize) (fragmentLength f.len s.trunk.fragSize c.next) := by
  simp [State.fragmentAsSent, h]

theorem State.fragmentAsSent_keyed (s : State) (l : Level) {c : Context} {k : Slot} {v : Word}
    (h : c.key = some (k, v)) (f : FrameEntry) : s.fragmentAsSent l c f =
      s.applyKeystream { slot := k, level := l, sequence := v, src := f.src, dst := f.dst }
        (c.next * s.trunk.fragSize)
        (s.payloadFrom f (c.next * s.trunk.fragSize) (fragmentLength f.len s.trunk.fragSize c.next)) := by
  simp [State.fragmentAsSent, h]

/-! ### Records (R61) -/

theorem State.recordFinish_of_asked {s : State} {l : Level} {c : Context}
    (h : (s.lvl l).attrs.record = true ∨ (s.entryAt c.entry).record = true) (n : Nat) (o : EgressOutcome) :
    (s.recordFinish l c n o).trunk = s.trunk.writeRecord
      { level := l, label := (s.entryAt c.entry).label, port := (s.entryAt c.entry).origin.port?,
        rule := (s.entryAt c.entry).rule, dst := (s.entryAt c.entry).dst, fragments := n,
        suspensions := c.suspensions, start := c.start, finish := s.now, outcome := o } := by
  simp [State.recordFinish, h]

theorem State.recordFinish_of_not_asked {s : State} {l : Level} {c : Context} (h : (s.lvl l).attrs.record = false)
    (h' : (s.entryAt c.entry).record = false) (n : Nat) (o : EgressOutcome) : s.recordFinish l c n o = s := by
  simp [State.recordFinish, h, h']

/-- R61: a record is all that the finish of a frame writes. -/
theorem State.recordFinish_eq (s : State) (l : Level) (c : Context) (n : Nat) (o : EgressOutcome) :
    s.recordFinish l c n o = { s with trunk := (s.recordFinish l c n o).trunk } := by
  unfold State.recordFinish
  dsimp only
  split <;> rfl

theorem Trunk.writeRecord_eq (t : Trunk) (r : EgressRecord) :
    t.writeRecord r = { t with log := (t.writeRecord r).log, logOverflow := (t.writeRecord r).logOverflow } := by
  unfold Trunk.writeRecord
  split <;> rfl

/-! ### Abandoning (R12) -/

theorem State.release_congr {s t : State} (hs : t.store = s.store) (hc : t.cmd = s.cmd) (e : EntryNo) :
    (t.release e).store = (s.release e).store ∧ (t.release e).cmd = (s.release e).cmd := by
  unfold State.release State.modEntry State.entry?
  rw [hs, hc]
  split
  · exact ⟨hs, hc⟩
  · split
    · exact ⟨rfl, rfl⟩
    · exact ⟨rfl, rfl⟩

theorem State.release_auctionDue (s : State) (e : EntryNo) : (s.release e).auctionDue = s.auctionDue := by
  unfold State.release
  split
  · rfl
  · split <;> rfl

theorem State.dropContext_trunk (s : State) (l : Level) (c : Context) :
    (s.dropContext l c).trunk = (s.recordFinish l c c.next .aborted).trunk :=
  (State.release_leaves _ c.entry).trunk

theorem State.dropContext_store (s : State) (l : Level) (c : Context) :
    (s.dropContext l c).store = (s.release c.entry).store ∧ (s.dropContext l c).cmd = (s.release c.entry).cmd := by
  refine State.release_congr ?_ ?_ c.entry
  · rw [State.recordFinish_eq]
    rfl
  · rw [State.recordFinish_eq]
    rfl

theorem State.dropContext_auctionDue (s : State) (l : Level) (c : Context) :
    (s.dropContext l c).auctionDue = s.auctionDue := by
  refine (State.release_auctionDue _ c.entry).trans ?_
  rw [State.recordFinish_eq]
  rfl

/-- R12, steps 1 to 6: the context is dropped and the Abort is owed, before a flush that waits is complete. -/
def State.giveUpContext (s : State) (l : Level) (c : Context) (started : Bool) : State :=
  if started then (s.dropContext l c).oweAbort l (s.entryAt c.entry) else s.dropContext l c

section Abandon

variable {s : State} {l : Level} {c : Context}

theorem State.abandon_of_context (hc : (s.lvl l).ctx = some c) (started : Bool) :
    s.abandon l started = (s.giveUpContext l c started).flushComplete l := by
  cases started <;> simp [State.abandon, hc, State.giveUpContext]

theorem State.abandon_of_none (hc : (s.lvl l).ctx = none) (started : Bool) : s.abandon l started = s := by
  simp [State.abandon, hc]

theorem State.giveUpContext_trunk (started : Bool) :
    (s.giveUpContext l c started).trunk = (s.recordFinish l c c.next .aborted).trunk := by
  cases started <;> exact s.dropContext_trunk l c

theorem State.giveUpContext_store (started : Bool) :
    (s.giveUpContext l c started).store = (s.release c.entry).store ∧
      (s.giveUpContext l c started).cmd = (s.release c.entry).cmd := by
  cases started <;> exact s.dropContext_store l c

theorem State.giveUpContext_auctionDue (started : Bool) :
    (s.giveUpContext l c started).auctionDue = (started || s.auctionDue) := by
  cases started with
  | true => rfl
  | false => exact s.dropContext_auctionDue l c

theorem State.giveUpContext_lvl (started : Bool) (m : Level) :
    (s.giveUpContext l c started).lvl m = if m = l then { s.lvl l with
      ctx := none, trainCount := 0, framesAborted := bump (s.lvl l).framesAborted
      abortOwed := if started then (s.abortFor c true) else (s.lvl l).abortOwed } else s.lvl m := by
  cases started with
  | false => exact s.dropContext_lvl l c m
  | true =>
    unfold State.giveUpContext State.oweAbort
    rw [if_pos rfl, (State.triggerAuction_leaves _).lvl, State.lvl_modLvl, State.dropContext_lvl,
      State.dropContext_lvl, if_pos rfl]
    split <;> rfl

theorem State.abandon_trunk (hc : (s.lvl l).ctx = some c) (started : Bool) :
    (s.abandon l started).trunk = (s.recordFinish l c c.next .aborted).trunk := by
  rw [State.abandon_of_context hc]
  exact (State.flushComplete_spec _ l).trunk.trans (State.giveUpContext_trunk started)

/-- R12: the level whose context is abandoned; level 1 alone may be given a response besides. -/
theorem State.abandon_lvl_same (hl : l ≠ 1) (hc : (s.lvl l).ctx = some c) (started : Bool) :
    (s.abandon l started).lvl l = { s.lvl l with
      ctx := none, trainCount := 0, framesAborted := bump (s.lvl l).framesAborted, flushPending := none
      abortOwed := if started then (s.abortFor c true) else (s.lvl l).abortOwed } := by
  rw [State.abandon_of_context hc, (State.flushComplete_spec _ l).lvl l hl, State.lvl_modLvl_same,
    State.giveUpContext_lvl, if_pos rfl]

theorem State.abandon_lvl_ne {m : Level} (hm : m ≠ l) (hm1 : m ≠ 1) (started : Bool) :
    (s.abandon l started).lvl m = s.lvl m := by
  cases hc : (s.lvl l).ctx with
  | none => rw [State.abandon_of_none hc]
  | some c =>
    rw [State.abandon_of_context hc, (State.flushComplete_spec _ l).lvl m hm1, State.lvl_modLvl_ne _ hm,
      State.giveUpContext_lvl, if_neg hm]

end Abandon

/-- Settles O18: level 1, which the response to a flush may join, is no traffic level. -/
theorem abandonClearsTheContext : Obligations.AbandonClearsTheContext := by
  unfold Obligations.AbandonClearsTheContext
  intro s l started c hl hc
  have hl1 : l ≠ 1 := fun h => by subst h; exact absurd hl (by decide)
  refine ⟨?level, fun hrec => ?recorded, fun h1 h2 => ?unrecorded, ?flush⟩
  case level =>
    rw [State.abandon_lvl_same hl1 hc]
    rfl
  case recorded => rw [State.abandon_trunk hc, State.recordFinish_of_asked hrec]
  case unrecorded => rw [State.abandon_trunk hc, State.recordFinish_of_not_asked h1 h2]
  case flush =>
    obtain ⟨hstore, hcmd⟩ := State.giveUpContext_store (s := s) (l := l) (c := c) started
    refine ⟨_, State.abandon_of_context hc started, hstore, hcmd, ?_, fun m hm => ?_,
      State.giveUpContext_auctionDue started⟩
    · rw [State.giveUpContext_lvl, if_pos rfl]
    · rw [State.giveUpContext_lvl, if_neg hm]

/-! ### The loss of a frame (R35, R36, R55) -/

/-- Of the trunk, nothing but the Egress Record Log differs. -/
def LogsOnly (s t : State) : Prop :=
  t.trunk = { s.trunk with log := t.trunk.log, logOverflow := t.trunk.logOverflow }

theorem LogsOnly.of_eq {s t : State} (h : t.trunk = s.trunk) : LogsOnly s t := by
  unfold LogsOnly
  rw [h]

theorem LogsOnly.trans {s t u : State} (h : LogsOnly s t) (h' : LogsOnly t u) : LogsOnly s u := by
  unfold LogsOnly at *
  rw [h', h]

theorem State.recordFinish_logsOnly (s : State) (l : Level) (c : Context) (n : Nat) (o : EgressOutcome) :
    LogsOnly s (s.recordFinish l c n o) := by
  unfold State.recordFinish
  dsimp only
  split
  · exact Trunk.writeRecord_eq _ _
  · rfl

theorem State.abandon_logsOnly (s : State) (l : Level) (started : Bool) : LogsOnly s (s.abandon l started) := by
  cases hc : (s.lvl l).ctx with
  | none => exact .of_eq (by rw [State.abandon_of_none hc])
  | some c =>
    exact (s.recordFinish_logsOnly l c c.next .aborted).trans (.of_eq (State.abandon_trunk hc started))

theorem State.levelGivesUp_logsOnly (e : EntryNo) (s : State) (l : Level) : LogsOnly s (s.levelGivesUp e l) := by
  unfold State.levelGivesUp
  split
  · exact .of_eq (State.release_leaves _ e).trunk
  · split
    · split
      · exact s.abandon_logsOnly l _
      · rfl
    · rfl

theorem LogsOnly.foldl {α : Type} (f : State → α → State) (h : ∀ s a, LogsOnly s (f s a)) (as : List α) (s : State) :
    LogsOnly s (as.foldl f s) := by
  induction as generalizing s with
  | nil => rfl
  | cons a as ih => exact (h s a).trans (ih _)

theorem State.loseFrame_logsOnly (s : State) (e : EntryNo) (cell : CellNo) : LogsOnly s (s.loseFrame e cell) := by
  rw [State.loseFrame_eq]
  exact ((LogsOnly.of_eq (s.portsGaveUp_leaves e cell).trunk).trans
    (.foldl _ (State.levelGivesUp_logsOnly e) allLevels _)).trans
      (.foldl _ (fun u p => .of_eq (u.startTx_leaves p).trunk) allPorts _)

/-- R55: what a forming failure leaves of the level whose frame it was. -/
theorem State.formingFails_lvl {s : State} {l : Level} {c : Context} (hs : s.store.Conserved) (hh : s.HoldersCounted)
    (h0 : s.trunk.inFlight = none) (hc : (s.lvl l).ctx = some c) (cell : CellNo) :
    SameWork l (s.modLvl l fun v => v.abandoned (s.abortFor c (decide (0 < c.next))))
      (s.formingFails l c.entry cell) := by
  have hsending : s.sending l = false := by simp [State.sending, h0]
  have hlost := State.loseFrame_context hh hs hc cell
  rw [hsending, Bool.false_or] at hlost
  unfold State.formingFails
  generalize s.loseFrame c.entry cell = u at hlost ⊢
  exact hlost.trans (State.raise_keepsWork { u with trunk := u.trunk.countFailure } _ _ l)

theorem State.formingFails_trunk (s : State) (l : Level) (e : EntryNo) (cell : CellNo) :
    (s.formingFails l e cell).trunk.inFlight = s.trunk.inFlight ∧
      (s.formingFails l e cell).trunk.formingFailures = bump s.trunk.formingFailures := by
  have hlogs := s.loseFrame_logsOnly e cell
  unfold LogsOnly at hlogs
  unfold State.formingFails
  generalize s.loseFrame e cell = u at hlogs ⊢
  have hraise := (State.raise_leaves (s := { u with trunk := u.trunk.countFailure }) .cellCheck
    { level := some l, rule := (s.entryAt e).rule, cell := some cell }).trunk
  rw [hraise]
  dsimp only
  rw [hlogs]
  exact ⟨rfl, rfl⟩

theorem State.formingFails_has (s : State) (l : Level) (e : EntryNo) (cell : CellNo) :
    KindSet.has (s.formingFails l e cell).fault.summary .cellCheck = true := by
  unfold State.formingFails
  generalize s.loseFrame e cell = u
  exact State.raise_has_self _ _ _

/-- R55: what the level whose frame it was has after a forming failure, and the counts. -/
theorem State.formingFails_of_context {s : State} {l : Level} {c : Context} (hs : s.store.Conserved)
    (hh : s.HoldersCounted) (h0 : s.trunk.inFlight = none) (hc : (s.lvl l).ctx = some c) {cell : CellNo} {t : State}
    (ht : s.formingFails l c.entry cell = t) :
    (t.lvl l).ctx = none ∧ (t.lvl l).trainCount = 0 ∧ (t.lvl l).flushPending = none ∧
      (t.lvl l).framesAborted = bump (s.lvl l).framesAborted ∧ (t.lvl l).deadline = (s.lvl l).deadline ∧
      (1 ≤ c.next → (t.lvl l).abortOwed = s.abortFor c true) ∧
      (c.next = 0 → (t.lvl l).abortOwed = (s.lvl l).abortOwed) := by
  have hlvl := State.formingFails_lvl hs hh h0 hc cell
  rw [ht] at hlvl
  unfold SameWork at hlvl
  rw [State.lvl_modLvl_same] at hlvl
  rw [hlvl]
  refine ⟨rfl, rfl, rfl, rfl, rfl, fun hnext => ?_, fun hnext => ?_⟩
  · have hstarted : decide (0 < c.next) = true := decide_eq_true hnext
    simp [LevelEntry.abandoned, State.abortFor, hstarted]
  · simp [LevelEntry.abandoned, State.abortFor, hnext]

/-- Settles O16: what the winner sends by what it has (R9), the bytes of a fragment (R48) and of an Abort (R51), and
what a forming failure leaves (R55). -/
theorem auctionSendsWhatTheWinnerHas : Obligations.AuctionSendsWhatTheWinnerHas := by
  unfold Obligations.AuctionSendsWhatTheWinnerHas
  refine ⟨fun s => ⟨State.auction_of_none, fun h0 h1 l hw => ⟨fun a ha => ?abort, fun c ha hc => ?context,
    fun e rest ha hc hq => ?fresh⟩⟩, fun s l c => ⟨fun hk => ?plain, fun k v hk => ?keyed, ?cells, s.firstFailing_eq⟩,
    ?owed, ?fails, fun s l c cell hs hh h0 hc => ?failed⟩
  case abort => exact State.auction_of_sent h0 h1 hw (State.sendLevel_of_abort ha)
  case context =>
    have henable : (s.lvl l).attrs.enable = true := by
      rcases State.work_of_hasWork (State.hasWork_of_winner hw) ha with ⟨-, he⟩ | ⟨-, he, -⟩ <;> exact he
    have hsend := State.sendLevel_of_context ha hc henable
    exact ⟨fun hnone => State.auction_of_sent h0 h1 hw (hsend.trans (State.formFragment_of_sound hc hnone)),
      fun cell hs hcell => State.auction_of_failure hs h0 h1 hw (hsend.trans (State.formFragment_of_failing hc hcell))⟩
  case fresh =>
    rcases State.work_of_hasWork (State.hasWork_of_winner hw) ha with ⟨hctx, -⟩ | ⟨hne, he, -, hk⟩
    · exact absurd hc hctx
    · obtain ⟨key, hctx⟩ := State.startNewFrame_ctx hq (State.sequence_of_not_keyless hk he hne)
      have hsend := State.sendLevel_of_new ha hc
      refine ⟨_, hctx, rfl, rfl, rfl, rfl, rfl,
        fun hnone => State.auction_of_sent h0 h1 hw (hsend.trans (State.formFragment_of_sound hctx hnone)),
        fun cell hs hcell => ?_⟩
      have hfails := State.formFragment_of_failing hctx hcell
      rw [State.freshContext_entry] at hfails
      exact State.auction_of_failure hs h0 h1 hw (hsend.trans hfails)
  case plain => rw [s.nextFragment_eq, s.fragmentAsSent_plain l hk, fragmentHeader_bytes_plain hk]; rfl
  case keyed => rw [s.nextFragment_eq, s.fragmentAsSent_keyed l hk, fragmentHeader_bytes_keyed hk]; rfl
  case cells => rfl
  case owed => exact fun s l a => s.sendAbort_eq l a
  case fails =>
    intro s l e cell
    unfold State.formingFails Trunk.countFailure
    rfl
  case failed =>
    obtain ⟨hflight, hcount⟩ := s.formingFails_trunk l c.entry cell
    obtain ⟨hctx, htrain, hflush, haborted, hdeadline, howed, hkept⟩ := State.formingFails_of_context hs hh h0 hc rfl
    exact ⟨hctx, htrain, hflush, haborted, hdeadline, howed, hkept, hflight.trans h0, hcount,
      s.formingFails_has l c.entry cell⟩

end Sys2Proof.Machine

/-! PROOFS. What is decided when a fragment or a frame completes (R13 to R17, R53, R59): boundaries, trains, and the
auction at the end of a step. -/

namespace Sys2Proof.Machine

open Sys2Proof

/-! ### Sending by a decision (R13, R55) -/

section Decided

variable {s : State} {l : Level}

theorem State.sendByDecision_of_sent {t : State} (h : s.sendLevel l = (false, t)) : s.sendByDecision l = t := by
  simp [State.sendByDecision, h]

theorem State.sendByDecision_of_failure {t : State} (h : s.sendLevel l = (true, t)) : s.sendByDecision l = t.auction := by
  simp [State.sendByDecision, h]

end Decided

/-! ### Boundaries (R13, R14) -/

theorem isTraffic_iff {l : Level} : isTraffic l = true ↔ 2 ≤ l.val := by simp [isTraffic]

theorem State.advance_lvl (s : State) (l : Level) (n : Nat) : (s.advance l n).lvl l =
    { s.lvl l with ctx := (s.lvl l).ctx.map fun c => { c with next := c.next + 1, sent := c.sent + n } } :=
  s.lvl_modLvl_same l _

theorem LevelEntry.inTrain_iff {v : LevelEntry} : v.inTrain = true ↔ 1 < v.attrs.trainMax ∧ 1 ≤ v.trainCount := by
  simp [LevelEntry.inTrain]

/-- R13, step 0. -/
def State.BoundaryBarred (s : State) (l : Level) : Prop :=
  2 ≤ l.val ∧ (s.ctl.mode = .setup ∨ (s.ctl.mode = .fallback ∧ (s.lvl l).attrs.essential = false))

/-- R13, step 2. -/
def State.BoundaryGoesOn (s : State) (l : Level) : Prop :=
  (s.lvl l).attrs.enable = true ∧
    ((1 < (s.lvl l).attrs.trainMax ∧ 1 ≤ (s.lvl l).trainCount) ∨ (s.lvl l).attrs.yields = false)

theorem State.boundaryBarred_iff {s : State} {l : Level} :
    s.BoundaryBarred l ↔ (isTraffic l && (s.ctl.mode = .setup || s.barred l)) = true := by
  simp only [State.BoundaryBarred, ← s.barred_iff l, ← isTraffic_iff, Bool.and_eq_true, Bool.or_eq_true,
    decide_eq_true_eq]

theorem State.boundaryGoesOn_iff {s : State} {l : Level} : s.BoundaryGoesOn l ↔
    ((s.lvl l).attrs.enable && ((s.lvl l).inTrain || !(s.lvl l).attrs.yields)) = true := by
  simp only [State.BoundaryGoesOn, ← LevelEntry.inTrain_iff, Bool.and_eq_true, Bool.or_eq_true, Bool.not_eq_true']

section Boundary

variable {s : State} {l : Level}

theorem State.boundaryDecision_of_barred (h : s.BoundaryBarred l) :
    s.boundaryDecision l = (s.abandon l true).auction := by
  unfold State.boundaryDecision
  rw [if_pos (State.boundaryBarred_iff.mp h)]

theorem State.boundaryDecision_of_notice (h : ¬ s.BoundaryBarred l) (h1 : l ≠ 0 ∧ s.hasWork 0 = true) :
    s.boundaryDecision l = (s.suspend l).sendByDecision 0 := by
  unfold State.boundaryDecision
  rw [if_neg fun hb => h (State.boundaryBarred_iff.mpr hb), if_pos (by simpa using h1)]

theorem State.boundaryDecision_of_goesOn (h : ¬ s.BoundaryBarred l) (h1 : ¬ (l ≠ 0 ∧ s.hasWork 0 = true))
    (h2 : s.BoundaryGoesOn l) : s.boundaryDecision l = s.sendByDecision l := by
  unfold State.boundaryDecision
  rw [if_neg fun hb => h (State.boundaryBarred_iff.mpr hb), if_neg (by simpa using h1),
    if_pos (State.boundaryGoesOn_iff.mp h2)]

theorem State.boundaryDecision_of_auction (h : ¬ s.BoundaryBarred l) (h1 : ¬ (l ≠ 0 ∧ s.hasWork 0 = true))
    (h2 : ¬ s.BoundaryGoesOn l) : s.boundaryDecision l = s.boundaryAuction l := by
  unfold State.boundaryDecision
  rw [if_neg fun hb => h (State.boundaryBarred_iff.mpr hb), if_neg (by simpa using h1),
    if_neg fun hg => h2 (State.boundaryGoesOn_iff.mpr hg)]

theorem State.boundaryAuction_of_none (h : s.winner = none) : s.boundaryAuction l = s.suspend l := by
  simp [State.boundaryAuction, h]

theorem State.boundaryAuction_of_won (h : s.winner = some l) : s.boundaryAuction l = s.sendByDecision l := by
  simp [State.boundaryAuction, h]

theorem State.boundaryAuction_of_lost {w : Level} (h : s.winner = some w) (hw : w ≠ l) :
    s.boundaryAuction l = (s.suspend l).sendByDecision w := by
  simp [State.boundaryAuction, h, hw]

theorem State.suspend_of_flush (h : (s.lvl l).flushPending ≠ none) : s.suspend l = s.abandon l true := by
  simp [State.suspend, Option.isSome_iff_ne_none.mpr h]

theorem State.suspend_of_none (h : (s.lvl l).flushPending = none) : s.suspend l = s.modLvl l fun v =>
    { v with ctx := v.ctx.map fun c => { c with suspensions := min 255 (c.suspensions + 1) }, trainCount := 0 } := by
  simp [State.suspend, h]

end Boundary

/-- Settles O19: the advance of the context leaves the mode, and the attributes and the train of its level, so the
steps read as they stood before it. -/
theorem boundaryDecidesByTheFirstStep : Obligations.BoundaryDecidesByTheFirstStep := by
  unfold Obligations.BoundaryDecidesByTheFirstStep
  refine ⟨fun s l n => ?_, fun s l => ⟨fun a ha => ?_, fun c ha hc he => ⟨fun hnone => ?_, fun cell hcell => ?_⟩,
    fun c ha hc hu => ⟨fun hnone => ?_, fun cell hcell => ?_⟩⟩⟩
  · have hlvl := s.advance_lvl l n
    have hbarred : (s.advance l n).BoundaryBarred l ↔ s.BoundaryBarred l := by
      unfold State.BoundaryBarred
      rw [hlvl]
      rfl
    have hgoes : (s.advance l n).BoundaryGoesOn l ↔ s.BoundaryGoesOn l := by
      unfold State.BoundaryGoesOn
      rw [hlvl]
    have hflush : ((s.advance l n).lvl l).flushPending = (s.lvl l).flushPending := by rw [hlvl]
    refine ⟨hlvl, fun h0 => ?_, fun h0 h1 => ?_, fun h0 h1 h2 => ?_, fun h0 h1 h2 => ?_, fun hf => ?_, fun hf => ?_⟩
    · exact State.boundaryDecision_of_barred (hbarred.mpr h0)
    · exact State.boundaryDecision_of_notice (mt hbarred.mp h0) h1
    · exact State.boundaryDecision_of_goesOn (mt hbarred.mp h0) h1 (hgoes.mpr h2)
    · have hdecide := State.boundaryDecision_of_auction (mt hbarred.mp h0) h1 (mt hgoes.mp h2)
      exact ⟨fun hw => hdecide.trans (State.boundaryAuction_of_none hw),
        fun hw => hdecide.trans (State.boundaryAuction_of_won hw),
        fun w hw hne => hdecide.trans (State.boundaryAuction_of_lost hw hne)⟩
    · exact State.suspend_of_flush (hflush ▸ hf)
    · exact State.suspend_of_none (hflush.trans hf)
  · exact State.sendByDecision_of_sent (State.sendLevel_of_abort ha)
  · exact State.sendByDecision_of_sent
      ((State.sendLevel_of_context ha hc he).trans (State.formFragment_of_sound hc hnone))
  · exact State.sendByDecision_of_failure
      ((State.sendLevel_of_context ha hc he).trans (State.formFragment_of_failing hc hcell))
  · exact State.sendByDecision_of_sent ((State.sendLevel_of_new ha hc).trans (State.formFragment_of_sound hu hnone))
  · exact State.sendByDecision_of_failure
      ((State.sendLevel_of_new ha hc).trans (State.formFragment_of_failing hu hcell))

/-! ### The completion of a frame (R15) -/

/-- R15: a frame of a level is counted. -/
def State.countSent (s : State) (l : Level) : State :=
  s.modLvl l fun v => { v with framesSent := bump v.framesSent }

theorem State.countSent_lvl (s : State) (l : Level) :
    (s.countSent l).lvl l = { s.lvl l with framesSent := bump (s.lvl l).framesSent } := s.lvl_modLvl_same l _

/-- R15: the frame of a level is counted, recorded and released, and its context is cleared. -/
def State.frameSent (s : State) (l : Level) (c : Context) (n : Nat) : State :=
  (((s.countSent l).recordFinish l c n .sent).release c.entry).modLvl l fun v => { v with ctx := none }

theorem State.completeFrame_eq (s : State) (l : Level) (c : Context) (n : Nat) :
    s.completeFrame l c n = ((s.frameSent l c n).flushComplete l).trainDecision l := rfl

theorem State.frameSent_lvl (s : State) (l : Level) (c : Context) (n : Nat) (m : Level) :
    (s.frameSent l c n).lvl m =
      if m = l then { s.lvl l with framesSent := bump (s.lvl l).framesSent, ctx := none } else s.lvl m := by
  have hbefore (k : Level) :
      (((s.countSent l).recordFinish l c n .sent).release c.entry).lvl k = (s.countSent l).lvl k := by
    rw [(State.release_leaves _ c.entry).lvl, State.recordFinish_eq]
    rfl
  unfold State.frameSent
  rw [State.lvl_modLvl, hbefore, hbefore, State.countSent_lvl]
  split
  · rfl
  · next h => exact State.lvl_modLvl_ne _ h _

theorem State.frameSent_store (s : State) (l : Level) (c : Context) (n : Nat) :
    (s.frameSent l c n).store = (s.release c.entry).store := by
  refine (State.release_congr ?_ ?_ c.entry).1
  · rw [State.recordFinish_eq]
    rfl
  · rw [State.recordFinish_eq]
    rfl

theorem State.frameSent_trunk (s : State) (l : Level) (c : Context) (n : Nat) :
    (s.frameSent l c n).trunk = ((s.countSent l).recordFinish l c n .sent).trunk :=
  (State.release_leaves _ c.entry).trunk

/-- Settles O20. -/
theorem frameCompletionCountsAndReleases : Obligations.FrameCompletionCountsAndReleases := by
  unfold Obligations.FrameCompletionCountsAndReleases
  intro s l c n
  have hlvl := s.frameSent_lvl l c n
  have hattrs : ((s.countSent l).lvl l).attrs = (s.lvl l).attrs := by rw [State.countSent_lvl]
  refine ⟨s.frameSent l c n, s.completeFrame_eq l c n, fun hflush => ?_, (hlvl l).trans (if_pos rfl),
    fun m hm => (hlvl m).trans (if_neg hm), s.frameSent_store l c n, fun h h' => ?_, fun h => ?_⟩
  · refine State.flushComplete_of_none _ l ?_
    rw [hlvl, if_pos rfl]
    exact hflush
  · rw [s.frameSent_trunk, State.recordFinish_of_not_asked (s := s.countSent l) (by rw [hattrs]; exact h) h']
    rfl
  · rw [s.frameSent_trunk, State.recordFinish_of_asked (s := s.countSent l) (by rw [hattrs]; exact h)]
    rfl

/-! ### Trains (R16, R17) -/

/-- R16: the conditions under which the next queued frame of a level starts at once. -/
def State.TrainGoesOn (s : State) (l : Level) : Prop :=
  (s.lvl l).attrs.trainMax ≠ 1 ∧ (s.lvl l).trainSoFar < (s.lvl l).attrs.trainMax ∧ (s.lvl l).queue ≠ [] ∧
    (s.lvl l).attrs.enable = true ∧ s.barred l = false ∧ s.ctl.mode ≠ .setup ∧ s.keyless l = false ∧
    s.hasWork 0 = false

theorem State.trainGoesOn_iff {s : State} {l : Level} : s.TrainGoesOn l ↔ s.trainContinues l = true := by
  simp [State.TrainGoesOn, State.trainContinues, and_assoc]

section Train

variable {s : State} {l : Level}

theorem State.trainDecision_of_ended (h : ¬ s.TrainGoesOn l) : s.trainDecision l = (s.endTrain l).auction := by
  unfold State.trainDecision
  rw [if_neg (mt State.trainGoesOn_iff.mpr h)]

theorem State.trainDecision_of_sent (h : s.TrainGoesOn l) {t : State}
    (hf : (s.startNextOfTrain l).formFragment l = (false, t)) : s.trainDecision l = t := by
  unfold State.trainDecision
  rw [if_pos (State.trainGoesOn_iff.mp h), hf]

theorem State.trainDecision_of_failure (h : s.TrainGoesOn l) {t : State}
    (hf : (s.startNextOfTrain l).formFragment l = (true, t)) : s.trainDecision l = t.auction := by
  unfold State.trainDecision
  rw [if_pos (State.trainGoesOn_iff.mp h), hf]

theorem State.startNextOfTrain_lvl : (s.startNextOfTrain l).lvl l =
    { (s.startNewFrame l).lvl l with trainCount := (s.lvl l).trainSoFar + 1 } :=
  State.lvl_modLvl_same _ l _

/-- R16: the train starts the head of its queue. -/
theorem State.TrainGoesOn.starts (h : s.TrainGoesOn l) : ∃ e key, (s.lvl l).queue.head? = some e ∧
    ((s.startNextOfTrain l).lvl l).ctx = some (s.freshContext e key) := by
  obtain ⟨-, -, hne, he, -, -, hkey, -⟩ := h
  obtain ⟨e, rest, hq⟩ := List.exists_cons_of_ne_nil hne
  obtain ⟨key, hctx⟩ := State.startNewFrame_ctx hq
    (State.sequence_of_not_keyless (Bool.eq_false_iff.mp hkey) he hne)
  exact ⟨e, key, by rw [hq]; rfl, by rw [State.startNextOfTrain_lvl]; exact hctx⟩

theorem State.startNewFrame_sound (h : s.store.corrupted = []) : (s.startNewFrame l).store.corrupted = [] := by
  cases hq : (s.lvl l).queue with
  | nil => simpa [State.startNewFrame, hq] using h
  | cons e rest =>
    cases hc : (s.lvl l).attrs.cipher with
    | false =>
      rw [State.startNewFrame_of_plain hq hc]
      exact h
    | true =>
      cases hseq : s.txSequence s.cipher.active l with
      | exhausted =>
        have hseq' : (s.lvl l).txSeq[s.cipher.active.val] = .exhausted := hseq
        simpa [State.startNewFrame, hq, hc, hseq'] using h
      | seq v =>
        rw [State.startNewFrame_of_keyed hq hc hseq]
        split
        · exact (State.raise_leaves (s := s.startKeyed l e rest v) _ _).sound h
        · exact h

theorem State.firstFailing_of_sound (h : s.store.corrupted = []) (cells : List CellNo) :
    s.firstFailing cells = none := by
  simp [State.firstFailing, h]

end Train

/-- Settles O21. -/
theorem trainContinuesOrEnds : Obligations.TrainContinuesOrEnds := by
  unfold Obligations.TrainContinuesOrEnds
  intro s l
  refine ⟨State.trainDecision_of_ended, fun (h : s.TrainGoesOn l) hl hsound => ?_, fun (h : s.TrainGoesOn l) => ?_⟩
  · obtain ⟨e, key, -, hctx⟩ := h.starts
    have hnone : (s.startNextOfTrain l).firstFailing ((s.startNextOfTrain l).fragmentCells (s.freshContext e key)) =
        none := State.firstFailing_of_sound (State.startNewFrame_sound hsound) _
    rw [State.trainDecision_of_sent h (State.formFragment_of_sound hctx hnone)]
    refine ⟨?_, _, rfl, rfl, rfl⟩
    change ((s.startNextOfTrain l).lvl l).trainCount = (s.lvl l).trainSoFar + 1
    rw [State.startNextOfTrain_lvl]
  · obtain ⟨e, key, hq, hctx⟩ := h.starts
    exact ⟨s.startNextOfTrain l, _, rfl, hctx, hq, rfl,
      fun hnone => State.trainDecision_of_sent h (State.formFragment_of_sound hctx hnone),
      fun cell hcell => State.trainDecision_of_failure h (State.formFragment_of_failing hctx hcell)⟩

/-! ### The completion of a fragment (R53) -/

theorem Trunk.countCompleted_of_abort {t : Trunk} {f : Fragment} (h : f.position = .abort) :
    t.countCompleted f = { t with abortsSent := bump t.abortsSent } := by
  simp [Trunk.countCompleted, h]

theorem Trunk.countCompleted_of_payload {t : Trunk} {f : Fragment} (h : f.position ≠ .abort) :
    t.countCompleted f = { t with
      fragmentsSent := bump t.fragmentsSent, payloadBytesSent := bumpBy t.payloadBytesSent f.len } := by
  simp [Trunk.countCompleted, h]

section Fragment

variable {s : State} {f : Fragment}

theorem State.afterFragment_of_abort (h : f.position = .abort) :
    s.afterFragment f = (s.modLvl f.level fun v => { v with abortOwed := none }).auction := by
  simp [State.afterFragment, h]

theorem State.afterFragment_of_gone (h : f.position ≠ .abort) (hc : (s.lvl f.level).ctx = none) :
    s.afterFragment f = s.auction := by
  unfold State.afterFragment
  cases hp : f.position with
  | abort => exact absurd hp h
  | whole | first | middle | last => simp [hc]

theorem State.afterFragment_of_end {c : Context} (h : f.position = .whole ∨ f.position = .last)
    (hc : (s.lvl f.level).ctx = some c) : s.afterFragment f = s.completeFrame f.level c (f.index + 1) := by
  unfold State.afterFragment
  rcases h with h | h <;> simp [h, hc]

theorem State.afterFragment_of_boundary {c : Context} (h : f.position = .first ∨ f.position = .middle)
    (hc : (s.lvl f.level).ctx = some c) : s.afterFragment f = s.boundary f.level f.len := by
  unfold State.afterFragment
  rcases h with h | h <;> simp [h, hc]

theorem exec_fragmentCompletion {cells : List CellNo} (h : s.trunk.inFlight = some f) :
    exec (.fragmentCompletion cells) s = .next (((s.corrupt cells).countFragment f).afterFragment f).settle := by
  have h' : (s.corrupt cells).trunk.inFlight = some f := h
  simp only [exec, execFragmentCompletion, h']
  rfl

end Fragment

/-- Settles O22. -/
theorem fragmentCompletionCountsAndDecides : Obligations.FragmentCompletionCountsAndDecides := by
  unfold Obligations.FragmentCompletionCountsAndDecides
  intro s f cells hf
  have hexec := exec_fragmentCompletion (cells := cells) hf
  refine ⟨⟨rfl, rfl, fun h => ?_, fun h => ?_⟩, fun h => ?_, fun h hc => ?_, fun c hc h => ?_, fun c hc h => ?_⟩
  · simp only [State.countFragment, State.corrupt, Trunk.countCompleted_of_abort h, and_self]
  · simp only [State.countFragment, State.corrupt, Trunk.countCompleted_of_payload h, and_self]
  · rw [hexec, State.afterFragment_of_abort h]
  · rw [hexec, State.afterFragment_of_gone (s := (s.corrupt cells).countFragment f) h hc]
  · rw [hexec, State.afterFragment_of_end (s := (s.corrupt cells).countFragment f) h hc]
  · rw [hexec, State.afterFragment_of_boundary (s := (s.corrupt cells).countFragment f) h hc]

end Sys2Proof.Machine

/-! PROOFS. The end of every step (R8, R17, R59): no auction stays due; and level 0 waits behind at most one fragment
of another level (R9, R13). -/

namespace Sys2Proof.Machine

open Sys2Proof

/-! ### How rows end -/

/-- Nothing but the pins and the cells that the world has corrupted differs. -/
def Quiet (s t : State) : Prop :=
  t = { s with pins := t.pins, store := { s.store with corrupted := t.store.corrupted } }

theorem Quiet.auctionDue {s t : State} (h : Quiet s t) : t.auctionDue = s.auctionDue := by
  unfold Quiet at h
  rw [h]

/-- A row ends with the settling that ends a step, or has done nothing, or is a reset. -/
def EndsFrom (s : State) (x : Result) : Prop :=
  ∀ t, x = .next t → (∃ u : State, t = u.settle) ∨ Quiet s t ∨ ∃ m c b p q, t = State.blank m c b p q

section Ends

variable {s : State}

theorem EndsFrom.done (u : State) : EndsFrom s u.done := fun _ h => .inl ⟨u, State.done_eq h⟩

theorem EndsFrom.quiet {u : State} (h : Quiet s u) : EndsFrom s (.next u) := fun _ ht => by
  cases ht
  exact .inr (.inl h)

theorem EndsFrom.same : EndsFrom s (.next s) := .quiet rfl

theorem EndsFrom.reset (m : Mode) (c : ResetCause) (b : Byte) (p : Pins) (q : List Instr) :
    EndsFrom s (.next (State.blank m c b p q)) := fun _ ht => by
  cases ht
  exact .inr (.inr ⟨m, c, b, p, q, rfl⟩)

theorem EndsFrom.fault (f : Fault) : EndsFrom s (.fault f) := fun _ h => by cases h

theorem EndsFrom.ite {c : Prop} [Decidable c] {x y : Result} (hx : EndsFrom s x) (hy : EndsFrom s y) :
    EndsFrom s (if c then x else y) := by
  split
  · exact hx
  · exact hy

theorem EndsFrom.runCommand (k : Command) (act : CommandAct) : EndsFrom s (s.runCommand k act) := by
  unfold State.runCommand
  split
  · exact .same
  · exact .ite (.done _) .same

theorem EndsFrom.resetPart : EndsFrom s (execResetPart s) := by
  unfold execResetPart
  split
  · exact .same
  · exact .ite (.ite (.reset _ _ _ _ _) (.done _)) .same

theorem exec_instr_ends (k : Command) : EndsFrom s (exec k.instr s) := by
  by_cases hk : k = .resetPart
  · subst hk
    exact .resetPart
  · rw [exec_instr k s hk]
    exact .runCommand k k.act

/-- How every row ends. -/
theorem exec_ends (i : Instr) (s : State) : EndsFrom s (exec i s) := by
  cases hk : ofEventRow i with
  | false =>
    obtain ⟨k, rfl⟩ := command_of_not_event hk
    exact exec_instr_ends k
  | true =>
    cases i with
    | powerOn => exact .reset _ _ _ _ _
    | resetPinRelease => exact .quiet rfl
    | resetPinAssert => exact .ite .same (.reset _ _ _ _ _)
    | initEnd => exact .ite (.reset _ _ _ _ _) .same
    | malformedCommand =>
      simp only [exec, execMalformedCommand]
      split
      · exact .same
      · split
        · exact .same
        · exact .done _
    | unknownCommand =>
      simp only [exec, execUnknownCommand]
      split
      · exact .same
      · exact .ite (.done _) .same
    | waitingResponseBuild | supervisionExpiry | jabberTimeout | jabberRecovery | silenceTimeout =>
      exact .ite (.done _) .same
    | spacingDeadlinePasses => exact .ite (.done _) (.quiet rfl)
    | fragmentReceived => exact .ite .same (.done _)
    | trunkLineDown | trunkLineUp | receiveLineActive | receiveLineSilent | portLineDown | portLineUp =>
      exact .ite (.quiet rfl) (.done _)
    | fragmentCompletion =>
      simp only [exec, execFragmentCompletion]
      split
      · exact .quiet rfl
      · exact .done _
    | expansionCompletes =>
      simp only [exec, execExpansionCompletes]
      split
      · exact .done _
      all_goals exact .same
    | headerReceived =>
      simp only [exec, execHeaderReceived]
      split
      · exact .done _
      all_goals exact .same
    | excessPayloadByte =>
      simp only [exec, execExcessPayloadByte]
      split
      · exact .done _
      · exact .done _
      all_goals exact .same
    | transmissionCompletes =>
      simp only [exec, execTransmissionCompletes]
      split
      · exact .done _
      all_goals exact .same
    | loopbackCompletion =>
      simp only [exec, execLoopbackCompletion]
      split
      · exact .done _
      all_goals exact .quiet rfl
    | portCellCheckFailure =>
      simp only [exec, execPortCellCheckFailure]
      refine .ite (.fault _) ?_
      split
      · exact .same
      · exact .ite (.done _) .same
    | _ => cases hk

end Ends

/-! ### The end of a step (R8) -/

theorem State.forgetFreed_eq (s : State) :
    s.forgetFreed = { s with cmd := { s.cmd with freed := s.forgetFreed.cmd.freed } } := by
  unfold State.forgetFreed
  split <;> rfl

theorem State.settle_of_due {s : State} (h : s.auctionDue = true) :
    s.settle = ({ s.auction with auctionDue := false } : State).forgetFreed := by
  simp [State.settle, State.dueAuction, h]

theorem State.settle_of_not_due {s : State} (h : s.auctionDue = false) : s.settle = s.forgetFreed := by
  simp [State.settle, State.dueAuction, h]

theorem State.settle_auctionDue (s : State) : s.settle.auctionDue = false := by
  cases h : s.auctionDue with
  | true =>
    rw [State.settle_of_due h, State.forgetFreed_eq]
  | false =>
    rw [State.settle_of_not_due h, State.forgetFreed_eq]
    exact h

theorem exec_auctionDue {i : Instr} {s t : State} (hs : s.auctionDue = false) (h : exec i s = .next t) :
    t.auctionDue = false := by
  rcases exec_ends i s t h with ⟨u, rfl⟩ | hq | ⟨m, c, b, p, q, rfl⟩
  · exact u.settle_auctionDue
  · exact hq.auctionDue.trans hs
  · rfl

theorem State.spacingDue_of_deadline {s : State} {l : Level} (h : (s.lvl l).deadline = some s.now) :
    s.spacingDue l = true := by
  simp [State.spacingDue, h]

/-- Settles O23. -/
theorem deadlineAndLineUpHoldAnAuction : Obligations.DeadlineAndLineUpHoldAnAuction := by
  unfold Obligations.DeadlineAndLineUpHoldAnAuction
  refine ⟨fun s t hs h => ?_, fun s l cells h => ?_, fun s cells hm hdown => ?_, fun s => State.settle_of_due rfl,
    fun s => State.settle_of_not_due, State.forgetFreed_eq⟩
  · exact step_keeps (P := fun u => u.auctionDue = false) (fun _ _ h => h) (fun _ _ h => h)
      (fun _ _ _ hu he => exec_auctionDue hu he) hs h
  · exact if_pos (State.spacingDue_of_deadline (s := s.corrupt cells) h)
  · refine if_neg ?_
    rintro (h | h)
    · exact hm h
    · exact Bool.false_ne_true (hdown.symm.trans h)

/-! ### Level 0 waits for one fragment at most (R9, R13) -/

/-- The transmitter is idle on a line that is Up, and level 0 has work that forms without a failure. -/
structure State.NoticeReady (s : State) : Prop where
  idle : s.trunk.inFlight = none
  up : s.trunk.lineUp = true
  attrs : (s.lvl 0).attrs = .builtIn 8
  sound : s.store.corrupted = []
  work : s.hasWork 0 = true

/-- What neither touches level 0 and the transmitter nor corrupts a cell. -/
structure KeepsNotice (s t : State) : Prop where
  lvl : t.lvl 0 = s.lvl 0
  trunk : LogsOnly s t
  sound : s.store.corrupted = [] → t.store.corrupted = []

theorem KeepsNotice.trans {s t u : State} (h : KeepsNotice s t) (h' : KeepsNotice t u) : KeepsNotice s u :=
  ⟨h'.lvl.trans h.lvl, h.trunk.trans h'.trunk, fun hs => h'.sound (h.sound hs)⟩

theorem LeavesBut.keepsNotice {l : Level} {s t : State} (h : LeavesBut l s t) (hl : l ≠ 0) : KeepsNotice s t :=
  ⟨h.lvl 0 hl.symm, .of_eq h.trunk, h.sound⟩

theorem KeepsNotice.modLvl (s : State) {l : Level} (hl : l ≠ 0) (f : LevelEntry → LevelEntry) :
    KeepsNotice s (s.modLvl l f) := ⟨State.lvl_modLvl_ne s hl.symm f, rfl, id⟩

theorem KeepsNotice.recordFinish (s : State) (l : Level) (c : Context) (n : Nat) (o : EgressOutcome) :
    KeepsNotice s (s.recordFinish l c n o) := by
  refine ⟨?_, ?_, ?_⟩
  · rw [State.recordFinish_eq]
    rfl
  · exact s.recordFinish_logsOnly l c n o
  · rw [State.recordFinish_eq]
    exact id

theorem KeepsNotice.flushComplete (s : State) {l : Level} (hl : l ≠ 0) : KeepsNotice s (s.flushComplete l) :=
  (KeepsNotice.modLvl s hl _).trans ((State.flushComplete_spec s l).keepsNotice (by decide))

theorem KeepsNotice.frameSent (s : State) {l : Level} (hl : l ≠ 0) (c : Context) (n : Nat) :
    KeepsNotice s (s.frameSent l c n) :=
  (((KeepsNotice.modLvl s hl _).trans (.recordFinish _ l c n .sent)).trans
    ((State.release_leaves _ c.entry).but l |>.keepsNotice hl)).trans (.modLvl _ hl _)

theorem KeepsNotice.dropContext (s : State) {l : Level} (hl : l ≠ 0) (c : Context) :
    KeepsNotice s (s.dropContext l c) :=
  ((((KeepsNotice.recordFinish s l c c.next .aborted).trans (.modLvl _ hl _)).trans
    ((State.release_leaves _ c.entry).but l |>.keepsNotice hl)).trans (.modLvl _ hl _))

theorem KeepsNotice.giveUpContext (s : State) {l : Level} (hl : l ≠ 0) (c : Context) (started : Bool) :
    KeepsNotice s (s.giveUpContext l c started) := by
  have hdrop := KeepsNotice.dropContext s hl c
  cases started with
  | false => exact hdrop
  | true =>
    exact (hdrop.trans (.modLvl _ hl _)).trans ((State.triggerAuction_leaves _).but l |>.keepsNotice hl)

theorem KeepsNotice.abandon (s : State) {l : Level} (hl : l ≠ 0) (started : Bool) :
    KeepsNotice s (s.abandon l started) := by
  cases hc : (s.lvl l).ctx with
  | none =>
    rw [State.abandon_of_none hc]
    exact ⟨rfl, rfl, id⟩
  | some c =>
    rw [State.abandon_of_context hc]
    exact (KeepsNotice.giveUpContext s hl c started).trans (.flushComplete _ hl)

theorem KeepsNotice.suspend (s : State) {l : Level} (hl : l ≠ 0) : KeepsNotice s (s.suspend l) := by
  unfold State.suspend
  split
  · exact .abandon s hl true
  · exact .modLvl s hl _

section NoticeReady

variable {s t : State}

/-- The work of level 0, which no mode bars and no key gates. -/
theorem State.hasWork_zero (h : (s.lvl 0).attrs = .builtIn 8) : s.hasWork 0 = true ↔
    (s.lvl 0).abortOwed ≠ none ∨ (s.lvl 0).ctx ≠ none ∨ ((s.lvl 0).queue ≠ [] ∧ (s.lvl 0).deadline = none) := by
  have hbarred : s.barred 0 = false := by simp [State.barred, h, Attrs.builtIn]
  have hkeyless : ¬ s.keyless 0 = true := by simp [State.keyless, h, Attrs.builtIn]
  have henable : (s.lvl 0).attrs.enable = true := by rw [h]; rfl
  rw [State.hasWork_iff, State.eligible_iff]
  simp only [hbarred, hkeyless, henable, Bool.false_eq_true, not_false_eq_true, and_true, true_and, or_self_left]

theorem State.NoticeReady.keeps (h : s.NoticeReady) (hk : KeepsNotice s t) : t.NoticeReady := by
  obtain ⟨hlvl, htrunk, hsound⟩ := hk
  unfold LogsOnly at htrunk
  have hattrs : (t.lvl 0).attrs = .builtIn 8 := by rw [hlvl]; exact h.attrs
  refine ⟨by rw [htrunk]; exact h.idle, by rw [htrunk]; exact h.up, hattrs, hsound h.sound, ?_⟩
  rw [State.hasWork_zero hattrs, hlvl]
  exact (State.hasWork_zero h.attrs).mp h.work

/-- What level 0 sends. -/
def State.SendsNotice (s : State) : Prop := ∃ g, s.trunk.inFlight = some g ∧ g.level = 0

theorem State.NoticeReady.sends (h : s.NoticeReady) : ∃ t : State, s.sendLevel 0 = (false, t) ∧ t.SendsNotice := by
  have henable : (s.lvl 0).attrs.enable = true := by rw [h.attrs]; rfl
  cases ha : (s.lvl 0).abortOwed with
  | some a => exact ⟨_, State.sendLevel_of_abort ha, _, rfl, rfl⟩
  | none =>
    cases hc : (s.lvl 0).ctx with
    | some c =>
      exact ⟨_, (State.sendLevel_of_context ha hc henable).trans
        (State.formFragment_of_sound hc (State.firstFailing_of_sound h.sound _)), _, rfl, rfl⟩
    | none =>
      have hq : (s.lvl 0).queue ≠ [] := by
        rcases (State.hasWork_zero h.attrs).mp h.work with hab | hcx | ⟨hq, -⟩
        · exact absurd ha hab
        · exact absurd hc hcx
        · exact hq
      obtain ⟨e, rest, hq⟩ := List.exists_cons_of_ne_nil hq
      have hplain : (s.lvl 0).attrs.cipher = false := by rw [h.attrs]; rfl
      obtain ⟨key, hctx⟩ := State.startNewFrame_ctx (s := s) hq fun hk => by
        rw [hplain] at hk
        cases hk
      exact ⟨_, (State.sendLevel_of_new ha hc).trans
        (State.formFragment_of_sound hctx (State.firstFailing_of_sound (State.startNewFrame_sound h.sound) _)),
        _, rfl, rfl⟩

theorem State.NoticeReady.auction (h : s.NoticeReady) : s.auction.SendsNotice := by
  obtain ⟨t, ht, hsent⟩ := h.sends
  have hwinner : s.winner = some 0 := State.winner_eq_some.mpr ⟨h.work, fun m hm => absurd hm (Fin.not_lt_zero m)⟩
  rw [State.auction_of_sent h.idle h.up hwinner ht]
  exact hsent

theorem State.NoticeReady.sendByDecision (h : s.NoticeReady) : (s.sendByDecision 0).SendsNotice := by
  obtain ⟨t, ht, hsent⟩ := h.sends
  rw [State.sendByDecision_of_sent ht]
  exact hsent

theorem State.NoticeReady.trainDecision (h : s.NoticeReady) {l : Level} (hl : l ≠ 0) :
    (s.trainDecision l).SendsNotice := by
  rw [State.trainDecision_of_ended fun hg => ?_]
  · exact (h.keeps (.modLvl s hl _)).auction
  · obtain ⟨-, -, -, -, -, -, -, hwork⟩ := hg
    rw [h.work] at hwork
    cases hwork

theorem State.NoticeReady.boundaryDecision (h : s.NoticeReady) {l : Level} (hl : l ≠ 0) :
    (s.boundaryDecision l).SendsNotice := by
  by_cases hb : s.BoundaryBarred l
  · rw [State.boundaryDecision_of_barred hb]
    exact (h.keeps (.abandon s hl true)).auction
  · rw [State.boundaryDecision_of_notice hb ⟨hl, h.work⟩]
    exact (h.keeps (.suspend s hl)).sendByDecision

theorem State.NoticeReady.afterFragment (h : s.NoticeReady) {f : Fragment} (hl : f.level ≠ 0) :
    (s.afterFragment f).SendsNotice := by
  by_cases habort : f.position = .abort
  · rw [State.afterFragment_of_abort habort]
    exact (h.keeps (.modLvl s hl _)).auction
  · cases hc : (s.lvl f.level).ctx with
    | none =>
      rw [State.afterFragment_of_gone habort hc]
      exact h.auction
    | some c =>
      by_cases hend : f.position = .whole ∨ f.position = .last
      · rw [State.afterFragment_of_end hend hc, State.completeFrame_eq]
        exact ((h.keeps (.frameSent s hl c _)).keeps (.flushComplete _ hl)).trainDecision hl
      · have hmore : f.position = .first ∨ f.position = .middle := by
          cases hp : f.position <;> simp_all
        rw [State.afterFragment_of_boundary hmore hc]
        exact (h.keeps (.modLvl s hl _)).boundaryDecision hl

theorem State.SendsNotice.settle (h : s.SendsNotice) : s.settle.SendsNotice := by
  unfold State.SendsNotice
  cases hdue : s.auctionDue with
  | true =>
    obtain ⟨g, hg, hlevel⟩ := h
    rw [State.settle_of_due hdue, State.forgetFreed_eq, State.auction_of_none (.inl (by rw [hg]; nofun))]
    exact ⟨g, hg, hlevel⟩
  | false =>
    rw [State.settle_of_not_due hdue, State.forgetFreed_eq]
    exact h

end NoticeReady

theorem Trunk.countCompleted_lineUp (t : Trunk) (f : Fragment) : (t.countCompleted f).lineUp = t.lineUp := by
  unfold Trunk.countCompleted
  split <;> rfl

/-- Settles O24. -/
theorem noticeWaitsForOneFragmentAtMost : Obligations.NoticeWaitsForOneFragmentAtMost := by
  unfold Obligations.NoticeWaitsForOneFragmentAtMost
  intro s t f hf hl hup hattrs hsound hwork h
  rw [exec_fragmentCompletion hf] at h
  cases h
  have hready : ((s.corrupt []).countFragment f).NoticeReady := by
    refine ⟨rfl, ?_, hattrs, hsound, ?_⟩
    · exact (s.trunk.countCompleted_lineUp f).trans hup
    · exact (State.hasWork_zero (s := (s.corrupt []).countFragment f) hattrs).mpr
        ((State.hasWork_zero (s := s) hattrs).mp hwork)
  exact (hready.afterFragment hl).settle

end Sys2Proof.Machine

/-! PROOFS. Layouts (11): numbers and flags in bytes, headers and rules read as written, the codes of the tables, and
the cut of a payload into fragments (R47, R185, R187 to R189). -/

namespace Sys2Proof.Machine

open Sys2Proof

/-! ### Numbers in bytes -/

theorem byteOf_toNat (n : Nat) : (byteOf n).toNat = n % 256 := by simp [byteOf]

theorem byteOf_toNat_of_lt {n : Nat} (h : n < 256) : (byteOf n).toNat = n := by
  rw [byteOf_toNat, Nat.mod_eq_of_lt h]

theorem bytes2_toNat {n : Nat} (h : n < 65536) : (byteOf (n / 256)).toNat * 256 + (byteOf n).toNat = n := by
  rw [byteOf_toNat, byteOf_toNat]
  omega

theorem bytes4_append (w : Word) :
    w.extractLsb' 24 8 ++ w.extractLsb' 16 8 ++ w.extractLsb' 8 8 ++ w.extractLsb' 0 8 = w := by
  rw [BitVec.extractLsb'_append_extractLsb'_eq_extractLsb' (show 24 = 16 + 8 from rfl),
    BitVec.extractLsb'_append_extractLsb'_eq_extractLsb' (show 16 = 8 + 8 from rfl),
    BitVec.extractLsb'_append_extractLsb'_eq_extractLsb' (show 8 = 0 + 8 from rfl)]
  exact BitVec.extractLsb'_eq_self

/-! ### Flags -/

/-- R187: bit i of a flags byte is its i-th item. -/
theorem flagsByte_getLsbD (items : List Bool) {i : Nat} (hi : i < 8) :
    (flagsByte items).getLsbD i = items.getD i false := by
  induction items generalizing i with
  | nil => simp [flagsByte]
  | cons b bs ih =>
    cases i with
    | zero => cases b <;> simp [flagsByte]
    | succ i =>
      have hone : (if b then (1 : Byte) else 0).getLsbD (i + 1) = false := by cases b <;> simp
      rw [flagsByte, BitVec.getLsbD_or, hone, Bool.or_false, BitVec.getLsbD_shiftLeft]
      simpa [hi] using ih (i := i) (by omega)

/-! ### Headers (R185) -/

theorem positionCode_lt (p : Option Position) : (p.map Position.code).getD 7 < 8 := by
  rcases p with - | ⟨⟨⟩⟩ <;> decide

theorem Position.ofCode_code (p : Option Position) : Position.ofCode ((p.map Position.code).getD 7) = p := by
  rcases p with - | ⟨⟨⟩⟩ <;> rfl

/-- The level and the position share a byte. -/
theorem levelAndPosition_read (l : Level) (p : Option Position) :
    Fin.ofNat 32 ((byteOf (l.val * 8 + (p.map Position.code).getD 7)).toNat / 8) = l ∧
      Position.ofCode ((byteOf (l.val * 8 + (p.map Position.code).getD 7)).toNat % 8) = p := by
  have hl := l.isLt
  have hp := positionCode_lt p
  rw [byteOf_toNat_of_lt (by omega)]
  refine ⟨Fin.ext ?_, ?_⟩
  · rw [Fin.val_ofNat]
    omega
  · rw [show (l.val * 8 + (p.map Position.code).getD 7) % 8 = (p.map Position.code).getD 7 by omega]
    exact Position.ofCode_code p

/-- The cipher flag, the slot, the payload type and the index share a byte. -/
theorem cipherAndIndex_read (enciphered : Bool) (k : Slot) (t : PayloadType) (i : Fin 8) :
    let b := byteOf ((if enciphered then 128 else 0) + k.val * 64 + t.code * 16 + i.val)
    b.getLsbD 7 = enciphered ∧ (if b.getLsbD 6 then (1 : Slot) else 0) = k ∧
      PayloadType.ofCode (b.toNat / 16) = t ∧ b.toNat % 8 = i.val := by
  revert i k
  cases enciphered <;> cases t <;> decide

theorem num2_bytes2 {bs : List Byte} {i n : Nat} (h : n < 65536) (h0 : bs.getD i 0 = byteOf (n / 256))
    (h1 : bs.getD (i + 1) 0 = byteOf n) : num2 bs i = n := by
  unfold num2
  rw [h0, h1, bytes2_toNat h]

theorem FragmentHeader.parse_bytes (h : FragmentHeader) (rest : List Byte) (hi : h.index < 8) (ht : h.total < 65536)
    (hl : h.len < 65536) : FragmentHeader.parse (h.bytes ++ rest) = h := by
  obtain ⟨hlevel, hposition⟩ := levelAndPosition_read h.level h.position
  obtain ⟨hcipher, hslot, hptype, hindex⟩ := cipherAndIndex_read h.cipher h.slot h.ptype ⟨h.index, hi⟩
  have htotal : num2 (h.bytes ++ rest) 8 = h.total := num2_bytes2 ht rfl rfl
  have hlen : num2 (h.bytes ++ rest) 10 = h.len := num2_bytes2 hl rfl rfl
  have hsequence : word4 (h.bytes ++ rest) 4 = h.sequence := bytes4_append h.sequence
  have hb2 : (h.bytes ++ rest).getD 2 0 = byteOf (h.level.val * 8 + (h.position.map Position.code).getD 7) := rfl
  have hb3 : (h.bytes ++ rest).getD 3 0 =
      byteOf ((if h.cipher then 128 else 0) + h.slot.val * 64 + h.ptype.code * 16 + h.index) := rfl
  unfold FragmentHeader.parse
  simp only [hb2, hb3, hlevel, hposition, hcipher, hslot, hptype, hindex, hsequence, htotal, hlen]
  rfl

theorem FragmentHeader.bytes_length (h : FragmentHeader) : h.bytes.length = 12 := rfl

theorem fragmentBytes_length (h : FragmentHeader) (payload : List Byte) :
    (fragmentBytes h payload).length = payload.length + 16 := by
  simp [fragmentBytes, FragmentHeader.bytes_length, bytes4]
  omega

/-- A word is read from the four bytes it was written in, wherever they stand. -/
theorem word4_append (bs : List Byte) (w : Word) : word4 (bs ++ bytes4 w) bs.length = w := by
  have hget (i : Nat) : (bs ++ bytes4 w).getD (bs.length + i) 0 = (bytes4 w).getD i 0 := by
    rw [List.getD_eq_getElem?_getD, List.getD_eq_getElem?_getD, List.getElem?_append_right (Nat.le_add_right _ _),
      Nat.add_sub_cancel_left]
  unfold word4
  rw [hget 1, hget 2, hget 3]
  have h0 := hget 0
  rw [Nat.add_zero] at h0
  rw [h0]
  exact bytes4_append w

theorem fragmentCrcGood_fragmentBytes (h : FragmentHeader) (payload : List Byte) :
    fragmentCrcGood (fragmentBytes h payload) = true := by
  have hlen := fragmentBytes_length h payload
  have hbody : (fragmentBytes h payload).length - 4 = (h.bytes ++ payload).length := by
    simp [hlen, FragmentHeader.bytes_length]
    omega
  unfold fragmentCrcGood
  rw [hbody]
  unfold fragmentBytes
  rw [word4_append, List.take_left]
  simp [bytes4]
  omega

theorem fragmentPayload_fragmentBytes (h : FragmentHeader) (payload : List Byte) :
    fragmentPayload (fragmentBytes h payload) = payload := by
  have hdrop : (fragmentBytes h payload).drop 12 = payload ++ bytes4 (crc32 (h.bytes ++ payload)) := by
    unfold fragmentBytes
    rw [List.append_assoc]
    exact List.drop_left' h.bytes_length
  unfold fragmentPayload
  rw [hdrop, fragmentBytes_length, Nat.add_sub_cancel]
  exact List.take_left

/-! ### Rules (R188) -/

theorem Action.ofFlag_isDrop (a : Action) : Action.ofFlag a.isDrop = a := by cases a <;> rfl

theorem Action.isDrop_eq (a : Action) : a.isDrop = decide (a = .drop) := by cases a <;> rfl

/-- The ports stand in the high half of the flags byte of a rule. -/
theorem ruleFlags_eq (valid drop record : Bool) (mask : BitVec 4) :
    flagsByte [valid, drop, record, false] ||| (mask.setWidth 8 <<< 4) =
      flagsByte [valid, drop, record, false, mask.getLsbD 0, mask.getLsbD 1, mask.getLsbD 2, mask.getLsbD 3] := by
  apply BitVec.eq_of_getLsbD_eq
  intro i hi
  rw [BitVec.getLsbD_or, flagsByte_getLsbD _ hi, flagsByte_getLsbD _ hi]
  interval_cases i <;> simp

theorem Rule.bytes_eq (r : Rule) : r.bytes = [flagsByte [r.valid, decide (r.action = .drop), r.record, false,
      r.portMask.getLsbD 0, r.portMask.getLsbD 1, r.portMask.getLsbD 2, r.portMask.getLsbD 3], r.srcLow, r.srcHigh,
      r.dstLow, r.dstHigh, r.clsValue, r.clsMask] ++ bytes2 r.lenMin ++ bytes2 r.lenMax ++
      [byteOf r.level.val, r.label] := by
  unfold Rule.bytes
  rw [ruleFlags_eq, Action.isDrop_eq]

theorem Rule.parse_bytes (b : Byte) (r : Rule) (rest : List Byte) (hmin : r.lenMin < 65536) (hmax : r.lenMax < 65536) :
    Rule.parse (b :: (r.bytes ++ rest)) 1 = { r with hits := 0 } := by
  have hflags : (b :: (r.bytes ++ rest)).getD 1 0 = flagsByte [r.valid, decide (r.action = .drop), r.record, false,
      r.portMask.getLsbD 0, r.portMask.getLsbD 1, r.portMask.getLsbD 2, r.portMask.getLsbD 3] := by
    rw [Rule.bytes_eq]
    rfl
  have hbit (i : Nat) (hi : i < 8) := flagsByte_getLsbD [r.valid, decide (r.action = .drop), r.record, false,
      r.portMask.getLsbD 0, r.portMask.getLsbD 1, r.portMask.getLsbD 2, r.portMask.getLsbD 3] hi
  have hmask : (flagsByte [r.valid, decide (r.action = .drop), r.record, false, r.portMask.getLsbD 0,
      r.portMask.getLsbD 1, r.portMask.getLsbD 2, r.portMask.getLsbD 3]).extractLsb' 4 4 = r.portMask := by
    apply BitVec.eq_of_getLsbD_eq
    intro i hi
    rw [BitVec.getLsbD_extractLsb', hbit (4 + i) (by omega)]
    interval_cases i <;> rfl
  have haction : Action.ofFlag (decide (r.action = .drop)) = r.action := by
    rw [← Action.isDrop_eq, Action.ofFlag_isDrop]
  have hlevel : Fin.ofNat 32 (byteOf r.level.val).toNat = r.level := by
    rw [byteOf_toNat_of_lt (by omega)]
    exact Fin.ofNat_val_eq_self r.level
  have hmin' : num2 (b :: (r.bytes ++ rest)) 8 = r.lenMin := num2_bytes2 hmin rfl rfl
  have hmax' : num2 (b :: (r.bytes ++ rest)) 10 = r.lenMax := num2_bytes2 hmax rfl rfl
  have hlevel' : (b :: (r.bytes ++ rest)).getD 12 0 = byteOf r.level.val := rfl
  unfold Rule.parse
  simp only [hflags, hbit 0 (by omega), hbit 1 (by omega), hbit 2 (by omega), hmask, hmin', hmax', hlevel', hlevel]
  simp only [List.getD_cons_zero, List.getD_cons_succ, haction]
  rfl

/-- Settles O34. -/
theorem headersAndRulesAreReadAsWritten : Obligations.HeadersAndRulesAreReadAsWritten := by
  unfold Obligations.HeadersAndRulesAreReadAsWritten
  refine ⟨FragmentHeader.parse_bytes, fun h payload => ⟨fragmentCrcGood_fragmentBytes h payload,
    fragmentPayload_fragmentBytes h payload⟩, fun b r rest => Rule.parse_bytes b r rest, Rule.bytes_eq, fun r => ?_,
    fun r filled => ⟨rfl, rfl, rfl⟩, fun items _ i hi => flagsByte_getLsbD items hi,
    fun n hn => ⟨_, _, rfl, bytes2_toNat hn⟩, fun w => ⟨_, _, _, _, rfl, bytes4_append w⟩, by decide, by decide,
    by decide, by decide, by decide, by decide, by decide, by decide, by decide, by decide, by decide, by decide,
    by decide, fun _ _ _ => ⟨rfl, rfl, rfl⟩, fun _ => ⟨rfl, rfl, rfl⟩⟩
  have hnone (n : Option Nat) : numOr255 n = byteOf (n.getD 255) := by cases n <;> rfl
  unfold EgressRecord.bytes
  rw [hnone, hnone]

/-! ### Fragments of a payload (R47) -/

/-- The first fragments of a payload hold its first bytes. -/
theorem sum_fragmentLength (len size n : Nat) :
    ((List.range n).map (fragmentLength len size)).sum = min (n * size) len := by
  induction n with
  | zero => simp
  | succ n ih =>
    rw [List.range_succ, List.map_append, List.sum_append, ih]
    simp only [List.map_cons, List.map_nil, List.sum_cons, List.sum_nil, fragmentLength, Nat.succ_mul]
    omega

theorem fragmentPosition_of_one {len size k : Nat} (h : fragmentCount len size ≤ 1) :
    fragmentPosition len size k = .whole := by
  simp [fragmentPosition, h]

theorem fragmentPosition_zero {len size : Nat} (h : 1 < fragmentCount len size) :
    fragmentPosition len size 0 = .first := by
  simp [fragmentPosition, Nat.not_le.mpr h]

theorem fragmentPosition_inner {len size k : Nat} (h0 : 1 ≤ k) (h : k + 1 < fragmentCount len size) :
    fragmentPosition len size k = .middle := by
  have hmany : ¬ fragmentCount len size ≤ 1 := by omega
  have hk : k ≠ 0 := by omega
  simp [fragmentPosition, hmany, hk, h]

theorem fragmentPosition_end {len size k : Nat} (h0 : 1 ≤ k) (h : k + 1 = fragmentCount len size) :
    fragmentPosition len size k = .last := by
  have hmany : ¬ fragmentCount len size ≤ 1 := by omega
  have hk : k ≠ 0 := by omega
  simp [fragmentPosition, hmany, hk, h]

/-- Where the count of fragments lies, for a size above zero. -/
theorem fragmentCount_bounds {len size : Nat} (hs : 0 < size) :
    len ≤ fragmentCount len size * size ∧ fragmentCount len size * size < len + size := by
  have hdiv := Nat.div_add_mod (len + size - 1) size
  have hmod := Nat.mod_lt (len + size - 1) hs
  unfold fragmentCount
  rw [Nat.mul_comm] at hdiv
  omega

/-- Settles O33: the sum telescopes, and the count is the least that covers the payload. -/
theorem fragmentsCoverThePayload : Obligations.FragmentsCoverThePayload := by
  unfold Obligations.FragmentsCoverThePayload
  intro len size h1 h496 hsize
  have hpos : 64 ≤ size := by rcases hsize with rfl | rfl | rfl <;> omega
  obtain ⟨hcover, hleast⟩ := fragmentCount_bounds (len := len) (show 0 < size by omega)
  have hbefore {k : Nat} (hk : k + 1 ≤ fragmentCount len size) : k * size + size ≤ fragmentCount len size * size := by
    rw [← Nat.succ_mul]
    exact Nat.mul_le_mul_right size hk
  refine ⟨?one, ?eight, ?sum, fun k hk => ?full, fun k hk => ?nonempty, fun h => fragmentPosition_of_one (by omega),
    fun h => ⟨fragmentPosition_zero h, fun k h0 hk => fragmentPosition_inner h0 hk,
      fragmentPosition_end (by omega) (by omega)⟩⟩
  case one =>
    by_contra hzero
    have : fragmentCount len size = 0 := by omega
    rw [this] at hcover
    omega
  case eight =>
    by_contra hmany
    have h9 : 9 * size ≤ fragmentCount len size * size := Nat.mul_le_mul_right size (by omega)
    omega
  case sum =>
    rw [sum_fragmentLength]
    omega
  case full =>
    have hend := hbefore (k := k + 1) (by omega)
    rw [Nat.succ_mul] at hend
    unfold fragmentLength
    omega
  case nonempty =>
    have hend := hbefore (k := k) (by omega)
    unfold fragmentLength
    omega

end Sys2Proof.Machine

/-! PROOFS. Relations between two states that the work of ports and the offers of a frame keep: proved once for any
relation that a release and a change of one port, of one level or of a holder count keep. -/

namespace Sys2Proof.Machine

open Sys2Proof

/-! ### The work of ports -/

/-- What keeps a relation through the work of a port: the relation is one of steps, and a release and a change of
one port keep it. -/
structure KeptByPorts (R : State → State → Prop) : Prop where
  refl : ∀ s, R s s
  trans : ∀ {s t u}, R s t → R t u → R s u
  release : ∀ s e, R s (s.release e)
  port : ∀ s p f, R s (s.modPort p f)

section Ports

variable {R : State → State → Prop} (hR : KeptByPorts R)

include hR

theorem KeptByPorts.foldl {α : Type} (f : State → α → State) (h : ∀ s a, R s (f s a)) (as : List α) (s : State) :
    R s (as.foldl f s) := by
  induction as generalizing s with
  | nil => exact hR.refl s
  | cons a as ih => exact hR.trans (h s a) (ih _)

theorem KeptByPorts.startTx (s : State) (p : PortNo) : R s (s.startTx p) := by
  unfold State.startTx
  split
  · split
    · exact hR.refl s
    · exact hR.port s p _
  · exact hR.refl s

theorem KeptByPorts.portGivesUp (s : State) (e : EntryNo) (p : PortNo) : R s (s.portGivesUp e p) := by
  unfold State.portGivesUp
  split
  · exact hR.trans (hR.port s p _) (hR.release _ e)
  · split
    · split
      · exact hR.trans (hR.port s p _) (hR.release _ e)
      · exact hR.refl s
    · exact hR.refl s

theorem KeptByPorts.flushEgress (s : State) (p : PortNo) : R s (s.flushEgress p) := by
  have hqueue := hR.trans (hR.port s p fun v => { v with queue := [], drops := bumpBy v.drops v.queue.length })
    (hR.foldl State.release hR.release (s.port p).queue _)
  unfold State.flushEgress
  dsimp only
  split
  · exact hqueue
  · exact hR.trans hqueue (hR.trans (hR.release _ _) (hR.port _ p _))

theorem KeptByPorts.discardReceive (s : State) (p : PortNo) (counted : Bool) : R s (s.discardReceive p counted) := by
  unfold State.discardReceive
  split
  · exact hR.refl s
  · exact hR.port s p _
  · exact hR.port s p _
  · exact hR.trans (hR.release s _) (hR.port _ p _)

theorem KeptByPorts.portReacts (s : State) (p : PortNo) (old : PortState) : R s (s.portReacts p old) := by
  have htransmit (new : PortState) : R s (s.leaveTransmit p old new) := by
    unfold State.leaveTransmit
    split
    · exact hR.flushEgress s p
    · exact hR.refl s
  have hreceive (t : State) (new : PortState) : R t (t.leaveReceive p new) := by
    unfold State.leaveReceive
    split
    · exact hR.refl t
    · exact hR.discardReceive t p true
  have hwatch (t : State) (new : PortState) : R t (t.watchReceive p old new) := by
    unfold State.watchReceive
    split
    · exact hR.trans (hR.port t p _) (hR.port _ p _)
    · exact hR.refl t
  unfold State.portReacts
  split
  · exact hR.refl s
  · exact hR.trans (hR.trans (htransmit _) (hreceive _ _)) (hR.trans (hwatch _ _) (hR.startTx _ p))

theorem KeptByPorts.changePort (s : State) (p : PortNo) (f : Port → Port) : R s (s.changePort p f) :=
  hR.trans (hR.port s p f) (hR.portReacts _ p _)

theorem KeptByPorts.portsReact (s old : State) : R s (s.portsReact old) :=
  hR.foldl _ (fun t p => hR.portReacts t p (old.portState p)) allPorts s

end Ports

/-! ### Offers and responses -/

/-- What keeps a relation through the offers of a frame. -/
structure KeptByOffers (R : State → State → Prop) : Prop extends KeptByPorts R where
  holder : ∀ s e, R s (s.addHolder e)
  level : ∀ s l f, R s (s.modLvl l f)
  trigger : ∀ s, R s s.triggerAuction
  unsent : ∀ s, R s { s with cmd := { s.cmd with responsesUnsent := bump s.cmd.responsesUnsent } }

section Offers

variable {R : State → State → Prop} (hR : KeptByOffers R)

include hR

theorem KeptByOffers.accept (s : State) (e : EntryNo) (first : Bool) : R s (s.accept e first) := by
  cases first with
  | true => exact hR.refl s
  | false => exact hR.holder s e

theorem KeptByOffers.joinEgress (s : State) (p : PortNo) (e : EntryNo) (first : Bool) :
    R s (s.joinEgress p e first) :=
  hR.trans (hR.accept s e first) (hR.trans (hR.port _ p _) (hR.toKeptByPorts.startTx _ p))

theorem KeptByOffers.offerPort (s : State) (p : PortNo) (e : EntryNo) (first : Bool) :
    R s (s.offerPort p e first).2 := by
  unfold State.offerPort
  split
  · exact hR.port s p _
  · split
    · exact hR.joinEgress s p e first
    · split
      · exact hR.port s p _
      · next worst _ =>
        split
        · exact hR.trans (hR.port s p _) (hR.trans (hR.release _ worst) (hR.joinEgress _ p e first))
        · exact hR.port s p _

theorem KeptByOffers.offerLevel (s : State) (l : Level) (e : EntryNo) (first : Bool) :
    R s (s.offerLevel l e first).2 := by
  unfold State.offerLevel
  split
  · exact hR.level s l _
  · exact hR.trans (hR.accept s e first) (hR.trans (hR.level _ l _) (hR.trigger _))

theorem KeptByOffers.offers (e : EntryNo) (os : List Offer) (acc : Bool × State) :
    R acc.2 (os.foldl (State.makeOffer e) acc).2 := by
  induction os generalizing acc with
  | nil => exact hR.refl acc.2
  | cons o os ih =>
    have hone : R acc.2 (State.makeOffer e acc o).2 := by
      cases o with
      | level l => exact hR.offerLevel acc.2 l e _
      | port p => exact hR.offerPort acc.2 p e _
    exact hR.trans hone (ih _)

theorem KeptByOffers.offerAll (s : State) (e : EntryNo) (os : List Offer) : R s (s.offerAll e os) := by
  have hos := hR.offers e os (false, s)
  unfold State.offerAll
  dsimp only
  split
  · exact hos
  · exact hR.trans hos (hR.release _ e)

theorem KeptByOffers.routeResponse (s : State) (e : EntryNo) (o : Sender) : R s (s.routeResponse e o) := by
  unfold State.routeResponse
  split
  · exact hR.offerAll s e _
  · split
    · exact hR.offerAll s e _
    · exact hR.trans (hR.release s e) (hR.unsent _)

end Offers

end Sys2Proof.Machine

/-! PROOFS. The Cipher Unit (04): counter blocks and the keystream (R76, R77), and the end of an expansion or of
another long operation (R70, R152). -/

namespace Sys2Proof.Machine

open Sys2Proof

/-! ### Counter blocks (R76) -/

/-- The first bytes of a list in one block, the last of them least significant. -/
def blockOfFirst (bs : List Byte) (n : Nat) : Block :=
  (List.range n).foldl (fun acc i => (acc <<< 8) ||| (bs.getD i 0).setWidth 128) 0

theorem blockOfFirst_succ (bs : List Byte) (n : Nat) :
    blockOfFirst bs (n + 1) = (blockOfFirst bs n <<< 8) ||| (bs.getD n 0).setWidth 128 := by
  simp [blockOfFirst, List.range_succ]

theorem blockOfFirst_getLsbD (bs : List Byte) (n i : Nat) (hi : i < 128) :
    (blockOfFirst bs n).getLsbD i = (decide (i < 8 * n) && (bs.getD (n - 1 - i / 8) 0).getLsbD (i % 8)) := by
  induction n generalizing i with
  | zero => simp [blockOfFirst]
  | succ n ih =>
    rw [blockOfFirst_succ, BitVec.getLsbD_or, BitVec.getLsbD_shiftLeft, BitVec.getLsbD_setWidth]
    by_cases h8 : i < 8
    · have hdiv : i / 8 = 0 := by omega
      have hmod : i % 8 = i := by omega
      have hlast : i < 8 * (n + 1) := by omega
      simp [h8, hi, hdiv, hmod, hlast]
    · have hbyte : ¬ i < 8 → (bs.getD n 0).getLsbD i = false := fun h => BitVec.getLsbD_of_ge _ _ (by omega)
      have hdiv : n - 1 - (i - 8) / 8 = n + 1 - 1 - i / 8 := by omega
      have hmod : (i - 8) % 8 = i % 8 := by omega
      have hbound : (i - 8 < 8 * n) ↔ i < 8 * (n + 1) := by omega
      rw [ih (i - 8) (by omega), hbyte h8, hdiv, hmod, Bool.and_false, Bool.or_false]
      simp [h8, hi, hbound]

/-- Byte m of a block is the m-th byte it was made of. -/
theorem blockByte_blockOf (bs : List Byte) {m : Nat} (hm : m < 16) : blockByte (blockOf bs) m = bs.getD m 0 := by
  apply BitVec.eq_of_getLsbD_eq
  intro j hj
  have hget := blockOfFirst_getLsbD bs 16 ((15 - m) * 8 + j) (by omega)
  have hbound : (15 - m) * 8 + j < 8 * 16 := by omega
  have hdiv : 16 - 1 - ((15 - m) * 8 + j) / 8 = m := by omega
  have hmod : ((15 - m) * 8 + j) % 8 = j := by omega
  rw [decide_eq_true hbound, hdiv, hmod, Bool.true_and] at hget
  unfold blockByte
  rw [BitVec.getLsbD_extractLsb', decide_eq_true hj, Bool.true_and]
  exact hget

/-- R76: the bytes of a counter block. -/
def counterBytes (k : Slot) (l : Level) (v : Word) (src dst : Node) (i : Nat) : List Byte :=
  [byteOf k.val, byteOf l.val] ++ bytes4 v ++ [src, dst] ++ bytes2 i ++ [0, 0, 0, 0, 0, 0]

theorem blockByte_counterBlock (k : Slot) (l : Level) (v : Word) (src dst : Node) (i : Nat) {m : Nat} (hm : m < 16) :
    blockByte (counterBlock k l v src dst i) m = (counterBytes k l v src dst i).getD m 0 := by
  refine (blockByte_blockOf _ hm).trans ?_
  interval_cases m <;> rfl

theorem byteOf_inj {a b : Nat} (h : byteOf a = byteOf b) (ha : a < 256) (hb : b < 256) : a = b := by
  rw [← byteOf_toNat_of_lt ha, h, byteOf_toNat_of_lt hb]

theorem counterBlock_inj {k k' : Slot} {l l' : Level} {v v' : Word} {src src' dst dst' : Node} {i i' : Nat}
    (hi : i < 65536) (hi' : i' < 65536)
    (h : counterBlock k l v src dst i = counterBlock k' l' v' src' dst' i') :
    k = k' ∧ l = l' ∧ v = v' ∧ src = src' ∧ dst = dst' ∧ i = i' := by
  have hbyte (m : Nat) (hm : m < 16) :
      (counterBytes k l v src dst i).getD m 0 = (counterBytes k' l' v' src' dst' i').getD m 0 := by
    rw [← blockByte_counterBlock _ _ _ _ _ _ hm, h, blockByte_counterBlock _ _ _ _ _ _ hm]
  have hslot : byteOf k.val = byteOf k'.val := hbyte 0 (by omega)
  have hlevel : byteOf l.val = byteOf l'.val := hbyte 1 (by omega)
  have hv : bytes4 v = bytes4 v' := by
    have h2 : v.extractLsb' 24 8 = v'.extractLsb' 24 8 := hbyte 2 (by omega)
    have h3 : v.extractLsb' 16 8 = v'.extractLsb' 16 8 := hbyte 3 (by omega)
    have h4 : v.extractLsb' 8 8 = v'.extractLsb' 8 8 := hbyte 4 (by omega)
    have h5 : v.extractLsb' 0 8 = v'.extractLsb' 0 8 := hbyte 5 (by omega)
    rw [bytes4, h2, h3, h4, h5, bytes4]
  have hhigh : byteOf (i / 256) = byteOf (i' / 256) := hbyte 8 (by omega)
  have hlow : byteOf i = byteOf i' := hbyte 9 (by omega)
  refine ⟨Fin.ext (byteOf_inj hslot (by omega) (by omega)), Fin.ext (byteOf_inj hlevel (by omega) (by omega)), ?_,
    hbyte 6 (by omega), hbyte 7 (by omega), ?_⟩
  · have hread := word4_append [] v
    rw [hv, word4_append] at hread
    exact hread.symm
  · rw [← bytes2_toNat hi, hhigh, hlow, bytes2_toNat hi']

/-! ### The keystream (R76, R77) -/

theorem State.applyKeystream_getElem? (s : State) (i : StreamId) (offset : Nat) (bytes : List Byte) (n : Nat) :
    (s.applyKeystream i offset bytes)[n]? =
      bytes[n]?.map fun b => b ^^^ keystreamByte (s.keyOf i.slot) i (offset + n) := by
  simp [State.applyKeystream, List.getElem?_mapIdx]

theorem State.applyKeystream_twice (s : State) (i : StreamId) (offset : Nat) (bytes : List Byte) :
    s.applyKeystream i offset (s.applyKeystream i offset bytes) = bytes := by
  apply List.ext_getElem?
  intro n
  rw [State.applyKeystream_getElem?, State.applyKeystream_getElem?]
  cases bytes[n]? with
  | none => rfl
  | some b => simp

theorem State.applyKeystream_append (s : State) (i : StreamId) (offset : Nat) (a b : List Byte) :
    s.applyKeystream i offset (a ++ b) = s.applyKeystream i offset a ++ s.applyKeystream i (offset + a.length) b := by
  unfold State.applyKeystream
  rw [List.mapIdx_append]
  congr 2
  funext n c
  rw [Nat.add_assoc, Nat.add_comm n]

/-- Settles O38. -/
theorem keystreamRunsOverTheFrame : Obligations.KeystreamRunsOverTheFrame := by
  unfold Obligations.KeystreamRunsOverTheFrame
  refine ⟨fun k k' l l' v v' src src' dst dst' i i' hi hi' h => counterBlock_inj hi hi' h, fun s i offset a b =>
    ⟨s.applyKeystream_twice i offset a, s.applyKeystream_append i offset a b, by simp [State.applyKeystream]⟩,
    fun s i key offset n bytes b hkey hb => ?_, fun k l v src dst i m hm => blockByte_counterBlock k l v src dst i hm⟩
  rw [State.applyKeystream_getElem?, hb, State.keyOf_of_ready hkey]
  rfl

/-! ### What offers and responses do to the Command Unit -/

/-- Of the Command Unit, nothing but the count of freeings and that of responses unsent differs. -/
def FreesOnly (s t : State) : Prop :=
  t.cmd = { s.cmd with freed := t.cmd.freed, responsesUnsent := t.cmd.responsesUnsent }

section FreesOnly

variable {s t u : State}

theorem FreesOnly.of_eq (h : t.cmd = s.cmd) : FreesOnly s t := by
  unfold FreesOnly
  rw [h]

theorem FreesOnly.trans (h : FreesOnly s t) (h' : FreesOnly t u) : FreesOnly s u := by
  unfold FreesOnly at *
  rw [h', h]

theorem State.release_freesOnly (s : State) (e : EntryNo) : FreesOnly s (s.release e) := by
  unfold State.release
  split
  · exact .of_eq rfl
  · split
    · change s.cmd.noteFreed = _
      unfold CommandUnit.noteFreed
      split <;> rfl
    · exact .of_eq rfl

end FreesOnly

theorem freesOnly_kept : KeptByOffers FreesOnly where
  refl _ := rfl
  trans := FreesOnly.trans
  release := State.release_freesOnly
  port _ _ _ := rfl
  holder _ _ := rfl
  level _ _ _ := rfl
  trigger _ := rfl
  unsent _ := rfl

/-! ### The end of a long operation (R152) -/

theorem State.endLongOp_of_none {s : State} {op : LongOp} (h : ∀ r ∈ s.cmd.longOps, r.op ≠ op) :
    s.endLongOp op = s := by
  have hnone : s.cmd.longOps.find? (fun x => decide (x.op = op)) = none := by simpa [List.find?_eq_none] using h
  unfold State.endLongOp
  rw [hnone]

/-- R152: the record of a long operation leaves the list. -/
def State.dropLongOp (s : State) (op : LongOp) : State :=
  { s with cmd := { s.cmd with longOps := s.cmd.longOps.filter fun x => decide (x.op ≠ op) } }

theorem State.endLongOp_of_some {s : State} {op : LongOp} {r : LongRecord}
    (h : s.cmd.longOps.find? (fun x => decide (x.op = op)) = some r) :
    s.endLongOp op = match (s.dropLongOp op).buildLongResponse r with
      | (true, t) => t
      | (false, t) => { t with cmd := { t.cmd with waiting := t.cmd.waiting ++ [r] } } := by
  have hfilter : s.cmd.longOps.filter (fun x => x.op != op) =
      s.cmd.longOps.filter fun x => decide (x.op ≠ op) := List.filter_congr fun x _ => by
    rw [bne, decide_not]
    congr 1
  unfold State.endLongOp
  rw [h]
  dsimp only
  rw [hfilter]
  rfl

theorem cellsFor_longResponse (code : Byte) (tag : Half) : cellsFor (responsePayload code tag .ok []).length = 1 := by
  simp [responsePayload, cellsFor, Config.headerSize, Config.cellSize]

section LongResponse

variable {s t : State} {r : LongRecord}

theorem State.buildLongResponse_of_short (h : s.allocReserve 1 (s.responseEntry r.node) = (none, t)) :
    s.buildLongResponse r = (false, t) := by
  simp only [State.buildLongResponse, cellsFor_longResponse, h]

theorem State.buildLongResponse_of_built {e : EntryNo}
    (h : s.allocReserve 1 (s.responseEntry r.node) = (some e, t)) : s.buildLongResponse r =
      (true, (t.fillResponse e (responsePayload r.op.code r.tag .ok [])).routeResponse e r.sender) := by
  simp only [State.buildLongResponse, cellsFor_longResponse, h]

theorem State.allocReserve_cmd (s : State) (n : Nat) (f : FrameEntry) : (s.allocReserve n f).2.cmd = s.cmd := by
  unfold State.allocReserve
  split
  · split <;> rfl
  · rfl

theorem State.buildLongResponse_freesOnly (s : State) (r : LongRecord) : FreesOnly s (s.buildLongResponse r).2 := by
  have halloc := s.allocReserve_cmd 1 (s.responseEntry r.node)
  rcases hstorage : s.allocReserve 1 (s.responseEntry r.node) with ⟨_ | e, t⟩
  · rw [State.buildLongResponse_of_short hstorage]
    rw [hstorage] at halloc
    exact .of_eq halloc
  · rw [State.buildLongResponse_of_built hstorage]
    rw [hstorage] at halloc
    have hfill : FreesOnly t (t.fillResponse e (responsePayload r.op.code r.tag .ok [])) := .of_eq rfl
    exact (FreesOnly.trans (.of_eq halloc) hfill).trans (freesOnly_kept.routeResponse _ e r.sender)

theorem FreesOnly.longOps (h : FreesOnly s t) : t.cmd.longOps = s.cmd.longOps := by
  unfold FreesOnly at h
  rw [h]

theorem State.endLongOp_ends (s : State) (op : LongOp) : ∀ r ∈ (s.endLongOp op).cmd.longOps, r.op ≠ op := by
  cases hfind : s.cmd.longOps.find? (fun x => decide (x.op = op)) with
  | none =>
    have hno : ∀ r ∈ s.cmd.longOps, r.op ≠ op := by simpa [List.find?_eq_none] using hfind
    rw [State.endLongOp_of_none hno]
    exact hno
  | some r =>
    have hbuilt := ((s.dropLongOp op).buildLongResponse_freesOnly r).longOps
    have hops : (s.endLongOp op).cmd.longOps = (s.dropLongOp op).cmd.longOps := by
      rw [State.endLongOp_of_some hfind]
      split
      · next heq => rw [heq] at hbuilt; exact hbuilt
      · next heq => rw [heq] at hbuilt; exact hbuilt
    rw [hops]
    simp [State.dropLongOp]

end LongResponse

/-! ### The end of an expansion (R70) -/

theorem State.resetSequences_txSequence (s : State) (k j : Slot) (l : Level) :
    (s.resetSequences k).txSequence j l = if j = k then .seq 1 else s.txSequence j l := by
  by_cases h : j = k
  · subst h
    simp [State.resetSequences, State.txSequence, State.lvl, mapTable]
  · have hv : k.val ≠ j.val := fun he => h (Fin.ext he.symm)
    simp [State.resetSequences, State.txSequence, State.lvl, mapTable, h, Vector.getElem_set_ne _ _ hv]

theorem State.resetSequences_lastAccepted (s : State) (k j : Slot) (l : Level) :
    (s.resetSequences k).lastAccepted j l = if j = k then 0 else s.lastAccepted j l := by
  by_cases h : j = k
  · subst h
    simp [State.resetSequences, State.lastAccepted]
  · have hv : k.val ≠ j.val := fun he => h (Fin.ext he.symm)
    simp [State.resetSequences, State.lastAccepted, h, Vector.getElem_set_ne _ _ hv]

/-- R70: the slot is Ready, with its sequences fresh. -/
def State.makeReady (s : State) (k : Slot) (key : Block) : State := (s.setSlot k (.ready key)).resetSequences k

theorem exec_expansionCompletes {s : State} {k : Slot} {key : Block} {since : Word}
    (h : s.slot k = .expanding key since) :
    exec (.expansionCompletes k) s = .next (s.expansionEnds k key).settle := by
  simp only [exec, execExpansionCompletes, h]
  rfl

theorem State.expansionEnds_of_active {s : State} {k : Slot} {key : Block} (h : s.cipher.active = k) :
    s.expansionEnds k key = ((s.makeReady k key).endLongOp (.loadKey k)).triggerAuction := by
  unfold State.expansionEnds
  rw [if_pos h]
  rfl

theorem State.expansionEnds_of_not_active {s : State} {k : Slot} {key : Block} (h : s.cipher.active ≠ k) :
    s.expansionEnds k key = (s.makeReady k key).endLongOp (.loadKey k) := by
  unfold State.expansionEnds
  rw [if_neg h]
  rfl

theorem State.makeReady_slot (s : State) (k : Slot) (key : Block) : (s.makeReady k key).slot k = .ready key :=
  s.slot_setSlot_same k _

/-- Settles O37. -/
theorem expansionMakesTheSlotReady : Obligations.ExpansionMakesTheSlotReady := by
  unfold Obligations.ExpansionMakesTheSlotReady
  refine ⟨fun s k key since hk => ⟨s.makeReady k key, rfl, rfl, s.makeReady_slot k key, fun l => ⟨?_, ?_⟩,
    fun j hj => ⟨s.slot_setSlot_ne hj _, fun l => ⟨?_, ?_⟩⟩, fun h => ?_, fun h => ?_, ?_,
    State.endLongOp_ends _ (.loadKey k)⟩, fun s op => ⟨State.endLongOp_of_none, fun r hr => ⟨fun t ht => ?_,
    fun e t ht => ⟨fun l hop => ?_, fun k hop => ?_⟩⟩⟩, fun s l => ⟨State.flushComplete_of_none s l, fun h => ?_⟩⟩
  · exact (State.resetSequences_txSequence _ k k l).trans (if_pos rfl)
  · exact (State.resetSequences_lastAccepted _ k k l).trans (if_pos rfl)
  · exact (State.resetSequences_txSequence _ k j l).trans (if_neg hj)
  · exact (State.resetSequences_lastAccepted _ k j l).trans (if_neg hj)
  · rw [exec_expansionCompletes hk, State.expansionEnds_of_active h]
  · rw [exec_expansionCompletes hk, State.expansionEnds_of_not_active h]
  · have hcipher := (State.endLongOp_leaves (s := s.makeReady k key) (.loadKey k)).cipher
    unfold State.slot
    rw [hcipher]
    exact s.makeReady_slot k key
  · rw [State.endLongOp_of_some hr, State.buildLongResponse_of_short (s := s.dropLongOp op) ht]
  · have hrop : r.op = op := by simpa using List.find?_some hr
    rw [State.endLongOp_of_some hr, State.buildLongResponse_of_built (s := s.dropLongOp op) ht, hrop, hop]
    rfl
  · have hrop : r.op = op := by simpa using List.find?_some hr
    rw [State.endLongOp_of_some hr, State.buildLongResponse_of_built (s := s.dropLongOp op) ht, hrop, hop]
    rfl
  · unfold State.flushComplete
    rw [if_pos (Option.isSome_iff_ne_none.mpr h)]

end Sys2Proof.Machine

/-! PROOFS. The commands on rules, the Node Map and the Egress Record Log (R63, R64, R84, R85, R91): what each action
answers in each case. -/

namespace Sys2Proof.Machine

open Sys2Proof

/-! ### Checks in order (R144) -/

theorem firstRefusal_nil : firstRefusal [] = none := rfl

/-- The first check decides, and else those after it. -/
theorem firstRefusal_cons (b : Bool) (st : Status) (checks : List (Bool × Status)) :
    firstRefusal ((b, st) :: checks) = if b = true then some st else firstRefusal checks := by
  cases b <;> rfl

/-- Checks that all answer alike. -/
theorem firstRefusal_alike {checks : List (Bool × Status)} {st : Status} (h : ∀ x ∈ checks, x.2 = st) :
    firstRefusal checks = if checks.any (fun x => x.1) = true then some st else none := by
  induction checks with
  | nil => rfl
  | cons x checks ih =>
    obtain ⟨b, st'⟩ := x
    have hst : st' = st := h _ List.mem_cons_self
    rw [firstRefusal_cons, ih fun x hx => h x (List.mem_cons_of_mem _ hx), hst, List.any_cons]
    cases b <;> rfl

/-! ### The Egress Record Log (R63, R64) -/

theorem Trunk.writeRecord_of_room {t : Trunk} (h : t.log.length < 32) (r : EgressRecord) :
    t.writeRecord r = { t with log := t.log ++ [r] } := if_pos h

theorem Trunk.writeRecord_of_full {t : Trunk} (h : 32 ≤ t.log.length) (r : EgressRecord) :
    t.writeRecord r = { t with logOverflow := true } := if_neg (Nat.not_lt.mpr h)

theorem flagsByte_one (b : Bool) : flagsByte [b] = if b then 1 else 0 := by cases b <;> rfl

/-- R64: the state after the oldest records are read. -/
def State.recordsRead (s : State) (n : Nat) : State :=
  { s with trunk := { s.trunk with log := s.trunk.log.drop n, logOverflow := false } }

theorem actReadRecords_of_badCount {c : CommandFrame} (f s : State) (h : c.arg 0 = 0 ∨ 8 < c.arg 0) :
    actReadRecords c f s = .answer .badValue [] s := if_pos h

theorem actReadRecords_of_count {c : CommandFrame} (f s : State) (h1 : 1 ≤ c.arg 0) (h8 : c.arg 0 ≤ 8) :
    actReadRecords c f s = .answer .ok ([byteOf (min (c.arg 0) s.trunk.log.length),
      if s.trunk.logOverflow then 1 else 0, byteOf (s.trunk.log.length - c.arg 0)] ++
        (s.trunk.log.take (c.arg 0)).flatMap EgressRecord.bytes) (s.recordsRead (c.arg 0)) := by
  have hgood : ¬ (c.arg 0 = 0 ∨ 8 < c.arg 0) := by omega
  unfold actReadRecords
  simp only [if_neg hgood, flagsByte_one, List.length_take, List.length_drop]
  rfl

/-- Settles O32. -/
theorem recordLogKeepsTheOldest : Obligations.RecordLogKeepsTheOldest := by
  unfold Obligations.RecordLogKeepsTheOldest
  exact ⟨fun t r => ⟨fun h => Trunk.writeRecord_of_room h r, fun h => Trunk.writeRecord_of_full h r⟩,
    fun s found t c e h => ⟨fun hbad => h.answers (actReadRecords_of_badCount found t hbad),
      fun h1 h8 => h.answers (actReadRecords_of_count found t h1 h8)⟩⟩

/-! ### WRITE_RULE and READ_RULES (R84, R85) -/

/-- R84, orders 2 to 4, and R187: a rule entry that WriteRule refuses. -/
def CommandFrame.BadRule (c : CommandFrame) : Prop :=
  (Rule.parse c.args 1).srcHigh < (Rule.parse c.args 1).srcLow ∨
    (Rule.parse c.args 1).dstHigh < (Rule.parse c.args 1).dstLow ∨ (Rule.parse c.args 1).lenMin = 0 ∨
    496 < (Rule.parse c.args 1).lenMin ∨ (Rule.parse c.args 1).lenMax = 0 ∨ 496 < (Rule.parse c.args 1).lenMax ∨
    (Rule.parse c.args 1).lenMax < (Rule.parse c.args 1).lenMin ∨ c.arg 12 < 2 ∨ 31 < c.arg 12 ∨
    c.argBit 1 3 = true

/-- R84: the checks on a rule entry, which all answer alike. -/
def CommandFrame.ruleChecks (c : CommandFrame) : List (Bool × Status) :=
  [(decide ((Rule.parse c.args 1).srcHigh < (Rule.parse c.args 1).srcLow) ||
      decide ((Rule.parse c.args 1).dstHigh < (Rule.parse c.args 1).dstLow), .badValue),
    ((Rule.parse c.args 1).lenMin == 0 || decide (496 < (Rule.parse c.args 1).lenMin) ||
      (Rule.parse c.args 1).lenMax == 0 || decide (496 < (Rule.parse c.args 1).lenMax) ||
      decide ((Rule.parse c.args 1).lenMax < (Rule.parse c.args 1).lenMin), .badValue),
    (decide (c.arg 12 < 2) || decide (31 < c.arg 12), .badValue), (c.argBit 1 3, .badValue)]

theorem CommandFrame.ruleChecks_any (c : CommandFrame) : c.ruleChecks.any (fun x => x.1) = true ↔ c.BadRule := by
  simp only [CommandFrame.ruleChecks, List.any_cons, List.any_nil, Bool.or_eq_true, Bool.or_false, decide_eq_true_eq,
    beq_iff_eq, CommandFrame.BadRule, or_assoc]

theorem ruleRefusal_eq (c : CommandFrame) :
    ruleRefusal c = if c.ruleChecks.any (fun x => x.1) = true then some .badValue else none :=
  firstRefusal_alike (checks := c.ruleChecks) (by simp [CommandFrame.ruleChecks])

theorem ruleRefusal_cases (c : CommandFrame) :
    (c.BadRule → ruleRefusal c = some .badValue) ∧ (¬ c.BadRule → ruleRefusal c = none) := by
  rw [ruleRefusal_eq, ← c.ruleChecks_any]
  exact ⟨fun h => if_pos h, fun h => if_neg h⟩

theorem actWriteRule_of_badIndex {c : CommandFrame} (f s : State) (h : 63 < c.arg 0) :
    actWriteRule c f s = .answer .badIndex [] s := if_pos h

theorem actWriteRule_of_badRule {c : CommandFrame} (f s : State) (h : c.arg 0 ≤ 63) (hbad : c.BadRule) :
    actWriteRule c f s = .answer .badValue [] s := by
  unfold actWriteRule
  rw [if_neg (Nat.not_lt.mpr h), (ruleRefusal_cases c).1 hbad]

theorem actWriteRule_of_rule {c : CommandFrame} (f s : State) {i : RuleNo} (hi : i.val = c.arg 0)
    (h : ¬ c.BadRule) : actWriteRule c f s =
      .answer .ok [] { s with rules := s.rules.set i.val (Rule.parse c.args 1) i.isLt } := by
  have hindex : (Fin.ofNat 64 (c.arg 0) : RuleNo) = i := by
    rw [← hi]
    exact Fin.ofNat_val_eq_self i
  unfold actWriteRule
  rw [if_neg (by omega), (ruleRefusal_cases c).2 h]
  simp only [hindex]

theorem actReadRules_of_badIndex {c : CommandFrame} (f s : State) (h : 63 < c.arg 0) :
    actReadRules c f s = .answer .badIndex [] s := by
  simp [actReadRules, firstRefusal_cons, h]

theorem actReadRules_of_badCount {c : CommandFrame} (f s : State) (hindex : c.arg 0 ≤ 63)
    (h : c.arg 1 = 0 ∨ 8 < c.arg 1) : actReadRules c f s = .answer .badValue [] s := by
  have hin : ¬ 63 < c.arg 0 := by omega
  simp [actReadRules, firstRefusal_cons, hin, h]

theorem actReadRules_of_pastEnd {c : CommandFrame} (f s : State) (hindex : c.arg 0 ≤ 63) (h1 : 1 ≤ c.arg 1)
    (h8 : c.arg 1 ≤ 8) (h : 64 < c.arg 0 + c.arg 1) : actReadRules c f s = .answer .badIndex [] s := by
  have hin : ¬ 63 < c.arg 0 := by omega
  have hcount : ¬ (c.arg 1 = 0 ∨ 8 < c.arg 1) := by omega
  simp [actReadRules, firstRefusal_cons, hin, hcount, h]

theorem actReadRules_of_range {c : CommandFrame} (f s : State) (h1 : 1 ≤ c.arg 1) (h8 : c.arg 1 ≤ 8)
    (h : c.arg 0 + c.arg 1 ≤ 64) :
    actReadRules c f s = .answer .ok (s.ruleReports (c.arg 0) (c.arg 1)) s := by
  have hin : ¬ 63 < c.arg 0 := by omega
  have hcount : ¬ (c.arg 1 = 0 ∨ 8 < c.arg 1) := by omega
  have hend : ¬ 64 < c.arg 0 + c.arg 1 := by omega
  simp [actReadRules, firstRefusal_cons, firstRefusal_nil, hin, hcount, hend]

/-- Settles O42. -/
theorem ruleCommandsComplete : Obligations.RuleCommandsComplete := by
  unfold Obligations.RuleCommandsComplete
  refine fun s found t c e => ⟨fun h => ⟨fun hi => ?_, fun hi (hbad : c.BadRule) => ?_,
    fun i hi (hgood : ¬ c.BadRule) => ⟨rfl, ?_⟩⟩, fun h => ⟨fun hi => ?_, fun hi hc => ?_,
    fun hi h1 h8 hend => ?_, fun h1 h8 hend => ?_⟩⟩
  · exact h.answers (actWriteRule_of_badIndex found t hi)
  · exact h.answers (actWriteRule_of_badRule found t hi hbad)
  · exact h.answers (actWriteRule_of_rule found t hi hgood)
  · exact h.answers (actReadRules_of_badIndex found t hi)
  · exact h.answers (actReadRules_of_badCount found t hi hc)
  · exact h.answers (actReadRules_of_pastEnd found t hi h1 h8 hend)
  · exact h.answers (actReadRules_of_range found t h1 h8 hend)

/-! ### WRITE_NODE_MAP (R91) -/

theorem CommandFrame.arg_of_lt (c : CommandFrame) {i : Nat} (h : i < c.args.length) : c.args[i].toNat = c.arg i := by
  unfold CommandFrame.arg
  rw [List.getD_eq_getElem _ _ h]

/-- R187: the codes above 5 are Self, Broadcast or none at all. -/
theorem badDisposition_iff (b : Byte) : badDisposition b = true ↔ 5 < b.toNat := by
  unfold badDisposition
  match h : b.toNat with
  | 0 | 1 | 2 | 3 | 4 | 5 | 6 | 7 => simp [Disposition.ofCode, Disposition.writable]
  | n + 8 => simp [Disposition.ofCode]

theorem ofCode_of_le {n : Nat} (h : n ≤ 5) : ∃ d, Disposition.ofCode n = some d := by
  interval_cases n <;> exact ⟨_, rfl⟩

/-- R91, order 4: a fixed entry in the range. -/
theorem State.fixedNode_iff (s : State) (n : Node) : s.fixedNode n = true ↔ n = 0 ∨ n = 255 ∨ n = s.self := by
  simp [State.fixedNode, or_assoc]

section WriteNodeMap

variable {c : CommandFrame} (f s : State)

theorem actWriteNodeMap_of_badCount (h : c.arg 1 = 0 ∨ 64 < c.arg 1) :
    actWriteNodeMap c f s = .answer .badValue [] s := by
  simp [actWriteNodeMap, firstRefusal_cons, h]

theorem actWriteNodeMap_of_pastEnd (hcount : ¬ (c.arg 1 = 0 ∨ 64 < c.arg 1)) (h : 256 < c.arg 0 + c.arg 1) :
    actWriteNodeMap c f s = .answer .badIndex [] s := by
  simp [actWriteNodeMap, firstRefusal_cons, hcount, h]

/-- R91: the checks on the codes and on the nodes, when the range is a range. -/
theorem actWriteNodeMap_of_range (hcount : ¬ (c.arg 1 = 0 ∨ 64 < c.arg 1)) (h : c.arg 0 + c.arg 1 ≤ 256) :
    actWriteNodeMap c f s =
      if (c.args.drop 2).any badDisposition = true then .answer .badValue [] s
      else if ((List.range (c.arg 1)).any fun i => s.fixedNode (BitVec.ofNat 8 (c.arg 0 + i))) = true then
        .answer .badIndex [] s
      else .answer .ok [] { s with nodeMap := writeNodes s.nodeMap (c.arg 0) (c.args.drop 2) } := by
  have hend : ¬ 256 < c.arg 0 + c.arg 1 := by omega
  have hfirst : (c.arg 1 == 0 || decide (64 < c.arg 1)) = false := by simpa using hcount
  cases hbad : (c.args.drop 2).any badDisposition with
  | true => simp [actWriteNodeMap, firstRefusal_cons, hfirst, hend, hbad]
  | false =>
    cases hfixed : (List.range (c.arg 1)).any fun i => s.fixedNode (BitVec.ofNat 8 (c.arg 0 + i)) with
    | true => simp [actWriteNodeMap, firstRefusal_cons, hfirst, hend, hbad, hfixed]
    | false => simp [actWriteNodeMap, firstRefusal_cons, firstRefusal_nil, hfirst, hend, hbad, hfixed]

/-- The codes of the command are the bytes after its first two. -/
theorem anyBadCode_iff (hargs : Command.writeNodeMap.argsFit c.args = true) :
    (c.args.drop 2).any badDisposition = true ↔ ∃ i, i < c.arg 1 ∧ 5 < c.arg (2 + i) := by
  have hlen : c.args.length = 2 + c.arg 1 := by
    simp only [Command.argsFit, Bool.and_eq_true, beq_iff_eq] at hargs
    exact hargs.2
  rw [List.any_eq_true]
  constructor
  · rintro ⟨b, hb, hbad⟩
    obtain ⟨i, hi, rfl⟩ := List.mem_iff_getElem.mp hb
    rw [List.length_drop] at hi
    refine ⟨i, by omega, ?_⟩
    rw [badDisposition_iff, List.getElem_drop, c.arg_of_lt] at hbad
    exact hbad
  · rintro ⟨i, hi, hbad⟩
    refine ⟨c.args[2 + i], ?_, ?_⟩
    · rw [← List.getElem_drop (h := by rw [List.length_drop]; omega)]
      exact List.getElem_mem _
    · rw [badDisposition_iff, c.arg_of_lt]
      exact hbad

/-- The nodes of a range, as numbers. -/
theorem anyFixed_iff (first count : Nat) (h : first + count ≤ 256) :
    ((List.range count).any fun i => s.fixedNode (BitVec.ofNat 8 (first + i))) = true ↔
      ∃ n : Node, first ≤ n.toNat ∧ n.toNat < first + count ∧ (n = 0 ∨ n = 255 ∨ n = s.self) := by
  rw [List.any_eq_true]
  constructor
  · rintro ⟨i, hi, hfixed⟩
    rw [List.mem_range] at hi
    have hnode : (BitVec.ofNat 8 (first + i) : Node).toNat = first + i := by
      rw [BitVec.toNat_ofNat, Nat.mod_eq_of_lt (by omega)]
    exact ⟨_, by omega, by omega, (s.fixedNode_iff _).mp hfixed⟩
  · rintro ⟨n, hlow, hhigh, hfixed⟩
    refine ⟨n.toNat - first, List.mem_range.mpr (by omega), ?_⟩
    rw [Nat.add_sub_cancel' hlow, BitVec.ofNat_toNat, BitVec.setWidth_eq]
    exact (s.fixedNode_iff n).mpr hfixed

/-- R91: the entries of the range take the codes, and no other entry changes. -/
theorem writeNodes_disposition (hargs : Command.writeNodeMap.argsFit c.args = true) (h : c.arg 0 + c.arg 1 ≤ 256)
    (hcodes : ¬ ∃ i, i < c.arg 1 ∧ 5 < c.arg (2 + i)) (n : Node) :
    (c.arg 0 ≤ n.toNat → n.toNat < c.arg 0 + c.arg 1 →
      some (writeNodes s.nodeMap (c.arg 0) (c.args.drop 2))[n.toNat] =
        Disposition.ofCode (c.arg (2 + (n.toNat - c.arg 0)))) ∧
    (n.toNat < c.arg 0 ∨ c.arg 0 + c.arg 1 ≤ n.toNat →
      (writeNodes s.nodeMap (c.arg 0) (c.args.drop 2))[n.toNat] = s.disposition n) := by
  have hlen : c.args.length = 2 + c.arg 1 := by
    simp only [Command.argsFit, Bool.and_eq_true, beq_iff_eq] at hargs
    exact hargs.2
  have hdrop : (c.args.drop 2).length = c.arg 1 := by rw [List.length_drop]; omega
  rw [writeNodes_get _ _ _ n (by omega)]
  refine ⟨fun hlow hhigh => ?_, fun hout => ?_⟩
  · rw [dif_pos ⟨hlow, by omega⟩, List.getElem_drop]
    have harg : c.args[2 + (n.toNat - c.arg 0)].toNat = c.arg (2 + (n.toNat - c.arg 0)) := c.arg_of_lt _
    have hle : c.arg (2 + (n.toNat - c.arg 0)) ≤ 5 := by
      by_contra hbad
      exact hcodes ⟨n.toNat - c.arg 0, by omega, by omega⟩
    obtain ⟨d, hd⟩ := ofCode_of_le hle
    rw [harg, hd]
    rfl
  · rw [dif_neg (by omega)]
    rfl

end WriteNodeMap

/-- Settles O43. -/
theorem writeNodeMapReplacesTheRange : Obligations.WriteNodeMapReplacesTheRange := by
  unfold Obligations.WriteNodeMapReplacesTheRange
  intro s found t c e h
  have hcodes := anyBadCode_iff (c := c) h.args
  refine ⟨fun hcount => ?badCount, fun hcount hend => ?pastEnd, fun hcount hend hbad => ?badCode,
    fun hcount hend hgood hfixed => ?fixed, fun hcount hend hgood hfree => ?written⟩
  case badCount => exact h.answers (actWriteNodeMap_of_badCount found t hcount)
  case pastEnd => exact h.answers (actWriteNodeMap_of_pastEnd found t hcount hend)
  case badCode =>
    refine h.answers ((actWriteNodeMap_of_range found t hcount hend).trans ?_)
    rw [if_pos (hcodes.mpr hbad)]
  case fixed =>
    refine h.answers ((actWriteNodeMap_of_range found t hcount hend).trans ?_)
    rw [if_neg (mt hcodes.mp hgood), if_pos ((anyFixed_iff t _ _ hend).mpr hfixed)]
  case written =>
    refine ⟨{ t with nodeMap := writeNodes t.nodeMap (c.arg 0) (c.args.drop 2) }, h.answers
      ((actWriteNodeMap_of_range found t hcount hend).trans ?_), rfl,
      writeNodes_disposition t h.args hend hgood⟩
    rw [if_neg (mt hcodes.mp hgood), if_neg (mt (anyFixed_iff t _ _ hend).mp hfree)]

end Sys2Proof.Machine

/-! PROOFS. The commands on faults, notices, counters and access (R154, R155, R178, R179, R183), on modes and supervision
(R46, R156, R166, R170 to R172), and their reports (R188). -/

namespace Sys2Proof.Machine

open Sys2Proof

/-! ### The fault report (R183, R188) -/

theorem captureBytes_length (r : Option FaultReport) : (captureBytes r).length = 12 := by cases r <;> rfl

theorem State.faultReport_length (s : State) : s.faultReport.length = 21 := by
  simp [State.faultReport, captureBytes_length, KindSet.bytes, bytes2]

theorem flagsByte_isSome {α : Type} (x : Option α) : flagsByte [x.isSome] = if x.isSome then 1 else 0 :=
  flagsByte_one _

theorem oneShift_getLsbD {n i : Nat} (hi : i < 16) : ((1#16 <<< n).getLsbD i = true) ↔ n = i := by
  rw [BitVec.getLsbD_shiftLeft, BitVec.getLsbD_one]
  simp [hi]
  omega

/-- R180: the kinds of some notices, as a set. -/
theorem noticeKinds_has (s : State) (es : List EntryNo) (ks : KindSet) (k : FaultKind) :
    KindSet.has (es.foldl (fun ks e => ks ||| (1#16 <<< s.noticeKind e)) ks) k = true ↔
      KindSet.has ks k = true ∨ ∃ e ∈ es, s.noticeKind e = k.code := by
  induction es generalizing ks with
  | nil => simp
  | cons e es ih =>
    have hone : KindSet.has (ks ||| (1#16 <<< s.noticeKind e)) k = true ↔
        KindSet.has ks k = true ∨ s.noticeKind e = k.code := by
      have hcode := FaultKind.code_lt k
      unfold KindSet.has
      rw [BitVec.getLsbD_or, Bool.or_eq_true, oneShift_getLsbD (by omega)]
    rw [List.foldl_cons, ih, hone, List.exists_mem_cons_iff, or_assoc]

theorem State.heldKinds_has (s : State) (k : FaultKind) :
    KindSet.has s.heldKinds k = true ↔ ∃ e ∈ s.heldNotices, s.noticeKind e = k.code := by
  unfold State.heldKinds
  rw [noticeKinds_has]
  simp [KindSet.has]

/-! ### CLEAR_COUNTERS and WRITE_ACCESS (R154, R155) -/

theorem Region.ofCode_eq {n : Nat} {r : Region} (h : r.code.val = n) : Region.ofCode n = some r := by
  subst h
  cases r <;> rfl

theorem Region.ofCode_none {n : Nat} (h : 6 < n) : Region.ofCode n = none := by
  match n with
  | 0 | 1 | 2 | 3 | 4 | 5 | 6 => omega
  | n + 7 => rfl

theorem Region.ofCode_le {n : Nat} (h : n ≤ 6) : ∃ r, Region.ofCode n = some r := by
  interval_cases n <;> exact ⟨_, rfl⟩

theorem Region.code_inj {q r : Region} (h : q.code.val = r.code.val) : q = r := by
  have hq := Region.ofCode_eq (r := q) rfl
  rw [h, Region.ofCode_eq rfl] at hq
  exact (Option.some.inj hq).symm

theorem Access.ofCode_eq {n : Nat} {a : Access} (h : a.code = n) : Access.ofCode n = some a := by
  subst h
  cases a <;> rfl

theorem Access.ofCode_none {n : Nat} (h : 2 < n) : Access.ofCode n = Option.none := by
  match n with
  | 0 | 1 | 2 => omega
  | n + 3 => rfl

/-- R155: one access code written. -/
def State.setAccess (s : State) (r : Region) (a : Access) : State :=
  { s with cmd := { s.cmd with access := s.cmd.access.set r.code.val a r.code.isLt } }

theorem State.accessOf_setAccess_same (s : State) (r : Region) (a : Access) : (s.setAccess r a).accessOf r = a := by
  simp [State.setAccess, State.accessOf]

theorem State.accessOf_setAccess_ne (s : State) {q r : Region} (h : q ≠ r) (a : Access) :
    (s.setAccess r a).accessOf q = s.accessOf q := by
  have hv : r.code.val ≠ q.code.val := fun he => h (Region.code_inj he.symm)
  simp [State.setAccess, State.accessOf, Vector.getElem_set_ne _ _ hv]

section LogActs

variable {c : CommandFrame} (f s : State)

theorem actWriteNoticeConfig_of_bad (h : 8192 ≤ c.arg2 1) : actWriteNoticeConfig c f s = .answer .badValue [] s :=
  if_pos h

theorem actWriteNoticeConfig_of_kinds (h : c.arg2 1 < 8192) : actWriteNoticeConfig c f s = .answer .ok []
    { s with fault := { s.fault with
        noticeNode := byteOf (c.arg 0), noticeKinds := BitVec.ofNat 16 (c.arg2 1) } } :=
  if_neg (Nat.not_le.mpr h)

theorem actClearCounters_of_bad (h : 6 < c.arg 0) : actClearCounters c f s = .answer .badIndex [] s := by
  unfold actClearCounters
  rw [Region.ofCode_none h]

theorem actClearCounters_of_region {r : Region} (h : r.code.val = c.arg 0) :
    actClearCounters c f s = .answer .ok [] (s.clearRegion r) := by
  unfold actClearCounters
  rw [Region.ofCode_eq h]

theorem actWriteAccess_of_badRegion (h : 6 < c.arg 0) : actWriteAccess c f s = .answer .badIndex [] s := by
  unfold actWriteAccess
  rw [Region.ofCode_none h]

theorem actWriteAccess_of_badAccess (hr : c.arg 0 ≤ 6) (h : 2 < c.arg 1) :
    actWriteAccess c f s = .answer .badValue [] s := by
  obtain ⟨r, hr⟩ := Region.ofCode_le hr
  unfold actWriteAccess
  rw [hr, Access.ofCode_none h]

theorem actWriteAccess_of_access {r : Region} {a : Access} (hr : r.code.val = c.arg 0) (ha : a.code = c.arg 1) :
    actWriteAccess c f s = .answer .ok [] (s.setAccess r a) := by
  unfold actWriteAccess
  rw [Region.ofCode_eq hr, Access.ofCode_eq ha]
  rfl

end LogActs

/-- Settles O59. -/
theorem logCommandsComplete : Obligations.LogCommandsComplete := by
  unfold Obligations.LogCommandsComplete
  refine ⟨fun s found t c e => ⟨fun h => ⟨h.answers rfl, t.faultReport_length⟩, fun h => h.answers rfl,
    fun h => ⟨fun hbad => h.answers (actWriteNoticeConfig_of_bad found t hbad),
      fun hk => h.answers (actWriteNoticeConfig_of_kinds found t hk)⟩,
    fun h => ⟨fun hbad => h.answers (actClearCounters_of_bad found t hbad),
      fun r hr => h.answers (actClearCounters_of_region found t hr)⟩,
    fun h => ⟨fun hbad => h.answers (actWriteAccess_of_badRegion found t hbad),
      fun hr hbad => h.answers (actWriteAccess_of_badAccess found t hr hbad),
      fun r a hr ha => ⟨t.setAccess r a, h.answers (actWriteAccess_of_access found t hr ha), rfl,
        t.accessOf_setAccess_same r a, fun q hq => t.accessOf_setAccess_ne hq a⟩⟩⟩,
    fun t => ⟨⟨rfl, fun i => ?rules⟩, rfl, ⟨rfl, fun l => ?levels⟩, ⟨rfl, fun p => ?ports⟩, rfl, rfl, rfl⟩,
    fun t => ⟨t.heldKinds, captureBytes t.fault.captured, ?report, fun h => ?empty, fun r h => ?full,
      t.heldKinds_has⟩⟩
  case rules => simp [State.clearRegion, State.rule, clearHits, mapTable]
  case levels => simp [State.clearRegion, State.lvl, LevelEntry.cleared, mapTable]
  case ports => simp [State.clearRegion, State.port, Port.cleared, mapTable]
  case report =>
    have hflag : (if t.fault.captured.isSome = true then (1 : Byte) else 0) =
        if t.fault.captured = none then 0 else 1 := by
      cases t.fault.captured <;> rfl
    unfold State.faultReport
    rw [flagsByte_isSome, hflag]
    rfl
  case empty => rw [h]; rfl
  case full => rw [h]; rfl

end Sys2Proof.Machine

/-! PROOFS. The commands on modes, supervision and the trunk (R46, R156, R166, R170 to R172), and the status report
(R188). -/

namespace Sys2Proof.Machine

open Sys2Proof

/-! ### SET_MODE (R166) -/

section SetMode

variable {c : CommandFrame} (f s : State)

theorem actSetMode_of_bad (h : c.arg 0 = 0 ∨ 3 < c.arg 0) : actSetMode c f s = .answer .badValue [] s := by
  unfold actSetMode
  match hn : c.arg 0 with
  | 0 => rfl
  | 1 | 2 | 3 => omega
  | n + 4 => rfl

theorem actSetMode_same {m : Mode} (hm : s.ctl.mode = m) (h : c.arg 0 = m.code) (hrun : m ≠ .init) :
    actSetMode c f s = .answer .ok [] s := by
  unfold actSetMode
  cases m with
  | init => exact absurd rfl hrun
  | setup | run | fallback =>
    rw [h, hm]
    rfl

theorem actSetMode_setup (h : c.arg 0 = 1) (hm : s.ctl.mode = .run ∨ s.ctl.mode = .fallback) :
    actSetMode c f s = .answer .ok [] s.enterSetup := by
  unfold actSetMode
  rcases hm with hm | hm
  · rw [h, hm]
    rfl
  · rw [h, hm]
    rfl

theorem actSetMode_run_from_setup (h : c.arg 0 = 2) (hm : s.ctl.mode = .setup) : actSetMode c f s =
    if s.strapsUsable then .answer .ok [] s.enterRun else .answer .wrongMode [] s := by
  unfold actSetMode
  rw [h, hm]
  rfl

theorem actSetMode_run_from_fallback (h : c.arg 0 = 2) (hm : s.ctl.mode = .fallback) : actSetMode c f s =
    if s.ctl.period = 0 ∨ s.ctl.refreshSeen = true then .answer .ok [] s.enterRun
    else .answer .notRefreshed [] s := by
  unfold actSetMode
  rw [h, hm]
  rfl

theorem actSetMode_fallback_from_setup (h : c.arg 0 = 3) (hm : s.ctl.mode = .setup) :
    actSetMode c f s = .answer .wrongMode [] s := by
  unfold actSetMode
  rw [h, hm]
  rfl

theorem actSetMode_fallback_from_run (h : c.arg 0 = 3) (hm : s.ctl.mode = .run) :
    actSetMode c f s = .answer .ok [] s.enterFallback := by
  unfold actSetMode
  rw [h, hm]
  rfl

end SetMode

/-! ### REFRESH, WRITE_SUPERVISION, SET_TRUNK_CONFIG (R46, R170, R172) -/

theorem State.refreshEarly_iff {s : State} : s.refreshEarly = true ↔
    s.ctl.window = true ∧ ∃ m, s.ctl.mark = some m ∧ elapsed m s.now < s.ctl.period * 500 := by
  unfold State.refreshEarly State.sinceMark
  cases s.ctl.mark <;> simp

section Supervision

variable {c : CommandFrame} (f s : State)

theorem actRefresh_of_setup (hm : s.ctl.mode = .setup) : actRefresh c f s = .answer .ok [] s := by
  unfold actRefresh
  rw [hm]

theorem actRefresh_of_no_period (hm : s.ctl.mode = .run) (h : s.ctl.period = 0) :
    actRefresh c f s = .answer .ok [] s := by
  unfold actRefresh
  rw [hm]
  exact if_pos h

theorem actRefresh_of_early (hm : s.ctl.mode = .run) (hp : 0 < s.ctl.period) (h : s.refreshEarly = true) :
    actRefresh c f s = .answer .early [] (s.enterFallback.raise .supervisionEarly) := by
  unfold actRefresh
  rw [hm]
  exact (if_neg (Nat.pos_iff_ne_zero.mp hp)).trans (if_pos h)

theorem actRefresh_of_due (hm : s.ctl.mode = .run) (hp : 0 < s.ctl.period) (h : ¬ s.refreshEarly = true) :
    actRefresh c f s = .answer .ok [] { s with ctl := { s.ctl with mark := some s.now } } := by
  unfold actRefresh
  rw [hm]
  exact (if_neg (Nat.pos_iff_ne_zero.mp hp)).trans (if_neg h)

theorem actRefresh_of_fallback (hm : s.ctl.mode = .fallback) :
    actRefresh c f s = .answer .ok [] { s with ctl := { s.ctl with refreshSeen := true } } := by
  unfold actRefresh
  rw [hm]

theorem actWriteSupervision_of_bad (h : 1 < c.arg 2) : actWriteSupervision c f s = .answer .badValue [] s := if_pos h

theorem actWriteSupervision_of_flag (h : c.arg 2 ≤ 1) : actWriteSupervision c f s = .answer .ok []
    { s with ctl := { s.ctl with period := c.arg2 0, window := decide (c.arg 2 = 1) } } :=
  if_neg (Nat.not_lt.mpr h)

theorem actSetTrunkConfig_of_bad (h64 : c.arg2 0 ≠ 64) (h128 : c.arg2 0 ≠ 128) (h256 : c.arg2 0 ≠ 256) :
    actSetTrunkConfig c f s = .answer .badValue [] s := by
  simp [actSetTrunkConfig, firstRefusal_cons, h64, h128, h256]

/-- R46: a size of the three is refused only while a frame is started. -/
theorem actSetTrunkConfig_of_size (h : c.arg2 0 = 64 ∨ c.arg2 0 = 128 ∨ c.arg2 0 = 256) :
    ((∃ l, (s.lvl l).ctx ≠ none) → actSetTrunkConfig c f s = .answer .busy [] s) ∧
      ((∀ l, (s.lvl l).ctx = none) → actSetTrunkConfig c f s =
        .answer .ok [] { s with trunk := { s.trunk with fragSize := c.arg2 0 } }) := by
  have hsize : (c.arg2 0 != 64 && c.arg2 0 != 128 && c.arg2 0 != 256) = false := by
    rcases h with h | h | h <;> rw [h] <;> rfl
  refine ⟨fun ⟨l, hl⟩ => ?_, fun hnone => ?_⟩
  · have hbusy : (allLevels.any fun l => (s.lvl l).ctx.isSome) = true :=
      List.any_eq_true.mpr ⟨l, mem_allLevels l, Option.isSome_iff_ne_none.mpr hl⟩
    simp only [actSetTrunkConfig, firstRefusal_cons, hsize, hbusy, Bool.false_eq_true, if_false, if_true]
  · have hfree : (allLevels.any fun l => (s.lvl l).ctx.isSome) = false := by simp [hnone]
    simp only [actSetTrunkConfig, firstRefusal_cons, firstRefusal_nil, hsize, hfree, Bool.false_eq_true, if_false]

end Supervision

/-! ### The supervision deadline (R171) -/

theorem State.supervisionDue_of {s : State} {m : Word} (hm : s.ctl.mode = .run) (hp : 0 < s.ctl.period)
    (hmark : s.ctl.mark = some m) (h : s.ctl.period * 1000 ≤ elapsed m s.now) : s.supervisionDue = true := by
  simp [State.supervisionDue, State.sinceMark, hm, hp, hmark, h]

/-! ### The status report (R156, R188) -/

theorem bytes2_length (n : Nat) : (bytes2 n).length = 2 := rfl

theorem bytes4_length (w : Word) : (bytes4 w).length = 4 := rfl

theorem LongRecord.bytes_length (r : LongRecord) : r.bytes.length = 5 := by
  obtain ⟨op, tag, sender, node⟩ := r
  cases op <;> rfl

theorem longRecords_length (rs : List LongRecord) : (rs.flatMap LongRecord.bytes).length = 5 * rs.length := by
  induction rs with
  | nil => rfl
  | cons r rs ih =>
    rw [List.flatMap_cons, List.length_append, ih, r.bytes_length, List.length_cons]
    omega

theorem State.partReport_length (s : State) : s.partReport.length = 19 := rfl

theorem Store.report_length (st : Store) : st.report.length = 18 := rfl

theorem Trunk.report_length (t : Trunk) : t.report.length = 29 := rfl

theorem State.ingressReport_length (s : State) : s.ingressReport.length = 48 := rfl

theorem State.commandReport_length (s : State) : s.commandReport.length = 51 := by
  have hrecords := longRecords_length (s.cmd.longOps.take 4)
  rw [List.length_take] at hrecords
  simp only [State.commandReport, List.length_append, List.length_cons, List.length_nil, List.length_replicate,
    List.length_map, Vector.length_toList, bytes4_length, hrecords]
  omega

theorem State.statusReport_length (s : State) : s.statusReport.length = 165 := by
  unfold State.statusReport
  simp only [List.length_append, State.partReport_length, Store.report_length, Trunk.report_length,
    State.ingressReport_length, State.commandReport_length]

theorem numOr255_map {α : Type} (x : Option α) (g : α → Nat) :
    numOr255 (x.map g) = (x.map fun a => byteOf (g a)).getD 255 := by cases x <;> rfl

/-- R161, R188: what is left of a part of the period, in thousandths. -/
theorem State.timeLeft_eq (s : State) (part : Nat) :
    BitVec.ofNat 32 ((s.sinceMark.map fun e => s.ctl.period * part - e).getD 0) =
      (s.ctl.mark.map fun m => BitVec.ofNat 32 (s.ctl.period * part - elapsed m s.now)).getD 0 := by
  unfold State.sinceMark
  cases s.ctl.mark <;> rfl

theorem State.outstanding_eq (s : State) : s.outstanding = s.cmd.inHand.toList.length + s.cmd.longOps.length +
    s.cmd.waiting.length + (s.store.entries.filter fun x => decide (x.2.origin = .commandUnit)).length := by
  unfold State.outstanding State.builtResponses
  rw [List.countP_eq_length_filter]
  cases s.cmd.inHand <;> rfl

/-- R145: the access codes in the order of the regions. -/
theorem State.accessCodes_eq (s : State) : s.cmd.access.toList.map (fun a => byteOf a.code) =
    ([.rules, .nodeMap, .levels, .ports, .keys, .mode, .logs] : List Region).map
      fun r => byteOf (s.accessOf r).code := by
  have hlist : s.cmd.access.toList =
      ([.rules, .nodeMap, .levels, .ports, .keys, .mode, .logs] : List Region).map s.accessOf := by
    apply List.ext_getElem
    · simp
    · intro i hi _
      rw [Vector.length_toList] at hi
      interval_cases i <;> simp [State.accessOf, Region.code]
  rw [hlist, List.map_map]
  rfl

theorem State.partReport_eq (s : State) (left : Nat → Word)
    (hleft : ∀ part, left part =
      (s.ctl.mark.map fun m => BitVec.ofNat 32 (s.ctl.period * part - elapsed m s.now)).getD 0) :
    s.partReport = [byteOf s.ctl.mode.code, byteOf s.ctl.cause.code, s.ctl.straps, s.self,
      flagsByte [s.strapsUsable, s.ctl.window, s.ctl.refreshSeen, s.ctl.mark.isSome]] ++
      bytes2 s.ctl.period ++ bytes4 (left 1000) ++ bytes4 (left 500) ++ bytes4 s.now := by
  rw [hleft, hleft, ← s.timeLeft_eq 1000, ← s.timeLeft_eq 500]
  rfl

theorem Trunk.report_eq (t : Trunk) : t.report = [flagsByte [t.lineUp, t.logOverflow]] ++ bytes2 t.fragSize ++
    [(t.inFlight.map fun f => byteOf f.level.val).getD 255, byteOf t.log.length] ++
    bytes4 t.fragmentsSent ++ bytes4 t.payloadBytesSent ++ bytes4 t.abortsSent ++
    bytes4 t.fragmentsLost ++ bytes4 t.lineDowns ++ bytes4 t.formingFailures := by
  unfold Trunk.report
  rw [numOr255_map]

theorem State.ingressReport_eq (s : State) (state : Nat → Nat)
    (hstate : ∀ i, state i = (s.rxCtx (Fin.ofNat 32 i)).code) :
    s.ingressReport = bytes4 s.rx.fragmentsReceived ++ bytes4 s.rx.crcErrors ++ bytes4 s.rx.formatErrors ++
      bytes4 s.rx.setupIgnored ++ bytes4 s.rx.strayFragments ++ bytes4 s.rx.reassemblyGaps ++
      bytes4 s.rx.abortsReceived ++ bytes4 s.rx.partialsDiscarded ++ bytes4 s.rx.framesReceived ++
      bytes4 s.rx.dispatchDrops ++ (List.range 8).map fun i => byteOf (state (4 * i) * 64 + state (4 * i + 1) * 16 +
        state (4 * i + 2) * 4 + state (4 * i + 3)) := by
  have hbyte : s.reassemblyByte = fun i => byteOf (state (4 * i) * 64 + state (4 * i + 1) * 16 +
      state (4 * i + 2) * 4 + state (4 * i + 3)) := by
    funext i
    simp only [hstate]
    rfl
  unfold State.ingressReport
  rw [hbyte]

/-- Settles O57. -/
theorem modeCommandsComplete : Obligations.ModeCommandsComplete := by
  unfold Obligations.ModeCommandsComplete
  refine ⟨fun s found t c e => ⟨fun h => ?setMode, fun h => ?refresh, fun h => ?supervision, fun h => ?trunk,
    fun h => ⟨h.answers rfl, found.statusReport_length⟩⟩, fun s m hm hp hmark hlate => ?expiry, fun s => ?report,
    fun r => ⟨fun l hop => ?flushRecord, fun k hop => ?loadRecord⟩⟩
  case setMode =>
    have hinit : t.ctl.mode ≠ .init := fun hm => by
      have htaken := h.mode
      rw [hm] at htaken
      cases htaken
    refine ⟨fun hbad => h.answers (actSetMode_of_bad found t hbad),
      fun h1 hm => h.answers (actSetMode_same found t hm h1 nofun), fun h1 hm => h.answers (actSetMode_setup found t h1 ?_),
      fun h2 hm => h.answers (actSetMode_same found t hm h2 nofun), fun h2 hm => ⟨fun hs => h.answers ?_,
      fun hs => h.answers ?_⟩, fun h2 hm => ⟨fun hr => h.answers ?_, fun hp hr => h.answers ?_⟩,
      fun h3 hm => h.answers (actSetMode_same found t hm h3 nofun),
      fun h3 hm => h.answers (actSetMode_fallback_from_setup found t h3 hm),
      fun h3 hm => h.answers (actSetMode_fallback_from_run found t h3 hm)⟩
    · cases hmode : t.ctl.mode with
      | init => exact absurd hmode hinit
      | setup => exact absurd hmode hm
      | run => exact .inl rfl
      | fallback => exact .inr rfl
    · exact (actSetMode_run_from_setup found t h2 hm).trans (if_pos hs)
    · exact (actSetMode_run_from_setup found t h2 hm).trans (if_neg (Bool.eq_false_iff.mp hs))
    · exact (actSetMode_run_from_fallback found t h2 hm).trans (if_pos hr)
    · exact (actSetMode_run_from_fallback found t h2 hm).trans
        (if_neg (not_or.mpr ⟨hp, Bool.eq_false_iff.mp hr⟩))
  case refresh =>
    refine ⟨fun hm => h.answers ?_, fun hm hp he => h.answers (actRefresh_of_early found t hm hp ?_),
      fun hm hp he => h.answers (actRefresh_of_due found t hm hp (mt State.refreshEarly_iff.mp he)),
      fun hm => h.answers (actRefresh_of_fallback found t hm)⟩
    · rcases hm with hm | ⟨hm, hp⟩
      · exact actRefresh_of_setup found t hm
      · exact actRefresh_of_no_period found t hm hp
    · exact State.refreshEarly_iff.mpr he
  case supervision =>
    exact ⟨fun hbad => h.answers (actWriteSupervision_of_bad found t hbad),
      fun hflag => h.answers (actWriteSupervision_of_flag found t hflag)⟩
  case trunk =>
    exact ⟨fun h64 h128 h256 => h.answers (actSetTrunkConfig_of_bad found t h64 h128 h256), fun hsize =>
      ⟨fun hbusy => h.answers ((actSetTrunkConfig_of_size found t hsize).1 hbusy),
        fun hfree => h.answers ((actSetTrunkConfig_of_size found t hsize).2 hfree)⟩⟩
  case expiry => exact if_pos (State.supervisionDue_of hm hp hmark hlate)
  case report =>
    unfold State.statusReport State.commandReport
    rw [s.partReport_eq _ fun _ => rfl, s.trunk.report_eq, s.ingressReport_eq _ fun _ => rfl, s.accessCodes_eq,
      s.outstanding_eq]
    rfl
  case flushRecord => rw [LongRecord.bytes, hop]; rfl
  case loadRecord => rw [LongRecord.bytes, hop]; rfl

end Sys2Proof.Machine

/-! PROOFS. LOAD_KEY, ERASE_KEY, SELECT_SLOT and READ_KEY_STATE (R68, R69, R72, R73, R75), and the key report (R188). -/

namespace Sys2Proof.Machine

open Sys2Proof

/-! ### Keys in use (R68) -/

/-- R68: the slot is Expanding. -/
def State.Expanding (s : State) (k : Slot) : Prop := ∃ key since, s.slot k = .expanding key since

/-- R68, R75: an enciphered level context records the slot. -/
def State.ContextOn (s : State) (k : Slot) (l : Level) : Prop := ∃ x v, (s.lvl l).ctx = some x ∧ x.key = some (k, v)

/-- R68, R75: a Collecting reassembly context records the slot. -/
def State.CollectsOn (s : State) (k : Slot) (l : Level) : Prop :=
  ∃ x v, s.rxCtx l = .collecting x ∧ x.key = some (k, v)

/-- R68: the slot is in use. -/
def State.InUse (s : State) (k : Slot) : Prop :=
  (s.cipher.active = k ∧ ∃ l : Level, 2 ≤ l.val ∧ (s.lvl l).attrs.cipher = true) ∨
    (∃ l, s.ContextOn k l) ∨ ∃ l, s.CollectsOn k l

theorem anyKey_iff {key : Option (Slot × Word)} {k : Slot} :
    (key.any fun x => decide (x.1 = k)) = true ↔ ∃ v, key = some (k, v) := by
  rcases key with - | ⟨j, v⟩
  · simp
  · simp

theorem State.contextOn_iff {s : State} {k : Slot} {l : Level} :
    (((s.lvl l).ctx.bind Context.key).any fun x => decide (x.1 = k)) = true ↔ s.ContextOn k l := by
  rw [anyKey_iff]
  unfold State.ContextOn
  cases (s.lvl l).ctx <;> simp

theorem State.collectsOn_iff {s : State} {k : Slot} {l : Level} :
    (s.rxCtx l).records k = true ↔ s.CollectsOn k l := by
  unfold State.CollectsOn
  cases s.rxCtx l with
  | collecting x => simp [Reassembly.records, anyKey_iff]
  | idle | discarding => simp [Reassembly.records]

theorem mem_trafficLevels {l : Level} : l ∈ trafficLevels ↔ 2 ≤ l.val := by
  simp [trafficLevels, mem_allLevels, isTraffic]

theorem State.cipherLevels_pos {s : State} :
    0 < s.cipherLevels ↔ ∃ l : Level, 2 ≤ l.val ∧ (s.lvl l).attrs.cipher = true := by
  unfold State.cipherLevels
  rw [List.countP_pos_iff]
  simp [mem_trafficLevels]

theorem State.contextsOn_pos {s : State} {k : Slot} : 0 < s.contextsOn k ↔ ∃ l, s.ContextOn k l := by
  unfold State.contextsOn
  rw [List.countP_pos_iff]
  simp [mem_allLevels, State.contextOn_iff]

theorem State.collectingOn_pos {s : State} {k : Slot} : 0 < s.collectingOn k ↔ ∃ l, s.CollectsOn k l := by
  unfold State.collectingOn
  rw [List.countP_pos_iff]
  simp [mem_allLevels, State.collectsOn_iff]

section KeyBusy

variable {s : State} {k : Slot}

theorem State.keyBusy_of_expanding (h : s.Expanding k) : s.keyBusy k = some .busy := by
  obtain ⟨key, since, h⟩ := h
  unfold State.keyBusy
  rw [h]

/-- R68: the checks after that of an expansion. -/
theorem State.keyBusy_of_not_expanding (h : ¬ s.Expanding k) : s.keyBusy k =
    if s.cipher.active = k ∧ 0 < s.cipherLevels then some .inUse
    else if 0 < s.contextsOn k then some .inUse
    else if 0 < s.collectingOn k then some .inUse
    else none := by
  unfold State.keyBusy
  cases hk : s.slot k with
  | expanding key since => exact absurd ⟨key, since, hk⟩ h
  | empty | ready => rfl

theorem State.keyBusy_of_inUse (h : ¬ s.Expanding k) (hu : s.InUse k) : s.keyBusy k = some .inUse := by
  unfold State.InUse at hu
  rw [← State.cipherLevels_pos, ← State.contextsOn_pos, ← State.collectingOn_pos] at hu
  rw [State.keyBusy_of_not_expanding h]
  split
  · rfl
  · next h1 =>
    split
    · rfl
    · next h2 => rw [if_pos ((hu.resolve_left h1).resolve_left h2)]

theorem State.keyBusy_of_free (h : ¬ s.Expanding k) (hu : ¬ s.InUse k) : s.keyBusy k = none := by
  unfold State.InUse at hu
  rw [← State.cipherLevels_pos, ← State.contextsOn_pos, ← State.collectingOn_pos, not_or, not_or] at hu
  obtain ⟨h1, h2, h3⟩ := hu
  rw [State.keyBusy_of_not_expanding h, if_neg h1, if_neg h2, if_neg h3]

end KeyBusy

/-! ### The actions -/

theorem State.keyRefusal_of_badIndex (s : State) {c : CommandFrame} (h : 1 < c.arg 0) :
    s.keyRefusal c = some .badIndex := if_pos h

theorem State.keyRefusal_of_slot (s : State) {c : CommandFrame} {k : Slot} (h : k.val = c.arg 0) :
    s.keyRefusal c = s.keyBusy k := by
  unfold State.keyRefusal
  rw [if_neg (by omega), CommandFrame.slot_eq h]

section KeyActs

variable {c : CommandFrame} (f s : State)

theorem actLoadKey_of_refused {st : Status} (h : s.keyRefusal c = some st) :
    actLoadKey c f s = .answer st [] s := by
  unfold actLoadKey
  rw [h]

theorem actLoadKey_of_free {k : Slot} (hk : k.val = c.arg 0) (h : s.keyRefusal c = none) : actLoadKey c f s =
    .pend (.loadKey k) (s.setSlot k (.expanding (blockOf (c.args.drop 1)) s.now)) := by
  unfold actLoadKey
  rw [h, CommandFrame.slot_eq hk]

theorem actEraseKey_of_refused {st : Status} (h : s.keyRefusal c = some st) :
    actEraseKey c f s = .answer st [] s := by
  unfold actEraseKey
  rw [h]

theorem actEraseKey_of_free {k : Slot} (hk : k.val = c.arg 0) (h : s.keyRefusal c = none) :
    actEraseKey c f s = .answer .ok [] ((s.setSlot k .empty).resetSequences k) := by
  unfold actEraseKey
  rw [h, CommandFrame.slot_eq hk]

theorem actSelectSlot_of_badIndex (h : 1 < c.arg 0) : actSelectSlot c f s = .answer .badIndex [] s := by
  simp [actSelectSlot, firstRefusal_slot, h]

theorem actSelectSlot_of_ready {k : Slot} {key : Block} (hk : k.val = c.arg 0) (h : s.slot k = .ready key) :
    actSelectSlot c f s =
      .answer .ok [] ({ s with cipher := { s.cipher with active := k } } : State).triggerAuction := by
  have hin : ¬ 1 < c.arg 0 := by omega
  have hready : s.slotReady k = true := (s.slotReady_iff k).mpr ⟨key, h⟩
  simp [actSelectSlot, firstRefusal_slot, hin, CommandFrame.slot_eq hk, hready]

theorem actSelectSlot_of_not_ready {k : Slot} (hk : k.val = c.arg 0) (h : ∀ key, s.slot k ≠ .ready key) :
    actSelectSlot c f s = .answer .noKey [] s := by
  have hin : ¬ 1 < c.arg 0 := by omega
  have hready : s.slotReady k = false := by
    rw [← Bool.not_eq_true, s.slotReady_iff, not_exists]
    exact h
  simp [actSelectSlot, firstRefusal_slot, hin, CommandFrame.slot_eq hk, hready]

end KeyActs

/-! ### The key report (R75, R188) -/

/-- The number of levels with a property is what a count over all levels finds. -/
theorem ncard_levels (P : Level → Prop) (p : Level → Bool) (h : ∀ l, p l = true ↔ P l) :
    {l : Level | P l}.ncard = allLevels.countP p := by
  have hset : {l : Level | P l} = ((allLevels.filter p).toFinset : Set Level) := by
    ext l
    simp [mem_allLevels, h]
  rw [hset, Set.ncard_coe_finset, List.toFinset_card_of_nodup (allLevels_nodup.filter p), List.countP_eq_length_filter]

theorem State.contextsOn_eq (s : State) (k : Slot) : {l : Level | s.ContextOn k l}.ncard = s.contextsOn k :=
  ncard_levels _ _ fun _ => State.contextOn_iff

theorem State.collectingOn_eq (s : State) (k : Slot) : {l : Level | s.CollectsOn k l}.ncard = s.collectingOn k :=
  ncard_levels _ _ fun _ => State.collectsOn_iff

theorem State.cipherLevels_eq (s : State) :
    {l : Level | 2 ≤ l.val ∧ (s.lvl l).attrs.cipher = true}.ncard = s.cipherLevels := by
  refine (ncard_levels _ (fun l => (s.lvl l).attrs.cipher && isTraffic l) fun l => ?_).trans ?_
  · rw [Bool.and_eq_true, isTraffic_iff, and_comm]
  · unfold State.cipherLevels trafficLevels
    rw [List.countP_filter]

theorem oneShift32_getLsbD {n i : Nat} (hi : i < 32) : ((1#32 <<< n).getLsbD i = true) ↔ n = i := by
  rw [BitVec.getLsbD_shiftLeft, BitVec.getLsbD_one]
  simp [hi]
  omega

/-- R75: bit l of the word is set when level l has the property and is among those looked at. -/
theorem levelBits_getLsbD (p : Level → Prop) [DecidablePred p] (ls : List Level) (w : Word) (l : Level) :
    (ls.foldl (fun w m => if p m then w ||| (1#32 <<< m.val) else w) w).getLsbD l.val = true ↔
      w.getLsbD l.val = true ∨ (l ∈ ls ∧ p l) := by
  induction ls generalizing w with
  | nil => simp
  | cons m ls ih =>
    have hone : (if p m then w ||| (1#32 <<< m.val) else w).getLsbD l.val = true ↔
        w.getLsbD l.val = true ∨ (l = m ∧ p l) := by
      split
      · next hp =>
        rw [BitVec.getLsbD_or, Bool.or_eq_true, oneShift32_getLsbD l.isLt, ← Fin.ext_iff]
        exact or_congr_right ⟨fun h => ⟨h.symm, h ▸ hp⟩, fun h => h.1.symm⟩
      · next hp =>
        exact ⟨.inl, fun h => h.elim id fun ⟨hl, hpl⟩ => absurd (hl ▸ hpl) hp⟩
    rw [List.foldl_cons, ih, hone, List.mem_cons, or_and_right, or_assoc]

theorem State.exhaustedLevels_iff (s : State) (k : Slot) (l : Level) :
    (s.exhaustedLevels k).getLsbD l.val = true ↔ s.txSequence k l = .exhausted := by
  unfold State.exhaustedLevels
  rw [levelBits_getLsbD]
  simp [mem_allLevels, State.txSequence]

/-- Settles O35. -/
theorem keyCommandsComplete : Obligations.KeyCommandsComplete := by
  unfold Obligations.KeyCommandsComplete
  refine ⟨fun s found t c e => ⟨fun h => ⟨fun hbad => ?_, fun k hk => ⟨fun (hx : t.Expanding k) => ?_,
    fun (hx : ¬ t.Expanding k) (hu : t.InUse k) => ?_, fun (hx : ¬ t.Expanding k) (hu : ¬ t.InUse k) => ?_⟩⟩,
    fun h => ⟨fun hbad => ?_, fun k hk => ⟨fun (hx : t.Expanding k) => ?_,
    fun (hx : ¬ t.Expanding k) (hu : t.InUse k) => ?_, fun (hx : ¬ t.Expanding k) (hu : ¬ t.InUse k) => ?_⟩⟩,
    fun h => ⟨fun hbad => h.answers (actSelectSlot_of_badIndex found t hbad), fun k hk =>
      ⟨fun key hkey => h.answers (actSelectSlot_of_ready found t hk hkey),
        fun hno => h.answers (actSelectSlot_of_not_ready found t hk hno)⟩⟩, fun h => h.answers rfl⟩,
    fun t => ⟨t.exhaustedLevels 0, t.exhaustedLevels 1, ?_,
      fun l => ⟨t.exhaustedLevels_iff 0 l, t.exhaustedLevels_iff 1 l⟩⟩⟩
  · exact h.answers (actLoadKey_of_refused found t (t.keyRefusal_of_badIndex hbad))
  · exact h.answers (actLoadKey_of_refused found t
      ((t.keyRefusal_of_slot hk).trans (State.keyBusy_of_expanding hx)))
  · exact h.answers (actLoadKey_of_refused found t
      ((t.keyRefusal_of_slot hk).trans (State.keyBusy_of_inUse hx hu)))
  · exact h.pends (actLoadKey_of_free found t hk ((t.keyRefusal_of_slot hk).trans (State.keyBusy_of_free hx hu)))
  · exact h.answers (actEraseKey_of_refused found t (t.keyRefusal_of_badIndex hbad))
  · exact h.answers (actEraseKey_of_refused found t
      ((t.keyRefusal_of_slot hk).trans (State.keyBusy_of_expanding hx)))
  · exact h.answers (actEraseKey_of_refused found t
      ((t.keyRefusal_of_slot hk).trans (State.keyBusy_of_inUse hx hu)))
  · exact h.answers (actEraseKey_of_free found t hk
      ((t.keyRefusal_of_slot hk).trans (State.keyBusy_of_free hx hu)))
  · have h0 := t.contextsOn_eq 0
    have h1 := t.contextsOn_eq 1
    have h2 := t.collectingOn_eq 0
    have h3 := t.collectingOn_eq 1
    unfold State.ContextOn at h0 h1
    unfold State.CollectsOn at h2 h3
    rw [State.keyReport, ← h0, ← h1, ← h2, ← h3, ← t.cipherLevels_eq]

end Sys2Proof.Machine

/-! PROOFS. Level queues and READ_LEVEL, WRITE_LEVEL, FLUSH_LEVEL (R2, R3, R19, R21, R24, R40 to R42), and the level
report (R188). -/

namespace Sys2Proof.Machine

open Sys2Proof

/-! ### Offers to a level (R40 to R42) -/

/-- R42: the frames that count against the limit of a level. -/
theorem State.queuedFrames_eq (s : State) (l : Level) : s.queuedFrames l =
    (s.lvl l).queue.length + (if l = 0 ∧ (s.lvl l).ctx.isSome = true then 1 else 0) := by
  have hzero : (l.val = 0) ↔ l = 0 := by rw [Fin.ext_iff]; rfl
  simp [State.queuedFrames, hzero]

theorem State.queueRefuses_iff {s : State} {l : Level} : s.queueRefuses l = true ↔
    (2 ≤ l.val ∧ s.ctl.mode = .setup) ∨ (s.ctl.mode = .fallback ∧ (s.lvl l).attrs.essential = false) ∨
      (s.lvl l).flushPending ≠ none ∨
      (0 < (s.lvl l).attrs.queueLimit ∧ (s.lvl l).attrs.queueLimit ≤ (s.lvl l).queue.length +
        (if l = 0 ∧ (s.lvl l).ctx.isSome = true then 1 else 0)) := by
  rw [← s.queuedFrames_eq l, ← s.barred_iff l, ← isTraffic_iff]
  simp [State.queueRefuses, or_assoc, Option.isSome_iff_ne_none]

theorem State.accept_lvl (s : State) (e : EntryNo) (first : Bool) (l : Level) : (s.accept e first).lvl l = s.lvl l := by
  cases first <;> rfl

theorem State.offerLevel_of_accepted {s : State} {l : Level} (h : ¬ s.queueRefuses l = true) (e : EntryNo)
    (first : Bool) : s.offerLevel l e first =
      (true, ((s.accept e first).modLvl l fun v => { v with queue := v.queue ++ [e] }).triggerAuction) := by
  unfold State.offerLevel
  rw [if_neg h]

/-- Settles O26. -/
theorem queueAdmitsByFourTests : Obligations.QueueAdmitsByFourTests := by
  unfold Obligations.QueueAdmitsByFourTests
  intro s l e first
  refine ⟨fun h => if_pos (State.queueRefuses_iff.mpr h), fun h => ?_⟩
  rw [State.offerLevel_of_accepted (mt State.queueRefuses_iff.mp h)]
  refine ⟨rfl, ?_, fun m hm => ?_, rfl, ?_⟩
  · have hlvl := (s.accept e first).lvl_modLvl_same l fun v => { v with queue := v.queue ++ [e] }
    rw [State.accept_lvl] at hlvl
    exact hlvl
  · exact ((s.accept e first).lvl_modLvl_ne hm fun v => { v with queue := v.queue ++ [e] }).trans
      (s.accept_lvl e first m)
  · cases first <;> rfl

/-! ### Emptying and barring a level (R19, R21) -/

theorem State.releaseAll_leaves (q : List EntryNo) (s : State) : LeavesLevels s (q.foldl State.release s) := by
  induction q generalizing s with
  | nil => exact .refl s
  | cons e q ih => exact (State.release_leaves s e).trans (ih _)

/-- R19, step 1: a level without its queue. -/
def LevelEntry.emptied (v : LevelEntry) : LevelEntry :=
  { v with queue := [], framesDropped := bumpBy v.framesDropped v.queue.length, trainCount := 0 }

theorem State.emptyQueue_lvl (s : State) (l m : Level) :
    (s.emptyQueue l).lvl m = if m = l then (s.lvl l).emptied else s.lvl m := by
  unfold State.emptyQueue
  rw [(State.releaseAll_leaves _ _).lvl, State.lvl_modLvl]
  rfl

theorem State.emptyQueue_lvl_same (s : State) (l : Level) : (s.emptyQueue l).lvl l = (s.lvl l).emptied := by
  rw [State.emptyQueue_lvl, if_pos rfl]

theorem State.emptyQueue_sending (s : State) (l m : Level) : (s.emptyQueue l).sending m = s.sending m := by
  unfold State.sending
  rw [show (s.emptyQueue l).trunk = s.trunk from (State.releaseAll_leaves _ _).trunk]

theorem State.bar_of_sending {s : State} {l : Level} (h : s.sending l = true) : s.bar l = s.emptyQueue l := by
  unfold State.bar
  exact if_pos ((s.emptyQueue_sending l l).trans h)

theorem State.bar_of_not_sending {s : State} {l : Level} (h : s.sending l = false) :
    s.bar l = (s.emptyQueue l).abandon l true := by
  unfold State.bar
  refine if_neg ?_
  rw [State.emptyQueue_sending, h]
  exact Bool.false_ne_true

/-- R21: a barred level keeps a context alone whose fragment is in flight. -/
theorem State.bar_lvl_same {s : State} {l : Level} (hl : l ≠ 1) : (s.bar l).lvl l =
    if (s.lvl l).ctx = none ∨ s.sending l = true then (s.lvl l).emptied
    else { (s.lvl l).emptied with
      ctx := none, framesAborted := bump (s.lvl l).framesAborted, flushPending := none
      abortOwed := ((s.lvl l).ctx.bind fun c => (s.emptyQueue l).abortFor c true) } := by
  cases hsend : s.sending l with
  | true => rw [State.bar_of_sending hsend, State.emptyQueue_lvl_same, if_pos (.inr rfl)]
  | false =>
    rw [State.bar_of_not_sending hsend]
    cases hc : (s.lvl l).ctx with
    | none =>
      rw [State.abandon_of_none (by rw [State.emptyQueue_lvl_same]; exact hc), State.emptyQueue_lvl_same,
        if_pos (.inl rfl)]
    | some c =>
      rw [State.abandon_lvl_same hl (by rw [State.emptyQueue_lvl_same]; exact hc), State.emptyQueue_lvl_same]
      exact (if_neg (by simp)).symm

theorem State.bar_lvl_ne {s : State} {l m : Level} (hm : m ≠ l) (hm1 : m ≠ 1) : (s.bar l).lvl m = s.lvl m := by
  cases hsend : s.sending l with
  | true => rw [State.bar_of_sending hsend, State.emptyQueue_lvl, if_neg hm]
  | false => rw [State.bar_of_not_sending hsend, State.abandon_lvl_ne hm hm1, State.emptyQueue_lvl, if_neg hm]

/-! ### WRITE_LEVEL (R2, R3) -/

theorem State.writeAttrs_lvl (s : State) (l : Level) (a : Attrs) (m : Level) :
    (s.writeAttrs l a).lvl m = (s.replaceAttrs l a).lvl m := by
  unfold State.writeAttrs
  split <;> rfl

theorem State.replaceAttrs_of_bar {s : State} {l : Level} {a : Attrs}
    (h : s.ctl.mode = .fallback ∧ (s.lvl l).attrs.essential = true ∧ a.essential = false) :
    s.replaceAttrs l a = (s.modLvl l fun v => { v with attrs := a }).bar l := by
  unfold State.replaceAttrs
  rw [if_pos (by simpa using h)]

theorem State.replaceAttrs_of_no_bar {s : State} {l : Level} {a : Attrs}
    (h : ¬ (s.ctl.mode = .fallback ∧ (s.lvl l).attrs.essential = true ∧ a.essential = false)) :
    s.replaceAttrs l a = s.modLvl l fun v => { v with attrs := a } := by
  unfold State.replaceAttrs
  rw [if_neg (by simpa using h)]

/-- R3: barring leaves the attributes. -/
theorem State.bar_attrs {s : State} {l : Level} (hl : l ≠ 1) : ((s.bar l).lvl l).attrs = (s.lvl l).attrs := by
  rw [State.bar_lvl_same hl]
  split <;> rfl

theorem State.writeAttrs_attrs (s : State) {l : Level} (hl : l ≠ 1) (a : Attrs) :
    ((s.writeAttrs l a).lvl l).attrs = a := by
  rw [State.writeAttrs_lvl]
  by_cases h : s.ctl.mode = .fallback ∧ (s.lvl l).attrs.essential = true ∧ a.essential = false
  · rw [State.replaceAttrs_of_bar h, State.bar_attrs hl, State.lvl_modLvl_same]
  · rw [State.replaceAttrs_of_no_bar h, State.lvl_modLvl_same]

/-! ### The actions -/

theorem level_eq {n : Nat} {l : Level} (h : l.val = n) : (Fin.ofNat 32 n : Level) = l := by
  rw [← h]
  exact Fin.ofNat_val_eq_self l

/-- R2, R19: the levels that WriteLevel and FlushLevel do not take. -/
theorem badLevel_iff {n : Nat} : (decide (n < 2) || decide (31 < n)) = true ↔ n < 2 ∨ 31 < n := by
  rw [Bool.or_eq_true, decide_eq_true_eq, decide_eq_true_eq]

section LevelActs

variable {c : CommandFrame} (f s : State)

theorem actReadLevel_of_badIndex (h : 31 < c.arg 0) : actReadLevel c f s = .answer .badIndex [] s := if_pos h

theorem actReadLevel_of_level {l : Level} (h : l.val = c.arg 0) :
    actReadLevel c f s = .answer .ok (s.levelReport l) s := by
  unfold actReadLevel
  rw [if_neg (by omega), level_eq h]

theorem actWriteLevel_of_badIndex (h : c.arg 0 < 2 ∨ 31 < c.arg 0) : actWriteLevel c f s = .answer .badIndex [] s := by
  simp only [actWriteLevel, firstRefusal_cons, badLevel_iff.mpr h, if_true]

theorem actWriteLevel_of_badValue (h2 : 2 ≤ c.arg 0) (h31 : c.arg 0 ≤ 31)
    (h : c.arg 4 = 0 ∨ 16 < c.arg 4 ∨ 31 < c.arg 1) : actWriteLevel c f s = .answer .badValue [] s := by
  have hindex : ¬ (decide (c.arg 0 < 2) || decide (31 < c.arg 0)) = true := badLevel_iff.not.mpr (by omega)
  by_cases htrain : (c.arg 4 == 0 || decide (16 < c.arg 4)) = true
  · simp only [actWriteLevel, firstRefusal_cons, hindex, htrain, if_true, Bool.false_eq_true, if_false]
  · have hbits : 31 < c.arg 1 := by
      simp only [Bool.or_eq_true, beq_iff_eq, decide_eq_true_eq] at htrain
      omega
    simp only [actWriteLevel, firstRefusal_cons, hindex, htrain, hbits, decide_true, if_true, Bool.false_eq_true,
      if_false]

theorem actWriteLevel_of_attrs {l : Level} (h2 : 2 ≤ l.val) (hl : l.val = c.arg 0) (h1 : 1 ≤ c.arg 4)
    (h16 : c.arg 4 ≤ 16) (hflags : c.arg 1 ≤ 31) :
    actWriteLevel c f s = .answer .ok [] (s.writeAttrs l c.attrs) := by
  have hindex : ¬ (decide (c.arg 0 < 2) || decide (31 < c.arg 0)) = true := badLevel_iff.not.mpr (by omega)
  have htrain : ¬ (c.arg 4 == 0 || decide (16 < c.arg 4)) = true := by
    simp only [Bool.or_eq_true, beq_iff_eq, decide_eq_true_eq]
    omega
  have hbits : ¬ 31 < c.arg 1 := by omega
  simp only [actWriteLevel, firstRefusal_cons, firstRefusal_nil, hindex, htrain, hbits, decide_false,
    Bool.false_eq_true, if_false, level_eq hl]

theorem actFlushLevel_of_badIndex (h : c.arg 0 < 2 ∨ 31 < c.arg 0) : actFlushLevel c f s = .answer .badIndex [] s := by
  simp only [actFlushLevel, firstRefusal_cons, badLevel_iff.mpr h, if_true]

theorem actFlushLevel_of_pending {l : Level} (h2 : 2 ≤ l.val) (hl : l.val = c.arg 0)
    (h : (s.lvl l).flushPending ≠ none) : actFlushLevel c f s = .answer .busy [] s := by
  have hindex : ¬ (decide (c.arg 0 < 2) || decide (31 < c.arg 0)) = true := badLevel_iff.not.mpr (by omega)
  simp only [actFlushLevel, firstRefusal_cons, hindex, level_eq hl, Option.isSome_iff_ne_none.mpr h, if_true,
    Bool.false_eq_true, if_false]

theorem actFlushLevel_of_free {l : Level} (h2 : 2 ≤ l.val) (hl : l.val = c.arg 0)
    (h : (s.lvl l).flushPending = none) : actFlushLevel c f s = s.flush l c := by
  have hindex : ¬ (decide (c.arg 0 < 2) || decide (31 < c.arg 0)) = true := badLevel_iff.not.mpr (by omega)
  simp only [actFlushLevel, firstRefusal_cons, firstRefusal_nil, hindex, level_eq hl, h, Option.isSome_none,
    Bool.false_eq_true, if_false]

theorem State.flush_of_no_context {l : Level} (h : (s.lvl l).ctx = none) :
    s.flush l c = .answer .ok [] (s.emptyQueue l) := by
  have hctx : ((s.emptyQueue l).lvl l).ctx = none := by rw [State.emptyQueue_lvl_same]; exact h
  simp [State.flush, hctx]

theorem State.flush_of_context {l : Level} (h : (s.lvl l).ctx ≠ none) : s.flush l c =
    if s.sending l = true then .pend (.flushLevel l) ((s.emptyQueue l).modLvl l fun v =>
      { v with flushPending := some { tag := c.tag, sender := c.sender } })
    else .answer .ok [] ((s.emptyQueue l).abandon l true) := by
  have hctx : ((s.emptyQueue l).lvl l).ctx = (s.lvl l).ctx := by rw [State.emptyQueue_lvl_same]; rfl
  simp [State.flush, hctx, h, State.emptyQueue_sending]

end LevelActs

/-! ### The level report (R24, R188) -/

theorem enciphered_iff (ctx : Option Context) :
    (ctx.bind Context.key).isSome = true ↔ ∃ c, ctx = some c ∧ c.key ≠ none := by
  cases ctx <;> simp [Option.isSome_iff_ne_none]

theorem contextBytes_eq (ctx : Option Context) : contextBytes ctx =
    (ctx.map fun c => [byteOf c.next] ++ bytes2 c.sent ++ [byteOf c.suspensions]).getD [0, 0, 0, 0] := by
  cases ctx <;> rfl

theorem contextBytes_length (ctx : Option Context) : (contextBytes ctx).length = 4 := by cases ctx <;> rfl

theorem State.levelReport_length (s : State) (l : Level) : (s.levelReport l).length = 29 := by
  simp [State.levelReport, contextBytes_length, bytes2_length, bytes4_length]

/-- Settles O25. -/
theorem levelCommandsComplete : Obligations.LevelCommandsComplete := by
  unfold Obligations.LevelCommandsComplete
  refine ⟨fun s found t c e => ⟨fun h => ⟨fun l hl => h.answers (actReadLevel_of_level found t hl),
    fun hbad => h.answers (actReadLevel_of_badIndex found t hbad)⟩,
    fun h => ⟨fun hbad => h.answers (actWriteLevel_of_badIndex found t hbad), fun l h2 hl => ⟨fun hbad => ?badValue,
      fun h1 h16 hflags => ⟨?written, ?attrs, fun hstay => ?stays, fun hm hess hno => ?barred⟩⟩⟩,
    fun h => ⟨fun hbad => h.answers (actFlushLevel_of_badIndex found t hbad), fun l h2 hl => ⟨fun hp => ?pending,
      fun hp hc => ?empty, fun hp hc hs => ?abandoned, fun hp hc hs => ?waits, t.emptyQueue_lvl_same l⟩⟩⟩,
    fun t l => ⟨?report, t.levelReport_length l⟩⟩
  case badValue => exact h.answers (actWriteLevel_of_badValue found t (by omega) (by omega) hbad)
  case written => exact h.answers (actWriteLevel_of_attrs found t h2 hl h1 h16 hflags)
  case attrs => exact t.writeAttrs_attrs (fun h => by subst h; cases h2; contradiction) c.attrs
  case stays =>
    refine ⟨?_, fun m hm => ?_⟩
    · rw [State.writeAttrs_lvl, State.replaceAttrs_of_no_bar hstay, State.lvl_modLvl_same]
    · rw [State.writeAttrs_lvl, State.replaceAttrs_of_no_bar hstay, State.lvl_modLvl_ne _ hm]
  case barred =>
    have hl1 : l ≠ 1 := fun h => by subst h; cases h2; contradiction
    rw [State.writeAttrs_lvl, State.replaceAttrs_of_bar ⟨hm, hess, hno⟩, State.bar_lvl_same hl1]
    refine ⟨?_, fun hctx hsend => ?_⟩
    · split <;> rfl
    · rw [if_neg]
      rw [State.lvl_modLvl_same]
      rintro (hnone | hsending)
      · exact hctx hnone
      · exact Bool.false_ne_true (hsend.symm.trans hsending)
  case pending => exact h.answers (actFlushLevel_of_pending found t h2 hl hp)
  case empty =>
    exact h.answers ((actFlushLevel_of_free found t h2 hl hp).trans (t.flush_of_no_context hc))
  case abandoned =>
    refine h.answers (((actFlushLevel_of_free found t h2 hl hp).trans (t.flush_of_context hc)).trans (if_neg ?_))
    rw [hs]
    exact Bool.false_ne_true
  case waits =>
    exact h.pends (((actFlushLevel_of_free found t h2 hl hp).trans (t.flush_of_context hc)).trans (if_pos hs))
  case report =>
    have henc : ((t.lvl l).ctx.bind Context.key).isSome =
        decide (∃ c, (t.lvl l).ctx = some c ∧ c.key ≠ none) :=
      Bool.eq_iff_iff.mpr ((enciphered_iff _).trans decide_eq_true_iff.symm)
    rw [← henc, ← contextBytes_eq]
    unfold State.levelReport
    dsimp only
    cases (t.lvl l).deadline with
    | none => simp only [Attrs.flags, List.append_assoc, List.cons_append, List.nil_append]; rfl
    | some d => simp only [Attrs.flags, List.append_assoc, List.cons_append, List.nil_append]; rfl

end Sys2Proof.Machine

/-! PROOFS. Classification and the destination decision (R87, R88, R95 to R98): the first rule that matches, and the
offers that the destination calls for. -/

namespace Sys2Proof.Machine

open Sys2Proof

/-! ### The first match (R87) -/

theorem allRules_eq : allRules = List.finRange 64 := by decide

theorem State.firstMatch_eq_some {s : State} {p : PortNo} {f : FrameEntry} {i : RuleNo} :
    s.firstMatch p f = some i ↔ (s.rule i).fits p f = true ∧ ∀ j, j < i → (s.rule j).fits p f = false := by
  unfold State.firstMatch
  rw [allRules_eq]
  exact find?_eq_some_iff_least (List.pairwise_lt_finRange 64) List.mem_finRange _ i

theorem State.firstMatch_eq_none {s : State} {p : PortNo} {f : FrameEntry} :
    s.firstMatch p f = none ↔ ∀ i, (s.rule i).fits p f = false := by
  unfold State.firstMatch
  rw [allRules_eq]
  simp [List.find?_eq_none, List.mem_finRange]

/-! ### Its outcome (R87, R88) -/

section Classify

variable {s : State} {p : PortNo} {e : EntryNo}

theorem State.classify_of_pass {i : RuleNo} (h : s.firstMatch p (s.entryAt e) = some i)
    (ha : (s.rule i).action = .pass) : s.classify p e = (true, (s.countHit i).modEntry e fun f =>
      { f with level := (s.rule i).level, label := (s.rule i).label, record := (s.rule i).record,
               rule := some i }) := by
  simp only [State.classify, h, ha]

theorem State.classify_of_drop {i : RuleNo} (h : s.firstMatch p (s.entryAt e) = some i)
    (ha : (s.rule i).action = .drop) :
    s.classify p e = (false, (s.countHit i).modEntry e fun f => { f with rule := some i }) := by
  simp only [State.classify, h, ha]

theorem State.classify_of_none (h : s.firstMatch p (s.entryAt e) = none) : s.classify p e =
    (decide ((s.port p).cfg.defaultAction = .pass), s.modEntry e fun f =>
      { f with level := (s.port p).cfg.defaultLevel, label := 0, record := false, rule := none }) := by
  simp only [State.classify, h]

theorem State.countHit_rule (s : State) (i j : RuleNo) : (s.countHit i).rule j =
    if j = i then { s.rule i with hits := bump (s.rule i).hits } else s.rule j := by
  by_cases h : j = i
  · subst h
    simp [State.countHit, State.rule]
  · have hv : i.val ≠ j.val := fun he => h (Fin.ext he.symm)
    simp [State.countHit, State.rule, h, Vector.getElem_set_ne _ _ hv]

/-- R88: one hit is counted at the rule that matched, by either action. -/
theorem State.classify_rule {i : RuleNo} (h : s.firstMatch p (s.entryAt e) = some i) (j : RuleNo) :
    (s.classify p e).2.rule j = (s.countHit i).rule j := by
  cases ha : (s.rule i).action with
  | pass => rw [State.classify_of_pass h ha]; rfl
  | drop => rw [State.classify_of_drop h ha]; rfl

end Classify

/-- Settles O40. -/
theorem firstMatchingRuleDecides : Obligations.FirstMatchingRuleDecides := by
  unfold Obligations.FirstMatchingRuleDecides
  intro s p e f hf
  have hat : s.entryAt e = f := State.entryAt_of_entry hf
  refine ⟨fun i hfits hbefore => ?matched, fun hno => ?unmatched⟩
  case matched =>
    have hmatch : s.firstMatch p (s.entryAt e) = some i := by
      rw [hat]
      exact State.firstMatch_eq_some.mpr ⟨hfits, hbefore⟩
    refine ⟨fun ha => ?_, fun ha => ?_, ?_, fun j hj => ?_⟩
    · rw [State.classify_of_pass hmatch ha]
      exact ⟨rfl, ((s.countHit i).entry?_modEntry_same e _).trans (congrArg (Option.map _) hf)⟩
    · rw [State.classify_of_drop hmatch ha]
      exact ⟨rfl, ((s.countHit i).entry?_modEntry_same e _).trans (congrArg (Option.map _) hf)⟩
    · rw [State.classify_rule hmatch, State.countHit_rule, if_pos rfl]
    · rw [State.classify_rule hmatch, State.countHit_rule, if_neg hj]
  case unmatched =>
    have hmatch : s.firstMatch p (s.entryAt e) = none := by
      rw [hat]
      exact State.firstMatch_eq_none.mpr hno
    rw [State.classify_of_none hmatch]
    exact ⟨decide_eq_true_iff, (s.entry?_modEntry_same e _).trans (congrArg (Option.map _) hf), rfl⟩

/-! ### The destination (R95 to R98) -/

theorem State.portOffersMade_iff {s : State} {l : Level} : s.portOffersMade l = true ↔
    s.ctl.mode = .run ∨ (s.ctl.mode = .fallback ∧ (s.lvl l).attrs.essential = true) := by
  simp [State.portOffersMade]

section Decide

variable {s : State} {p : PortNo} {e : EntryNo}

theorem State.decideDestination_of_nowhere
    (h : s.disposition (s.entryAt e).dst = .unassigned ∨ s.disposition (s.entryAt e).dst = .self) :
    s.decideDestination p e = s.dropAt p e := by
  rcases h with h | h <;> simp only [State.decideDestination, h]

theorem State.decideDestination_of_trunk (h : s.disposition (s.entryAt e).dst = .trunk) :
    s.decideDestination p e = s.offerAll e [.level (s.entryAt e).level] := by
  simp only [State.decideDestination, h]

theorem State.decideDestination_of_port {m : PortNo} (h : s.disposition (s.entryAt e).dst = .port m) :
    s.decideDestination p e = if m ≠ p ∧ s.portState m = .active ∧ s.portOffersMade (s.entryAt e).level = true
      then s.offerAll e [.port m] else s.dropAt p e := by
  simp only [State.decideDestination, h, Bool.and_eq_true, bne_iff_ne, decide_eq_true_eq, and_assoc]

/-- R98: the Active ports a broadcast frame of a port is offered to. -/
def State.otherPorts (s : State) (p : PortNo) : List PortNo :=
  allPorts.filter fun m => m != p && decide (s.portState m = .active)

theorem State.decideDestination_of_broadcast (h : s.disposition (s.entryAt e).dst = .broadcast) :
    s.decideDestination p e = s.offerAll e (.level (s.entryAt e).level ::
      (if s.portOffersMade (s.entryAt e).level then s.otherPorts p else []).map .port) := by
  have hfilter (b : Bool) : (allPorts.filter fun m => m != p && decide (s.portState m = .active) && b) =
      if b then s.otherPorts p else [] := by
    cases b
    · simp
    · simp [State.otherPorts]
  simp only [State.decideDestination, h, hfilter]

theorem State.offerAll_one_level (s : State) (e : EntryNo) (l : Level) : s.offerAll e [.level l] =
    if (s.offerLevel l e true).1 then (s.offerLevel l e true).2 else (s.offerLevel l e true).2.release e := by
  simp [State.offerAll, State.makeOffer]

theorem State.offerAll_one_port (s : State) (e : EntryNo) (p : PortNo) : s.offerAll e [.port p] =
    if (s.offerPort p e true).1 then (s.offerPort p e true).2 else (s.offerPort p e true).2.release e := by
  simp [State.offerAll, State.makeOffer]

end Decide

/-- Settles O41. -/
theorem destinationDecidesTheOffers : Obligations.DestinationDecidesTheOffers := by
  unfold Obligations.DestinationDecidesTheOffers
  intro s p e
  refine ⟨fun h => State.decideDestination_of_nowhere h, fun h => State.decideDestination_of_trunk h,
    fun m h hm ha ho => ?_, fun m h hno => ?_, fun h ho => ?_, fun h ho => ?_, s.offerAll_one_level e, s.offerAll_one_port e⟩
  · rw [State.decideDestination_of_port h, if_pos ⟨hm, ha, State.portOffersMade_iff.mpr ho⟩]
  · rw [State.decideDestination_of_port h, if_neg]
    · rfl
    · rintro ⟨hm, ha, ho⟩
      rcases hno with rfl | hno | hno
      · exact hm rfl
      · exact hno ha
      · exact hno (State.portOffersMade_iff.mp ho)
  · rw [State.decideDestination_of_broadcast h, if_pos (State.portOffersMade_iff.mpr ho)]
    rfl
  · rw [State.decideDestination_of_broadcast h, if_neg (mt State.portOffersMade_iff.mp ho)]
    rfl

end Sys2Proof.Machine

/-! PROOFS. A frame lost to a failing cell (R35, R36, R117), and the events that store nothing (R104, R107, R112, R116,
R143, R162). -/

namespace Sys2Proof.Machine

open Sys2Proof

/-! ### The counts of the loss (R35) -/

/-- The retired set and the counts of cells and frames lost to the check are as before. -/
def KeepsChecks (s t : State) : Prop :=
  t.store.retired = s.store.retired ∧ t.store.cellCheckFailures = s.store.cellCheckFailures ∧
    t.store.framesLostToCheck = s.store.framesLostToCheck

theorem KeepsChecks.trans {s t u : State} (h : KeepsChecks s t) (h' : KeepsChecks t u) : KeepsChecks s u :=
  ⟨h'.1.trans h.1, h'.2.1.trans h.2.1, h'.2.2.trans h.2.2⟩

theorem KeepsChecks.of_store {s t : State} (h : t.store = s.store) : KeepsChecks s t := by
  rw [KeepsChecks, h]
  exact ⟨rfl, rfl, rfl⟩

theorem State.release_keepsChecks (s : State) (e : EntryNo) : KeepsChecks s (s.release e) := by
  unfold State.release
  split
  · exact ⟨rfl, rfl, rfl⟩
  · split <;> exact ⟨rfl, rfl, rfl⟩

theorem keepsChecks_kept : KeptByOffers KeepsChecks where
  refl _ := .of_store rfl
  trans := KeepsChecks.trans
  release := State.release_keepsChecks
  port _ _ _ := .of_store rfl
  holder _ _ := ⟨rfl, rfl, rfl⟩
  level _ _ _ := .of_store rfl
  trigger _ := .of_store rfl
  unsent _ := .of_store rfl

theorem State.allocReserve_keepsChecks (s : State) (n : Nat) (f : FrameEntry) :
    KeepsChecks s (s.allocReserve n f).2 := by
  unfold State.allocReserve
  split
  · split
    · next heq =>
      unfold Store.take at heq
      split at heq
      · cases heq
      · cases heq
        exact ⟨rfl, rfl, rfl⟩
    · exact ⟨rfl, rfl, rfl⟩
  · exact ⟨rfl, rfl, rfl⟩

theorem State.buildLongResponse_keepsChecks (s : State) (r : LongRecord) :
    KeepsChecks s (s.buildLongResponse r).2 := by
  have halloc := s.allocReserve_keepsChecks 1 (s.responseEntry r.node)
  rcases hstorage : s.allocReserve 1 (s.responseEntry r.node) with ⟨_ | e, t⟩
  · rw [State.buildLongResponse_of_short hstorage]
    rw [hstorage] at halloc
    exact halloc
  · rw [State.buildLongResponse_of_built hstorage]
    rw [hstorage] at halloc
    have hfill : KeepsChecks t (t.fillResponse e (responsePayload r.op.code r.tag .ok [])) := ⟨rfl, rfl, rfl⟩
    exact (halloc.trans hfill).trans (keepsChecks_kept.routeResponse _ e r.sender)

theorem State.endLongOp_keepsChecks (s : State) (op : LongOp) : KeepsChecks s (s.endLongOp op) := by
  cases hfind : s.cmd.longOps.find? (fun x => decide (x.op = op)) with
  | none =>
    rw [State.endLongOp_of_none (by simpa [List.find?_eq_none] using hfind)]
    exact .of_store rfl
  | some r =>
    have hdrop : KeepsChecks s (s.dropLongOp op) := .of_store rfl
    have hbuild := hdrop.trans ((s.dropLongOp op).buildLongResponse_keepsChecks r)
    rw [State.endLongOp_of_some hfind]
    split
    · next heq => rw [heq] at hbuild; exact hbuild
    · next heq => rw [heq] at hbuild; exact hbuild

theorem State.flushComplete_keepsChecks (s : State) (l : Level) : KeepsChecks s (s.flushComplete l) := by
  unfold State.flushComplete
  split
  · exact (keepsChecks_kept.level s l _).trans (State.endLongOp_keepsChecks _ _)
  · exact .of_store rfl

theorem State.abandon_keepsChecks (s : State) (l : Level) (started : Bool) : KeepsChecks s (s.abandon l started) := by
  cases hc : (s.lvl l).ctx with
  | none =>
    rw [State.abandon_of_none hc]
    exact .of_store rfl
  | some c =>
    have hrelease : KeepsChecks s (s.giveUpContext l c started) := by
      rw [KeepsChecks, (State.giveUpContext_store started).1]
      exact s.release_keepsChecks c.entry
    rw [State.abandon_of_context hc]
    exact hrelease.trans (State.flushComplete_keepsChecks _ l)

theorem State.levelGivesUp_keepsChecks (s : State) (e : EntryNo) (l : Level) : KeepsChecks s (s.levelGivesUp e l) := by
  unfold State.levelGivesUp
  split
  · exact (keepsChecks_kept.level s l _).trans (State.release_keepsChecks _ e)
  · split
    · split
      · exact s.abandon_keepsChecks l _
      · exact .of_store rfl
    · exact .of_store rfl

/-- R35: the failing cell is retired, and the failure and the lost frame are counted. -/
theorem State.loseFrame_counts (s : State) (e : EntryNo) (cell : CellNo) :
    KeepsChecks { s with store := s.store.retireAndCount e cell } (s.loseFrame e cell) :=
  ((keepsChecks_kept.foldl _ (fun t p => keepsChecks_kept.portGivesUp t e p) allPorts _).trans
    (keepsChecks_kept.foldl _ (fun t l => t.levelGivesUp_keepsChecks e l) allLevels _)).trans
    (keepsChecks_kept.foldl _ (fun t p => keepsChecks_kept.startTx t p) allPorts _)

/-! ### How each kind of holder gives a frame up (R36) -/

section GivesUp

variable {s : State} {e : EntryNo}

theorem State.levelGivesUp_of_queued {l : Level} (h : e ∈ (s.lvl l).queue) : s.levelGivesUp e l =
    (s.modLvl l fun v => { v with queue := v.queue.filter fun d => d != e }).release e := by
  unfold State.levelGivesUp
  rw [if_pos (List.contains_iff_mem.mpr h)]

theorem State.levelGivesUp_of_context {l : Level} {c : Context} (hq : e ∉ (s.lvl l).queue)
    (hc : (s.lvl l).ctx = some c) (h : c.entry = e) :
    s.levelGivesUp e l = s.abandon l (s.sending l || decide (0 < c.next)) := by
  unfold State.levelGivesUp
  rw [if_neg (mt List.contains_iff_mem.mp hq), hc]
  exact if_pos h

theorem State.levelGivesUp_of_other {l : Level} (hq : e ∉ (s.lvl l).queue)
    (h : ∀ c, (s.lvl l).ctx = some c → c.entry ≠ e) : s.levelGivesUp e l = s := by
  unfold State.levelGivesUp
  rw [if_neg (mt List.contains_iff_mem.mp hq)]
  cases hc : (s.lvl l).ctx with
  | none => rfl
  | some c => exact if_neg (h c hc)

theorem State.portGivesUp_of_queued {p : PortNo} (h : e ∈ (s.port p).queue) : s.portGivesUp e p =
    (s.modPort p fun v => { v with queue := v.queue.filter fun d => d != e }).release e := by
  unfold State.portGivesUp
  rw [if_pos (List.contains_iff_mem.mpr h)]

theorem State.portGivesUp_of_sent {p : PortNo} {x : PortTx} (hq : e ∉ (s.port p).queue)
    (hx : (s.port p).tx = some x) (h : x.entry = e) : s.portGivesUp e p =
    (s.modPort p fun v => { v with tx := none, txAborted := bump v.txAborted }).release e := by
  unfold State.portGivesUp
  rw [if_neg (mt List.contains_iff_mem.mp hq), hx]
  exact if_pos h

theorem State.portGivesUp_of_other {p : PortNo} (hq : e ∉ (s.port p).queue)
    (h : ∀ x, (s.port p).tx = some x → x.entry ≠ e) : s.portGivesUp e p = s := by
  unfold State.portGivesUp
  rw [if_neg (mt List.contains_iff_mem.mp hq)]
  cases hx : (s.port p).tx with
  | none => rfl
  | some x => exact if_neg (h x hx)

end GivesUp

theorem allLevels_eq : allLevels = List.finRange 32 := by decide

theorem LevelEntry.not_mem_held {v : LevelEntry} {e : EntryNo} :
    e ∉ v.held ↔ e ∉ v.queue ∧ ∀ c, v.ctx = some c → c.entry ≠ e := by
  unfold LevelEntry.held
  cases v.ctx <;> simp [eq_comm]

theorem Port.not_mem_egressHeld {v : Port} {e : EntryNo} :
    e ∉ v.egressHeld ↔ e ∉ v.queue ∧ ∀ x, v.tx = some x → x.entry ≠ e := by
  unfold Port.egressHeld
  cases v.tx <;> simp [eq_comm]

theorem exec_portCellCheckFailure {s : State} {p : PortNo} {x : PortTx} {cell : CellNo} (hcell : cell < 1024)
    (hx : (s.port p).tx = some x) (h : cell ∈ (s.entryAt x.entry).cells) :
    exec (.portCellCheckFailure p cell) s = .next (s.portCellFails p x.entry cell).settle := by
  change execPortCellCheckFailure p cell s = _
  unfold execPortCellCheckFailure
  rw [if_neg (show ¬ Config.cellCount ≤ cell from Nat.not_le.mpr hcell), hx]
  exact if_pos (List.contains_iff_mem.mpr h)

/-- Settles O29. -/
theorem failingCellLosesTheFrame : Obligations.FailingCellLosesTheFrame := by
  unfold Obligations.FailingCellLosesTheFrame
  refine ⟨fun s p x cell hcell hx h => ?exec, fun s e cell => ⟨?order, ?counts⟩,
    fun s e cell hs hh hflush => ?gone, fun s e l => ⟨State.levelGivesUp_of_queued, fun c hq hc he => ⟨fun h => ?_,
    fun h h0 => ?_⟩, State.levelGivesUp_of_other⟩, fun s e p => ⟨State.portGivesUp_of_queued,
    fun x hq hx he => State.portGivesUp_of_sent hq hx he, State.portGivesUp_of_other⟩⟩
  case exec =>
    rw [exec_portCellCheckFailure hcell hx h]
    unfold State.portCellFails
    rfl
  case order =>
    rw [← allLevels_eq]
    rfl
  case counts => exact s.loseFrame_counts e cell
  case gone =>
    obtain ⟨hlevels, hports, -⟩ := s.loseFrame_gone hh hs e cell hflush
    exact ⟨fun l => LevelEntry.not_mem_held.mp (hlevels l), fun p => Port.not_mem_egressHeld.mp (hports p),
      s.loseFrame_freed hh hs e cell hflush⟩
  · rw [State.levelGivesUp_of_context hq hc he]
    congr 1
    rcases h with h | h
    · rw [h, Bool.true_or]
    · rw [decide_eq_true h, Bool.or_true]
  · rw [State.levelGivesUp_of_context hq hc he, h, h0]
    rfl

/-! ### Events that store nothing -/

/-- The bytes of the cells are as before, and no auction is newly due. -/
def SameBytes (s t : State) : Prop := t.store.mem = s.store.mem ∧ t.auctionDue = s.auctionDue

theorem SameBytes.trans {s t u : State} (h : SameBytes s t) (h' : SameBytes t u) : SameBytes s u :=
  ⟨h'.1.trans h.1, h'.2.trans h.2⟩

theorem State.release_sameBytes (s : State) (e : EntryNo) : SameBytes s (s.release e) := by
  refine ⟨?_, s.release_auctionDue e⟩
  unfold State.release
  split
  · rfl
  · split <;> rfl

theorem sameBytes_kept : KeptByPorts SameBytes where
  refl _ := ⟨rfl, rfl⟩
  trans := SameBytes.trans
  release := State.release_sameBytes
  port _ _ _ := ⟨rfl, rfl⟩

/-- The end of a step that holds no auction stores nothing. -/
theorem SameBytes.done {s t u : State} (h : SameBytes s t) (hs : s.auctionDue = false) (hd : t.done = .next u) :
    u.store.mem = s.store.mem := by
  rw [State.done_eq hd, State.settle_of_not_due (h.2.trans hs), State.forgetFreed_eq]
  exact h.1

theorem SameBytes.quiet {s t u : State} (h : SameBytes s t) (hn : (Host.Outcome.next t : Result) = .next u) :
    u.store.mem = s.store.mem := by
  cases hn
  exact h.1

/-- Taking a command changes the Command Unit alone. -/
theorem State.takeNext_cmd {s t : State} {e : EntryNo} (h : s.takeNext = some (e, t)) :
    ∃ v, t = { s with cmd := v } := by
  unfold State.takeNext at h
  split at h
  · split at h
    · cases h; exact ⟨_, rfl⟩
    · cases h
  · split at h
    · split at h
      · cases h
      · cases h; exact ⟨_, rfl⟩
    · cases h

section Rows

variable {s t : State} {p : PortNo} (hs : s.auctionDue = false)

include hs

theorem exec_receiveLineActive_bytes (h : exec (.receiveLineActive p) s = .next t) : t.store.mem = s.store.mem := by
  have hpin : SameBytes s (s.setReceivePin p true) := ⟨rfl, rfl⟩
  simp only [exec, execReceiveLineActive] at h
  split at h
  · exact hpin.quiet h
  · exact (hpin.trans (sameBytes_kept.port _ p _)).done hs h

theorem exec_jabberRecovery_bytes (h : exec (.jabberRecovery p) s = .next t) : t.store.mem = s.store.mem := by
  have hrecover : SameBytes s (s.recover p) := by
    unfold State.recover
    split
    · exact sameBytes_kept.changePort s p _
    · exact sameBytes_kept.port s p _
  simp only [exec, execJabberRecovery] at h
  split at h
  · exact hrecover.done hs h
  · exact (sameBytes_kept.refl s).quiet h

theorem exec_portLineDown_bytes (h : exec (.portLineDown p) s = .next t) : t.store.mem = s.store.mem := by
  have hpin : SameBytes s (s.setLinePin p false) := ⟨rfl, rfl⟩
  simp only [exec, execPortLineDown] at h
  split at h
  · exact hpin.quiet h
  · exact (hpin.trans (sameBytes_kept.changePort _ p _)).done hs h

theorem exec_portLineUp_bytes (h : exec (.portLineUp p) s = .next t) : t.store.mem = s.store.mem := by
  have hpin : SameBytes s (s.setLinePin p true) := ⟨rfl, rfl⟩
  simp only [exec, execPortLineUp] at h
  split at h
  · exact hpin.quiet h
  · exact (hpin.trans (sameBytes_kept.changePort _ p _)).done hs h

theorem exec_transmissionCompletes_bytes (h : exec (.transmissionCompletes p) s = .next t) :
    t.store.mem = s.store.mem := by
  have hends (e : EntryNo) : SameBytes s (s.lineTxCompletes p e) :=
    (((sameBytes_kept.port s p _).trans (sameBytes_kept.port _ p _)).trans (State.release_sameBytes _ e)).trans
      (sameBytes_kept.startTx _ p)
  simp only [exec, execTransmissionCompletes] at h
  split at h
  · next e _ => exact (hends e).done hs h
  · exact (sameBytes_kept.refl s).quiet h
  · exact (sameBytes_kept.refl s).quiet h

theorem exec_malformedCommand_bytes (h : exec .malformedCommand s = .next t) : t.store.mem = s.store.mem := by
  simp only [exec, execMalformedCommand] at h
  split at h
  · exact (sameBytes_kept.refl s).quiet h
  · next e u htake =>
    have htaken : SameBytes s u := by
      obtain ⟨v, rfl⟩ := State.takeNext_cmd htake
      exact ⟨rfl, rfl⟩
    have hreleased : SameBytes u (u.releaseMalformed e) := State.release_sameBytes _ e
    split at h
    · exact (sameBytes_kept.refl s).quiet h
    · exact (htaken.trans hreleased).done hs h

end Rows

/-- Settles O30. -/
theorem eventsThatStoreNothingLeaveEveryByte : Obligations.EventsThatStoreNothingLeaveEveryByte := by
  unfold Obligations.EventsThatStoreNothingLeaveEveryByte
  intro s t i p hs hi h a
  have hmem : t.store.mem = s.store.mem := by
    rcases hi with rfl | rfl | rfl | rfl | rfl | rfl | rfl
    · exact exec_receiveLineActive_bytes hs h
    · exact exec_jabberRecovery_bytes hs h
    · exact exec_portLineDown_bytes hs h
    · exact exec_portLineUp_bytes hs h
    · exact exec_transmissionCompletes_bytes hs h
    · exact exec_malformedCommand_bytes hs h
    · cases h
      rfl
  rw [hmem]

end Sys2Proof.Machine

/-! PROOFS. The reassembly contexts of the Trunk Receiver, and the trunk line that goes Down (07, 03). -/

namespace Sys2Proof.Machine

open Sys2Proof

/-! ### Giving up a partial frame (R129, R131) -/

section

variable {s : State} {l : Level} {c : Collect}

/-- R129: the partial frame of a Collecting context is freed, and the context is Idle. -/
def State.freePartial (s : State) (l : Level) (c : Collect) : State := (s.release c.entry).setRxCtx l .idle

theorem State.giveUpPartial_of_collecting (h : s.rxCtx l = .collecting c) :
    s.giveUpPartial l false = s.freePartial l c := by
  unfold State.giveUpPartial
  rw [h]
  rfl

/-- R129: a partial frame given up for a gap is freed, and the gap is counted and raised. -/
def State.gapFound (s : State) (l : Level) (c : Collect) : State :=
  ((s.freePartial l c).modRx fun r => { r with reassemblyGaps := bump r.reassemblyGaps }).raise .reassemblyGap
    { level := some l, node := some c.src }

theorem State.giveUpPartial_of_gap (h : s.rxCtx l = .collecting c) : s.giveUpPartial l true = s.gapFound l c := by
  unfold State.giveUpPartial
  rw [h]
  rfl

theorem State.giveUpPartial_of_not_collecting (h : ∀ c, s.rxCtx l ≠ .collecting c) (gap : Bool) :
    s.giveUpPartial l gap = s := by
  unfold State.giveUpPartial
  split
  · next c hc => exact absurd hc (h c)
  · rfl
  · rfl

theorem State.release_rxCtx (s : State) (e : EntryNo) (m : Level) : (s.release e).rxCtx m = s.rxCtx m := by
  unfold State.rxCtx
  rw [(s.release_leaves e).rx]

theorem State.rxCtx_setRxCtx (s : State) (l m : Level) (x : Reassembly) :
    (s.setRxCtx l x).rxCtx m = if m = l then x else s.rxCtx m := by
  split
  · next h => rw [h, State.rxCtx_setRxCtx_same]
  · next h => exact s.rxCtx_setRxCtx_ne h x

theorem State.freePartial_rxCtx (s : State) (l : Level) (c : Collect) (m : Level) :
    (s.freePartial l c).rxCtx m = if m = l then .idle else s.rxCtx m := by
  rw [State.freePartial, State.rxCtx_setRxCtx, State.release_rxCtx]

/-! ### The end of every reassembly (R131) -/

/-- R131: the reassembly of one level ends; a partial frame is freed and counted. -/
def State.endPartial (s : State) (l : Level) : State :=
  match s.rxCtx l with
  | .collecting _ =>
    (s.giveUpPartial l false).modRx fun r => { r with partialsDiscarded := bump r.partialsDiscarded }
  | .idle | .discarding => s.setRxCtx l .idle

theorem State.endReassembly_eq (s : State) : s.endReassembly = allLevels.foldl State.endPartial s := rfl

theorem State.endPartial_of_collecting (h : s.rxCtx l = .collecting c) : s.endPartial l =
    (s.freePartial l c).modRx fun r => { r with partialsDiscarded := bump r.partialsDiscarded } := by
  unfold State.endPartial
  rw [h, State.giveUpPartial_of_collecting h]

theorem State.endPartial_of_not_collecting (h : ∀ c, s.rxCtx l ≠ .collecting c) :
    s.endPartial l = s.setRxCtx l .idle := by
  unfold State.endPartial
  split
  · next c hc => exact absurd hc (h c)
  · rfl
  · rfl

theorem State.collecting_cases (s : State) (l : Level) :
    (∃ c, s.rxCtx l = .collecting c) ∨ ∀ c, s.rxCtx l ≠ .collecting c := by
  cases s.rxCtx l with
  | idle => exact .inr fun c h => nomatch h
  | discarding => exact .inr fun c h => nomatch h
  | collecting c => exact .inl ⟨c, rfl⟩

theorem State.endPartial_rxCtx (s : State) (l m : Level) :
    (s.endPartial l).rxCtx m = if m = l then .idle else s.rxCtx m := by
  rcases s.collecting_cases l with ⟨c, h⟩ | h
  · rw [State.endPartial_of_collecting h]
    exact s.freePartial_rxCtx l c m
  · rw [State.endPartial_of_not_collecting h, State.rxCtx_setRxCtx]

end

/-- What the end of a reassembly leaves alone. -/
structure KeepsLine (s t : State) : Prop where
  levels : t.levels = s.levels
  trunk : t.trunk = s.trunk
  ports : t.ports = s.ports
  ctl : t.ctl = s.ctl
  due : t.auctionDue = s.auctionDue

theorem KeepsLine.refl (s : State) : KeepsLine s s := ⟨rfl, rfl, rfl, rfl, rfl⟩

theorem KeepsLine.trans {s t u : State} (h : KeepsLine s t) (h' : KeepsLine t u) : KeepsLine s u :=
  ⟨h'.levels.trans h.levels, h'.trunk.trans h.trunk, h'.ports.trans h.ports, h'.ctl.trans h.ctl, h'.due.trans h.due⟩

theorem State.release_keepsLine (s : State) (e : EntryNo) : KeepsLine s (s.release e) :=
  have h := s.release_leaves e
  ⟨h.levels, h.trunk, s.release_ports e, h.ctl, s.release_auctionDue e⟩

theorem State.endPartial_keepsLine (s : State) (l : Level) : KeepsLine s (s.endPartial l) := by
  rcases s.collecting_cases l with ⟨c, h⟩ | h
  · rw [State.endPartial_of_collecting h]
    have hr := s.release_keepsLine c.entry
    exact ⟨hr.levels, hr.trunk, hr.ports, hr.ctl, hr.due⟩
  · rw [State.endPartial_of_not_collecting h]
    exact ⟨rfl, rfl, rfl, rfl, rfl⟩

theorem State.endPartials_keepsLine (ls : List Level) (s : State) : KeepsLine s (ls.foldl State.endPartial s) := by
  induction ls generalizing s with
  | nil => exact .refl s
  | cons l ls ih => exact (s.endPartial_keepsLine l).trans (ih _)

theorem State.endPartials_rxCtx (ls : List Level) (s : State) (m : Level) :
    (ls.foldl State.endPartial s).rxCtx m = if m ∈ ls then .idle else s.rxCtx m := by
  induction ls generalizing s with
  | nil => rfl
  | cons l ls ih =>
    rw [List.foldl_cons, ih, State.endPartial_rxCtx]
    by_cases hl : m = l <;> by_cases hm : m ∈ ls <;> simp [hl, hm]

theorem State.endReassembly_keepsLine (s : State) : KeepsLine s s.endReassembly :=
  State.endPartials_keepsLine allLevels s

theorem State.endReassembly_rxCtx (s : State) (l : Level) : s.endReassembly.rxCtx l = .idle := by
  rw [State.endReassembly_eq, State.endPartials_rxCtx, if_pos (mem_allLevels l)]

/-! ### Every context abandoned (R57) -/

/-- A level entry after its started context, if any, has been abandoned. -/
def LevelEntry.GaveUp (v w : LevelEntry) : Prop :=
  w.ctx = none ∧ (v.ctx ≠ none → w.abortOwed ≠ none ∧ w.framesAborted = bump v.framesAborted)

theorem State.abandon_sameWork (s : State) {l m : Level} (h : m ≠ l) : SameWork m s (s.abandon l true) := by
  cases hc : (s.lvl l).ctx with
  | none =>
    rw [State.abandon_of_none hc]
    rfl
  | some c =>
    have hw := State.abandon_keepsWork hc true m
    rwa [State.lvl_modLvl_ne _ h] at hw

theorem State.abandon_gaveUp (s : State) (l : Level) : (s.lvl l).GaveUp ((s.abandon l true).lvl l) := by
  cases hc : (s.lvl l).ctx with
  | none =>
    rw [State.abandon_of_none hc]
    exact ⟨hc, fun h => absurd hc h⟩
  | some c =>
    have hw := State.abandon_keepsWork hc true l
    rw [State.lvl_modLvl_same] at hw
    rw [hw]
    exact ⟨rfl, fun _ => ⟨by simp [LevelEntry.abandoned, State.abortFor], rfl⟩⟩

theorem LevelEntry.GaveUp.sameWork {v : LevelEntry} {s t : State} {l : Level} (h : v.GaveUp (s.lvl l))
    (hw : SameWork l s t) : v.GaveUp (t.lvl l) := by
  rw [hw]
  exact h

theorem SameWork.gaveUp {s t : State} {l : Level} {w : LevelEntry} (hw : SameWork l s t) (h : (t.lvl l).GaveUp w) :
    (s.lvl l).GaveUp w := by
  rw [hw] at h
  exact h

/-- R57: every context is abandoned, from level 0 upward. -/
def State.abandonAll (ls : List Level) (s : State) : State := ls.foldl (fun s l => s.abandon l true) s

theorem State.abandonAll_sameWork (ls : List Level) {l : Level} (h : l ∉ ls) (s : State) :
    SameWork l s (s.abandonAll ls) := by
  induction ls generalizing s with
  | nil => rfl
  | cons m ls ih =>
    obtain ⟨hm, hls⟩ := List.ne_and_not_mem_of_not_mem_cons h
    exact (s.abandon_sameWork hm).trans (ih hls _)

theorem State.abandonAll_gaveUp (s : State) (l : Level) : (s.lvl l).GaveUp ((s.abandonAll allLevels).lvl l) := by
  obtain ⟨as, bs, hsplit, has, hbs⟩ := allLevels_split l
  have hall : s.abandonAll allLevels = ((s.abandonAll as).abandon l true).abandonAll bs := by
    rw [hsplit, State.abandonAll, List.foldl_append]
    rfl
  have hbefore : SameWork l s (s.abandonAll as) := State.abandonAll_sameWork as has s
  rw [hall]
  exact (hbefore.gaveUp ((s.abandonAll as).abandon_gaveUp l)).sameWork (State.abandonAll_sameWork bs hbs _)

theorem State.abandonAll_logsOnly (ls : List Level) (s : State) : LogsOnly s (s.abandonAll ls) :=
  LogsOnly.foldl (fun s l => s.abandon l true) (fun s l => s.abandon_logsOnly l true) ls s

/-! ### TRUNK_LINE_DOWN (R57, R131) -/

/-- The part with its line Down, every context abandoned and every reassembly ended. -/
def State.cutOff (s : State) : State :=
  (({ s with trunk := s.trunk.goDown } : State).abandonAll allLevels).endReassembly

/-- One more line Down is counted. -/
def State.countLineDown (s : State) : State :=
  { s with trunk := { s.trunk with lineDowns := bump s.trunk.lineDowns } }

theorem State.countLineDown_lvl (s : State) (l : Level) : s.countLineDown.lvl l = s.lvl l := rfl

theorem State.countLineDown_rxCtx (s : State) (l : Level) : s.countLineDown.rxCtx l = s.rxCtx l := rfl

theorem State.cutOff_rxCtx (s : State) (l : Level) : s.cutOff.rxCtx l = .idle := by
  unfold State.cutOff
  exact State.endReassembly_rxCtx _ l

theorem State.lineDown_eq (s : State) : s.lineDown = s.cutOff.countLineDown.raise .trunkDown := by
  unfold State.lineDown State.countLineDown State.cutOff State.abandonAll
  rfl

theorem State.cutOff_logsOnly (s : State) : LogsOnly { s with trunk := s.trunk.goDown } s.cutOff := by
  have h := State.abandonAll_logsOnly allLevels { s with trunk := s.trunk.goDown }
  exact h.trans (.of_eq (State.endReassembly_keepsLine _).trunk)

theorem State.cutOff_gaveUp (s : State) (l : Level) : (s.lvl l).GaveUp (s.cutOff.lvl l) := by
  have h := State.abandonAll_gaveUp { s with trunk := s.trunk.goDown } l
  unfold State.cutOff State.lvl
  rw [(State.endReassembly_keepsLine _).levels]
  exact h

theorem State.lineDown_trunk (s : State) : s.lineDown.trunk =
    { s.cutOff.trunk with lineDowns := bump s.cutOff.trunk.lineDowns } := by
  rw [State.lineDown_eq, (State.raise_leaves _ _ _).trunk]
  rfl

theorem State.lineDown_line (s : State) : s.lineDown.trunk.lineUp = false ∧ s.lineDown.trunk.inFlight = none ∧
    s.lineDown.trunk.fragmentsLost = s.trunk.goDown.fragmentsLost ∧
    s.lineDown.trunk.lineDowns = bump s.trunk.lineDowns := by
  have h := s.cutOff_logsOnly
  unfold LogsOnly at h
  rw [State.lineDown_trunk, h]
  exact ⟨rfl, rfl, rfl, rfl⟩

theorem State.lineDown_gaveUp (s : State) (l : Level) : (s.lvl l).GaveUp (s.lineDown.lvl l) := by
  have hc : (s.lvl l).GaveUp (s.cutOff.countLineDown.lvl l) := by
    rw [State.countLineDown_lvl]
    exact s.cutOff_gaveUp l
  rw [State.lineDown_eq]
  generalize s.cutOff.countLineDown = u at hc
  exact hc.sameWork (State.raise_keepsWork _ _ _ l)

theorem State.lineDown_rxCtx (s : State) (l : Level) : s.lineDown.rxCtx l = .idle := by
  have hc : s.cutOff.countLineDown.rxCtx l = .idle := by rw [State.countLineDown_rxCtx, State.cutOff_rxCtx]
  rw [State.lineDown_eq, State.rxCtx, (State.raise_leaves _ _ _).rx]
  generalize s.cutOff.countLineDown = u at hc
  exact hc

theorem State.lineDown_has (s : State) : KindSet.has s.lineDown.fault.summary .trunkDown = true := by
  rw [State.lineDown_eq]
  exact State.raise_has_self _ _ _

/-- With the line Down no auction is held, so the end of a step writes nothing a reader of the trunk sees. -/
theorem State.settle_of_lineDown {s : State} (h : s.trunk.lineUp = false) :
    s.settle = { s with auctionDue := false, cmd := s.settle.cmd } := by
  have hd : s.dueAuction = { s with auctionDue := false } := by
    unfold State.dueAuction
    split
    · rw [State.auction_of_none (.inr (.inl h))]
    · next hn => rw [← Bool.eq_false_of_not_eq_true hn]
  unfold State.settle
  rw [State.forgetFreed_eq, hd]

theorem exec_trunkLineDown {s : State} (hm : s.ctl.mode ≠ .init) (hup : s.trunk.lineUp = true) :
    exec .trunkLineDown s = .next (s.setTrunkPin false).lineDown.settle := by
  change execTrunkLineDown s = _
  unfold execTrunkLineDown
  rw [if_neg (show ¬ ((s.setTrunkPin false).ctl.mode = .init ∨ (!(s.setTrunkPin false).trunk.lineUp) = true) from
    not_or.mpr ⟨hm, by rw [show (s.setTrunkPin false).trunk.lineUp = true from hup]; decide⟩)]
  rfl

theorem State.goDown_fragmentsLost (t : Trunk) :
    (t.inFlight ≠ none → t.goDown.fragmentsLost = bump t.fragmentsLost) ∧
      (t.inFlight = none → t.goDown.fragmentsLost = t.fragmentsLost) := by
  constructor
  · intro h
    exact if_pos (Option.isSome_iff_ne_none.mpr h)
  · intro h
    exact if_neg (by simp [h])

/-- Settles O31: every context is abandoned in turn, each without touching another's, then every reassembly ends; with
the line Down the step holds no auction. -/
theorem lineDownAbandonsEveryContext : Obligations.LineDownAbandonsEveryContext := by
  unfold Obligations.LineDownAbandonsEveryContext
  intro s hm hup
  have hline := (s.setTrunkPin false).lineDown_line
  have hpins : (s.setTrunkPin false).lineDown.pins = (s.setTrunkPin false).pins :=
    (Moves.lineDown (W := fun p => p ≠ .pins) (by simp) (by simp) _).keeps_pins (by simp)
  have hgave := (s.setTrunkPin false).lineDown_gaveUp
  have hrx := (s.setTrunkPin false).lineDown_rxCtx
  have hhas := (s.setTrunkPin false).lineDown_has
  refine ⟨_, exec_trunkLineDown hm hup, ?_⟩
  generalize (s.setTrunkPin false).lineDown = t at hline hpins hgave hrx hhas
  obtain ⟨hdown, hidle, hlost, hcount⟩ := hline
  rw [State.settle_of_lineDown hdown]
  have hfragments := State.goDown_fragmentsLost s.trunk
  refine ⟨hdown, hidle, ?_, fun l => (hgave l).1, hrx, fun h => hlost.trans (hfragments.1 h),
    fun h => hlost.trans (hfragments.2 h), hcount, hhas, fun l h => (hgave l).2 h⟩
  change t.pins.trunkUp = false
  rw [hpins]
  rfl

end Sys2Proof.Machine

/-! PROOFS. What a change of its effective state does to a port, as a function of the port alone (06). -/

namespace Sys2Proof.Machine

open Sys2Proof

/-! ### The parts of the change (R105, R110, R113, R116) -/

/-- R105: a port after its egress queue and its transmission have been flushed. -/
def Port.flushed (v : Port) : Port :=
  { v with
    queue := []
    drops := bumpBy v.drops v.queue.length
    tx := none
    txAborted := if v.tx.isSome then bump v.txAborted else v.txAborted }

/-- R107: storage is held for the receive in progress. -/
def Receive.stored : Receive → Bool
  | .storing _ _ => true
  | .idle | .header | .unstored => false

/-- R110: a port after its receive in progress has been discarded. -/
def Port.discarded (v : Port) (counted : Bool) : Port :=
  { v with rx := .idle, drops := if counted && v.rx.stored then bump v.drops else v.drops }

/-- R113: a port whose silence wait has started afresh, given its effective state. -/
def Port.waiting (v : Port) (x : PortState) (now : Word) : Port :=
  { v with silenceStart := if x.receives && decide (0 < v.cfg.silenceTime) then some now else none }

/-- R105, R111, R113: a port that enters or leaves Active and Listen. -/
def Port.watched (v : Port) (old new : PortState) (now : Word) : Port :=
  if new.receives != old.receives then
    { v.waiting new now with
      silent := false
      activeSince := if new.receives && v.rxActive then some now else none }
  else v

/-- R116: a port after its idle transmitter has taken the head of the queue. -/
def Port.started (v : Port) (x : PortState) : Port :=
  if x.transmits && v.tx.isNone then
    match v.queue with
    | [] => v
    | e :: rest => { v with queue := rest, tx := some { entry := e, loop := x = .loopback } }
  else v

/-- R105: the two sides of a port that changes its effective state, before the next transmission starts. -/
def Port.left (v : Port) (old new : PortState) : Port :=
  if new.receives then (if old.transmits && !new.transmits then v.flushed else v)
  else (if old.transmits && !new.transmits then v.flushed else v).discarded true

/-- R105: a port after it has acted on a change of its effective state. -/
def Port.reacts (v : Port) (old new : PortState) (now : Word) : Port :=
  if new = old then v else ((v.left old new).watched old new now).started new

/-! ### A step at one port -/

/-- A step leaves one port in a given condition, and every other port and every level alone. -/
structure PortTurns (p : PortNo) (w : Port) (s t : State) : Prop where
  same : t.port p = w
  other : ∀ q, q ≠ p → t.port q = s.port q
  leaves : LeavesLevels s t

section

variable {p : PortNo} {v w : Port} {s t u : State}

theorem PortTurns.refl (s : State) (p : PortNo) : PortTurns p (s.port p) s s :=
  ⟨rfl, fun _ _ => rfl, LeavesLevels.refl s⟩

theorem PortTurns.trans (h : PortTurns p v s t) (h' : PortTurns p w t u) : PortTurns p w s u :=
  ⟨h'.same, fun q hq => (h'.other q hq).trans (h.other q hq), h.leaves.trans h'.leaves⟩

theorem PortTurns.portState (h : PortTurns p w s t) : t.portState p = w.stateIn s.ctl.mode := by
  rw [State.portState, h.same, h.leaves.ctl]

theorem State.modPort_turns (s : State) (p : PortNo) (f : Port → Port) :
    PortTurns p (f (s.port p)) s (s.modPort p f) :=
  ⟨s.port_modPort_same p f, fun _ hq => s.port_modPort_ne hq f, s.modPort_leaves p f⟩

theorem State.release_turns (s : State) (e : EntryNo) (p : PortNo) : PortTurns p (s.port p) s (s.release e) :=
  ⟨State.port_release s e p, fun q _ => State.port_release s e q, s.release_leaves e⟩

theorem PortTurns.modPort (h : PortTurns p v s t) (f : Port → Port) : PortTurns p (f v) s (t.modPort p f) := by
  have hm := h.trans (t.modPort_turns p f)
  rwa [h.same] at hm

theorem PortTurns.release (h : PortTurns p v s t) (e : EntryNo) : PortTurns p v s (t.release e) := by
  have hr := h.trans (t.release_turns e p)
  rwa [h.same] at hr

theorem PortTurns.releaseAll (h : PortTurns p v s t) (q : List EntryNo) :
    PortTurns p v s (q.foldl State.release t) := by
  induction q generalizing t with
  | nil => exact h
  | cons e q ih => exact ih (h.release e)

end

theorem State.flushEgress_turns (s : State) (p : PortNo) :
    PortTurns p (s.port p).flushed s (s.flushEgress p) := by
  have hq := ((PortTurns.refl s p).modPort fun v =>
    { v with queue := [], drops := bumpBy v.drops v.queue.length }).releaseAll (s.port p).queue
  unfold State.flushEgress
  dsimp only
  cases htx : (s.port p).tx with
  | none =>
    have hv : (s.port p).flushed =
        { s.port p with queue := [], drops := bumpBy (s.port p).drops (s.port p).queue.length } := by
      simp [Port.flushed, htx]
    rw [hv]
    exact hq
  | some x =>
    have hv : (s.port p).flushed = { s.port p with
        queue := [], drops := bumpBy (s.port p).drops (s.port p).queue.length, tx := none
        txAborted := bump (s.port p).txAborted } := by
      simp [Port.flushed, htx]
    rw [hv]
    exact (hq.release x.entry).modPort fun v => { v with tx := none, txAborted := bump v.txAborted }

theorem Port.discarded_of_not_stored {v : Port} (h : v.rx.stored = false) (counted : Bool) :
    v.discarded counted = { v with rx := .idle } := by
  simp [Port.discarded, h]

theorem State.discardReceive_turns (s : State) (p : PortNo) (counted : Bool) :
    PortTurns p ((s.port p).discarded counted) s (s.discardReceive p counted) := by
  unfold State.discardReceive
  cases hrx : (s.port p).rx with
  | idle =>
    have hv : (s.port p).discarded counted = s.port p := by
      rw [Port.discarded_of_not_stored (by rw [hrx]; rfl), ← hrx]
    rw [hv]
    exact .refl s p
  | header =>
    rw [Port.discarded_of_not_stored (by rw [hrx]; rfl)]
    exact s.modPort_turns p fun v => { v with rx := .idle }
  | unstored =>
    rw [Port.discarded_of_not_stored (by rw [hrx]; rfl)]
    exact s.modPort_turns p fun v => { v with rx := .idle }
  | storing e h =>
    have hv : (s.port p).discarded counted =
        { s.port p with rx := .idle, drops := if counted then bump (s.port p).drops else (s.port p).drops } := by
      simp [Port.discarded, hrx, Receive.stored]
    rw [hv]
    exact ((PortTurns.refl s p).release e).modPort fun v =>
      { v with rx := .idle, drops := if counted then bump v.drops else v.drops }

theorem State.startSilence_turns (s : State) (p : PortNo) :
    PortTurns p ((s.port p).waiting (s.portState p) s.now) s (s.startSilence p) :=
  s.modPort_turns p fun v => v.waiting (s.portState p) s.now

theorem State.watchReceive_turns (s : State) (p : PortNo) (old : PortState) :
    PortTurns p ((s.port p).watched old (s.portState p) s.now) s (s.watchReceive p old (s.portState p)) := by
  unfold State.watchReceive Port.watched
  split
  · have hm := (s.startSilence_turns p).trans (State.modPort_turns _ p fun v =>
      { v with
        silent := false
        activeSince := if (s.portState p).receives && v.rxActive then some s.now else none })
    rw [(s.startSilence_turns p).same] at hm
    exact hm
  · exact .refl s p

theorem State.startTx_turns (s : State) (p : PortNo) :
    PortTurns p ((s.port p).started (s.portState p)) s (s.startTx p) := by
  unfold State.startTx Port.started
  split
  · cases hq : (s.port p).queue with
    | nil => exact .refl s p
    | cons e rest =>
      exact s.modPort_turns p fun v =>
        { v with queue := rest, tx := some { entry := e, loop := s.portState p = .loopback } }
  · exact .refl s p

/-! ### The whole change (R105) -/

/-- The effective state is read from the configuration, the latch and the line, and from nothing else of a port. -/
theorem Port.stateIn_of_eq {v w : Port} (hcfg : w.cfg = v.cfg) (hlatch : w.latch = v.latch) (hline : w.lineUp = v.lineUp)
    (m : Mode) : w.stateIn m = v.stateIn m := by
  rw [Port.stateIn_table, Port.stateIn_table, hcfg, hlatch, hline]

/-- A port with its configuration, latch and line unchanged. -/
def Port.Alike (v w : Port) : Prop := w.cfg = v.cfg ∧ w.latch = v.latch ∧ w.lineUp = v.lineUp

theorem Port.Alike.stateIn {v w : Port} (h : v.Alike w) (m : Mode) : w.stateIn m = v.stateIn m :=
  Port.stateIn_of_eq h.1 h.2.1 h.2.2 m

theorem Port.left_alike (v : Port) (old new : PortState) : v.Alike (v.left old new) := by
  unfold Port.left
  split <;> split <;> exact ⟨rfl, rfl, rfl⟩

theorem Port.watched_alike (v : Port) (old new : PortState) (now : Word) : v.Alike (v.watched old new now) := by
  unfold Port.watched
  split <;> exact ⟨rfl, rfl, rfl⟩

theorem Port.started_alike (v : Port) (x : PortState) : v.Alike (v.started x) := by
  unfold Port.started
  split
  · split <;> exact ⟨rfl, rfl, rfl⟩
  · exact ⟨rfl, rfl, rfl⟩

theorem Port.Alike.trans {v w x : Port} (h : v.Alike w) (h' : w.Alike x) : v.Alike x :=
  ⟨h'.1.trans h.1, h'.2.1.trans h.2.1, h'.2.2.trans h.2.2⟩

theorem Port.reacts_alike (v : Port) (old new : PortState) (now : Word) : v.Alike (v.reacts old new now) := by
  unfold Port.reacts
  split
  · exact ⟨rfl, rfl, rfl⟩
  · exact ((v.left_alike old new).trans (Port.watched_alike _ old new now)).trans (Port.started_alike _ new)

theorem State.left_turns (s : State) (p : PortNo) (old new : PortState) :
    PortTurns p ((s.port p).left old new) s ((s.leaveTransmit p old new).leaveReceive p new) := by
  have htransmit : PortTurns p (if old.transmits && !new.transmits then (s.port p).flushed else s.port p) s
      (s.leaveTransmit p old new) := by
    unfold State.leaveTransmit
    split
    · exact s.flushEgress_turns p
    · exact .refl s p
  unfold State.leaveReceive Port.left
  split
  · exact htransmit
  · have hd := htransmit.trans (State.discardReceive_turns _ p true)
    rw [htransmit.same] at hd
    exact hd

theorem State.portReacts_turns (s : State) (p : PortNo) (old : PortState) :
    PortTurns p ((s.port p).reacts old (s.portState p) s.now) s (s.portReacts p old) := by
  unfold State.portReacts Port.reacts
  split
  · exact .refl s p
  · have hl := s.left_turns p old (s.portState p)
    have hstate : ((s.leaveTransmit p old (s.portState p)).leaveReceive p (s.portState p)).portState p = s.portState p :=
      hl.portState.trans ((Port.left_alike _ _ _).stateIn _)
    have hw := State.watchReceive_turns ((s.leaveTransmit p old (s.portState p)).leaveReceive p (s.portState p)) p old
    rw [hstate, hl.same, hl.leaves.now] at hw
    have hlw := hl.trans hw
    have hstate' := hlw.portState.trans (((Port.left_alike _ _ _).trans (Port.watched_alike _ old _ s.now)).stateIn _)
    have hs := State.startTx_turns ((((s.leaveTransmit p old (s.portState p)).leaveReceive p (s.portState p)).watchReceive
      p old (s.portState p))) p
    rw [hlw.same, hstate'] at hs
    exact hlw.trans hs

theorem State.portReacts_of_same {s : State} {p : PortNo} {old : PortState} (h : s.portState p = old) :
    s.portReacts p old = s := if_pos h

/-- R104, R105: a change of one port: the change, and what it calls for when the effective state is another. -/
theorem State.changePort_turns (s : State) (p : PortNo) (f : Port → Port) :
    PortTurns p ((f (s.port p)).reacts (s.portState p) ((f (s.port p)).stateIn s.ctl.mode) s.now) s
      (s.changePort p f) := by
  have hm := s.modPort_turns p f
  have hr := State.portReacts_turns (s.modPort p f) p (s.portState p)
  rw [hm.portState, hm.same] at hr
  exact hm.trans hr

/-! ### What the change leaves, side by side -/

section

variable (v : Port) (old new : PortState) (now : Word)

theorem Port.reacts_of_eq : v.reacts new new now = v := if_pos rfl

theorem Port.reacts_of_ne {old new : PortState} (h : new ≠ old) :
    v.reacts old new now = ((v.left old new).watched old new now).started new := if_neg h

theorem Port.started_of_not_transmits {x : PortState} (h : x.transmits = false) : v.started x = v := by
  unfold Port.started
  rw [h]
  rfl

theorem Port.left_rx (h : new.receives = false) : (v.left old new).rx = .idle := by
  unfold Port.left
  rw [h]
  rfl

theorem Port.watched_fields : (v.watched old new now).rx = v.rx ∧ (v.watched old new now).queue = v.queue ∧
    (v.watched old new now).tx = v.tx ∧ (v.watched old new now).drops = v.drops ∧
    (v.watched old new now).txAborted = v.txAborted := by
  unfold Port.watched
  split <;> exact ⟨rfl, rfl, rfl, rfl, rfl⟩

theorem Port.left_transmit (h0 : old.transmits = true) (h1 : new.transmits = false) :
    (v.left old new).queue = [] ∧ (v.left old new).tx = none := by
  unfold Port.left
  rw [h0, h1]
  split <;> exact ⟨rfl, rfl⟩

end

end Sys2Proof.Machine

/-! PROOFS. What the entries to Setup, Run and Fallback do to the levels, the ports and the receiver (09). -/

namespace Sys2Proof.Machine

open Sys2Proof

/-! ### Every port acts on the new mode (R105) -/

theorem State.portsReact_foldl (old : State) (ps : List PortNo) (hn : ps.Nodup) (s : State) :
    (∀ p, (ps.foldl (fun s p => s.portReacts p (old.portState p)) s).port p =
      if p ∈ ps then (s.port p).reacts (old.portState p) (s.portState p) s.now else s.port p) ∧
    LeavesLevels s (ps.foldl (fun s p => s.portReacts p (old.portState p)) s) := by
  induction ps generalizing s with
  | nil => exact ⟨fun _ => rfl, LeavesLevels.refl s⟩
  | cons q ps ih =>
    obtain ⟨hq, hps⟩ := List.nodup_cons.mp hn
    have ht := s.portReacts_turns q (old.portState q)
    obtain ⟨hport, hleaves⟩ := ih hps (s.portReacts q (old.portState q))
    refine ⟨fun p => ?_, ht.leaves.trans hleaves⟩
    rw [List.foldl_cons, hport]
    by_cases hpq : p = q
    · rw [hpq, if_neg hq, if_pos List.mem_cons_self, ht.same]
    · have hstate : (s.portReacts q (old.portState q)).portState p = s.portState p := by
        rw [State.portState, ht.other p hpq, ht.leaves.ctl, State.portState]
      rw [ht.other p hpq, hstate, ht.leaves.now]
      simp [hpq]

theorem State.portsReact_port (s old : State) (p : PortNo) :
    (s.portsReact old).port p = (s.port p).reacts (old.portState p) (s.portState p) s.now := by
  have h := (State.portsReact_foldl old allPorts allPorts_nodup s).1 p
  rwa [if_pos (mem_allPorts p)] at h

theorem State.portsReact_leaves (s old : State) : LeavesLevels s (s.portsReact old) :=
  (State.portsReact_foldl old allPorts allPorts_nodup s).2

/-- What entry to Setup leaves of a port, given whether it transmitted. -/
def Port.TurnedOff (v w : Port) (transmits : Bool) : Prop :=
  let drops := if transmits then bumpBy v.drops v.queue.length else v.drops
  w.rx = .idle ∧ ((∃ e h, v.rx = .storing e h) → w.drops = bump drops) ∧
  ((∀ e h, v.rx ≠ .storing e h) → w.drops = drops) ∧
  (transmits = true → w.queue = [] ∧ w.tx = none) ∧
  (transmits = true → v.tx ≠ none → w.txAborted = bump v.txAborted) ∧
  (transmits = false ∨ v.tx = none → w.txAborted = v.txAborted)

theorem Receive.stored_iff (x : Receive) : x.stored = true ↔ ∃ e h, x = .storing e h := by
  cases x <;> simp [Receive.stored]

theorem Port.discarded_drops (v : Port) : ((∃ e h, v.rx = .storing e h) → (v.discarded true).drops = bump v.drops) ∧
    ((∀ e h, v.rx ≠ .storing e h) → (v.discarded true).drops = v.drops) := by
  constructor
  · intro h
    exact if_pos (by rw [(v.rx.stored_iff).mpr h]; rfl)
  · intro h
    refine if_neg fun hs => ?_
    obtain ⟨e, x, hx⟩ := (v.rx.stored_iff).mp hs
    exact h e x hx

theorem Port.reacts_turnedOff (v : Port) {old : PortState} (h : old ≠ .offline) (now : Word) :
    v.TurnedOff (v.reacts old .offline now) old.transmits := by
  rw [v.reacts_of_ne now (Ne.symm h), Port.started_of_not_transmits _ rfl]
  obtain ⟨hrx, hqueue, htx, hdrops, haborted⟩ := (v.left old .offline).watched_fields old .offline now
  unfold Port.TurnedOff
  rw [hrx, hqueue, htx, hdrops, haborted]
  cases ht : old.transmits with
  | false =>
    have hleft : v.left old .offline = v.discarded true := by
      unfold Port.left
      rw [ht]
      rfl
    rw [hleft]
    exact ⟨rfl, v.discarded_drops.1, v.discarded_drops.2, nofun, nofun, fun _ => rfl⟩
  | true =>
    have hleft : v.left old .offline = v.flushed.discarded true := by
      unfold Port.left
      rw [ht]
      rfl
    rw [hleft]
    refine ⟨rfl, v.flushed.discarded_drops.1, v.flushed.discarded_drops.2, fun _ => ⟨rfl, rfl⟩, fun _ hx => ?_, ?_⟩
    · exact if_pos (Option.isSome_iff_ne_none.mpr hx)
    · rintro (h0 | h0)
      · cases h0
      · exact if_neg (by simp [h0])

/-! ### Every level is barred (R21, R167, R169) -/

/-- What barring leaves of a level entry, given whether the level has a fragment in flight. -/
def LevelEntry.WasBarred (v w : LevelEntry) (sending : Bool) : Prop :=
  w.queue = [] ∧ w.framesDropped = bumpBy v.framesDropped v.queue.length ∧ w.trainCount = 0 ∧
  (sending = false → w.ctx = none) ∧
  (v.ctx ≠ none → sending = false → w.framesAborted = bump v.framesAborted ∧ w.abortOwed ≠ none) ∧
  (v.ctx = none ∨ sending = true → w.ctx = v.ctx ∧ w.framesAborted = v.framesAborted ∧ w.abortOwed = v.abortOwed)

theorem State.bar_wasBarred (s : State) {l : Level} (hl : l ≠ 1) :
    (s.lvl l).WasBarred ((s.bar l).lvl l) (s.sending l) := by
  rw [State.bar_lvl_same hl]
  split
  · next h =>
    refine ⟨rfl, rfl, rfl, fun h0 => ?_, fun hc h0 => ?_, fun _ => ⟨rfl, rfl, rfl⟩⟩
    · exact h.resolve_right (by rw [h0]; decide)
    · exact absurd (h.resolve_right (by rw [h0]; decide)) hc
  · next h =>
    refine ⟨rfl, rfl, rfl, fun _ => rfl, fun hc _ => ⟨rfl, ?_⟩, fun h' => absurd h' h⟩
    obtain ⟨c, hc⟩ := Option.ne_none_iff_exists'.mp hc
    rw [hc]
    simp [State.abortFor]

/-- A step at a level that leaves the other traffic levels, and all of the trunk but its log, alone. -/
structure ActsAlone (f : State → Level → State) : Prop where
  other : ∀ s {l m : Level}, m ≠ l → m ≠ 1 → (f s l).lvl m = s.lvl m
  trunk : ∀ s l, LogsOnly s (f s l)

theorem LogsOnly.sending {s t : State} (h : LogsOnly s t) (l : Level) : t.sending l = s.sending l := by
  unfold LogsOnly at h
  unfold State.sending
  rw [h]

/-- A level meets its own step of a round over levels as it was before the round, and keeps what it comes to. -/
theorem ActsAlone.foldl {f : State → Level → State} (hf : ActsAlone f) {ls : List Level} (hn : ls.Nodup) {l : Level}
    (hl : l ≠ 1) (s : State) :
    (l ∉ ls → (ls.foldl f s).lvl l = s.lvl l) ∧
    (l ∈ ls → ∃ u : State, u.lvl l = s.lvl l ∧ u.sending l = s.sending l ∧ (ls.foldl f s).lvl l = (f u l).lvl l) := by
  induction ls generalizing s with
  | nil => exact ⟨fun _ => rfl, nofun⟩
  | cons m ls ih =>
    obtain ⟨hm, hls⟩ := List.nodup_cons.mp hn
    obtain ⟨hout, hin⟩ := ih hls (f s m)
    by_cases hlm : l = m
    · subst hlm
      exact ⟨fun h => absurd List.mem_cons_self h, fun _ => ⟨s, rfl, rfl, hout hm⟩⟩
    · have hsame : (f s m).lvl l = s.lvl l := hf.other s hlm hl
      refine ⟨fun h => (hout (fun h' => h (List.mem_cons_of_mem _ h'))).trans hsame, fun h => ?_⟩
      obtain ⟨u, hu, hsend, hres⟩ := hin ((List.mem_cons.mp h).resolve_left hlm)
      exact ⟨u, hu.trans hsame, hsend.trans ((hf.trunk s m).sending l), hres⟩

theorem State.emptyQueue_logsOnly (s : State) (l : Level) : LogsOnly s (s.emptyQueue l) := by
  refine .of_eq ?_
  unfold State.emptyQueue
  exact (State.releaseAll_leaves _ _).trunk

theorem State.bar_logsOnly (s : State) (l : Level) : LogsOnly s (s.bar l) := by
  cases hsend : s.sending l with
  | true =>
    rw [State.bar_of_sending hsend]
    exact s.emptyQueue_logsOnly l
  | false =>
    rw [State.bar_of_not_sending hsend]
    exact (s.emptyQueue_logsOnly l).trans (State.abandon_logsOnly _ l true)

theorem bar_actsAlone : ActsAlone State.bar where
  other _ _ _ hm hm1 := State.bar_lvl_ne hm hm1
  trunk s l := s.bar_logsOnly l

theorem State.barUnlessEssential_of_essential {s : State} {l : Level} (h : (s.lvl l).attrs.essential = true) :
    s.barUnlessEssential l = s := if_pos h

theorem State.barUnlessEssential_of_not_essential {s : State} {l : Level} (h : (s.lvl l).attrs.essential = false) :
    s.barUnlessEssential l = s.bar l := if_neg (by rw [h]; decide)

theorem barUnlessEssential_actsAlone : ActsAlone State.barUnlessEssential where
  other s l m hm hm1 := by
    cases he : (s.lvl l).attrs.essential with
    | true => rw [State.barUnlessEssential_of_essential he]
    | false => rw [State.barUnlessEssential_of_not_essential he, State.bar_lvl_ne hm hm1]
  trunk s l := by
    cases he : (s.lvl l).attrs.essential with
    | true =>
      rw [State.barUnlessEssential_of_essential he]
      exact .of_eq rfl
    | false =>
      rw [State.barUnlessEssential_of_not_essential he]
      exact s.bar_logsOnly l

theorem trafficLevels_nodup : trafficLevels.Nodup := allLevels_nodup.filter _

theorem ne_one_of_traffic {l : Level} (h : 2 ≤ l.val) : l ≠ 1 := fun hl => by
  subst hl
  exact absurd h (by decide)

/-! ### In Setup a barred level's response goes to no port (R104, R150) -/

/-- A step keeps the mode and, in Setup, every port. -/
structure KeepsPorts (s t : State) : Prop where
  ctl : t.ctl = s.ctl
  ports : s.ctl.mode = .setup → t.ports = s.ports

section

variable {s t u : State}

theorem KeepsPorts.refl (s : State) : KeepsPorts s s := ⟨rfl, fun _ => rfl⟩

theorem KeepsPorts.trans (h : KeepsPorts s t) (h' : KeepsPorts t u) : KeepsPorts s u :=
  ⟨h'.ctl.trans h.ctl, fun hm => (h'.ports (by rw [h.ctl]; exact hm)).trans (h.ports hm)⟩

theorem State.release_keepsPorts (s : State) (e : EntryNo) : KeepsPorts s (s.release e) :=
  ⟨(s.release_leaves e).ctl, fun _ => s.release_ports e⟩

theorem State.portState_of_setup (h : s.ctl.mode = .setup) (p : PortNo) : s.portState p = .offline :=
  if_pos (by simp [h])

theorem State.offerAll_level_keepsPorts (s : State) (l : Level) (e : EntryNo) :
    KeepsPorts s (s.offerAll e [.level l]) := by
  by_cases h : s.queueRefuses l = true
  · have hr : s.offerAll e [.level l] = (s.modLvl l LevelEntry.dropped).release e := by
      simp [State.offerAll, State.makeOffer, State.offerLevel, h]
    rw [hr]
    exact .trans (t := s.modLvl l LevelEntry.dropped) ⟨rfl, fun _ => rfl⟩ (State.release_keepsPorts _ e)
  · rw [State.offerAll_of_accepted (State.offerLevel_of_accepted h e true)]
    exact ⟨rfl, fun _ => rfl⟩

theorem State.routeResponse_keepsPorts (s : State) (e : EntryNo) (o : Sender) : KeepsPorts s (s.routeResponse e o) := by
  cases o with
  | trunk => exact s.offerAll_level_keepsPorts 1 e
  | station p =>
    refine ⟨(s.routeResponse_leaves e (.station p)).ctl, fun hm => ?_⟩
    rw [State.routeResponse_of_not_active (by rw [State.portState_of_setup hm p]; decide)]
    exact s.release_ports e

theorem State.allocReserve_ports (s : State) (n : Nat) (f : FrameEntry) : (s.allocReserve n f).2.ports = s.ports := by
  unfold State.allocReserve
  split
  · split <;> rfl
  · rfl

theorem State.buildLongResponse_keepsPorts (s : State) (r : LongRecord) : KeepsPorts s (s.buildLongResponse r).2 := by
  have halloc : KeepsPorts s (s.allocReserve 1 (s.responseEntry r.node)).2 :=
    ⟨(s.allocReserve_leaves _ _).ctl, fun _ => s.allocReserve_ports _ _⟩
  cases ha : s.allocReserve 1 (s.responseEntry r.node) with
  | mk o t =>
    rw [ha] at halloc
    cases o with
    | none =>
      rw [State.buildLongResponse_of_short ha]
      exact halloc
    | some e =>
      rw [State.buildLongResponse_of_built ha]
      have hfill : KeepsPorts t (t.fillResponse e (responsePayload r.op.code r.tag .ok [])) :=
        ⟨rfl, fun _ => rfl⟩
      exact (halloc.trans hfill).trans (State.routeResponse_keepsPorts _ e r.sender)

theorem State.endLongOp_keepsPorts (s : State) (op : LongOp) : KeepsPorts s (s.endLongOp op) := by
  cases hf : s.cmd.longOps.find? (fun x => decide (x.op = op)) with
  | none =>
    rw [State.endLongOp_of_none fun r hr => by simpa using List.find?_eq_none.mp hf r hr]
    exact .refl s
  | some r =>
    have hb := State.buildLongResponse_keepsPorts (s.dropLongOp op) r
    have hs : KeepsPorts s (s.dropLongOp op) := ⟨rfl, fun _ => rfl⟩
    rw [State.endLongOp_of_some hf]
    split
    · next t heq =>
      rw [heq] at hb
      exact hs.trans hb
    · next t heq =>
      rw [heq] at hb
      exact (hs.trans hb).trans ⟨rfl, fun _ => rfl⟩

theorem State.flushComplete_keepsPorts (s : State) (l : Level) : KeepsPorts s (s.flushComplete l) := by
  unfold State.flushComplete
  split
  · exact .trans (t := s.modLvl l fun v => { v with flushPending := none }) ⟨rfl, fun _ => rfl⟩
      (State.endLongOp_keepsPorts _ _)
  · exact .refl s

theorem State.dropContext_keepsPorts (s : State) (l : Level) (c : Context) : KeepsPorts s (s.dropContext l c) := by
  have hrecord : KeepsPorts s (s.recordFinish l c c.next .aborted) := by
    rw [State.recordFinish_eq]
    exact ⟨rfl, fun _ => rfl⟩
  have hcount : KeepsPorts s ((s.recordFinish l c c.next .aborted).modLvl l fun v =>
      { v with framesAborted := bump v.framesAborted }) := ⟨hrecord.ctl, hrecord.ports⟩
  have hfree := hcount.trans (State.release_keepsPorts _ c.entry)
  exact ⟨hfree.ctl, hfree.ports⟩

theorem State.abandon_keepsPorts (s : State) (l : Level) (started : Bool) : KeepsPorts s (s.abandon l started) := by
  unfold State.abandon
  split
  · exact .refl s
  · next c _ =>
    have hd := s.dropContext_keepsPorts l c
    split
    · exact .trans (t := (s.dropContext l c).oweAbort l (s.entryAt c.entry)) ⟨hd.ctl, hd.ports⟩
        (State.flushComplete_keepsPorts _ l)
    · exact hd.trans (State.flushComplete_keepsPorts _ l)

theorem State.releaseAll_keepsPorts (q : List EntryNo) (s : State) : KeepsPorts s (q.foldl State.release s) := by
  induction q generalizing s with
  | nil => exact .refl s
  | cons e q ih => exact (s.release_keepsPorts e).trans (ih _)

theorem State.bar_keepsPorts (s : State) (l : Level) : KeepsPorts s (s.bar l) := by
  have he : KeepsPorts s (s.emptyQueue l) := by
    have hr := State.releaseAll_keepsPorts (s.lvl l).queue (s.modLvl l fun v =>
      { v with queue := [], framesDropped := bumpBy v.framesDropped (s.lvl l).queue.length, trainCount := 0 })
    exact ⟨hr.ctl, hr.ports⟩
  cases hsend : s.sending l with
  | true =>
    rw [State.bar_of_sending hsend]
    exact he
  | false =>
    rw [State.bar_of_not_sending hsend]
    exact he.trans (State.abandon_keepsPorts _ l true)

theorem State.barAll_keepsPorts (ls : List Level) (s : State) : KeepsPorts s (ls.foldl State.bar s) := by
  induction ls generalizing s with
  | nil => exact .refl s
  | cons l ls ih => exact (s.bar_keepsPorts l).trans (ih _)

end

/-! ### The partial frames discarded (R131) -/

theorem bump_toNat (c : Word) : (bump c).toNat = min (2 ^ 32 - 1) (c.toNat + 1) := by
  unfold bump
  split
  · next h =>
    subst h
    rfl
  · next h =>
    have hlt : c.toNat ≠ 2 ^ 32 - 1 := fun heq => h (BitVec.eq_of_toNat_eq (by rw [heq]; rfl))
    have hb := c.isLt
    rw [BitVec.toNat_add]
    change (c.toNat + 1) % 2 ^ 32 = _
    omega

theorem bumpBy_toNat (c : Word) (n : Nat) : (bumpBy c n).toNat = min (2 ^ 32 - 1) (c.toNat + n) := by
  unfold bumpBy
  split
  · next h =>
    change 2 ^ 32 - 1 = _
    omega
  · next h =>
    rw [BitVec.toNat_ofNat]
    omega

theorem bumpBy_zero (c : Word) : bumpBy c 0 = c := by
  refine BitVec.eq_of_toNat_eq ?_
  have hb := c.isLt
  rw [bumpBy_toNat]
  omega

theorem bumpBy_bump (c : Word) (n : Nat) : bumpBy (bump c) n = bumpBy c (n + 1) := by
  refine BitVec.eq_of_toNat_eq ?_
  rw [bumpBy_toNat, bumpBy_toNat, bump_toNat]
  omega

/-- A reassembly context is Collecting. -/
def Reassembly.collects : Reassembly → Bool
  | .collecting _ => true
  | .idle | .discarding => false

theorem Reassembly.collects_iff (x : Reassembly) : x.collects = true ↔ ∃ c, x = .collecting c := by
  cases x <;> simp [Reassembly.collects]

theorem State.endPartial_discarded (s : State) (l : Level) : (s.endPartial l).rx.partialsDiscarded =
    if (s.rxCtx l).collects then bump s.rx.partialsDiscarded else s.rx.partialsDiscarded := by
  rcases s.collecting_cases l with ⟨c, h⟩ | h
  · rw [State.endPartial_of_collecting h, if_pos ((Reassembly.collects_iff _).mpr ⟨c, h⟩)]
    change bump (s.release c.entry).rx.partialsDiscarded = _
    rw [(s.release_leaves c.entry).rx]
  · rw [State.endPartial_of_not_collecting h, if_neg fun hc => by
      obtain ⟨c, hx⟩ := (Reassembly.collects_iff _).mp hc
      exact h c hx]
    rfl

theorem State.endPartials_discarded {ls : List Level} (hn : ls.Nodup) (s : State) :
    (ls.foldl State.endPartial s).rx.partialsDiscarded =
      bumpBy s.rx.partialsDiscarded (ls.countP fun l => (s.rxCtx l).collects) := by
  induction ls generalizing s with
  | nil => exact (bumpBy_zero _).symm
  | cons l ls ih =>
    obtain ⟨hl, hls⟩ := List.nodup_cons.mp hn
    have hrest : ls.countP (fun m => ((s.endPartial l).rxCtx m).collects) = ls.countP fun m => (s.rxCtx m).collects :=
      List.countP_congr fun m hm => by
        rw [State.endPartial_rxCtx, if_neg (ne_of_mem_of_not_mem hm hl)]
    rw [List.foldl_cons, ih hls, hrest, State.endPartial_discarded, List.countP_cons]
    cases (s.rxCtx l).collects with
    | true => exact bumpBy_bump _ _
    | false => rfl

theorem State.endReassembly_discarded (s : State) : s.endReassembly.rx.partialsDiscarded =
    bumpBy s.rx.partialsDiscarded {l : Level | ∃ c, s.rxCtx l = .collecting c}.ncard := by
  have hcount := ncard_levels (fun l => ∃ c, s.rxCtx l = .collecting c) (fun l => (s.rxCtx l).collects)
    fun l => Reassembly.collects_iff _
  rw [State.endReassembly_eq, State.endPartials_discarded allLevels_nodup, hcount]

end Sys2Proof.Machine

/-! PROOFS. The entries to Setup, Run and Fallback (R167, R168, R169). -/

namespace Sys2Proof.Machine

open Sys2Proof

theorem State.triggerAuction_due (s : State) : s.triggerAuction.auctionDue = true := rfl

/-! ### Entry to Setup (R167) -/

/-- R167: the mode is Setup and the ports have acted on it. -/
def State.setupPorts (s : State) : State :=
  ({ s with ctl := { s.ctl with mode := .setup, mark := none } } : State).portsReact s

/-- R167: the traffic levels have been barred too. -/
def State.setupLevels (s : State) : State := trafficLevels.foldl State.bar s.setupPorts

theorem State.enterSetup_eq (s : State) : s.enterSetup = s.setupLevels.endReassembly.triggerAuction := by
  unfold State.enterSetup State.setupLevels State.setupPorts
  rfl

section

variable (s : State)

theorem State.setupPorts_port (p : PortNo) :
    s.setupPorts.port p = (s.port p).reacts (s.portState p) .offline s.now := by
  unfold State.setupPorts
  have hmode : ({ s with ctl := { s.ctl with mode := .setup, mark := none } } : State).portState p = .offline :=
    State.portState_of_setup (s := { s with ctl := { s.ctl with mode := .setup, mark := none } }) rfl p
  rw [State.portsReact_port, hmode]
  rfl

theorem State.setupPorts_mode : s.setupPorts.ctl.mode = .setup := by
  unfold State.setupPorts
  rw [(State.portsReact_leaves _ s).ctl]

theorem State.setupPorts_lvl (l : Level) : s.setupPorts.lvl l = s.lvl l := by
  unfold State.setupPorts
  rw [(State.portsReact_leaves _ s).lvl]
  rfl

theorem State.setupPorts_sending (l : Level) : s.setupPorts.sending l = s.sending l := by
  have h : LogsOnly s s.setupPorts := .of_eq (State.portsReact_leaves _ s).trunk
  exact h.sending l

theorem State.setupLevels_rx : s.setupLevels.rx = s.rx := by
  have hbars : Moves (fun _ => False) s.setupPorts s.setupLevels :=
    .foldl _ (fun t l => .bar t l) trafficLevels _
  rw [hbars.keeps_receiver id]
  exact (State.portsReact_leaves _ s).rx

theorem State.enterSetup_ports : s.enterSetup.ports = s.setupPorts.ports := by
  rw [State.enterSetup_eq, State.triggerAuction_ports, s.setupLevels.endReassembly_keepsLine.ports]
  exact (State.barAll_keepsPorts trafficLevels s.setupPorts).ports s.setupPorts_mode

theorem State.enterSetup_port (p : PortNo) :
    s.enterSetup.port p = (s.port p).reacts (s.portState p) .offline s.now := by
  rw [State.port, State.enterSetup_ports]
  exact s.setupPorts_port p

theorem State.enterSetup_lvl (l : Level) : s.enterSetup.lvl l = s.setupLevels.lvl l := by
  rw [State.enterSetup_eq, State.triggerAuction_lvl_at, State.lvl, s.setupLevels.endReassembly_keepsLine.levels,
    State.lvl]

theorem State.enterSetup_wasBarred {l : Level} (hl : 2 ≤ l.val) :
    (s.lvl l).WasBarred (s.enterSetup.lvl l) (s.sending l) := by
  have h1 := ne_one_of_traffic hl
  obtain ⟨u, hu, hsend, hres⟩ := (bar_actsAlone.foldl trafficLevels_nodup h1 s.setupPorts).2 (mem_trafficLevels.mpr hl)
  have hb := u.bar_wasBarred h1
  rw [hu, hsend, s.setupPorts_lvl, s.setupPorts_sending] at hb
  rw [State.enterSetup_lvl, State.setupLevels, hres]
  exact hb

theorem State.enterSetup_rxCtx (l : Level) : s.enterSetup.rxCtx l = .idle := by
  rw [State.enterSetup_eq, State.triggerAuction_rxCtx_at, State.endReassembly_rxCtx]

theorem State.enterSetup_discarded : s.enterSetup.rx.partialsDiscarded =
    bumpBy s.rx.partialsDiscarded {l : Level | ∃ c, s.rxCtx l = .collecting c}.ncard := by
  rw [State.enterSetup_eq, State.triggerAuction_rx, State.endReassembly_discarded]
  simp only [State.rxCtx, s.setupLevels_rx]

theorem State.enterSetup_portState (p : PortNo) : s.enterSetup.portState p = .offline :=
  State.portState_of_setup (by rw [State.enterSetup_ctl]) p

theorem State.enterSetup_due : s.enterSetup.auctionDue = true := by
  rw [State.enterSetup_eq, State.triggerAuction_due]

end

/-! ### Entry to Run (R168) -/

section

variable (s : State)

/-- R168: the mode is Run, and the mark is set when supervision is on. -/
def State.runMode : State :=
  { s with ctl := { s.ctl with mode := .run, mark := if 0 < s.ctl.period then some s.now else none } }

theorem State.enterRun_eq : s.enterRun = (s.runMode.portsReact s).triggerAuction := by
  unfold State.enterRun State.runMode
  rfl

theorem State.enterRun_levels : s.enterRun.levels = s.levels ∧ s.enterRun.rx = s.rx := by
  have h := State.portsReact_leaves s.runMode s
  rw [State.enterRun_eq, State.triggerAuction_levels, State.triggerAuction_rx]
  exact ⟨h.levels, h.rx⟩

theorem State.runMode_portState (h : s.ctl.mode = .fallback) (p : PortNo) :
    s.runMode.portState p = s.portState p := by
  have h0 : s.runMode.portState p = (s.port p).stateIn .run := rfl
  rw [h0, State.portState, h]
  exact Port.stateIn_congr _ (by decide) (by decide)

theorem State.enterRun_ports (h : s.ctl.mode = .fallback) : s.enterRun.ports = s.ports := by
  have hkeeps : ∀ ps : List PortNo, ps.foldl (fun u p => u.portReacts p (s.portState p)) s.runMode = s.runMode := by
    intro ps
    induction ps with
    | nil => rfl
    | cons p ps ih => rw [List.foldl_cons, State.portReacts_of_same (s.runMode_portState h p), ih]
  rw [State.enterRun_eq, State.portsReact, hkeeps]
  rfl

theorem State.enterRun_due : s.enterRun.auctionDue = true := by
  rw [State.enterRun_eq, State.triggerAuction_due]

end

/-! ### Entry to Fallback (R169) -/

section

variable (s : State)

/-- R169: the mode is Fallback, and supervision stops. -/
def State.fallbackMode : State :=
  { s with ctl := { s.ctl with mode := .fallback, mark := none, refreshSeen := false } }

theorem State.enterFallback_eq :
    s.enterFallback = (trafficLevels.foldl State.barUnlessEssential s.fallbackMode).triggerAuction := by
  unfold State.enterFallback State.fallbackMode
  rfl

theorem State.enterFallback_lvl {l : Level} (hl : 2 ≤ l.val) : ∃ u : State, u.lvl l = s.lvl l ∧
    u.sending l = s.sending l ∧ s.enterFallback.lvl l = (u.barUnlessEssential l).lvl l := by
  rw [State.enterFallback_eq, State.triggerAuction_lvl_at]
  exact (barUnlessEssential_actsAlone.foldl trafficLevels_nodup (ne_one_of_traffic hl) s.fallbackMode).2
    (mem_trafficLevels.mpr hl)

theorem State.enterFallback_wasBarred {l : Level} (hl : 2 ≤ l.val) (he : (s.lvl l).attrs.essential = false) :
    (s.lvl l).WasBarred (s.enterFallback.lvl l) (s.sending l) := by
  obtain ⟨u, hu, hsend, hres⟩ := s.enterFallback_lvl hl
  have hb := u.bar_wasBarred (ne_one_of_traffic hl)
  rw [hu, hsend] at hb
  rw [hres, State.barUnlessEssential_of_not_essential (by rw [hu]; exact he)]
  exact hb

theorem State.enterFallback_lvl_essential {l : Level} (hl : 2 ≤ l.val) (he : (s.lvl l).attrs.essential = true) :
    s.enterFallback.lvl l = s.lvl l := by
  obtain ⟨u, hu, _, hres⟩ := s.enterFallback_lvl hl
  rw [hres, State.barUnlessEssential_of_essential (by rw [hu]; exact he), hu]

theorem State.enterFallback_rx : s.enterFallback.rx = s.rx :=
  (Moves.enterFallback (W := fun p => p = .mode) rfl s).keeps_receiver (fun h => nomatch h)

theorem State.enterFallback_due : s.enterFallback.auctionDue = true := by
  rw [State.enterFallback_eq, State.triggerAuction_due]

end

/-- Settles O58: each block's part of an entry leaves the other blocks alone; a level or a port is met once in its round,
as it was before the round. -/
theorem modeEntriesActOnEveryBlock : Obligations.ModeEntriesActOnEveryBlock := by
  unfold Obligations.ModeEntriesActOnEveryBlock
  intro s barred offline
  refine ⟨⟨s.enterSetup_ctl, fun p => ⟨s.enterSetup_portState p, fun h => ?_, fun h => ?_⟩,
      fun l hl => s.enterSetup_wasBarred hl, s.enterSetup_rxCtx, s.enterSetup_discarded, s.enterSetup_due⟩,
    ⟨s.enterRun_ctl, s.enterRun_levels.1, s.enterRun_levels.2, s.enterRun_due, s.enterRun_ports⟩,
    ⟨s.enterFallback_ctl, fun l hl he => s.enterFallback_wasBarred hl he,
      fun l hl he => s.enterFallback_lvl_essential hl he, s.enterFallback_rx, s.enterFallback_due⟩⟩
  · rw [State.enterSetup_port]
    exact (s.port p).reacts_turnedOff h s.now
  · rw [State.enterSetup_port, h, Port.reacts_of_eq]

end Sys2Proof.Machine

/-! PROOFS. The egress queue of a port: its order by level, its overflow, and the transmission that it starts (06). -/

namespace Sys2Proof.Machine

open Sys2Proof

/-! ### The order of the queue (R114) -/

/-- In a list sorted by a key, the entries up to a bound stand before all the others. -/
theorem takeWhile_of_sorted {α : Type} (key : α → Level) (bound : Level) {xs : List α}
    (h : xs.Pairwise fun a b => key a ≤ key b) :
    (xs.takeWhile fun d => decide (key d ≤ bound)) = (xs.filter fun d => decide (key d ≤ bound)) ∧
    (xs.dropWhile fun d => decide (key d ≤ bound)) = xs.filter fun d => decide (bound < key d) := by
  induction xs with
  | nil => exact ⟨rfl, rfl⟩
  | cons d xs ih =>
    obtain ⟨hd, hxs⟩ := List.pairwise_cons.mp h
    obtain ⟨htake, hdrop⟩ := ih hxs
    by_cases hle : key d ≤ bound
    · rw [List.takeWhile_cons_of_pos (by simpa using hle), List.filter_cons_of_pos (by simpa using hle),
        List.dropWhile_cons_of_pos (by simpa using hle), List.filter_cons_of_neg (by simpa using hle), htake, hdrop]
      exact ⟨rfl, rfl⟩
    · have hgt : bound < key d := lt_of_not_ge hle
      have hall : ∀ a ∈ d :: xs, bound < key a := fun a ha => by
        rcases List.mem_cons.mp ha with rfl | ha
        · exact hgt
        · exact lt_of_lt_of_le hgt (hd a ha)
      rw [List.takeWhile_cons_of_neg (by simpa using hle), List.dropWhile_cons_of_neg (by simpa using hle)]
      refine ⟨(List.filter_eq_nil_iff.mpr fun a ha => ?_).symm, (List.filter_eq_self.mpr fun a ha => ?_).symm⟩
      · simpa using hall a ha
      · simpa using hall a ha

theorem State.insertByLevel_of_sorted (s : State) {queue : List EntryNo} (e : EntryNo)
    (h : queue.Pairwise fun a b => (s.entryAt a).level ≤ (s.entryAt b).level) :
    s.insertByLevel queue e = (queue.filter fun d => decide ((s.entryAt d).level ≤ (s.entryAt e).level)) ++
      e :: (queue.filter fun d => decide ((s.entryAt e).level < (s.entryAt d).level)) := by
  obtain ⟨htake, hdrop⟩ := takeWhile_of_sorted (fun d => (s.entryAt d).level) (s.entryAt e).level h
  unfold State.insertByLevel
  dsimp only
  rw [htake, hdrop]

theorem State.insertByLevel_sorted (s : State) {queue : List EntryNo} (e : EntryNo)
    (h : queue.Pairwise fun a b => (s.entryAt a).level ≤ (s.entryAt b).level) :
    (s.insertByLevel queue e).Pairwise fun a b => (s.entryAt a).level ≤ (s.entryAt b).level := by
  rw [s.insertByLevel_of_sorted e h, List.pairwise_append, List.pairwise_cons]
  have hbefore : ∀ a ∈ queue.filter fun d => decide ((s.entryAt d).level ≤ (s.entryAt e).level),
      (s.entryAt a).level ≤ (s.entryAt e).level := fun a ha => by simpa using (List.mem_filter.mp ha).2
  have hafter : ∀ b ∈ queue.filter fun d => decide ((s.entryAt e).level < (s.entryAt d).level),
      (s.entryAt e).level ≤ (s.entryAt b).level := fun b hb => le_of_lt (by simpa using (List.mem_filter.mp hb).2)
  refine ⟨h.filter _, ⟨hafter, h.filter _⟩, fun a ha b hb => ?_⟩
  rcases List.mem_cons.mp hb with rfl | hb
  · exact hbefore a ha
  · exact le_trans (hbefore a ha) (hafter b hb)

/-! ### The offer to a full queue (R115) -/

theorem State.modPort_congr {s : State} {p : PortNo} {f g : Port → Port} (h : f (s.port p) = g (s.port p)) :
    s.modPort p f = s.modPort p g := by
  unfold State.modPort
  rw [h]

section

variable {s : State} {p : PortNo} {rest : List EntryNo} {worst : EntryNo}

theorem State.offerPort_of_better (h : (s.portState p).transmits = true) (hq : (s.port p).queue = rest ++ [worst])
    (hfull : 32 ≤ (s.port p).queue.length) {e : EntryNo} (hlt : (s.entryAt e).level < (s.entryAt worst).level)
    (first : Bool) : s.offerPort p e first = (true,
      ((s.modPort p fun v => { v with queue := rest, drops := bump v.drops }).release worst).joinEgress p e first) := by
  have hevict : (s.modPort p fun v => ({ v with queue := v.queue.dropLast }).dropped) =
      s.modPort p fun v => { v with queue := rest, drops := bump v.drops } :=
    State.modPort_congr (by simp [Port.dropped, hq])
  have hlast : (s.port p).queue.getLast? = some worst := by rw [hq, List.getLast?_concat]
  unfold State.offerPort
  rw [h, if_neg (by decide), if_neg (show ¬ (s.port p).queue.length < Config.egressSize from by
    have := hfull
    unfold Config.egressSize
    omega), hlast]
  dsimp only
  rw [if_pos hlt, hevict]

theorem State.offerPort_of_no_better (h : (s.portState p).transmits = true) (hq : (s.port p).queue = rest ++ [worst])
    (hfull : 32 ≤ (s.port p).queue.length) {e : EntryNo} (hle : (s.entryAt worst).level ≤ (s.entryAt e).level)
    (first : Bool) : s.offerPort p e first = (false, s.modPort p .dropped) := by
  have hlast : (s.port p).queue.getLast? = some worst := by rw [hq, List.getLast?_concat]
  unfold State.offerPort
  rw [h, if_neg (by decide), if_neg (show ¬ (s.port p).queue.length < Config.egressSize from by
    have := hfull
    unfold Config.egressSize
    omega), hlast]
  dsimp only
  rw [if_neg (not_lt.mpr hle)]

/-! ### The start of a transmission (R116) -/

theorem State.startTx_of_busy (h : (s.port p).tx ≠ none) : s.startTx p = s := by
  have hb : (s.port p).tx.isNone = false := by simpa [Option.isSome_iff_ne_none] using h
  unfold State.startTx
  rw [hb, Bool.and_false, if_neg (by decide)]

theorem State.startTx_of_empty (h : (s.port p).queue = []) : s.startTx p = s := by
  unfold State.startTx
  rw [h]
  split <;> rfl

end

/-- Settles O47: the queue is sorted by level, so the entries that the offered frame goes behind are those of its own and
of lower levels. -/
theorem egressQueueOrdersByLevel : Obligations.EgressQueueOrdersByLevel := by
  unfold Obligations.EgressQueueOrdersByLevel
  refine ⟨fun s p e first => ⟨fun h => ?_, fun h hroom => ?_, fun rest worst h hq hfull => ⟨fun hlt => ?_,
    fun hle => ?_⟩⟩, fun s p e first => rfl, fun s queue e h => ⟨s.insertByLevel_of_sorted e h,
    s.insertByLevel_sorted e h⟩, fun s p => ⟨fun e rest h htx hq => s.startTx_of_head p h htx hq, fun h => ?_⟩⟩
  · exact s.offerPort_of_not_transmits p (Bool.eq_false_iff.mp h) e first
  · exact s.offerPort_of_room p h e first hroom
  · exact State.offerPort_of_better h hq hfull hlt first
  · exact State.offerPort_of_no_better h hq hfull hle first
  · rcases h with h | h | h
    · exact s.startTx_of_not_transmits p (Bool.eq_false_iff.mp h)
    · exact State.startTx_of_busy h
    · exact State.startTx_of_empty h

end Sys2Proof.Machine

/-! PROOFS. READ_PORT, WRITE_PORT_CONFIG, SET_PORT_MODE and the port report (06). -/

namespace Sys2Proof.Machine

open Sys2Proof

theorem port_eq {n : Nat} {p : PortNo} (h : p.val = n) : (Fin.ofNat 4 n : PortNo) = p := by
  subst h
  exact Fin.ext (Nat.mod_eq_of_lt p.isLt)

section

variable {c : CommandFrame} {f s : State} {p : PortNo}

/-! ### READ_PORT (R119) -/

theorem actReadPort_of_badIndex (h : 3 < c.arg 0) : actReadPort c f s = .answer .badIndex [] s := if_pos h

theorem actReadPort_of_port (h : p.val = c.arg 0) : actReadPort c f s = .answer .ok (s.portReport p) s := by
  have hp := p.isLt
  unfold actReadPort
  rw [if_neg (by omega), port_eq h]

/-! ### WRITE_PORT_CONFIG (R103) -/

theorem actWritePortConfig_of_badIndex (h : 3 < c.arg 0) : actWritePortConfig c f s = .answer .badIndex [] s := by
  simp only [actWritePortConfig, firstRefusal_cons, decide_eq_true h, if_true]

theorem actWritePortConfig_of_badValue (h0 : c.arg 0 ≤ 3) (h : c.arg 2 < 2 ∨ 31 < c.arg 2 ∨ 15 < c.arg 1) :
    actWritePortConfig c f s = .answer .badValue [] s := by
  have hindex : ¬ 3 < c.arg 0 := by omega
  by_cases hlevel : (decide (c.arg 2 < 2) || decide (31 < c.arg 2)) = true
  · simp only [actWritePortConfig, firstRefusal_cons, hindex, hlevel, decide_false, Bool.false_eq_true, if_false,
      if_true]
  · have hflags : 15 < c.arg 1 := by
      have := badLevel_iff.not.mp hlevel
      omega
    simp only [actWritePortConfig, firstRefusal_cons, hindex, hlevel, hflags, decide_false, decide_true,
      Bool.false_eq_true, if_false, if_true]

theorem actWritePortConfig_of_config (hp : p.val = c.arg 0) (h2 : 2 ≤ c.arg 2) (h31 : c.arg 2 ≤ 31)
    (hflags : c.arg 1 ≤ 15) :
    actWritePortConfig c f s = .answer .ok [] (s.writePort p (c.portConfig (s.port p).cfg)) := by
  have hport := p.isLt
  have hindex : ¬ 3 < c.arg 0 := by omega
  have hlevel : ¬ (decide (c.arg 2 < 2) || decide (31 < c.arg 2)) = true := badLevel_iff.not.mpr (by omega)
  have hbits : ¬ 15 < c.arg 1 := by omega
  simp only [actWritePortConfig, firstRefusal_cons, firstRefusal_nil, hindex, hlevel, hbits, decide_false,
    Bool.false_eq_true, if_false, port_eq hp]

/-- R103, R112: a port with a new configuration; a change of AutoRecover may start the recovery wait. -/
def Port.configured (v : Port) (cfg : PortConfig) (now : Word) : Port :=
  if !v.cfg.autoRecover && cfg.autoRecover && v.latch && v.quiet then ({ v with cfg := cfg } : Port).startRecovery now
  else { v with cfg := cfg }

theorem Port.configured_fields (v : Port) (cfg : PortConfig) (now : Word) : (v.configured cfg now).cfg = cfg ∧
    (v.configured cfg now).latch = v.latch ∧ (v.configured cfg now).lineUp = v.lineUp := by
  unfold Port.configured Port.startRecovery
  split <;> exact ⟨rfl, rfl, rfl⟩

theorem Port.startRecovery_of_quiet {v : Port} (hlatch : v.latch = true) (hquiet : v.quiet = true) (now : Word) :
    v.startRecovery now = { v with recoveryStart := some now } := by
  unfold Port.startRecovery
  rw [if_pos (by rw [hlatch, hquiet]; rfl)]

theorem Port.configured_recovery {v : Port} {cfg : PortConfig} (h0 : v.cfg.autoRecover = false)
    (h1 : cfg.autoRecover = true) (hlatch : v.latch = true) (hactive : v.rxActive = false) (now : Word) :
    (v.configured cfg now).recoveryStart = some now := by
  have hquiet : v.quiet = true := by simp [Port.quiet, hactive]
  have hquiet' : ({ v with cfg := cfg } : Port).quiet = true := hquiet
  unfold Port.configured
  rw [if_pos (by rw [h0, h1, hlatch, hquiet]; rfl), Port.startRecovery_of_quiet (v := { v with cfg := cfg }) hlatch hquiet']

theorem Port.stateIn_of_mode {v w : Port} (hmode : w.cfg.mode = v.cfg.mode) (hlatch : w.latch = v.latch)
    (hline : w.lineUp = v.lineUp) (m : Mode) : w.stateIn m = v.stateIn m := by
  rw [Port.stateIn_table, Port.stateIn_table, hmode, hlatch, hline]

theorem State.writePort_turns (s : State) (p : PortNo) {cfg : PortConfig} (hmode : cfg.mode = (s.port p).cfg.mode) :
    PortTurns p (((s.port p).configured cfg s.now).waiting (s.portState p) s.now) s (s.writePort p cfg) := by
  have hm : PortTurns p ((s.port p).configured cfg s.now) s (s.modPort p fun v => v.configured cfg s.now) :=
    s.modPort_turns p fun v => v.configured cfg s.now
  obtain ⟨hcfg, hlatch, hline⟩ := (s.port p).configured_fields cfg s.now
  have hstate : (s.modPort p fun v => v.configured cfg s.now).portState p = s.portState p :=
    hm.portState.trans (Port.stateIn_of_mode (by rw [hcfg, hmode]) hlatch hline _)
  have hw := State.startSilence_turns (s.modPort p fun v => v.configured cfg s.now) p
  rw [hm.same, hstate] at hw
  exact hm.trans hw

/-! ### SET_PORT_MODE (R106) -/

theorem PortMode.ofCode_eq {n : Nat} {m : PortMode} (h : m.code = n) : PortMode.ofCode n = some m := by
  subst h
  cases m <;> rfl

theorem PortMode.ofCode_none {n : Nat} (h : 3 < n) : PortMode.ofCode n = none := by
  match n, h with
  | _ + 4, _ => rfl

theorem actSetPortMode_of_badIndex (h : 3 < c.arg 0) : actSetPortMode c f s = .answer .badIndex [] s := by
  simp only [actSetPortMode, firstRefusal_cons, decide_eq_true h, if_true]

theorem actSetPortMode_of_badValue (h0 : c.arg 0 ≤ 3) (h : 3 < c.arg 1) :
    actSetPortMode c f s = .answer .badValue [] s := by
  have hindex : ¬ 3 < c.arg 0 := by omega
  simp only [actSetPortMode, firstRefusal_cons, hindex, PortMode.ofCode_none h, Option.isNone_none, decide_false,
    Bool.false_eq_true, if_false, if_true]

theorem PortMode.code_ne_offline {m : PortMode} : (m.code != PortMode.offline.code) = true ↔ m ≠ .offline := by
  cases m <;> simp [PortMode.code]

theorem actSetPortMode_of_mode {m : PortMode} (hp : p.val = c.arg 0) (hm : m.code = c.arg 1) :
    actSetPortMode c f s = if (s.port p).latch = true ∧ (s.port p).rxActive = true ∧ m ≠ .offline then
      .answer .lineBusy [] s else .answer .ok [] (s.setPortMode p m) := by
  have hport := p.isLt
  have hindex : ¬ 3 < c.arg 0 := by omega
  have hbusy : ((s.port p).latch && (s.port p).rxActive && c.arg 1 != PortMode.offline.code) = true ↔
      (s.port p).latch = true ∧ (s.port p).rxActive = true ∧ m ≠ .offline := by
    rw [← hm, Bool.and_eq_true, Bool.and_eq_true, PortMode.code_ne_offline, and_assoc]
  unfold actSetPortMode
  simp only [firstRefusal_cons, firstRefusal_nil, hindex, port_eq hp, PortMode.ofCode_eq hm, Option.isNone_some,
    decide_false, Bool.false_eq_true, if_false, hbusy, Option.getD_some]
  by_cases hline : (s.port p).latch = true ∧ (s.port p).rxActive = true ∧ m ≠ .offline
  · rw [if_pos hline, if_pos hline]
  · rw [if_neg hline, if_neg hline]

theorem State.setPortMode_port (s : State) (p : PortNo) (m : PortMode) :
    ((s.setPortMode p m).port p).cfg = { (s.port p).cfg with mode := m } ∧ ((s.setPortMode p m).port p).latch = false := by
  have ht := s.changePort_turns p fun v => { v with cfg := { v.cfg with mode := m }, latch := false, recoveryStart := none }
  have halike := Port.reacts_alike
    { s.port p with cfg := { (s.port p).cfg with mode := m }, latch := false, recoveryStart := none } (s.portState p)
    (({ s.port p with cfg := { (s.port p).cfg with mode := m }, latch := false, recoveryStart := none } : Port).stateIn
      s.ctl.mode) s.now
  unfold State.setPortMode
  rw [ht.same]
  exact ⟨halike.1, halike.2.1⟩

end

/-! ### The port report (R119, R188) -/

theorem numOr255_min_of_least {α : Type} (key : α → Nat) {xs : List α} {x : α} (hx : x ∈ xs)
    (h : ∀ y ∈ xs, key x ≤ key y) : numOr255 (xs.map key).min? = byteOf (key x) := by
  have hmin : (xs.map key).min? = some (key x) := by
    refine List.min?_eq_some_iff.mpr ⟨List.mem_map_of_mem hx, fun b hb => ?_⟩
    obtain ⟨y, hy, rfl⟩ := List.mem_map.mp hb
    exact h y hy
  rw [hmin]
  rfl

theorem numOr255_max_of_greatest {α : Type} (key : α → Nat) {xs : List α} {x : α} (hx : x ∈ xs)
    (h : ∀ y ∈ xs, key y ≤ key x) : numOr255 (xs.map key).max? = byteOf (key x) := by
  have hmax : (xs.map key).max? = some (key x) := by
    refine List.max?_eq_some_iff.mpr ⟨List.mem_map_of_mem hx, fun b hb => ?_⟩
    obtain ⟨y, hy, rfl⟩ := List.mem_map.mp hb
    exact h y hy
  rw [hmax]
  rfl

section

variable (s : State) (p : PortNo)

/-- The levels of the frames in the egress queue of a port. -/
def State.egressLevels : List Nat := (s.port p).queue.map fun e => (s.entryAt e).level.val

theorem State.portReport_eq : s.portReport p =
    [byteOf (s.port p).cfg.mode.code,
      flagsByte [decide ((s.port p).cfg.defaultAction = .drop), (s.port p).cfg.sourceCheck,
        (s.port p).cfg.commandsAllowed, (s.port p).cfg.autoRecover],
      byteOf (s.port p).cfg.defaultLevel.val, byteOf (s.port p).cfg.silenceTime, byteOf (s.portState p).code,
      flagsByte [(s.port p).latch, (s.port p).silent, (s.port p).lineUp, (s.port p).rxActive,
        decide ((s.port p).rx ≠ .idle), (s.port p).tx.isSome],
      byteOf (s.port p).queue.length, numOr255 (s.egressLevels p).min?, numOr255 (s.egressLevels p).max?,
      ((s.port p).tx.map fun x => byteOf (s.entryAt x.entry).level.val).getD 255] ++
    bytes4 (s.port p).rxFrames ++ bytes4 (s.port p).rxErrors ++ bytes4 (s.port p).drops ++
    bytes4 (s.port p).txFrames ++ bytes4 (s.port p).txAborted ++ bytes4 (s.port p).jabberEvents := by
  have hrx : ((s.port p).rx != .idle) = decide ((s.port p).rx ≠ .idle) := by
    cases (s.port p).rx <;> simp
  unfold State.portReport PortConfig.flags
  dsimp only
  rw [numOr255_map, Action.isDrop_eq, hrx]
  rfl

theorem State.portReport_length : (s.portReport p).length = 34 := by
  rw [State.portReport_eq]
  rfl

end

/-- Settles O46: each command's checks are passed in their order, and the change it makes is a change of the one port it
names. -/
theorem portCommandsComplete : Obligations.PortCommandsComplete := by
  unfold Obligations.PortCommandsComplete
  refine ⟨fun s found t c e => ⟨?read, ?config, ?mode⟩, ?report⟩
  case read =>
    intro h
    exact ⟨fun hbad => h.answers (actReadPort_of_badIndex hbad), fun p hp => h.answers (actReadPort_of_port hp)⟩
  case config =>
    intro h
    refine ⟨fun hbad => h.answers (actWritePortConfig_of_badIndex hbad), fun p hp => ⟨fun hbad => ?_,
      fun h2 h31 hflags => ⟨t.writePort p (c.portConfig (t.port p).cfg),
        h.answers (actWritePortConfig_of_config hp h2 h31 hflags), ?_⟩⟩⟩
    · have hport := p.isLt
      exact h.answers (actWritePortConfig_of_badValue (by omega) hbad)
    · have ht := t.writePort_turns p (cfg := c.portConfig (t.port p).cfg) rfl
      obtain ⟨hcfg, hlatch, hline⟩ := (t.port p).configured_fields (c.portConfig (t.port p).cfg) t.now
      refine ⟨ht.other, ?_, ?_, fun h0 h1 h3 h4 => ?_, ?_⟩
      · rw [ht.same]
        exact hcfg
      · rw [ht.same]
        unfold Port.waiting
        rw [hcfg]
        simp only [Bool.and_eq_true, decide_eq_true_eq]
        rfl
      · rw [ht.same]
        exact Port.configured_recovery h0 h1 h3 h4 t.now
      · rw [ht.portState]
        exact Port.stateIn_of_mode ((congrArg PortConfig.mode hcfg).trans rfl) hlatch hline _
  case mode =>
    intro h
    refine ⟨fun hbad => h.answers (actSetPortMode_of_badIndex hbad), fun p hp => ⟨fun hbad => ?_,
      fun m hm => ⟨fun h0 h1 h2 => ?_, fun hfree => ⟨?_, t.setPortMode_port p m⟩⟩⟩⟩
    · have hport := p.isLt
      exact h.answers (actSetPortMode_of_badValue (by omega) hbad)
    · exact h.answers ((actSetPortMode_of_mode hp hm).trans (if_pos ⟨h0, h1, h2⟩))
    · refine h.answers ((actSetPortMode_of_mode hp hm).trans (if_neg fun hbusy => ?_))
      obtain ⟨hlatch, hactive, hmode⟩ := hbusy
      rcases hfree with h0 | h0 | h0
      · rw [h0] at hlatch
        cases hlatch
      · rw [h0] at hactive
        cases hactive
      · exact hmode h0
  case report =>
    intro t p v level
    refine ⟨_, _, t.portReport_eq p, t.portReport_length p, fun hq => ?_, fun e he => ⟨fun hle => ?_, fun hle => ?_⟩⟩
    · have hnone : t.egressLevels p = [] := by
        unfold State.egressLevels
        rw [hq]
        rfl
      rw [hnone]
      exact ⟨rfl, rfl⟩
    · exact numOr255_min_of_least (fun e => (t.entryAt e).level.val) he hle
    · exact numOr255_max_of_greatest (fun e => (t.entryAt e).level.val) he hle

end Sys2Proof.Machine

/-! PROOFS. Jabber, the waits for recovery and silence, and the line of a station link (06). -/

namespace Sys2Proof.Machine

open Sys2Proof

/-! ### What a change of the effective state keeps of a port -/

/-- The parts of a port that no change of its effective state touches. -/
def Port.SameBeside (v w : Port) : Prop :=
  w.recoveryStart = v.recoveryStart ∧ w.jabberEvents = v.jabberEvents ∧ w.rxActive = v.rxActive

section

variable (v : Port) (old new : PortState) (now : Word)

theorem Port.left_sameBeside : v.SameBeside (v.left old new) := by
  unfold Port.left
  split <;> split <;> exact ⟨rfl, rfl, rfl⟩

theorem Port.watched_sameBeside : v.SameBeside (v.watched old new now) := by
  unfold Port.watched
  split <;> exact ⟨rfl, rfl, rfl⟩

theorem Port.started_sameBeside (x : PortState) : v.SameBeside (v.started x) := by
  unfold Port.started
  split
  · split <;> exact ⟨rfl, rfl, rfl⟩
  · exact ⟨rfl, rfl, rfl⟩

theorem Port.reacts_sameBeside : v.SameBeside (v.reacts old new now) := by
  unfold Port.reacts
  split
  · exact ⟨rfl, rfl, rfl⟩
  · obtain ⟨h1, h2, h3⟩ := v.left_sameBeside old new
    obtain ⟨h1', h2', h3'⟩ := (v.left old new).watched_sameBeside old new now
    obtain ⟨h1'', h2'', h3''⟩ := ((v.left old new).watched old new now).started_sameBeside new
    exact ⟨h1''.trans (h1'.trans h1), h2''.trans (h2'.trans h2), h3''.trans (h3'.trans h3)⟩

theorem Port.started_rx (x : PortState) : (v.started x).rx = v.rx := by
  unfold Port.started
  split
  · split <;> rfl
  · rfl

/-- R110: with no receive in progress, none is after the change. -/
theorem Port.reacts_rx_of_idle (h : v.rx = .idle) : (v.reacts old new now).rx = .idle := by
  unfold Port.reacts
  split
  · exact h
  · rw [Port.started_rx, ((v.left old new).watched_fields old new now).1]
    unfold Port.left
    split
    · split <;> exact h
    · rfl

/-- R110: a port that comes to neither receive nor stay as it was has no receive in progress. -/
theorem Port.reacts_rx_of_leaving (h : new.receives = false) (hne : new ≠ old) :
    (v.reacts old new now).rx = .idle := by
  rw [v.reacts_of_ne now hne, Port.started_rx, ((v.left old new).watched_fields old new now).1, v.left_rx old new h]

/-- R105: a port that leaves Active and Loopback has nothing left to transmit. -/
theorem Port.reacts_transmit_of_leaving (h0 : old.transmits = true) (h1 : new.transmits = false) :
    (v.reacts old new now).queue = [] ∧ (v.reacts old new now).tx = none := by
  have hne : new ≠ old := fun h => by
    rw [h, h0] at h1
    cases h1
  obtain ⟨_, hqueue, htx, _, _⟩ := (v.left old new).watched_fields old new now
  rw [v.reacts_of_ne now hne, Port.started_of_not_transmits _ h1, hqueue, htx]
  exact v.left_transmit old new h0 h1

end

/-! ### Rows of R104's table, read backwards -/

section

variable {m : Mode} {v w : Port}

/-- Neither the mode of the part nor the configuration keeps the port Offline. -/
def Port.inService (v : Port) (m : Mode) : Prop := ¬ (m = .init ∨ m = .setup ∨ v.cfg.mode = .offline)

theorem Port.of_receives (h : (v.stateIn m).receives = true) :
    v.inService m ∧ v.latch = false ∧ v.lineUp = true ∧ v.cfg.mode.effective = v.stateIn m := by
  rw [Port.stateIn_table] at h ⊢
  split at h
  · cases h
  · next hon =>
    split at h
    · cases h
    · next hlatch =>
      split at h
      · cases h
      · next hline =>
        rw [if_neg hon, if_neg hlatch, if_neg hline]
        refine ⟨hon, Bool.eq_false_of_not_eq_true hlatch, ?_, rfl⟩
        by_contra hup
        refine hline ⟨Bool.eq_false_of_not_eq_true hup, fun hloop => ?_⟩
        rw [hloop] at h
        cases h

theorem Port.of_down (h : v.stateIn m = .down) : v.inService m ∧ v.latch = false := by
  rw [Port.stateIn_table] at h
  split at h
  · cases h
  · next hon =>
    split at h
    · cases h
    · next hlatch => exact ⟨hon, Bool.eq_false_of_not_eq_true hlatch⟩

theorem Port.stateIn_of_latch (h : w.inService m) (hlatch : w.latch = true) : w.stateIn m = .isolated := by
  rw [Port.stateIn_table, if_neg h, if_pos hlatch]

theorem Port.stateIn_of_lineDown (h : w.inService m) (hlatch : w.latch = false) (hline : w.lineUp = false)
    (hmode : w.cfg.mode ≠ .loopback) : w.stateIn m = .down := by
  rw [Port.stateIn_table, if_neg h, if_neg (by rw [hlatch]; decide), if_pos ⟨hline, hmode⟩]

theorem Port.stateIn_of_lineUp (h : w.inService m) (hlatch : w.latch = false) (hline : w.lineUp = true) :
    w.stateIn m = w.cfg.mode.effective := by
  rw [Port.stateIn_table, if_neg h, if_neg (by rw [hlatch]; decide), if_neg (by rw [hline]; simp)]

end

/-! ### Jabber (R111) -/

/-- R111: a port at which jabber is detected, before it acts on the isolation. -/
def Port.jabbered (v : Port) (now : Word) : Port :=
  ({ v.discarded false with latch := true, jabberEvents := bump v.jabberEvents } : Port).startRecovery now

/-- R111: jabber is counted and latched at a port; nothing has been raised yet. -/
def State.jabberLatched (s : State) (p : PortNo) : State :=
  (s.discardReceive p false).modPort p fun v =>
    ({ v with latch := true, jabberEvents := bump v.jabberEvents } : Port).startRecovery s.now

theorem State.jabber_eq (s : State) (p : PortNo) : s.jabber p =
    ((s.jabberLatched p).raise .portJabber { port := some p }).portReacts p (s.portState p) := rfl

theorem State.jabberLatched_turns (s : State) (p : PortNo) :
    PortTurns p ((s.port p).jabbered s.now) s (s.jabberLatched p) :=
  (s.discardReceive_turns p false).modPort fun v =>
    ({ v with latch := true, jabberEvents := bump v.jabberEvents } : Port).startRecovery s.now

theorem State.jabber_port (s : State) (p : PortNo) : (s.jabber p).port p =
    ((s.port p).jabbered s.now).reacts (s.portState p) (((s.port p).jabbered s.now).stateIn s.ctl.mode) s.now := by
  have ht := s.jabberLatched_turns p
  have hl := (s.jabberLatched p).raise_leaves .portJabber { port := some p }
  have hport := (s.jabberLatched p).port_raise .portJabber { port := some p } p
  have hr := State.portReacts_turns ((s.jabberLatched p).raise .portJabber { port := some p }) p (s.portState p)
  have hstate : ((s.jabberLatched p).raise .portJabber { port := some p }).portState p =
      ((s.port p).jabbered s.now).stateIn s.ctl.mode := by
    rw [State.portState, hport, hl.ctl, ht.same, ht.leaves.ctl]
  rw [State.jabber_eq, hr.same, hstate, hport, hl.now, ht.same, ht.leaves.now]

theorem State.jabber_ctl (s : State) (p : PortNo) : (s.jabber p).ctl = s.ctl := by
  rw [State.jabber_eq, (State.portReacts_turns _ p _).leaves.ctl, (State.raise_leaves _ _ _).ctl,
    (s.jabberLatched_turns p).leaves.ctl]

/-- A step leaves the Fault Unit alone. -/
def SameFault (s t : State) : Prop := t.fault = s.fault

theorem sameFault_kept : KeptByPorts SameFault where
  refl _ := rfl
  trans h h' := h'.trans h
  release s e := s.release_fault e
  port _ _ _ := rfl

theorem State.jabber_has (s : State) (p : PortNo) : KindSet.has (s.jabber p).fault.summary .portJabber = true := by
  have hf : (s.jabber p).fault = ((s.jabberLatched p).raise .portJabber { port := some p }).fault := by
    rw [State.jabber_eq]
    exact sameFault_kept.portReacts _ p (s.portState p)
  rw [hf]
  exact State.raise_has_self _ _ _

theorem State.jabber_fields (s : State) (p : PortNo) : ((s.jabber p).port p).latch = true ∧
    ((s.jabber p).port p).jabberEvents = bump (s.port p).jabberEvents ∧ ((s.jabber p).port p).rx = .idle := by
  rw [State.jabber_port]
  obtain ⟨_, hevents, _⟩ := Port.reacts_sameBeside ((s.port p).jabbered s.now) (s.portState p)
    (((s.port p).jabbered s.now).stateIn s.ctl.mode) s.now
  refine ⟨(Port.reacts_alike _ _ _ _).2.1, hevents, Port.reacts_rx_of_idle _ _ _ _ rfl⟩

theorem State.jabber_isolates {s : State} {p : PortNo} (h : (s.portState p).receives = true) :
    ((s.port p).jabbered s.now).stateIn s.ctl.mode = .isolated :=
  Port.stateIn_of_latch (Port.of_receives h).1 rfl

theorem State.jabber_portState {s : State} {p : PortNo} (h : (s.portState p).receives = true) :
    (s.jabber p).portState p = .isolated := by
  rw [State.portState, State.jabber_port, State.jabber_ctl, (Port.reacts_alike _ _ _ _).stateIn, State.jabber_isolates h]

theorem State.jabber_transmit {s : State} {p : PortNo} (h : s.portState p = .active) :
    ((s.jabber p).port p).queue = [] ∧ ((s.jabber p).port p).tx = none := by
  rw [State.jabber_port, State.jabber_isolates (by rw [h]; rfl), h]
  exact Port.reacts_transmit_of_leaving _ _ _ _ rfl rfl

/-! ### The events of R111, R112 and R113 -/

section

variable {s : State} {p : PortNo}

theorem exec_excessPayloadByte (h : (∃ e x, (s.port p).rx = .storing e x) ∨ (s.port p).rx = .unstored) :
    exec (.excessPayloadByte p) s = .next (s.jabber p).settle := by
  change execExcessPayloadByte p s = _
  unfold execExcessPayloadByte
  rcases h with ⟨e, x, h⟩ | h
  · rw [h]
    rfl
  · rw [h]
    rfl

theorem exec_jabberTimeout {since : Word} (h : (s.portState p).receives = true) (hactive : (s.port p).rxActive = true)
    (hsince : (s.port p).activeSince = some since) (hlong : 2000 < elapsed since s.now) :
    exec (.jabberTimeout p) s = .next (s.jabber p).settle := by
  have hdue : s.jabberDue p = true := by
    unfold State.jabberDue
    rw [h, hactive, hsince]
    exact decide_eq_true hlong
  change execJabberTimeout p s = _
  unfold execJabberTimeout
  rw [if_pos hdue]
  rfl

theorem exec_jabberRecovery {since : Word} (hlatch : (s.port p).latch = true)
    (hsince : (s.port p).recoveryStart = some since) (hlong : 100000 ≤ elapsed since s.now) :
    exec (.jabberRecovery p) s = .next (s.recover p).settle := by
  have hdue : s.recoveryDue p = true := by
    unfold State.recoveryDue
    rw [hlatch, hsince]
    exact decide_eq_true hlong
  change execJabberRecovery p s = _
  unfold execJabberRecovery
  rw [if_pos hdue]
  rfl

theorem State.recover_port (s : State) (p : PortNo) : ((s.recover p).port p).recoveryStart = none ∧
    ((s.port p).cfg.autoRecover = true → ((s.recover p).port p).latch = false) ∧
    ((s.port p).cfg.autoRecover = false → ((s.recover p).port p).latch = (s.port p).latch) := by
  unfold State.recover
  cases hauto : (s.port p).cfg.autoRecover with
  | true =>
    rw [if_pos rfl, (s.changePort_turns p fun v => { v with latch := false, recoveryStart := none }).same]
    obtain ⟨hrecovery, _, _⟩ := Port.reacts_sameBeside { s.port p with latch := false, recoveryStart := none }
      (s.portState p) (({ s.port p with latch := false, recoveryStart := none } : Port).stateIn s.ctl.mode) s.now
    exact ⟨hrecovery, fun _ => (Port.reacts_alike _ _ _ _).2.1, nofun⟩
  | false =>
    rw [if_neg (by decide), State.port_modPort_same]
    exact ⟨rfl, nofun, fun _ => rfl⟩

theorem exec_silenceTimeout {since : Word} (h : (s.portState p).receives = true) (htime : 0 < (s.port p).cfg.silenceTime)
    (hsince : (s.port p).silenceStart = some since) (hlong : (s.port p).cfg.silenceTime * 10000 ≤ elapsed since s.now) :
    exec (.silenceTimeout p) s = .next (s.goSilent p).settle := by
  have hdue : s.silenceDue p = true := by
    unfold State.silenceDue
    rw [h, hsince, decide_eq_true htime]
    exact decide_eq_true hlong
  change execSilenceTimeout p s = _
  unfold execSilenceTimeout
  rw [if_pos hdue]
  rfl

theorem State.goSilent_port (s : State) (p : PortNo) : ((s.goSilent p).port p).silent = true ∧
    ((s.goSilent p).port p).silenceStart = none ∧
    ((s.port p).silent = false → KindSet.has (s.goSilent p).fault.summary .portSilent = true) ∧
    ((s.port p).silent = true → (s.goSilent p).fault = s.fault) := by
  unfold State.goSilent
  cases hsilent : (s.port p).silent with
  | true =>
    rw [if_pos rfl, State.port_modPort_same]
    exact ⟨hsilent, rfl, nofun, fun _ => rfl⟩
  | false =>
    rw [if_neg (by decide), State.port_raise, State.port_modPort_same]
    exact ⟨rfl, rfl, fun _ => State.raise_has_self _ _ _, nofun⟩

end

/-- Settles O50: jabber latches the port whatever it does, so R104's table isolates a port that received. -/
theorem jabberIsolatesAndTimesPass : Obligations.JabberIsolatesAndTimesPass := by
  unfold Obligations.JabberIsolatesAndTimesPass
  refine ⟨fun s p => ⟨exec_excessPayloadByte, fun since h0 h1 h2 h3 => exec_jabberTimeout h0 h1 h2 h3, ?_,
    State.jabber_portState, State.jabber_transmit⟩, fun s p since hlatch hsince hlong => ?_,
    fun s p since h htime hsince hlong => ⟨s.goSilent p, exec_silenceTimeout h htime hsince hlong, s.goSilent_port p⟩⟩
  · obtain ⟨hlatch, hevents, hrx⟩ := s.jabber_fields p
    exact ⟨hlatch, hevents, hrx, s.jabber_has p⟩
  · obtain ⟨hrecovery, hon, hoff⟩ := s.recover_port p
    exact ⟨s.recover p, exec_jabberRecovery hlatch hsince hlong, hrecovery, hon, fun h => (hoff h).trans hlatch⟩

end Sys2Proof.Machine

/-! PROOFS. The receive of a station frame, from the line going active to the good frame handled (06). -/

namespace Sys2Proof.Machine

open Sys2Proof

section

variable {s : State} {p : PortNo}

/-! ### RECEIVE_LINE_ACTIVE (R107, R111, R112) -/

/-- R107: a port whose receive line goes active. -/
def Port.goesActive (v : Port) (receives : Bool) (now : Word) : Port :=
  { v with
    rxActive := true
    rx := if receives then .header else v.rx
    activeSince := if receives then some now else v.activeSince }

/-- R112: the recovery wait follows the line and touches nothing else of a port. -/
theorem Port.watchLine_eq (old new : Port) (now : Word) :
    Port.watchLine old new now = { new with recoveryStart := (Port.watchLine old new now).recoveryStart } := by
  unfold Port.watchLine Port.startRecovery
  split <;> rfl

theorem Port.watchLine_recovery {old new : Port} (hlatch : new.latch = true) (hold : old.quiet = true)
    (hnew : new.quiet = false) (now : Word) : (Port.watchLine old new now).recoveryStart = none := by
  unfold Port.watchLine Port.startRecovery
  rw [hlatch, hold, hnew]
  rfl

theorem State.lineActive_turns (s : State) (p : PortNo) : PortTurns p
    ((s.port p).watchLine ((s.port p).goesActive (s.portState p).receives s.now) s.now) s (s.lineActive p) :=
  s.modPort_turns p fun v => v.watchLine (v.goesActive (s.portState p).receives s.now) s.now

theorem exec_receiveLineActive (hm : s.ctl.mode ≠ .init) (hactive : (s.port p).rxActive = false) :
    exec (.receiveLineActive p) s = .next ((s.setReceivePin p true).lineActive p).settle := by
  change execReceiveLineActive p s = _
  unfold execReceiveLineActive
  dsimp only
  rw [if_neg (show ¬ ((s.setReceivePin p true).ctl.mode = .init ∨ ((s.setReceivePin p true).port p).rxActive = true) from
    not_or.mpr ⟨hm, by rw [show ((s.setReceivePin p true).port p).rxActive = false from hactive]; decide⟩)]
  rfl

/-! ### HEADER_RECEIVED (R107) -/

theorem exec_headerReceived (hrx : (s.port p).rx = .header) (h : StationHeader) :
    exec (.headerReceived p h) s = .next (s.takeHeader p h).settle := by
  change execHeaderReceived p h s = _
  unfold execHeaderReceived
  rw [hrx]
  rfl

theorem State.takeHeader_of_unlawful {h : StationHeader} (hlen : h.len.toNat = 0 ∨ 496 < h.len.toNat) :
    s.takeHeader p h = s.jabber p := if_pos hlen

theorem State.takeHeader_of_granted {h : StationHeader} (h1 : 1 ≤ h.len.toNat) (h496 : h.len.toNat ≤ 496)
    {e : EntryNo} {t : State} (ha : s.allocTraffic (stationEntry p h) = (some e, t)) :
    s.takeHeader p h = t.modPort p fun v => { v with rx := .storing e h } := by
  unfold State.takeHeader
  rw [if_neg (show ¬ (h.len.toNat = 0 ∨ Config.maxPayload < h.len.toNat) from fun hbad => by
    unfold Config.maxPayload at hbad
    omega), ha]

theorem State.takeHeader_of_refused {h : StationHeader} (h1 : 1 ≤ h.len.toNat) (h496 : h.len.toNat ≤ 496)
    {t : State} (ha : s.allocTraffic (stationEntry p h) = (none, t)) :
    s.takeHeader p h = (t.modPort p fun v => { v with rx := .unstored, drops := bump v.drops }).raise .poolExhausted
      { port := some p } := by
  unfold State.takeHeader
  rw [if_neg (show ¬ (h.len.toNat = 0 ∨ Config.maxPayload < h.len.toNat) from fun hbad => by
    unfold Config.maxPayload at hbad
    omega), ha]
  rfl

end

/-- Settles O48: a line that goes active breaks a recovery wait and begins a receive where R104 has the port receive. -/
theorem receiveBeginsAndAsksForStorage : Obligations.ReceiveBeginsAndAsksForStorage := by
  unfold Obligations.ReceiveBeginsAndAsksForStorage
  refine ⟨fun s p hm hactive => ⟨(s.setReceivePin p true).lineActive p, exec_receiveLineActive hm hactive, rfl, ?_⟩,
    fun s p h hrx => ⟨fun hlen => ?_, fun h1 h496 => ⟨fun e t ha => ?_, fun t ha => ?_⟩⟩⟩
  · have ht := (s.setReceivePin p true).lineActive_turns p
    have hstate : (s.setReceivePin p true).portState p = s.portState p := rfl
    have hport : (s.setReceivePin p true).port p = s.port p := rfl
    rw [hport, hstate] at ht
    refine ⟨ht.other, ?_, fun h => ?_, fun h => ?_, fun hlatch hline => ?_⟩
    · rw [ht.same, Port.watchLine_eq]
      rfl
    · rw [ht.same, Port.watchLine_eq, h]
      exact ⟨rfl, rfl⟩
    · rw [ht.same, Port.watchLine_eq, h]
      exact ⟨rfl, rfl⟩
    · rw [ht.same]
      refine Port.watchLine_recovery (new := (s.port p).goesActive _ _) hlatch ?_ ?_ _
      · simp [Port.quiet, hactive]
      · simp [Port.quiet, Port.goesActive, hline]
  · rw [exec_headerReceived hrx, State.takeHeader_of_unlawful hlen]
  · rw [exec_headerReceived hrx, State.takeHeader_of_granted h1 h496 ha]
  · rw [exec_headerReceived hrx, State.takeHeader_of_refused h1 h496 ha]

/-! ### RECEIVE_LINE_SILENT (R107, R108, R111) -/

section

variable {s : State} {p : PortNo} {bytes : List Byte} {cells : List CellNo}

/-- R107: the state in which a receive ends: the bytes lie in the cells, some cells have gone bad, the pin is silent. -/
def State.arrived (s : State) (p : PortNo) (bytes : List Byte) (cells : List CellNo) : State :=
  ((s.arrive p bytes).corrupt cells).setReceivePin p false

theorem State.arrived_port (s : State) (p : PortNo) (bytes : List Byte) (cells : List CellNo) :
    (s.arrived p bytes cells).port p = s.port p := by
  have h : (s.arrive p bytes).port p = s.port p := by
    unfold State.arrive
    split <;> rfl
  exact h

theorem State.arrived_of_not_stored (h : (s.port p).rx.stored = false) :
    s.arrived p bytes cells = (s.corrupt cells).setReceivePin p false := by
  unfold State.arrived State.arrive
  split
  · next e x heq =>
    rw [heq] at h
    cases h
  · rfl
  · rfl
  · rfl

theorem State.arrived_of_storing {e : EntryNo} {x : StationHeader} (h : (s.port p).rx = .storing e x) :
    s.arrived p bytes cells = ((s.writePayload e 0 bytes).corrupt cells).setReceivePin p false := by
  unfold State.arrived State.arrive
  rw [h]

theorem State.lineSilent_rx (s : State) (p : PortNo) : ((s.lineSilent p).port p).rx = (s.port p).rx := by
  unfold State.lineSilent
  rw [State.port_modPort_same, Port.watchLine_rx]

theorem exec_receiveLineSilent (hm : s.ctl.mode ≠ .init) (hactive : (s.port p).rxActive = true) :
    exec (.receiveLineSilent p bytes cells) s =
      .next ((((s.arrived p bytes cells).jabberIfOverlong p bytes).lineSilent p).endReceive p bytes).settle := by
  change execReceiveLineSilent p bytes cells s = _
  unfold execReceiveLineSilent
  rw [if_neg (not_or.mpr ⟨hm, by rw [hactive]; decide⟩)]
  rfl

theorem State.endReceive_of_idle (h : (s.port p).rx = .idle) : s.endReceive p bytes = s := by
  unfold State.endReceive
  rw [h]

theorem State.endReceive_of_header (h : (s.port p).rx = .header) : s.endReceive p bytes = s.countRxError p := by
  unfold State.endReceive
  rw [h]

theorem State.endReceive_of_unstored (h : (s.port p).rx = .unstored) :
    s.endReceive p bytes = s.modPort p fun v => { v with rx := .idle } := by
  unfold State.endReceive
  rw [h]

theorem State.endReceive_of_storing {e : EntryNo} {x : StationHeader} (h : (s.port p).rx = .storing e x) :
    s.endReceive p bytes =
      if stationFrameGood x bytes then (s.countGood p).handleGood p e else (s.release e).countRxError p := by
  unfold State.endReceive
  rw [h]

/-- R111: 498 bytes after the header are the most that a frame may have: its payload and the CRC-16. -/
theorem State.overlong_iff : s.overlong p bytes = true ↔
    ((s.port p).rx.stored = true ∨ (s.port p).rx = .unstored) ∧ 498 < bytes.length := by
  unfold State.overlong
  split
  · next e x h =>
    rw [h, and_iff_right (.inl rfl)]
    exact decide_eq_true_iff
  · next h =>
    rw [h, and_iff_right (.inr rfl)]
    exact decide_eq_true_iff
  · next h => simp [h, Receive.stored]
  · next h => simp [h, Receive.stored]

theorem State.jabberIfOverlong_of_not (h : ¬ (((s.port p).rx.stored = true ∨ (s.port p).rx = .unstored) ∧
    498 < bytes.length)) : s.jabberIfOverlong p bytes = s := if_neg (State.overlong_iff.not.mpr h)

theorem State.jabberIfOverlong_of (h : (s.port p).rx.stored = true ∨ (s.port p).rx = .unstored)
    (hlen : 498 < bytes.length) : s.jabberIfOverlong p bytes = s.jabber p := if_pos (State.overlong_iff.mpr ⟨h, hlen⟩)

/-- R111: a frame that was jabber has no receive left to end. -/
theorem State.endReceive_of_jabber (s : State) (p : PortNo) :
    ((s.jabber p).lineSilent p).endReceive p bytes = (s.jabber p).lineSilent p :=
  State.endReceive_of_idle (by rw [State.lineSilent_rx]; exact (s.jabber_fields p).2.2)

theorem stationFrameGood_iff {x : StationHeader} : stationFrameGood x bytes = true ↔
    bytes.length = x.len.toNat + 2 ∧ num2 bytes x.len.toNat =
      (crc16 ([x.dst, x.src, x.cls, x.typ] ++ bytes2 x.len.toNat ++ bytes.take x.len.toNat)).toNat := by
  unfold stationFrameGood
  rw [Bool.and_eq_true, beq_iff_eq, beq_iff_eq]
  rfl

/-! ### A good frame (R93, R109) -/

variable {e : EntryNo}

theorem State.handleGood_of_badSource (h : (s.port p).cfg.sourceCheck = true ∧
    s.disposition (s.entryAt e).src ≠ .port p) : s.handleGood p e = s.dropAt p e := by
  have hs : ¬ s.sourcePasses p (s.entryAt e) = true := fun hp => (s.sourcePasses_iff p _).mp hp h
  simp [State.handleGood, hs]

theorem State.handleGood_of_command (h : ¬ ((s.port p).cfg.sourceCheck = true ∧
    s.disposition (s.entryAt e).src ≠ .port p)) (hc : (s.entryAt e).dst = s.self ∧ (s.entryAt e).ptype = .command) :
    s.handleGood p e = if (s.port p).cfg.commandsAllowed then s.offerFifo e
      else (s.dropAt p e).raise .accessDenied { port := some p, node := some (s.entryAt e).src } := by
  simp [State.handleGood, (s.sourcePasses_iff p _).mpr h, hc]

theorem State.handleGood_of_active (h : ¬ ((s.port p).cfg.sourceCheck = true ∧
    s.disposition (s.entryAt e).src ≠ .port p))
    (hc : ¬ ((s.entryAt e).dst = s.self ∧ (s.entryAt e).ptype = .command)) (ha : s.portState p = .active) :
    s.handleGood p e = s.classifyAndDecide p e := by
  simp [State.handleGood, (s.sourcePasses_iff p _).mpr h, hc, ha]

theorem State.classifyAndDecide_eq (s : State) (p : PortNo) (e : EntryNo) : s.classifyAndDecide p e =
    if (s.classify p e).1 = true then (s.classify p e).2.decideDestination p e else (s.classify p e).2.dropAt p e := by
  unfold State.classifyAndDecide
  cases h : s.classify p e with
  | mk b t => cases b <;> rfl

end

/-- Settles O49: the bytes arrived before the line fell silent, so a frame of more than 498 was jabber by then; the others
are judged by what their receive had come to. -/
theorem frameEndIsCheckedAndHandled : Obligations.FrameEndIsCheckedAndHandled := by
  unfold Obligations.FrameEndIsCheckedAndHandled
  refine ⟨fun s p bytes cells hm hactive => ?receive, fun s p e => ?good⟩
  case receive =>
    have hrun := exec_receiveLineSilent (bytes := bytes) (cells := cells) hm hactive
    have hport := s.arrived_port p bytes cells
    refine ⟨fun h => ?_, fun h => ?_, fun h => ?_, fun e x h => ?_⟩
    · rw [State.jabberIfOverlong_of_not (by rw [hport, h]; simp [Receive.stored]),
        State.endReceive_of_idle (by rw [State.lineSilent_rx, hport, h]),
        State.arrived_of_not_stored (by rw [h]; rfl)] at hrun
      exact hrun
    · rw [State.jabberIfOverlong_of_not (by rw [hport, h]; simp [Receive.stored]),
        State.endReceive_of_header (by rw [State.lineSilent_rx, hport, h]),
        State.arrived_of_not_stored (by rw [h]; rfl)] at hrun
      exact hrun
    · refine ⟨fun hlen => ?_, fun hlen => ?_⟩
      · rw [State.jabberIfOverlong_of_not (by omega), State.endReceive_of_unstored (by rw [State.lineSilent_rx, hport, h]),
          State.arrived_of_not_stored (by rw [h]; rfl)] at hrun
        exact hrun
      · rw [State.jabberIfOverlong_of (.inr (by rw [hport, h])) hlen, State.endReceive_of_jabber,
          State.arrived_of_not_stored (by rw [h]; rfl)] at hrun
        exact hrun
    · refine ⟨fun hlen => ?_, fun hlen hbad => ?_, fun hlen hfull hcrc => ?_⟩
      · rw [State.jabberIfOverlong_of (.inl (by rw [hport, h]; rfl)) hlen, State.endReceive_of_jabber,
          State.arrived_of_storing h] at hrun
        exact hrun
      · have hnot : ¬ stationFrameGood x bytes = true := fun hgood => by
          obtain ⟨h1, h2⟩ := stationFrameGood_iff.mp hgood
          exact hbad.elim (fun hb => hb h1) fun hb => hb h2
        rw [State.jabberIfOverlong_of_not (by omega), State.endReceive_of_storing (by rw [State.lineSilent_rx, hport, h]),
          if_neg hnot, State.arrived_of_storing h] at hrun
        exact hrun
      · rw [State.jabberIfOverlong_of_not (by omega), State.endReceive_of_storing (by rw [State.lineSilent_rx, hport, h]),
          if_pos (stationFrameGood_iff.mpr ⟨hfull, hcrc⟩), State.arrived_of_storing h] at hrun
        exact hrun
  case good =>
    refine ⟨State.handleGood_of_badSource, fun hs hc ha => ?_, fun hs hc ha => ?_, fun hs hc ha => ⟨fun h => ?_,
      fun h => ?_⟩, fun hs hc ha => ?_⟩
    · rw [State.handleGood_of_command hs hc, if_pos ha]
    · rw [State.handleGood_of_command hs hc, if_neg (by rw [ha]; decide)]
      rfl
    · rw [State.handleGood_of_active hs hc ha, State.classifyAndDecide_eq, if_pos h]
    · rw [State.handleGood_of_active hs hc ha, State.classifyAndDecide_eq, if_neg (by rw [h]; decide)]
      rfl
    · exact s.handleGood_of_not_active p e (by rw [ha]; decide) ((s.sourcePasses_iff p _).mpr hs) hc

end Sys2Proof.Machine

/-! PROOFS. The line status of a station link, and the ends of a transmission (06). -/

namespace Sys2Proof.Machine

open Sys2Proof

section

variable {s : State} {p : PortNo}

/-! ### PORT_LINE_DOWN, PORT_LINE_UP (R104, R105) -/

/-- R104: a port whose line changes, before it acts on the change. -/
def Port.withLine (v : Port) (up : Bool) (now : Word) : Port := v.watchLine { v with lineUp := up } now

theorem Port.withLine_fields (v : Port) (up : Bool) (now : Word) : (v.withLine up now).cfg = v.cfg ∧
    (v.withLine up now).latch = v.latch ∧ (v.withLine up now).lineUp = up := by
  unfold Port.withLine
  rw [Port.watchLine_eq]
  exact ⟨rfl, rfl, rfl⟩

/-- A step leaves the pins alone. -/
def SamePins (s t : State) : Prop := t.pins = s.pins

theorem samePins_kept : KeptByPorts SamePins where
  refl _ := rfl
  trans h h' := h'.trans h
  release s e := (Moves.release (W := fun _ => False) s e).keeps_pins id
  port _ _ _ := rfl

theorem State.setLine_turns (s : State) (p : PortNo) (up : Bool) : PortTurns p
    (((s.port p).withLine up s.now).reacts (s.portState p) (((s.port p).withLine up s.now).stateIn s.ctl.mode) s.now) s
    (s.setLine p up) :=
  s.changePort_turns p fun v => v.withLine up s.now

theorem State.setLine_lineUp (s : State) (p : PortNo) (up : Bool) : ((s.setLine p up).port p).lineUp = up := by
  rw [(s.setLine_turns p up).same, (Port.reacts_alike _ _ _ _).2.2]
  exact ((s.port p).withLine_fields up s.now).2.2

theorem State.setLine_portState (s : State) (p : PortNo) (up : Bool) :
    (s.setLine p up).portState p = ((s.port p).withLine up s.now).stateIn s.ctl.mode := by
  rw [(s.setLine_turns p up).portState, (Port.reacts_alike _ _ _ _).stateIn]

/-- The pin of a station link's line status carries its new level, and the change of the line leaves it. -/
theorem State.setLine_pin (s : State) (p : PortNo) (up : Bool) :
    ((s.setLinePin p up).setLine p up).pins.portUp[p.val] = up := by
  have h : ((s.setLinePin p up).setLine p up).pins = (s.setLinePin p up).pins :=
    samePins_kept.changePort _ p fun v => v.withLine up s.now
  rw [h]
  exact Vector.getElem_set_self p.isLt

theorem Port.withLine_down (h : (s.portState p).receives = true) :
    ((s.port p).withLine false s.now).stateIn s.ctl.mode = .down := by
  obtain ⟨hon, hlatch, _, heff⟩ := Port.of_receives h
  obtain ⟨hcfg, hlatch', hline⟩ := (s.port p).withLine_fields false s.now
  refine Port.stateIn_of_lineDown ?_ (hlatch'.trans hlatch) hline ?_
  · unfold Port.inService
    rw [hcfg]
    exact hon
  · rw [hcfg]
    intro hloop
    have hr : (PortMode.effective .loopback).receives = true := by
      rw [← hloop, heff]
      exact h
    cases hr

theorem Port.withLine_up (h : s.portState p = .down) :
    ((s.port p).withLine true s.now).stateIn s.ctl.mode = (s.port p).cfg.mode.effective := by
  obtain ⟨hon, hlatch⟩ := Port.of_down h
  obtain ⟨hcfg, hlatch', hline⟩ := (s.port p).withLine_fields true s.now
  rw [Port.stateIn_of_lineUp (by unfold Port.inService; rw [hcfg]; exact hon) (hlatch'.trans hlatch) hline, hcfg]

theorem State.setLine_down_portState (h : (s.portState p).receives = true) :
    (s.setLine p false).portState p = .down ∧ ((s.setLine p false).port p).rx = .idle := by
  have hdown := Port.withLine_down h
  refine ⟨by rw [State.setLine_portState, hdown], ?_⟩
  rw [(s.setLine_turns p false).same, hdown]
  refine Port.reacts_rx_of_leaving _ _ _ _ rfl fun heq => ?_
  rw [← heq] at h
  cases h

theorem State.setLine_down_transmit (h : s.portState p = .active) :
    ((s.setLine p false).port p).queue = [] ∧ ((s.setLine p false).port p).tx = none := by
  rw [(s.setLine_turns p false).same, Port.withLine_down (by rw [h]; rfl), h]
  exact Port.reacts_transmit_of_leaving _ _ _ _ rfl rfl

theorem exec_portLineDown (hm : s.ctl.mode ≠ .init) (hline : (s.port p).lineUp = true) :
    exec (.portLineDown p) s = .next ((s.setLinePin p false).setLine p false).settle := by
  change execPortLineDown p s = _
  unfold execPortLineDown
  dsimp only
  rw [if_neg (show ¬ ((s.setLinePin p false).ctl.mode = .init ∨ (!((s.setLinePin p false).port p).lineUp) = true) from
    not_or.mpr ⟨hm, by rw [show ((s.setLinePin p false).port p).lineUp = true from hline]; decide⟩)]
  rfl

theorem exec_portLineUp (hm : s.ctl.mode ≠ .init) (hline : (s.port p).lineUp = false) :
    exec (.portLineUp p) s = .next ((s.setLinePin p true).setLine p true).settle := by
  change execPortLineUp p s = _
  unfold execPortLineUp
  dsimp only
  rw [if_neg (show ¬ ((s.setLinePin p true).ctl.mode = .init ∨ ((s.setLinePin p true).port p).lineUp = true) from
    not_or.mpr ⟨hm, by rw [show ((s.setLinePin p true).port p).lineUp = false from hline]; decide⟩)]
  rfl

/-! ### TRANSMISSION_COMPLETES (R116) -/

variable {e : EntryNo}

theorem exec_transmissionCompletes (h : (s.port p).tx = some { entry := e, loop := false }) :
    exec (.transmissionCompletes p) s = .next (s.lineTxCompletes p e).settle := by
  change execTransmissionCompletes p s = _
  unfold execTransmissionCompletes
  rw [h]
  rfl

theorem State.lineTxCompletes_eq (s : State) (p : PortNo) (e : EntryNo) : s.lineTxCompletes p e =
    ((s.modPort p fun v => { v with
      lastSent := stationFrame (s.entryAt e) (s.payload e), tx := none, txFrames := bump v.txFrames }).release e).startTx
      p := by
  unfold State.lineTxCompletes State.endTx
  dsimp only
  rw [State.modPort_modPort]

/-! ### LOOPBACK_COMPLETION (R118) -/

variable {t : State} {d : EntryNo}

theorem exec_loopbackCompletion {cells : List CellNo} (h : (s.port p).tx = some { entry := e, loop := true }) :
    exec (.loopbackCompletion p cells) s = .next ((s.corrupt cells).loopCompletes p e).settle := by
  have h' : ((s.corrupt cells).port p).tx = some { entry := e, loop := true } := h
  change execLoopbackCompletion p cells s = _
  unfold execLoopbackCompletion
  dsimp only
  rw [h']
  rfl

theorem State.loopCompletes_of_refused (h : s.allocTraffic ((s.entryAt e).loopbackCopy p) = (none, t)) :
    s.loopCompletes p e = ((((t.modPort p .dropped).raise .poolExhausted { port := some p }).endTx p e).startTx p) := by
  unfold State.loopCompletes
  dsimp only
  rw [h]

theorem State.loopCompletes_of_failing (h : s.allocTraffic ((s.entryAt e).loopbackCopy p) = (some d, t)) {cell : CellNo}
    (hf : t.firstFailing (s.entryAt e).cells = some cell) :
    s.loopCompletes p e = (t.release d).portCellFails p e cell := by
  unfold State.loopCompletes
  dsimp only
  rw [h]
  dsimp only
  rw [hf]

theorem State.loopCompletes_of_sound (h : s.allocTraffic ((s.entryAt e).loopbackCopy p) = (some d, t))
    (hf : t.firstFailing (s.entryAt e).cells = none) :
    s.loopCompletes p e = (((t.writePayload d 0 (t.payload e)).endTx p e).classifyAndDecide p d).startTx p := by
  unfold State.loopCompletes
  dsimp only
  rw [h]
  dsimp only
  rw [hf]

end

/-- Settles O51: a line change is a change of the one port, and R104's table takes a receiving port to Down and back. -/
theorem portLineAndTransmitEventsComplete : Obligations.PortLineAndTransmitEventsComplete := by
  unfold Obligations.PortLineAndTransmitEventsComplete
  refine ⟨fun s p hm => ⟨fun hline => ⟨_, exec_portLineDown hm hline, State.setLine_lineUp _ p false,
      s.setLine_pin p false, fun h => ?_, fun h => ?_⟩,
    fun hline => ⟨_, exec_portLineUp hm hline, State.setLine_lineUp _ p true, s.setLine_pin p true, fun h hmode => ?_,
      fun h hmode => ?_⟩⟩, fun s p e h => ?_, fun s p e cells h => ⟨fun t ha => ?_, fun d t ha => ⟨fun cell hf => ?_,
    fun hf => ?_⟩⟩⟩
  · exact State.setLine_down_portState (s := s.setLinePin p false) ((PortState.receives_iff _).mpr h.symm)
  · exact State.setLine_down_transmit (s := s.setLinePin p false) h
  · rw [State.setLine_portState, Port.withLine_up (s := s.setLinePin p true) h]
    change PortMode.effective (s.port p).cfg.mode = _
    rw [hmode]
    rfl
  · rw [State.setLine_portState, Port.withLine_up (s := s.setLinePin p true) h]
    change PortMode.effective (s.port p).cfg.mode = _
    rw [hmode]
    rfl
  · rw [exec_transmissionCompletes h, State.lineTxCompletes_eq]
    rfl
  · rw [exec_loopbackCompletion h, State.loopCompletes_of_refused ha]
    rfl
  · rw [exec_loopbackCompletion h, State.loopCompletes_of_failing ha hf]
  · rw [exec_loopbackCompletion h, State.loopCompletes_of_sound ha hf]
    rfl

end Sys2Proof.Machine

/-! PROOFS. The Trunk Receiver: the checks on a fragment, reassembly, and the dispatch of a complete frame (07). -/

namespace Sys2Proof.Machine

open Sys2Proof

/-! ### A complete frame (R82, R133 to R136) -/

/-- R82, R133: the sequence of a complete frame recorded and the frame counted. -/
def State.frameReceived (s : State) (l : Level) (key : Option (Slot × Word)) : State :=
  (s.recordSequence l key).modRx fun r => { r with framesReceived := bump r.framesReceived }

section

variable (s : State) (l : Level) (e : EntryNo) (key : Option (Slot × Word))

theorem State.finishFrame_eq :
    s.finishFrame l e key = ((s.frameReceived l key).dispatchUnlessBarred l e).setRxCtx l .idle := rfl

theorem State.frameReceived_barred : (s.frameReceived l key).barred l = s.barred l := by cases key <;> rfl

theorem State.frameReceived_entryAt : (s.frameReceived l key).entryAt e = s.entryAt e := by cases key <;> rfl

theorem State.frameReceived_disposition (n : Node) : (s.frameReceived l key).disposition n = s.disposition n := by
  cases key <;> rfl

theorem State.frameReceived_portState (m : PortNo) : (s.frameReceived l key).portState m = s.portState m := by
  cases key <;> rfl

theorem State.finishFrame_of_barred (h : s.barred l = true) :
    s.finishFrame l e key = ((s.frameReceived l key).dropDispatch e).setRxCtx l .idle := by
  rw [State.finishFrame_eq, State.dispatchUnlessBarred, State.frameReceived_barred, if_pos h]

theorem State.finishFrame_of_not_barred (h : ¬ s.barred l = true) :
    s.finishFrame l e key = ((s.frameReceived l key).dispatch e).setRxCtx l .idle := by
  rw [State.finishFrame_eq, State.dispatchUnlessBarred, State.frameReceived_barred, if_neg h]

/-- The disposition of the destination of a frame. -/
def State.destination (s : State) (e : EntryNo) : Disposition := s.disposition (s.entryAt e).dst

theorem State.frameReceived_destination : (s.frameReceived l key).destination e = s.destination e := by
  rw [State.destination, State.frameReceived_entryAt, State.frameReceived_disposition, State.destination]

end

section

variable {s : State} {e : EntryNo}

theorem State.dispatch_of_self (h : s.destination e = .self) : s.dispatch e =
    if (s.entryAt e).ptype = .command then s.offerFifo e else s.dropDispatch e := by
  unfold State.destination at h
  unfold State.dispatch
  dsimp only
  rw [h]

theorem State.dispatch_of_port {m : PortNo} (h : s.destination e = .port m) :
    s.dispatch e = s.offerAll e [.port m] := by
  unfold State.destination at h
  unfold State.dispatch
  dsimp only
  rw [h]

/-- The Active ports, in ascending order. -/
def State.activePorts (s : State) : List PortNo := allPorts.filter fun m => decide (s.portState m = .active)

theorem State.dispatch_of_broadcast (h : s.destination e = .broadcast) : s.dispatch e =
    if s.activePorts = [] then s.dropDispatch e else s.offerAll e (s.activePorts.map .port) := by
  unfold State.destination at h
  unfold State.dispatch
  dsimp only
  rw [h]
  dsimp only
  split
  · next hp => rw [if_pos (show s.activePorts = [] from hp)]
  · next hp =>
    rw [if_neg (show s.activePorts ≠ [] from hp)]
    rfl

theorem State.dispatch_of_elsewhere (h : s.destination e = .trunk ∨ s.destination e = .unassigned) :
    s.dispatch e = s.dropDispatch e := by
  unfold State.destination at h
  unfold State.dispatch
  dsimp only
  rcases h with h | h
  · rw [h]
  · rw [h]

end

theorem State.recordSequence_lastAccepted (s : State) (l : Level) (k : Slot) (v : Word) (j : Slot) (m : Level) :
    (s.recordSequence l (some (k, v))).lastAccepted j m = if j = k ∧ m = l then v else s.lastAccepted j m := by
  change (s.recordAccepted k l v).lastAccepted j m = _
  unfold State.recordAccepted State.lastAccepted
  dsimp only
  by_cases hj : j = k
  · subst hj
    rw [Vector.getElem_set_self]
    by_cases hm : m = l
    · subst hm
      rw [Vector.getElem_set_self, if_pos ⟨rfl, rfl⟩]
    · rw [Vector.getElem_set_ne _ _ (fun h => hm (Fin.ext h.symm)), if_neg fun h => hm h.2]
  · rw [Vector.getElem_set_ne _ _ (fun h => hj (Fin.ext h.symm)), if_neg fun h => hj h.1]

/-- Settles O53: recording and counting the frame changes nothing that the dispatch reads. -/
theorem completeFrameIsDispatched : Obligations.CompleteFrameIsDispatched := by
  unfold Obligations.CompleteFrameIsDispatched
  refine ⟨fun s l e key => ?dispatch, fun s l => ⟨rfl, fun k v => ⟨?_, fun j m h => ?_⟩⟩⟩
  case dispatch =>
    have hdest := s.frameReceived_destination l e key
    have hentry := s.frameReceived_entryAt l e key
    have hactive : (s.frameReceived l key).activePorts = s.activePorts := by
      unfold State.activePorts
      simp only [State.frameReceived_portState]
    have hopen (hb : ¬ (s.ctl.mode = .fallback ∧ (s.lvl l).attrs.essential = false)) : ¬ s.barred l = true :=
      (s.barred_iff l).not.mpr hb
    refine ⟨fun hb => ?_, fun hb hd hc => ?_, fun hb hd hc => ?_, fun m hb hd => ?_, fun hb hd ha => ?_,
      fun hb hd ha => ?_, fun hb hd => ?_, ?_⟩
    · exact s.finishFrame_of_barred l e key ((s.barred_iff l).mpr hb)
    · rw [s.finishFrame_of_not_barred l e key (hopen hb), State.dispatch_of_self (hdest.trans hd), hentry, if_pos hc]
      rfl
    · rw [s.finishFrame_of_not_barred l e key (hopen hb), State.dispatch_of_self (hdest.trans hd), hentry, if_neg hc]
      rfl
    · rw [s.finishFrame_of_not_barred l e key (hopen hb), State.dispatch_of_port (hdest.trans hd)]
      rfl
    · rw [s.finishFrame_of_not_barred l e key (hopen hb), State.dispatch_of_broadcast (hdest.trans hd), hactive,
        if_neg (show s.activePorts ≠ [] from ha)]
      rfl
    · rw [s.finishFrame_of_not_barred l e key (hopen hb), State.dispatch_of_broadcast (hdest.trans hd), hactive,
        if_pos (show s.activePorts = [] from ha)]
      rfl
    · have hd' : (s.frameReceived l key).destination e = .trunk ∨ (s.frameReceived l key).destination e = .unassigned := by
        rw [hdest]
        exact hd
      rw [s.finishFrame_of_not_barred l e key (hopen hb), State.dispatch_of_elsewhere hd']
      rfl
    · rw [State.finishFrame_eq, State.rxCtx_setRxCtx_same]
  · rw [State.recordSequence_lastAccepted, if_pos ⟨rfl, rfl⟩]
  · rw [State.recordSequence_lastAccepted, if_neg (not_and_or.mpr h)]

end Sys2Proof.Machine

/-! PROOFS. FRAGMENT_RECEIVED: the checks on every fragment, and what it does at its reassembly context (07). -/

namespace Sys2Proof.Machine

open Sys2Proof

/-! ### The checks on every fragment (R122 to R124) -/

section

variable {s : State} {bytes : List Byte}

theorem exec_fragmentReceived (hm : s.ctl.mode ≠ .init) (hup : s.trunk.lineUp = true) :
    exec (.fragmentReceived bytes) s = .next (s.receiveFragment bytes).settle := by
  change execFragmentReceived bytes s = _
  unfold execFragmentReceived
  rw [if_neg (not_or.mpr ⟨hm, by rw [hup]; decide⟩)]
  rfl

/-- R122: a fragment with a good CRC-32 is counted. -/
def State.countReceived (s : State) : State := s.modRx fun r => { r with fragmentsReceived := bump r.fragmentsReceived }

theorem State.receiveFragment_of_badCrc (h : fragmentCrcGood bytes = false) :
    s.receiveFragment bytes = s.modRx fun r => { r with crcErrors := bump r.crcErrors } :=
  if_pos (by rw [h]; rfl)

theorem State.receiveFragment_of_goodCrc (h : fragmentCrcGood bytes = true) : s.receiveFragment bytes =
    if fragmentMalformed bytes (FragmentHeader.parse bytes) = true then
      s.countReceived.modRx fun r => { r with formatErrors := bump r.formatErrors }
    else if s.ctl.mode = .setup ∧ s.disposition (FragmentHeader.parse bytes).dst ≠ .self then
      s.countReceived.modRx fun r => { r with setupIgnored := bump r.setupIgnored }
    else s.countReceived.handleFragment (FragmentHeader.parse bytes) (fragmentPayload bytes) :=
  if_neg (by rw [h]; decide)

end

/-- R123: what a position allows of a fragment that is no Abort: its lengths, and its index. -/
def FragmentHeader.LengthsFit (h : FragmentHeader) : Prop :=
  1 ≤ h.len ∧ h.len ≤ 256 ∧ 1 ≤ h.total ∧ h.total ≤ 496

/-- R123: the checks on the lengths, as the receiver makes them. -/
theorem lengthsRefused_iff (h : FragmentHeader) (rest : Bool) :
    (h.len == 0 || decide (256 < h.len) || h.total == 0 || decide (496 < h.total) || rest) = false ↔
      h.LengthsFit ∧ rest = false := by
  unfold FragmentHeader.LengthsFit
  simp only [Bool.or_eq_false_iff, beq_eq_false_iff_ne, decide_eq_false_iff_not]
  constructor
  · rintro ⟨⟨⟨⟨h1, h2⟩, h3⟩, h4⟩, hrest⟩
    exact ⟨by omega, hrest⟩
  · rintro ⟨⟨h1, h2, h3, h4⟩, hrest⟩
    exact ⟨⟨⟨⟨by omega, by omega⟩, by omega⟩, by omega⟩, hrest⟩

theorem fragmentMalformed_iff {bytes : List Byte} {h : FragmentHeader} (hlong : 16 ≤ bytes.length) :
    fragmentMalformed bytes h = false ↔ bytes.length = 16 + h.len ∧
      ((h.position = some .abort ∧ h.len = 0 ∧ h.cipher = false) ∨
        (h.LengthsFit ∧
          ((h.position = some .whole ∧ h.index = 0 ∧ h.len = h.total) ∨
            (h.position = some .first ∧ h.index = 0 ∧ h.len < h.total) ∨
            (h.position = some .middle ∧ h.index ≠ 0 ∧ h.index ≠ 7 ∧ h.len < h.total) ∨
            (h.position = some .last ∧ h.index ≠ 0 ∧ h.len ≤ h.total)))) := by
  have hshort : decide (bytes.length < 16) = false := decide_eq_false (by omega)
  have hlen : (bytes.length - 16 != h.len) = false ↔ bytes.length = 16 + h.len := by
    rw [bne_eq_false_iff_eq]
    omega
  unfold fragmentMalformed
  rw [hshort, Bool.false_or, Bool.or_eq_false_iff, hlen]
  refine and_congr_right fun _ => ?_
  cases hp : h.position with
  | none => simp
  | some p =>
    cases p with
    | abort => simp
    | whole | first | middle | last =>
      dsimp only
      rw [lengthsRefused_iff]
      simp only [reduceCtorEq, Option.some.injEq, false_and, false_or, or_false, true_and, Bool.or_eq_false_iff,
        bne_eq_false_iff_eq, beq_eq_false_iff_ne, decide_eq_false_iff_not, not_le, not_lt, and_assoc]

/-! ### First and Whole fragments (R80, R126, R127) -/

section

variable {s : State} {h : FragmentHeader} {payload : List Byte}

theorem State.acceptsFragment_iff : s.acceptsFragment h = true ↔ h.cipher = false ∨
    ((∃ key, s.slot h.slot = .ready key) ∧ s.lastAccepted h.slot h.level < h.sequence) := by
  unfold State.acceptsFragment State.acceptsSequence
  rw [Bool.or_eq_true, Bool.not_eq_true', Bool.and_eq_true, State.slotReady_iff, decide_eq_true_eq]

theorem State.startFrame_of_rejected (ha : ¬ s.acceptsFragment h = true) :
    s.startFrame h payload = s.rejectFragment h := by
  unfold State.startFrame
  rw [if_pos (by simpa using ha)]

theorem State.processWhole_of_rejected (ha : ¬ s.acceptsFragment h = true) :
    s.processWhole h payload = s.rejectFragment h := by
  unfold State.processWhole
  rw [if_pos (by simpa using ha)]

variable {t : State} {e : EntryNo}

theorem State.startFrame_of_short (ha : s.acceptsFragment h = true) (hs : s.allocTraffic (trunkEntry h) = (none, t)) :
    s.startFrame h payload = (t.setRxCtx h.level .discarding).raise .poolExhausted { level := some h.level } := by
  unfold State.startFrame
  rw [if_neg (by rw [ha]; decide), hs]

theorem State.startFrame_of_stored (ha : s.acceptsFragment h = true)
    (hs : s.allocTraffic (trunkEntry h) = (some e, t)) : s.startFrame h payload =
      (t.writePayload e 0 (t.decipher h.level h.src h.dst h.key 0 payload)).setRxCtx h.level (.collecting
        { entry := e, src := h.src, dst := h.dst, ptype := h.ptype, total := h.total, expected := 1,
          received := h.len, key := h.key }) := by
  unfold State.startFrame
  rw [if_neg (by rw [ha]; decide), hs]

theorem State.processWhole_of_short (ha : s.acceptsFragment h = true) (hs : s.allocTraffic (trunkEntry h) = (none, t)) :
    s.processWhole h payload = t.raise .poolExhausted { level := some h.level } := by
  unfold State.processWhole
  rw [if_neg (by rw [ha]; decide), hs]

theorem State.processWhole_of_stored (ha : s.acceptsFragment h = true)
    (hs : s.allocTraffic (trunkEntry h) = (some e, t)) : s.processWhole h payload =
      (t.writePayload e 0 (t.decipher h.level h.src h.dst h.key 0 payload)).finishFrame h.level e h.key := by
  unfold State.processWhole
  rw [if_neg (by rw [ha]; decide), hs]

/-! ### What each position does (R125) -/

theorem State.handleFragment_whole (hp : h.position = some .whole) : s.handleFragment h payload =
    ((s.giveUpPartial h.level true).setRxCtx h.level .idle).processWhole h payload := by
  unfold State.handleFragment
  rw [hp]

theorem State.handleFragment_first (hp : h.position = some .first) : s.handleFragment h payload =
    ((s.giveUpPartial h.level true).setRxCtx h.level .idle).startFrame h payload := by
  unfold State.handleFragment
  rw [hp]

theorem State.handleFragment_middle (hp : h.position = some .middle) :
    s.handleFragment h payload = s.continueFrame h payload false := by
  unfold State.handleFragment
  rw [hp]

theorem State.handleFragment_last (hp : h.position = some .last) :
    s.handleFragment h payload = s.continueFrame h payload true := by
  unfold State.handleFragment
  rw [hp]

theorem State.handleFragment_abort (hp : h.position = some .abort) : s.handleFragment h payload =
    ((s.giveUpPartial h.level false).setRxCtx h.level .idle).modRx fun r =>
      { r with abortsReceived := bump r.abortsReceived } := by
  unfold State.handleFragment
  rw [hp]

/-! ### Middle and Last fragments (R128, R129) -/

theorem State.continueFrame_of_idle (hc : s.rxCtx h.level = .idle) (last : Bool) :
    s.continueFrame h payload last = s.modRx fun r => { r with strayFragments := bump r.strayFragments } := by
  unfold State.continueFrame
  rw [hc]

theorem State.continueFrame_of_discarding (hc : s.rxCtx h.level = .discarding) (last : Bool) :
    s.continueFrame h payload last = s := by
  unfold State.continueFrame
  rw [hc]

/-- R128: a Middle or Last fragment continues the frame being collected, its length apart. -/
def Collect.Continues (c : Collect) (h : FragmentHeader) : Prop :=
  h.index = c.expected ∧ h.src = c.src ∧ h.dst = c.dst ∧ h.ptype = c.ptype ∧ h.total = c.total ∧ c.key = h.key

variable {c : Collect}

theorem Collect.belongs_middle : c.belongs h false = true ↔ c.Continues h ∧ c.received + h.len < c.total := by
  simp [Collect.belongs, Collect.Continues, and_assoc, eq_comm (a := h.key)]

theorem Collect.belongs_last : c.belongs h true = true ↔ c.Continues h ∧ c.received + h.len = c.total := by
  simp [Collect.belongs, Collect.Continues, and_assoc, eq_comm (a := h.key)]

theorem State.continueFrame_of_belongs (hc : s.rxCtx h.level = .collecting c) {last : Bool}
    (hb : c.belongs h last = true) : s.continueFrame h payload last = s.append c h payload last := by
  unfold State.continueFrame
  rw [hc]
  exact if_pos hb

theorem State.continueFrame_of_not_belongs (hc : s.rxCtx h.level = .collecting c) {last : Bool}
    (hb : ¬ c.belongs h last = true) :
    s.continueFrame h payload last = (s.gapFound h.level c).setRxCtx h.level .discarding := by
  unfold State.continueFrame
  rw [hc, ← State.giveUpPartial_of_gap hc]
  exact if_neg hb

/-- R129: the context whose partial frame has been given up is Idle. -/
theorem State.gapFound_rxCtx (s : State) (l : Level) (c : Collect) : (s.gapFound l c).rxCtx l = .idle := by
  have hf := s.freePartial_rxCtx l c l
  rw [if_pos rfl] at hf
  unfold State.gapFound State.rxCtx
  rw [(State.raise_leaves _ _ _).rx]
  exact hf

theorem State.setRxCtx_setRxCtx (s : State) (l : Level) (x y : Reassembly) :
    (s.setRxCtx l x).setRxCtx l y = s.setRxCtx l y := by
  unfold State.setRxCtx
  dsimp only
  rw [Vector.set_set]

/-- R125: a fragment that starts a frame finds the partial one given up, as if the context had been Idle. -/
theorem State.handleFragment_of_gap (hc : s.rxCtx h.level = .collecting c)
    (hp : h.position = some .whole ∨ h.position = some .first) :
    s.handleFragment h payload = (s.gapFound h.level c).handleFragment h payload := by
  have hidle : ∀ x, (s.gapFound h.level c).rxCtx h.level ≠ .collecting x := fun x hx => by
    rw [State.gapFound_rxCtx] at hx
    cases hx
  rcases hp with hp | hp
  · rw [State.handleFragment_whole hp, State.handleFragment_whole hp, State.giveUpPartial_of_gap hc,
      State.giveUpPartial_of_not_collecting hidle]
  · rw [State.handleFragment_first hp, State.handleFragment_first hp, State.giveUpPartial_of_gap hc,
      State.giveUpPartial_of_not_collecting hidle]

end

/-- Settles O52: a fragment passes the checks in their order, and then does what its position and the context of its level
call for. -/
theorem fragmentsAreCheckedAndReassembled : Obligations.FragmentsAreCheckedAndReassembled := by
  unfold Obligations.FragmentsAreCheckedAndReassembled
  refine ⟨fun s bytes hm hup => ?checks, fun bytes h hlong => fragmentMalformed_iff hlong, fun s h payload hn => ?fresh,
    fun s h payload c hc => ?collecting⟩
  case checks =>
    have hrun := exec_fragmentReceived (bytes := bytes) hm hup
    refine ⟨fun hcrc => ?_, fun hcrc hbad => ?_, fun hcrc hgood => ⟨fun hsetup hself => ?_, fun hpass => ?_⟩⟩
    · rw [State.receiveFragment_of_badCrc hcrc] at hrun
      exact hrun
    · rw [State.receiveFragment_of_goodCrc hcrc, if_pos hbad] at hrun
      exact hrun
    · rw [State.receiveFragment_of_goodCrc hcrc, if_neg (by rw [hgood]; decide), if_pos ⟨hsetup, hself⟩] at hrun
      exact hrun
    · rw [State.receiveFragment_of_goodCrc hcrc, if_neg (by rw [hgood]; decide),
        if_neg (fun hs => hpass.elim (fun h => h hs.1) fun h => hs.2 h)] at hrun
      exact hrun
  case fresh =>
    have hgap (gap : Bool) := State.giveUpPartial_of_not_collecting hn gap
    have haccepts := (s.setRxCtx h.level .idle).acceptsFragment_iff (h := h)
    refine ⟨fun hp ha => ?_, fun hp ha => ⟨fun t hs => ?_, fun e t hs => ?_⟩, fun hp ha => ⟨fun t hs => ?_,
      fun e t hs => ?_⟩, fun hp => ⟨fun hc => ?_, fun hc => ?_⟩, fun hp => ?_⟩
    · rcases hp with hp | hp
      · rw [State.handleFragment_whole hp, hgap, State.processWhole_of_rejected (haccepts.not.mpr ha)]
        rfl
      · rw [State.handleFragment_first hp, hgap, State.startFrame_of_rejected (haccepts.not.mpr ha)]
        rfl
    · rw [State.handleFragment_first hp, hgap, State.startFrame_of_short (haccepts.mpr ha) hs]
    · rw [State.handleFragment_first hp, hgap, State.startFrame_of_stored (haccepts.mpr ha) hs]
      rfl
    · rw [State.handleFragment_whole hp, hgap, State.processWhole_of_short (haccepts.mpr ha) hs]
    · rw [State.handleFragment_whole hp, hgap, State.processWhole_of_stored (haccepts.mpr ha) hs]
      rfl
    · rcases hp with hp | hp
      · rw [State.handleFragment_middle hp, State.continueFrame_of_idle hc]
      · rw [State.handleFragment_last hp, State.continueFrame_of_idle hc]
    · rcases hp with hp | hp
      · rw [State.handleFragment_middle hp, State.continueFrame_of_discarding hc]
      · rw [State.handleFragment_last hp, State.continueFrame_of_discarding hc]
    · rw [State.handleFragment_abort hp, hgap]
  case collecting =>
    refine ⟨fun hp => ⟨State.handleFragment_of_gap hc hp, s.gapFound_rxCtx h.level c⟩, fun hp hsame hlen => ?_,
      fun hp hsame hlen => ?_, fun hp hnot => ?_, fun hp hnot => ?_, fun hp => ?_⟩
    · rw [State.handleFragment_middle hp, State.continueFrame_of_belongs hc (Collect.belongs_middle.mpr ⟨hsame, hlen⟩)]
      rfl
    · rw [State.handleFragment_last hp, State.continueFrame_of_belongs hc (Collect.belongs_last.mpr ⟨hsame, hlen⟩)]
      rfl
    · rw [State.handleFragment_middle hp, State.continueFrame_of_not_belongs hc (Collect.belongs_middle.not.mpr hnot)]
      rfl
    · rw [State.handleFragment_last hp, State.continueFrame_of_not_belongs hc (Collect.belongs_last.not.mpr hnot)]
      rfl
    · rw [State.handleFragment_abort hp, State.giveUpPartial_of_collecting hc, State.freePartial, State.setRxCtx_setRxCtx]

end Sys2Proof.Machine

/-! PROOFS. The Command Unit: taking a command, who may give it and when, and the checks before its own (08). -/

namespace Sys2Proof.Machine

open Sys2Proof

/-! ### Taking the head of the FIFO (R142) -/

section

variable {s : State}

theorem State.canTake_iff : s.canTake = true ↔ s.cmd.fifo ≠ [] ∧ s.outstanding < 4 ∧ s.cmd.inHand = none ∧
    s.cmd.waiting = [] ∧ s.ctl.mode ≠ .init := by
  simp only [State.canTake, Bool.and_eq_true, Bool.not_eq_true', List.isEmpty_eq_false_iff, decide_eq_true_eq,
    Option.isNone_iff_eq_none, List.isEmpty_iff, bne_iff_ne, ne_eq, and_assoc]
  rfl

theorem State.takeNext_of_canTake {e : EntryNo} {rest : List EntryNo} (hhand : s.cmd.inHand = none)
    (hfifo : s.cmd.fifo = e :: rest) (h : s.canTake = true) : s.takeNext = some (e, { s with cmd := { s.cmd with
      fifo := rest, inHand := some e, commandsTaken := bump s.cmd.commandsTaken } }) := by
  unfold State.takeNext
  rw [hhand]
  dsimp only
  rw [if_pos h, hfifo]

theorem State.takeNext_of_not_canTake (hhand : s.cmd.inHand = none) (h : ¬ s.canTake = true) : s.takeNext = none := by
  unfold State.takeNext
  rw [hhand]
  exact if_neg h

end

/-! ### Who may give a command, and in which mode (R145, R146) -/

theorem Command.takenIn_iff (k : Command) (m : Mode) : k.takenIn m = true ↔ (m ≠ .init ∧
    (m = .run → k ≠ .writeSupervision ∧ k ≠ .setTrunkConfig) ∧ (m = .fallback → k ≠ .setTrunkConfig)) := by
  cases m <;> simp [Command.takenIn]

theorem State.mayGive_station (s : State) (k : Command) (args : List Byte) (p : PortNo) :
    (k.kind = .read → (s.mayGive k args (.station p) = true ↔ s.accessOf (k.region args) ≠ .none)) ∧
    (k.kind = .write → (s.mayGive k args (.station p) = true ↔ s.accessOf (k.region args) = .full)) ∧
    (k.kind = .trunkOnly → s.mayGive k args (.station p) = false) := by
  unfold State.mayGive
  cases k.kind <;> simp

/-! ### The table of the commands (R146, R187, R188) -/

theorem writeNodeMap_argsFit (args : List Byte) : Command.writeNodeMap.argsFit args = true ↔
    ∃ first count dispositions, args = first :: count :: dispositions ∧ dispositions.length = count.toNat := by
  match args with
  | [] => simp [Command.argsFit]
  | [a] => simp [Command.argsFit]
  | first :: count :: dispositions =>
    simp only [Command.argsFit, List.length_cons, List.getD_cons_succ, List.getD_cons_zero, Bool.and_eq_true,
      decide_eq_true_eq, beq_iff_eq]
    constructor
    · rintro ⟨_, h⟩
      exact ⟨first, count, dispositions, rfl, by omega⟩
    · rintro ⟨_, _, _, heq, h⟩
      cases heq
      omega

theorem clearCounters_region_of_code {b : Byte} {r : Region} (h : r.code.val = b.toNat) (rest : List Byte) :
    Command.clearCounters.region (b :: rest) = r := by
  change (Region.ofCode b.toNat).getD .logs = r
  rw [Region.ofCode_eq h]
  rfl

theorem clearCounters_region_of_none {b : Byte} (h : 6 < b.toNat) (rest : List Byte) :
    Command.clearCounters.region (b :: rest) = .logs := by
  change (Region.ofCode b.toNat).getD .logs = .logs
  rw [Region.ofCode_none h]
  rfl

theorem Command.ofCode_code (k : Command) : Command.ofCode k.code = some k := by cases k <;> rfl

theorem Command.ofCode_none {n : Nat} (h : n = 0 ∨ 27 < n) : Command.ofCode n = none := by
  rcases h with rfl | h
  · rfl
  · obtain ⟨m, rfl⟩ := Nat.exists_eq_add_of_le' h
    rfl

/-! ### The attempt (R142, R144) -/

section

variable {s t u : State} {k : Command} {c : CommandFrame} {e : EntryNo} {act : CommandAct}

theorem State.attempt_of_short (h : s.allocReserve 3 (s.responseEntry c.node) = (none, t)) :
    s.attempt k c act = t := by
  unfold State.attempt
  rw [show s.allocReserve Config.attemptCells (s.responseEntry c.node) = (none, t) from h]

theorem State.attempt_of_refused {st : Status} (h : s.allocReserve 3 (s.responseEntry c.node) = (some e, t))
    (hp : t.precheck k c = some (st, u)) : s.attempt k c act = u.finish c e st [] := by
  unfold State.attempt
  rw [show s.allocReserve Config.attemptCells (s.responseEntry c.node) = (some e, t) from h]
  dsimp only
  rw [hp]

theorem State.precheck_of_denied (h : s.mayGive k c.args c.sender = false) :
    s.precheck k c = some (.denied, s.deny c) := by
  unfold State.precheck
  rw [if_pos (by rw [h]; rfl)]

theorem State.precheck_of_wrongMode (h : s.mayGive k c.args c.sender = true) (hm : k.takenIn s.ctl.mode = false) :
    s.precheck k c = some (.wrongMode, if k = .writeSupervision then
      s.raise .supervisionChange { port := c.sender.port, node := some c.node } else s) := by
  unfold State.precheck
  rw [if_neg (by rw [h]; decide), if_pos (by rw [hm]; rfl)]

theorem State.precheck_of_badArgs (h : s.mayGive k c.args c.sender = true) (hm : k.takenIn s.ctl.mode = true)
    (ha : k.argsFit c.args = false) : s.precheck k c = some (.badValue, s) := by
  unfold State.precheck
  rw [if_neg (by rw [h]; decide), if_neg (by rw [hm]; decide), if_pos (by rw [ha]; rfl)]

/-- R142: the step of a command whose frame is next is an attempt; ResetPart's is one only from a station. -/
theorem exec_instr_of_next {found : State} (hn : s.nextCommand = some (c, found)) (hcode : c.code.toNat = k.code)
    (hk : k ≠ .resetPart ∨ c.sender ≠ .trunk) : exec k.instr s = .next (found.attempt k c k.act).settle := by
  by_cases hreset : k = .resetPart
  · subst hreset
    change execResetPart s = _
    unfold execResetPart
    rw [hn]
    dsimp only
    rw [if_pos hcode, if_neg (hk.resolve_left (fun h => h rfl))]
    rfl
  · rw [exec_instr k s hreset]
    unfold State.runCommand
    rw [hn]
    dsimp only
    rw [if_pos hcode]
    rfl

end

/-- Settles O54: the checks common to every command come before its own action, which no refusal reaches. -/
theorem commandsAreTakenAndChecked : Obligations.CommandsAreTakenAndChecked := by
  unfold Obligations.CommandsAreTakenAndChecked
  refine ⟨fun s hhand => ⟨fun e rest hfifo hout hwait hm => ?_, fun hno => ?_⟩, Command.takenIn_iff,
    fun s k args p => ⟨rfl, s.mayGive_station k args p⟩, ?rows, ⟨rfl, rfl, rfl, rfl, rfl, rfl, rfl, rfl,
      fun args => ⟨rfl, writeNodeMap_argsFit args, rfl, rfl, fun b rest hb => ⟨fun r hr => ?_, fun hb' => ?_⟩,
        fun hn => ?_, beq_iff_eq, beq_iff_eq⟩⟩, ⟨Command.ofCode_code, fun n => Command.ofCode_none⟩,
    fun s found k c hn hcode hk => ?attempt⟩
  · exact State.takeNext_of_canTake hhand hfifo (State.canTake_iff.mpr ⟨by rw [hfifo]; exact List.cons_ne_nil _ _, hout,
      hhand, hwait, hm⟩)
  · refine State.takeNext_of_not_canTake hhand fun hcan => ?_
    obtain ⟨hfifo, hout, _, hwait, hm⟩ := State.canTake_iff.mp hcan
    rcases hno with h | h | h | h
    · exact hfifo h
    · omega
    · exact h hwait
    · exact hm h
  case rows =>
    intro row hrow
    fin_cases hrow <;> exact ⟨rfl, rfl, fun args => ⟨rfl, beq_iff_eq⟩⟩
  · rw [hb, clearCounters_region_of_code hr]
  · rw [hb, clearCounters_region_of_none hb']
  · rw [hn]
    rfl
  case attempt =>
    have hrun := exec_instr_of_next hn hcode hk
    refine ⟨fun t ha => ?_, fun e t ha => ⟨fun hgive => ?_, fun hgive hmode => ⟨fun hks => ?_, fun hks => ?_⟩,
      fun hgive hmode hargs => ?_⟩⟩
    · rw [hrun, State.attempt_of_short ha]
    · rw [hrun, State.attempt_of_refused ha (State.precheck_of_denied hgive)]
      rfl
    · rw [hrun, State.attempt_of_refused ha (State.precheck_of_wrongMode hgive hmode), if_neg hks]
      rfl
    · rw [hrun, State.attempt_of_refused ha (State.precheck_of_wrongMode hgive hmode), if_pos hks]
      rfl
    · rw [hrun, State.attempt_of_refused ha (State.precheck_of_badArgs hgive hmode hargs)]
      rfl

end Sys2Proof.Machine

/-! PROOFS. The Command FIFO's answer to an offer, and the steps of the Command Unit that are no command's (08). -/

namespace Sys2Proof.Machine

open Sys2Proof

section

variable {s found t : State} {e : EntryNo} {c : CommandFrame}

/-! ### The FIFO (R140) -/

theorem State.offerFifo_of_room (h : s.cmd.fifo.length < 4) (e : EntryNo) :
    s.offerFifo e = { s with cmd := { s.cmd with fifo := s.cmd.fifo ++ [e] } } := if_pos h

theorem State.release_commandOverruns (s : State) (e : EntryNo) :
    (s.release e).cmd.commandOverruns = s.cmd.commandOverruns := by
  have h := s.release_freesOnly e
  unfold FreesOnly at h
  rw [h]

theorem State.offerFifo_of_full (h : 4 ≤ s.cmd.fifo.length) (e : EntryNo) : s.offerFifo e =
    ({ s.release e with cmd := { (s.release e).cmd with
        commandOverruns := bump s.cmd.commandOverruns } } : State).raise .commandOverrun
      { port := (s.entryAt e).origin.sender.port, node := some (s.entryAt e).src } := by
  unfold State.offerFifo
  rw [if_neg (show ¬ s.cmd.fifo.length < Config.fifoSize from by
    unfold Config.fifoSize
    omega)]
  dsimp only
  rw [State.release_commandOverruns]

/-! ### MALFORMED_COMMAND, UNKNOWN_COMMAND (R143, R144) -/

theorem State.commandFrame_of_short (h : (s.payload e).length < 3) : s.commandFrame e = none := by
  unfold State.commandFrame
  split
  · next hp =>
    rw [hp] at h
    simp only [List.length_cons] at h
    omega
  · rfl

theorem exec_malformedCommand (ht : s.takeNext = some (e, found)) (h : found.commandFrame e = none) :
    exec .malformedCommand s = .next (found.releaseMalformed e).settle := by
  change execMalformedCommand s = _
  unfold execMalformedCommand
  rw [ht]
  dsimp only
  rw [h]
  rfl

theorem exec_unknownCommand (hn : s.nextCommand = some (c, found)) (h : Command.ofCode c.code.toNat = none) :
    exec .unknownCommand s = .next (found.attemptUnknown c).settle := by
  change execUnknownCommand s = _
  unfold execUnknownCommand
  rw [hn]
  dsimp only
  rw [if_pos (by rw [h]; rfl)]
  rfl

theorem State.attemptUnknown_of_short (h : s.allocReserve 3 (s.responseEntry c.node) = (none, t)) :
    s.attemptUnknown c = t := by
  unfold State.attemptUnknown
  rw [show s.allocReserve Config.attemptCells (s.responseEntry c.node) = (none, t) from h]

theorem State.attemptUnknown_of_stored (h : s.allocReserve 3 (s.responseEntry c.node) = (some e, t)) :
    s.attemptUnknown c = t.finish c e .unknownCommand [] := by
  unfold State.attemptUnknown
  rw [show s.allocReserve Config.attemptCells (s.responseEntry c.node) = (some e, t) from h]

/-! ### WAITING_RESPONSE_BUILD (R153) -/

/-- R153: one freeing has been answered by the round of retries. -/
def State.answerFreed (s : State) : State := { s with cmd := { s.cmd with freed := s.cmd.freed - 1 } }

theorem exec_waitingResponseBuild (hfreed : 0 < s.cmd.freed) (h : s.cmd.waiting ≠ [] ∨ s.cmd.inHand ≠ none) :
    exec .waitingResponseBuild s = .next s.runWaiting.settle := by
  have hdue : s.retryDue = true := by
    unfold State.retryDue
    rw [decide_eq_true hfreed, Bool.true_and, Bool.or_eq_true, Bool.not_eq_true', List.isEmpty_eq_false_iff,
      Option.isSome_iff_ne_none]
    exact h
  change execWaitingResponseBuild s = _
  unfold execWaitingResponseBuild
  rw [if_pos hdue]
  rfl

/-- R153: the record at the front has had its response built, and leaves the list. -/
def State.dropWaiting (s : State) : State := { s with cmd := { s.cmd with waiting := s.cmd.waiting.tail } }

theorem State.buildWaiting_of_short {r : LongRecord} (hb : s.buildLongResponse r = (false, t)) (rest : List LongRecord) :
    State.buildWaiting (r :: rest) s = (false, t) := by
  unfold State.buildWaiting
  rw [hb]

theorem State.buildWaiting_of_built {r : LongRecord} (hb : s.buildLongResponse r = (true, t)) (rest : List LongRecord) :
    State.buildWaiting (r :: rest) s = State.buildWaiting rest t.dropWaiting := by
  rw [State.buildWaiting, hb]
  rfl

theorem State.runWaiting_of_stopped (h : State.buildWaiting s.cmd.waiting s.answerFreed = (false, t)) :
    s.runWaiting = t := by
  unfold State.runWaiting
  rw [show State.buildWaiting s.cmd.waiting { s with cmd := { s.cmd with freed := s.cmd.freed - 1 } } = (false, t)
    from h]

theorem State.runWaiting_of_no_command (h : State.buildWaiting s.cmd.waiting s.answerFreed = (true, t))
    (hc : t.cmd.inHand.bind t.commandFrame = none) : s.runWaiting = t := by
  unfold State.runWaiting
  rw [show State.buildWaiting s.cmd.waiting { s with cmd := { s.cmd with freed := s.cmd.freed - 1 } } = (true, t)
    from h]
  dsimp only
  rw [hc]

theorem State.runWaiting_of_command (h : State.buildWaiting s.cmd.waiting s.answerFreed = (true, t))
    (hc : t.cmd.inHand.bind t.commandFrame = some c) : s.runWaiting = t.attemptAny c := by
  unfold State.runWaiting
  rw [show State.buildWaiting s.cmd.waiting { s with cmd := { s.cmd with freed := s.cmd.freed - 1 } } = (true, t)
    from h]
  dsimp only
  rw [hc]

theorem State.runWaiting_of_last {r : LongRecord} (hw : s.cmd.waiting = [r])
    (hb : s.answerFreed.buildLongResponse r = (true, t)) (hhand : t.cmd.inHand = none) :
    s.runWaiting = t.dropWaiting := by
  refine State.runWaiting_of_no_command ?_ ?_
  · rw [hw, State.buildWaiting_of_built hb, State.buildWaiting]
  · rw [show t.dropWaiting.cmd.inHand = none from hhand]
    rfl

theorem State.runWaiting_of_inHand (hw : s.cmd.waiting = []) (hhand : s.cmd.inHand = some e)
    (hc : s.commandFrame e = some c) : s.runWaiting = s.answerFreed.attemptAny c := by
  refine State.runWaiting_of_command ?_ ?_
  · rw [hw, State.buildWaiting]
  · rw [show s.answerFreed.cmd.inHand = some e from hhand]
    exact hc

/-- Building a response touches neither the list of waiting ones nor the command in hand. -/
theorem FreesOnly.waiting (h : FreesOnly s t) : t.cmd.waiting = s.cmd.waiting ∧ t.cmd.inHand = s.cmd.inHand := by
  unfold FreesOnly at h
  rw [h]
  exact ⟨rfl, rfl⟩

end

/-- Settles O55: a round tries the waiting responses in order, and comes to the command in hand when none of them is
left. -/
theorem fifoAndOtherStepsOfTheUnit : Obligations.FifoAndOtherStepsOfTheUnit := by
  unfold Obligations.FifoAndOtherStepsOfTheUnit
  refine ⟨fun s e => ⟨fun h => State.offerFifo_of_room h e, fun h => State.offerFifo_of_full h e⟩,
    fun s found e ht h => ?_, fun s found c hn hcode => ⟨fun t ha => ?_, fun e t ha => ?_⟩,
    fun s hfreed => ⟨fun r rest hw => ⟨fun t ha => ?_, fun e t hrest hhand ha => ?_⟩, fun e c hw hhand hc => ?_⟩⟩
  · rw [exec_malformedCommand ht (State.commandFrame_of_short h)]
    rfl
  · rw [exec_unknownCommand hn (Command.ofCode_none (hcode.imp (fun h => by rw [h]; rfl) id)),
      State.attemptUnknown_of_short ha]
  · rw [exec_unknownCommand hn (Command.ofCode_none (hcode.imp (fun h => by rw [h]; rfl) id)),
      State.attemptUnknown_of_stored ha]
    rfl
  · have hb := State.buildLongResponse_of_short (s := s.answerFreed) (r := r) ha
    rw [exec_waitingResponseBuild hfreed (.inl (by rw [hw]; exact List.cons_ne_nil _ _)),
      State.runWaiting_of_stopped (by rw [hw]; exact State.buildWaiting_of_short hb rest)]
  · subst hrest
    have hb := State.buildLongResponse_of_built (s := s.answerFreed) (r := r) ha
    have hfrees := State.buildLongResponse_freesOnly s.answerFreed r
    rw [hb] at hfrees
    obtain ⟨hwaiting, hinHand⟩ := hfrees.waiting
    rw [exec_waitingResponseBuild hfreed (.inl (by rw [hw]; exact List.cons_ne_nil _ _)),
      State.runWaiting_of_last hw hb (hinHand.trans hhand), State.dropWaiting, hwaiting,
      show s.answerFreed.cmd.waiting = [r] from hw]
    rfl
  · rw [exec_waitingResponseBuild hfreed (.inr (by rw [hhand]; exact Option.some_ne_none _)),
      State.runWaiting_of_inHand hw hhand hc]
    rfl

end Sys2Proof.Machine
